-- ==== Sys2Proof/Word.lean ====
section
/-! DEFINITION. The bit-vector types of the RGE (spec 00 R10, R12) and the one way an operand becomes an integer (R13, R95). -/

namespace Sys2Proof

/-- An 8-bit value: a command byte, a parameter byte, a byte of host memory. -/
abbrev Byte := BitVec 8

/-- A 16-bit value: a descriptor word, a coordinate, a color (R10, R95). -/
abbrev Word := BitVec 16

/-- A 32-bit host byte address or element count (R10). -/
abbrev Long := BitVec 32

/-- A 128-bit request descriptor (R10, R91). -/
abbrev Desc := BitVec 128

/-- An operand word zero-extended into the integers (R13, R95). -/
abbrev zint (w : Word) : Int := (w.toNat : Int)

end Sys2Proof
end

