-- ==== Sys2Proof/Config.lean ====
section
/-! DEFINITION. The configuration of an instance (spec 00 R8, R9, R11), the records of the internal datapath and
transport registers (10 R40, R41), and the free values: constants with no body, whose values nothing can prove. -/

namespace Sys2Proof

/-- The channel word width `WW` and the width of a wire element (R31, R121). -/
inductive Width where
  | w8
  | w16
deriving DecidableEq, Repr, Inhabited

/-- The number of bits of a width. -/
def Width.bits : Width → Nat
  | .w8 => 8
  | .w16 => 16

/-- The number of host-memory bytes of one element of a width (R61, R62). -/
def Width.bytes : Width → Nat
  | .w8 => 1
  | .w16 => 2

/-- The level of the command/data line (R38): 0 = command, 1 = data. -/
inductive DC where
  | command
  | data
deriving DecidableEq, Repr, Inhabited

/-- The path a chunk takes to the bus primitive (R125). -/
inductive Path where
  | sync
  | async
deriving DecidableEq, Repr, Inhabited

/-- `FILL_STRATEGY` (R9, R183): a block of `b` copies streamed again and again, or one held cell. -/
inductive FillStrategy where
  | block (b : Nat)
  | fixedSource
deriving DecidableEq, Repr, Inhabited

/-- `HOST_ENDIAN` (R9, R67). -/
inductive Endian where
  | little
  | big
deriving DecidableEq, Repr, Inhabited

/-- The parameters the source leaves open (R9): one field each, constant for an instance (R30, R37). -/
structure Config where
  panelW : Nat
  panelH : Nat
  xOffset : Nat
  yOffset : Nat
  opcCaset : Byte
  opcRaset : Byte
  opcRamwr : Byte
  asyncAvailable : Bool
  bulkMin : Nat
  fillStrategy : FillStrategy
  hostEndian : Endian
  transportMayFail : Bool
  asyncTimeout : Bool
deriving DecidableEq, Repr

/-- `MAX_CHUNK` (R8): the most elements one call of the bus primitive moves. -/
def maxChunk : Nat := 65535

/-- `FILL_BLOCK_MAX` (R8): the most samples of the repeated-color block. -/
def fillBlockMax : Nat := 64

/-- The constraint of R9 on `FILL_STRATEGY`. -/
def FillStrategy.ok : FillStrategy → Bool
  | .block b => decide (1 ≤ b) && decide (b ≤ fillBlockMax)
  | .fixedSource => true

/-- The constraints of R9. A configuration that breaks one is refused (R11). -/
def Config.ok (c : Config) : Bool :=
  decide (1 ≤ c.panelW) && decide (c.panelW ≤ 65535) &&
  decide (1 ≤ c.panelH) && decide (c.panelH ≤ 65535) &&
  decide (c.panelW - 1 + c.xOffset ≤ 65535) && decide (c.panelH - 1 + c.yOffset ≤ 65535) &&
  decide (c.opcCaset ≠ c.opcRaset) && decide (c.opcCaset ≠ c.opcRamwr) && decide (c.opcRaset ≠ c.opcRamwr) &&
  decide (1 ≤ c.bulkMin) && decide (c.bulkMin ≤ 65535) &&
  c.fillStrategy.ok

/-- The column "default for vectors" of R9. The spec makes no claim about any panel with it.
DESIGN CHOICE (log 1): `State.reset` carries it, since a reset state must be one constant. -/
def Config.vectors : Config where
  panelW := 240
  panelH := 240
  xOffset := 0
  yOffset := 0
  opcCaset := 0x2A
  opcRaset := 0x2B
  opcRamwr := 0x2C
  asyncAvailable := true
  bulkMin := 16
  fillStrategy := .block 64
  hostEndian := .little
  transportMayFail := false
  asyncTimeout := false

/-- The line registers of R40, exact integers (R13). -/
structure LineRegs where
  steep : Bool
  lx0 : Int
  ly0 : Int
  lx1 : Int
  ly1 : Int
  dx : Int
  dy : Int
  err : Int
  ystep : Int
  x : Int
  y : Int
deriving DecidableEq, Repr, Inhabited

/-- The circle registers of R40. -/
structure CircleRegs where
  f : Int
  ddFx : Int
  ddFy : Int
  x : Int
  y : Int
deriving DecidableEq, Repr, Inhabited

/-- The filled-triangle registers of R40. -/
structure TriRegs where
  x : Int
  y : Int
  xinc1 : Int
  xinc2 : Int
  yinc1 : Int
  yinc2 : Int
  den : Int
  num : Int
  numadd : Int
  numpixels : Int
  curpixel : Int
deriving DecidableEq, Repr, Inhabited

/-- The internal datapath of the executing request (R40) with the repeated-color block of R45 and R183. -/
structure Datapath where
  line : LineRegs
  circle : CircleRegs
  tri : TriRegs
  block : List Word
deriving DecidableEq, Repr, Inhabited

/-- The transport registers `REMAIN`, `PTR`, `CHUNK_LEN` (R41). -/
structure Transport where
  remain : Long
  ptr : Long
  chunkLen : Word
deriving DecidableEq, Repr, Inhabited

/-- FREE VALUE (log 5): what a host-memory element reads as when a host write overlaps it while the request runs:
"any 16-bit (or 8-bit) value" (R70, R76 clause 2). Applied to the counter `State.fresh`. -/
opaque Config.freeElement : Nat → Word

/-- FREE VALUE (log 6): the datapath registers after their request: "Their values outside the request that uses
them are unspecified" (R40). Applied to the counter `State.fresh`. -/
opaque Config.freeDatapath : Nat → Datapath

/-- FREE VALUE (log 6): the transport registers after a `SendData`: "Their values outside a `SendData` are
unspecified" (R41). Applied to the counter `State.fresh`. -/
opaque Config.freeTransport : Nat → Transport

end Sys2Proof
end

