-- ==== Sys2Proof/Syntax.lean ====
section
/-! DEFINITION. The request set RGE-1 as one inductive type: one constructor per row of the opcode table (spec 30 R93),
with the operands of its format (R94, R95). The pseudo-instructions of R104 are functions into it. -/

namespace Sys2Proof

/-- A request. Operand order is the field order of R94. -/
inductive Instr where
  | window (x0 y0 x1 y1 : Word)
  | pixel (x y color : Word)
  | fillrect (x0 y0 x1 y1 color : Word)
  | blit (x y w h : Word) (src : Long)
  | line (x0 y0 x1 y1 color : Word)
  | rect (x0 y0 x1 y1 color : Word)
  | circle (xc yc r color : Word)
  | fcircle (xc yc r color : Word)
  | tri (x1 y1 x2 y2 x3 y3 color : Word)
  | ftri (x1 y1 x2 y2 x3 y3 color : Word)
  | cmd (opcode : Byte) (n : Word) (src : Long)
  | data8 (n src : Long)
  | data16 (n src : Long)
deriving DecidableEq, Repr

/-- `HLINE x0, x1, y, color` (R104). -/
def Instr.hline (x0 x1 y color : Word) : Instr := .line x0 y x1 y color

/-- `VLINE x, y0, y1, color` (R104). -/
def Instr.vline (x y0 y1 color : Word) : Instr := .line x y0 x y1 color

/-- `CMD0 opcode` (R104). -/
def Instr.cmd0 (opcode : Byte) : Instr := .cmd opcode 0 0

/-- `CLEAR color` (R104): it fills the whole panel of the configuration. -/
def Instr.clear (c : Config) (color : Word) : Instr :=
  .fillrect 0 0 (BitVec.ofNat 16 (c.panelW - 1)) (BitVec.ofNat 16 (c.panelH - 1)) color

end Sys2Proof
end

