-- ==== Sys2Proof/WellFormed.lean ====
section
/-! DEFINITION. The operand checks the descriptor's mask cannot express (spec 30 R97 (d), (e); 20 R63, R69): the read
range of a request and the alignment of a 16-bit read. -/

namespace Sys2Proof

/-- The host bytes a request reads, as (SRC, number of elements N, bytes per element); `none` for a request that reads
no host memory (R60 to R62). For BLIT, N = w × h (R63). -/
def Instr.readRange : Instr → Option (Long × Nat × Nat)
  | .window _ _ _ _ => none
  | .pixel _ _ _ => none
  | .fillrect _ _ _ _ _ => none
  | .blit _ _ w h src => some (src, w.toNat * h.toNat, 2)
  | .line _ _ _ _ _ => none
  | .rect _ _ _ _ _ => none
  | .circle _ _ _ _ => none
  | .fcircle _ _ _ _ => none
  | .tri _ _ _ _ _ _ _ => none
  | .ftri _ _ _ _ _ _ _ => none
  | .cmd _ n src => some (src, n.toNat, 1)
  | .data8 n src => some (src, n.toNat, 1)
  | .data16 n src => some (src, n.toNat, 2)

/-- R63: the last byte read does not pass 0xFFFFFFFF; with N = 0 nothing is read and nothing is checked. -/
def Instr.rangeOk (i : Instr) : Bool :=
  match i.readRange with
  | none => true
  | some (src, n, size) => decide (n = 0) || decide (src.toNat + n * size ≤ 2 ^ 32)

/-- R69: a request that reads 16-bit elements, N > 0, has an even SRC. -/
def Instr.alignedOk (i : Instr) : Bool :=
  match i.readRange with
  | none => true
  | some (src, n, size) => decide (n = 0) || decide (size = 1) || decide (src.toNat % 2 = 0)

/-- A request whose operands pass the checks of R97 (d) and (e). -/
def Instr.wellFormed (i : Instr) : Bool := i.rangeOk && i.alignedOk

end Sys2Proof
end

