-- ==== Sys2Proof/Decode.lean ====
section
/-! DEFINITION. Descriptor decoding, total on every 128-bit value and rejecting by name (spec 30 R91 to R97), the
encoder written from the same tables (R93, R94), and the opcode table itself as data. -/

namespace Sys2Proof

/-- Word Wk of a descriptor: bits [16k+15 : 16k] (R91). -/
def Desc.word (d : Desc) (k : Nat) : Word := d.extractLsb' (16 * k) 16

/-- `OP = W0[7:0]` (R92). -/
def Desc.op (d : Desc) : Byte := d.extractLsb' 0 8

/-- `SUB = W0[15:8]` (R92). -/
def Desc.sub (d : Desc) : Byte := d.extractLsb' 8 8

/-- `SRC = W6, W5` as one 32-bit address, W6 the more significant half (R95). -/
def Desc.src (d : Desc) : Long := d.word 6 ++ d.word 5

/-- `N = W2, W1` as one 32-bit count, W2 the more significant half (R95). -/
def Desc.count (d : Desc) : Long := d.word 2 ++ d.word 1

/-- Why a descriptor is ILLEGAL: the five checks of R97. The RGE records none of them (R261). -/
inductive Reject where
  /-- (a) OP is not in R93's table. -/
  | reservedOp
  /-- (b) a reserved field is nonzero (R96). -/
  | reservedField
  /-- (c) OP = 0x11 with SUB neither 0x08 nor 0x10. -/
  | dataWidth
  /-- (d) the read range passes 0xFFFFFFFF (R63). -/
  | readRange
  /-- (e) a 16-bit read has an odd SRC (R69). -/
  | oddSource
deriving DecidableEq, Repr

/-- R96: every listed word is zero. -/
def Desc.zeroWords (d : Desc) (ks : List Nat) : Bool := ks.all fun k => decide (d.word k = 0)

/-- A request whose SUB and listed words are reserved, or the rejection of R97 (b). -/
def Desc.plain (d : Desc) (ks : List Nat) (i : Instr) : Except Reject Instr :=
  if d.sub = 0 ∧ d.zeroWords ks = true then .ok i else .error .reservedField

/-- As `Desc.plain` for the two OPs whose SUB is an operand (R92). -/
def Desc.withSub (d : Desc) (ks : List Nat) (i : Instr) : Except Reject Instr :=
  if d.zeroWords ks = true then .ok i else .error .reservedField

/-- The fields of a descriptor as a request: the opcode map R93, the operand words R94, checks (a) to (c) of R97. -/
def decodeFields (d : Desc) : Except Reject Instr :=
  match d.op.toNat with
  | 0x01 => d.plain [5, 6, 7] (.window (d.word 1) (d.word 2) (d.word 3) (d.word 4))
  | 0x02 => d.plain [3, 4, 5, 6] (.pixel (d.word 1) (d.word 2) (d.word 7))
  | 0x03 => d.plain [5, 6] (.fillrect (d.word 1) (d.word 2) (d.word 3) (d.word 4) (d.word 7))
  | 0x04 => d.plain [7] (.blit (d.word 1) (d.word 2) (d.word 3) (d.word 4) d.src)
  | 0x05 => d.plain [5, 6] (.line (d.word 1) (d.word 2) (d.word 3) (d.word 4) (d.word 7))
  | 0x06 => d.plain [5, 6] (.rect (d.word 1) (d.word 2) (d.word 3) (d.word 4) (d.word 7))
  | 0x07 => d.plain [4, 5, 6] (.circle (d.word 1) (d.word 2) (d.word 3) (d.word 7))
  | 0x08 => d.plain [4, 5, 6] (.fcircle (d.word 1) (d.word 2) (d.word 3) (d.word 7))
  | 0x09 => d.plain [] (.tri (d.word 1) (d.word 2) (d.word 3) (d.word 4) (d.word 5) (d.word 6) (d.word 7))
  | 0x0A => d.plain [] (.ftri (d.word 1) (d.word 2) (d.word 3) (d.word 4) (d.word 5) (d.word 6) (d.word 7))
  | 0x10 => d.withSub [2, 3, 4, 7] (.cmd d.sub (d.word 1) d.src)
  | 0x11 =>
    match d.sub.toNat with
    | 0x08 => d.withSub [3, 4, 7] (.data8 d.count d.src)
    | 0x10 => d.withSub [3, 4, 7] (.data16 d.count d.src)
    | _ => .error .dataWidth
  | _ => .error .reservedOp

/-- Checks (d) and (e) of R97, made after the fields are read. -/
def checkOperands (i : Instr) : Except Reject Instr :=
  if i.rangeOk = false then .error .readRange
  else if i.alignedOk = false then .error .oddSource
  else .ok i

/-- The decoder of R97: every 128-bit value is one request with its operands, or rejected by name. -/
def decode (d : Desc) : Except Reject Instr :=
  match decodeFields d with
  | .ok i => checkOperands i
  | .error e => .error e

/-- A descriptor from its words, W0 in the least significant place (R91). -/
def Desc.ofWords (w0 w1 w2 w3 w4 w5 w6 w7 : Word) : Desc :=
  w7 ++ (w6 ++ (w5 ++ (w4 ++ (w3 ++ (w2 ++ (w1 ++ w0))))))

/-- The low half of a 32-bit operand (R94: `srcLo`, `nLo`). -/
def lo (v : Long) : Word := v.extractLsb' 0 16

/-- The high half of a 32-bit operand (R94: `srcHi`, `nHi`). -/
def hi (v : Long) : Word := v.extractLsb' 16 16

/-- The descriptor of a request: W0 from R93, W1 to W7 from R94, reserved words zero (R96). -/
def encode : Instr → Desc
  | .window x0 y0 x1 y1 => Desc.ofWords 0x0001 x0 y0 x1 y1 0 0 0
  | .pixel x y color => Desc.ofWords 0x0002 x y 0 0 0 0 color
  | .fillrect x0 y0 x1 y1 color => Desc.ofWords 0x0003 x0 y0 x1 y1 0 0 color
  | .blit x y w h src => Desc.ofWords 0x0004 x y w h (lo src) (hi src) 0
  | .line x0 y0 x1 y1 color => Desc.ofWords 0x0005 x0 y0 x1 y1 0 0 color
  | .rect x0 y0 x1 y1 color => Desc.ofWords 0x0006 x0 y0 x1 y1 0 0 color
  | .circle xc yc r color => Desc.ofWords 0x0007 xc yc r 0 0 0 color
  | .fcircle xc yc r color => Desc.ofWords 0x0008 xc yc r 0 0 0 color
  | .tri x1 y1 x2 y2 x3 y3 color => Desc.ofWords 0x0009 x1 y1 x2 y2 x3 y3 color
  | .ftri x1 y1 x2 y2 x3 y3 color => Desc.ofWords 0x000A x1 y1 x2 y2 x3 y3 color
  | .cmd opcode n src => Desc.ofWords (opcode ++ (0x10 : Byte)) n 0 0 0 (lo src) (hi src) 0
  | .data8 n src => Desc.ofWords 0x0811 (lo n) (hi n) 0 0 (lo src) (hi src) 0
  | .data16 n src => Desc.ofWords 0x1011 (lo n) (hi n) 0 0 (lo src) (hi src) 0

/-- One row of the opcode table: a descriptor d selects it iff `d &&& mask = pattern` (spec INDEX). -/
structure Row where
  mnemonic : String
  pattern : Desc
  mask : Desc
deriving DecidableEq, Repr

/-- The row selects the descriptor. -/
def Row.selects (r : Row) (d : Desc) : Bool := decide (d &&& r.mask = r.pattern)

/-- The opcode table of the spec (opcode_table.json): OP, SUB where it is fixed, and every reserved word (R96). -/
def opcodeTable : List Row :=
  [ ⟨"WINDOW", 0x01, 0xFFFFFFFFFFFF0000000000000000FFFF⟩,
    ⟨"PIXEL", 0x02, 0x0000FFFFFFFFFFFFFFFF00000000FFFF⟩,
    ⟨"FILLRECT", 0x03, 0x0000FFFFFFFF0000000000000000FFFF⟩,
    ⟨"BLIT", 0x04, 0xFFFF000000000000000000000000FFFF⟩,
    ⟨"LINE", 0x05, 0x0000FFFFFFFF0000000000000000FFFF⟩,
    ⟨"RECT", 0x06, 0x0000FFFFFFFF0000000000000000FFFF⟩,
    ⟨"CIRCLE", 0x07, 0x0000FFFFFFFFFFFF000000000000FFFF⟩,
    ⟨"FCIRCLE", 0x08, 0x0000FFFFFFFFFFFF000000000000FFFF⟩,
    ⟨"TRI", 0x09, 0xFFFF⟩,
    ⟨"FTRI", 0x0A, 0xFFFF⟩,
    ⟨"CMD", 0x10, 0xFFFF00000000FFFFFFFFFFFF000000FF⟩,
    ⟨"DATA.8", 0x0811, 0xFFFF00000000FFFFFFFF00000000FFFF⟩,
    ⟨"DATA.16", 0x1011, 0xFFFF00000000FFFFFFFF00000000FFFF⟩ ]

/-- The mnemonic of a request, as the opcode table spells it. -/
def Instr.mnemonic : Instr → String
  | .window _ _ _ _ => "WINDOW"
  | .pixel _ _ _ => "PIXEL"
  | .fillrect _ _ _ _ _ => "FILLRECT"
  | .blit _ _ _ _ _ => "BLIT"
  | .line _ _ _ _ _ => "LINE"
  | .rect _ _ _ _ _ => "RECT"
  | .circle _ _ _ _ => "CIRCLE"
  | .fcircle _ _ _ _ => "FCIRCLE"
  | .tri _ _ _ _ _ _ _ => "TRI"
  | .ftri _ _ _ _ _ _ _ => "FTRI"
  | .cmd _ _ _ => "CMD"
  | .data8 _ _ => "DATA.8"
  | .data16 _ _ => "DATA.16"

/-- The descriptor whose bits are `w`, of which the table gives the low `nbits`; every bit above them is 0. -/
def tableDesc (nbits w : Nat) : Desc := BitVec.ofNat 128 (w % 2 ^ nbits)

/-- The request the decoder reads from a descriptor given as the opcode table numbers its bits. -/
def decodeTableWord (nbits w : Nat) : Option Instr :=
  match decode (tableDesc nbits w) with
  | .ok i => some i
  | .error _ => none

end Sys2Proof
end

