-- ==== Sys2Proof/Machine/State.lean ====
section
/-! DEFINITION. The state of the machine as plain data: the RGE's state (spec 10 R30 to R43), host memory (20 R60), the two
outputs (40 R121, R125), the reference receiver (41 R160), and the inputs of the outside world the step reads. -/

namespace Sys2Proof.Machine

/-- Host memory (R60): the bytes it admits, by address, strictly rising. An unlisted address is one at which there is
no memory: it reads as nothing (R64). -/
abbrev Memory := List Host.Cell

/-- One element of the wire stream (R121): its width, its DC level and its value of that width. -/
inductive Elem where
  | b8 (dc : DC) (v : Byte)
  | b16 (dc : DC) (v : Word)
deriving DecidableEq, Repr

/-- One entry of the wire stream: an element, or a chip-select event (R122, R123). -/
inductive WireItem where
  | cs (asserted : Bool)
  | elem (e : Elem)
deriving DecidableEq, Repr

/-- One `XFER(path, w, len)` record of the bus-primitive port (R125). -/
structure Xfer where
  path : Path
  width : Width
  len : Nat
deriving DecidableEq, Repr

/-- The outcome codes of R260, in the order of their numbers 0 to 5; codes 6 and 7 are never written. -/
inductive OutcomeCode where
  | ok
  | noop
  | partialBounds
  | illegal
  | xferFail
  | timeout
deriving DecidableEq, Repr

/-- Where the elements of a `SendCommand` or a `SendData` come from (R127, R128): the command byte, an internal buffer
(R153), an internal cell held constant (R181, R183), the repeated-color block (R183), or host memory at `PTR` (R62). -/
inductive Source where
  | command (op : Byte)
  | bytes (l : List Byte)
  | cell (c : Word)
  | block
  | host
deriving DecidableEq, Repr

/-- A chunk on the bus primitive (R125). -/
structure Chunk where
  src : Source
  len : Nat
  width : Width
  path : Path
deriving DecidableEq, Repr

/-- The drawing and transport primitives a request's rule is a sequence of: `SetWindow` alone (R152), `Plot` (R181),
`Fill` (R183), the blit of R186, `SendCommand` (R127), `SendData` from host memory in a width (R133 to R135); and the
writes of the datapath registers of R40 between them. -/
inductive Task where
  | lineRegs (r : LineRegs)
  | circleRegs (r : CircleRegs)
  | triRegs (r : TriRegs)
  | window (x0 y0 x1 y1 : Int)
  | plot (x y : Int) (c : Word)
  | fill (x0 y0 x1 y1 : Int) (c : Word)
  | blit (x y w h : Int) (src : Long)
  | command (op : Byte)
  | data (w : Width) (n : Nat) (src : Long)
deriving DecidableEq, Repr

/-- The atomic steps of a running request (R307). `await` is a chunk that has been issued and whose completion the
bus primitive has not reported yet (R126). -/
inductive Atom where
  | lineRegs (r : LineRegs)
  | circleRegs (r : CircleRegs)
  | triRegs (r : TriRegs)
  | loadBlock (b : Nat) (c : Word)
  | setWindow (x0 y0 x1 y1 : Int)
  | width (w : Width)
  | command (op : Byte)
  | startData (n : Nat) (ptr : Option Long)
  | chunk (src : Source) (len : Nat)
  | endData
  | await (c : Chunk)
deriving DecidableEq, Repr

/-- `PHASE` (R42): IDLE, or the position inside the running request, given by the atomic steps still to run. Only IDLE
has an encoding in the spec. `BUSY = 0` iff `PHASE = IDLE`, so `BUSY` is a view of it. -/
inductive Phase where
  | idle
  | running (todo : List Atom)
deriving DecidableEq, Repr

/-- The reference receiver's `mode` (R160); the parameter bytes received so far stand for k. `other` is OPAQUE. -/
inductive RxMode where
  | idle
  | caset (params : List Byte)
  | raset (params : List Byte)
  | write
  | other
deriving DecidableEq, Repr

/-- The reference receiver's fault marks (R160). -/
inductive RxFault where
  | noWindow
  | overrun
  | extraParam
deriving DecidableEq, Repr

/-- The reference receiver (R160). `none` is the spec's ⊥. The frame memory is kept as host memory is: by key, strictly
rising; `fmKey` in Machine/Receiver.lean gives a coordinate's key. -/
structure Receiver where
  mode : RxMode
  xAxis : Option (Word × Word)
  yAxis : Option (Word × Word)
  cursor : Option (Nat × Nat)
  high : Option Byte
  fm : List (Nat × Word)
  rxf : Option RxFault
deriving DecidableEq, Repr

/-- The receiver at the start of observation (R160). The cursor has no value before the first OPC_RAMWR. -/
def Receiver.start : Receiver where
  mode := .idle
  xAxis := none
  yAxis := none
  cursor := none
  high := none
  fm := []
  rxf := none

/-- INPUT. What the bus primitive does with one chunk (R125, R126, R130, R264, R265), or the RGE's reset input arriving
while the chunk is on the bus (R291). The numbers are how many elements reach the wire. -/
inductive BusReport where
  /-- the chunk completes -/
  | done
  /-- an asynchronous chunk has not completed yet: the hold of R126 goes on into the next step -/
  | pending
  /-- an asynchronous chunk never completes: the hang of R307 -/
  | never
  /-- the bus primitive reports failure (R264) -/
  | failed (sent : Nat)
  /-- the completion wait times out (R265) -/
  | timedOut (sent : Nat)
  /-- both are reported for one chunk (R263 point 4) -/
  | failedAndTimedOut (sent : Nat)
  /-- the reset input is asserted while the chunk is on the bus (R291) -/
  | reset (sent : Nat)
deriving DecidableEq, Repr

/-- The whole machine. Fields are grouped: configuration, RGE state, agents outside the RGE, outputs, inputs, and the
model's own counter. -/
structure State where
  /-- the configuration (R9): a constant of the instance; no step changes it (R30, R37) -/
  cfg : Config
  /-- `WW` (R31); `STATUS.WW16` is a view of it -/
  ww : Width
  /-- `STATUS.OUTCOME` (R34, R260) -/
  outcome : OutcomeCode
  /-- `CS_OUT`, asserted or not (R38); `STATUS.CS` is a view of it -/
  csOut : Bool
  /-- `DC_OUT` (R38); `STATUS.DC` is a view of it -/
  dcOut : DC
  /-- `ASYNC_INFLIGHT` (R39) -/
  asyncInflight : Bool
  /-- `REQ` (R42) -/
  req : Desc
  /-- `PHASE` (R42); `STATUS.BUSY` is a view of it -/
  phase : Phase
  /-- `ACC` (R156) -/
  acc : Bool
  /-- `REJ` (R156) -/
  rej : Bool
  /-- the datapath registers of R40 and the repeated-color block of R45 -/
  dp : Datapath
  /-- `REMAIN`, `PTR`, `CHUNK_LEN` (R41) -/
  xp : Transport
  /-- host memory (R60) -/
  mem : Memory
  /-- the reference receiver (R160) -/
  rx : Receiver
  /-- OUTPUT: the wire stream (R121), oldest first -/
  wire : List WireItem
  /-- OUTPUT: the records of the bus-primitive port (R125), oldest first -/
  xfers : List Xfer
  /-- INPUT: the reset input is asserted before this step (R290, R291); the number is how many elements of a chunk still in
  flight reach the wire -/
  resetIn : Option Nat
  /-- INPUT: the request port (R90): the head is the descriptor presented now, the rest what the host presents after it -/
  port : List Desc
  /-- INPUT: the bus primitive's reports, one for each chunk in order; past the list's end every chunk completes -/
  reports : List BusReport
  /-- INPUT: the bytes the host writes between the acceptance and the completion of a request (R76 clause 2) -/
  hostWrites : List Host.Cell
  /-- the MODEL's own counter, not the spec's: it indexes the free values of Config -/
  fresh : Nat
deriving DecidableEq, Repr

/-- Why the machine stops. -/
inductive Fault where
  /-- Raised by a chunk that reads host memory at an address where there is none (R64: "the model is stuck there").
  Safe: the spec gives no step there. -/
  | hostMemoryAbsent (addr : Nat)
deriving DecidableEq, Repr

/-- Why the machine gives no meaning. -/
inductive Refusal where
  /-- Raised by an arm of `exec` whose request has no meaning yet; no arm raises it now. Safe. -/
  | notModelled (mnemonic : String)
  /-- Raised by `step` when the configuration breaks a constraint of R9 (R11: "is refused. The model has no meaning for
  it"). Safe. -/
  | badConfig
deriving DecidableEq, Repr

/-- The line registers at reset. DESIGN CHOICE (log 3): zero, the spec leaves them unspecified (R43). -/
def LineRegs.reset : LineRegs := ⟨false, 0, 0, 0, 0, 0, 0, 0, 0, 0, 0⟩

/-- The circle registers at reset. DESIGN CHOICE (log 3). -/
def CircleRegs.reset : CircleRegs := ⟨0, 0, 0, 0, 0⟩

/-- The filled-triangle registers at reset. DESIGN CHOICE (log 3). -/
def TriRegs.reset : TriRegs := ⟨0, 0, 0, 0, 0, 0, 0, 0, 0, 0, 0⟩

/-- The datapath at reset. DESIGN CHOICE (log 3): the block is empty. -/
def Datapath.reset : Datapath := ⟨LineRegs.reset, CircleRegs.reset, TriRegs.reset, []⟩

/-- The transport registers at reset. DESIGN CHOICE (log 3). -/
def Transport.reset : Transport := ⟨0, 0, 0⟩

/-- The machine right after reset (R43, R290). The spec gives `WW`, `STATUS` but its DC bit, `CS_OUT`, `ASYNC_INFLIGHT`
and `PHASE`; the receiver is at the start of observation (R160). DESIGN CHOICE: the configuration (log 1), `DC_OUT`
(log 2), `REQ`, `ACC`, `REJ`, datapath and transport registers (log 3), no host memory (log 4). -/
def State.reset : State where
  cfg := Config.vectors
  ww := .w8
  outcome := .ok
  csOut := false
  dcOut := .command
  asyncInflight := false
  req := 0
  phase := .idle
  acc := false
  rej := false
  dp := Datapath.reset
  xp := Transport.reset
  mem := []
  rx := Receiver.start
  wire := []
  xfers := []
  resetIn := none
  port := []
  reports := []
  hostWrites := []
  fresh := 0

end Sys2Proof.Machine
end

