-- ==== Sys2Proof/Machine/Flags.lean ====
section
/-! DEFINITION. The status register as the host reads it (spec 10 R34) and the outcome of a request that ran to its end
(60 R260, R262). -/

namespace Sys2Proof.Machine

/-- The code of an outcome (R260). -/
def OutcomeCode.code : OutcomeCode → BitVec 3
  | .ok => 0
  | .noop => 1
  | .partialBounds => 2
  | .illegal => 3
  | .xferFail => 4
  | .timeout => 5

/-- `BUSY`: 1 from acceptance to completion (R34). `PHASE` is IDLE when it is 0 (R42). -/
def State.busy (s : State) : Bool :=
  match s.phase with
  | .idle => false
  | .running _ => true

/-- `WW16`: 1 iff `WW = 16` (R34). -/
def Width.is16 : Width → Bool
  | .w8 => false
  | .w16 => true

/-- The level of the DC bit (R34): 0 = command, 1 = data. -/
def DC.level : DC → Bool
  | .command => false
  | .data => true

/-- `STATUS` (R34): bits [15:8] zero, DC, CS, ASYNC_INFLIGHT, WW16, OUTCOME in [3:1], BUSY. -/
def State.status (s : State) : BitVec 16 :=
  (0 : BitVec 8) ++ BitVec.ofBool (DC.level s.dcOut) ++ BitVec.ofBool s.csOut ++ BitVec.ofBool s.asyncInflight ++
    BitVec.ofBool (Width.is16 s.ww) ++ s.outcome.code ++ BitVec.ofBool s.busy

/-- The outcome of a request that reached its end, from its flags (R262). -/
def outcomeOf (acc rej : Bool) : OutcomeCode :=
  if rej = false then .ok
  else if acc = true then .partialBounds
  else .noop

end Sys2Proof.Machine
end

