-- ==== Sys2Proof/Machine/Memory.lean ====
section
/-! DEFINITION. Host memory and the frame memory as lists of (key, value) with rising keys: one read and one write each,
the canonical form, and `MemRead` (spec 00 R15; 20 R60 to R67). -/

namespace Sys2Proof.Machine

/-- The value a list of pairs holds at a key. -/
def lookup {α : Type} : List (Nat × α) → Nat → Option α
  | [], _ => none
  | p :: l, k => if p.1 = k then some p.2 else lookup l k

/-- The list with the value at a key replaced, or inserted in its place. -/
def store {α : Type} : List (Nat × α) → Nat → α → List (Nat × α)
  | [], k, v => [(k, v)]
  | p :: l, k, v =>
    if k < p.1 then (k, v) :: p :: l
    else if k = p.1 then (k, v) :: l
    else p :: store l k v

/-- Keys strictly rising. -/
def rising {α : Type} : List (Nat × α) → Bool
  | [] => true
  | [_] => true
  | p :: q :: l => decide (p.1 < q.1) && rising (q :: l)

/-- What the host memory holds at an address; `none` where there is no memory (R64). -/
def Memory.read (m : Memory) (a : Nat) : Option Byte := lookup m a

/-- A write by the host (the RGE itself never writes, R15). An address of more than 32 bits names no byte (R60). -/
def Memory.write (m : Memory) (a : Nat) (v : Byte) : Memory :=
  if a < 2 ^ 32 then store m a v else m

/-- The canonical form: addresses strictly rising, all of 32 bits. Every listed byte differs from what an unlisted
address reads as, since that reads as nothing. -/
def Memory.wf (m : Memory) : Bool := rising m && m.all fun c => decide (c.1 < 2 ^ 32)

/-- The host's writes, in order. -/
def Memory.writes (m : Memory) (cs : List Host.Cell) : Memory :=
  cs.foldl (fun m c => m.write c.1 c.2) m

/-- A 16-bit value from the bytes at a and a + 1 in the order `HOST_ENDIAN` (R67). -/
def halfword (e : Endian) (first second : Byte) : Word :=
  match e with
  | .little => second ++ first
  | .big => first ++ second

/-- `MemRead(a, n)` for the two element sizes (R15, R61, R62, R67); a byte element stands in the low 8 bits. -/
def memRead (e : Endian) (m : Memory) (w : Width) (a : Nat) : Option Word :=
  match w with
  | .w8 => (m.read a).map fun b => b.setWidth 16
  | .w16 =>
    match m.read a, m.read (a + 1) with
    | some p, some q => some (halfword e p q)
    | _, _ => none

end Sys2Proof.Machine
end

