-- ==== Sys2Proof/Machine/Operands.lean ====
section
/-! DEFINITION. Where the elements of a chunk come from (spec 40 R127, R128): internal buffers, the repeated-color block
(42 R183), and host memory with its absent addresses and its racing writes (20 R61, R62, R64, R70, R76). -/

namespace Sys2Proof.Machine

/-- The host writes a byte of the element while the request runs (R76 clause 2). -/
def raced (ws : List Host.Cell) (w : Width) (a : Nat) : Bool :=
  ws.any fun c => decide (a ≤ c.1) && decide (c.1 < a + w.bytes)

/-- There is memory at the address: it is listed, or the host is writing it (log 5). -/
def admitted (s : State) (a : Nat) : Bool :=
  (s.mem.read a).isSome || s.hostWrites.any fun c => decide (c.1 = a)

/-- There is memory at every byte of the element. -/
def admittedElem (s : State) (w : Width) (a : Nat) : Bool :=
  match w with
  | .w8 => admitted s a
  | .w16 => admitted s a && admitted s (a + 1)

/-- One element of host memory: `MemRead` (R61, R62); any value when a host write overlaps it (R70, R76 clause 2: the
free value `Config.freeElement`); no step where there is no memory (R64), the fault naming the element's address (log 4). -/
def hostElem (s : State) (w : Width) (a k : Nat) : Except Fault Word :=
  if raced s.hostWrites w a then
    if admittedElem s w a then .ok (Config.freeElement k) else .error (.hostMemoryAbsent a)
  else
    match memRead s.cfg.hostEndian s.mem w a with
    | some v => .ok v
    | none => .error (.hostMemoryAbsent a)

/-- `n` consecutive elements of host memory from address `a` (R61, R62). -/
def hostElems (s : State) (w : Width) : Nat → Nat → Nat → Except Fault (List Word)
  | 0, _, _ => .ok []
  | n + 1, a, k =>
    match hostElem s w a k with
    | .error f => .error f
    | .ok v =>
      match hostElems s w n (a + w.bytes) (k + 1) with
      | .error f => .error f
      | .ok vs => .ok (v :: vs)

/-- The values of a chunk's elements (R127, R128, R183); a byte stands in the low 8 bits. -/
def chunkValues (c : Chunk) (s : State) : Except Fault (List Word) :=
  match c.src with
  | .command op => .ok [op.setWidth 16]
  | .bytes l => .ok (l.map fun b => b.setWidth 16)
  | .cell v => .ok (List.replicate c.len v)
  | .block => .ok (s.dp.block.take c.len)
  | .host => hostElems s c.width c.len s.xp.ptr.toNat s.fresh

/-- The element `Emit(dc, w, v)` appends (R121). -/
def mkElem (dc : DC) (w : Width) (v : Word) : Elem :=
  match w with
  | .w8 => .b8 dc (v.setWidth 8)
  | .w16 => .b16 dc v

end Sys2Proof.Machine
end

