-- ==== Sys2Proof/Machine/Receiver.lean ====
section
/-! DEFINITION. The reference receiver (spec 41 R160 to R168): the observation model of the display controller's window,
write cursor and frame memory, fed with the byte view of the wire stream (30 R100). -/

namespace Sys2Proof.Machine

/-- The key of a controller coordinate in the frame memory. -/
def fmKey (cx cy : Nat) : Nat := cy * 65536 + cx

/-- The byte view of an element (R100): a 16-bit element is its high byte, then its low byte. -/
def Elem.bytes : Elem → List (DC × Byte)
  | .b8 dc v => [(dc, v)]
  | .b16 dc v => [(dc, v.extractLsb' 8 8), (dc, v.extractLsb' 0 8)]

/-- `RXF` set to a mark if it is still ⊥ (R162, R163). -/
def Receiver.mark (r : Receiver) (f : RxFault) : Receiver :=
  { r with rxf := match r.rxf with | none => some f | some g => some g }

/-- The first clause of R161: a command that ends an unfinished CASET or RASET makes that axis ⊥. -/
def Receiver.dropAxis (r : Receiver) : Receiver :=
  match r.mode with
  | .caset ps => if ps.length < 4 then { r with xAxis := none } else r
  | .raset ps => if ps.length < 4 then { r with yAxis := none } else r
  | .idle => r
  | .write => r
  | .other => r

/-- The cursor's start, the window's top-left corner (R161, R164); ⊥ while an axis is. -/
def Receiver.topLeft (r : Receiver) : Option (Nat × Nat) :=
  match r.xAxis, r.yAxis with
  | some (xs, _), some (ys, _) => some (xs.toNat, ys.toNat)
  | _, _ => none

/-- A command byte (R161). -/
def Receiver.command (c : Config) (r : Receiver) (b : Byte) : Receiver :=
  let r := { r.dropAxis with high := none }
  if b = c.opcCaset then { r with mode := .caset [] }
  else if b = c.opcRaset then { r with mode := .raset [] }
  else if b = c.opcRamwr then { r with mode := .write, cursor := r.topLeft }
  else { r with mode := .other }

/-- The axis four parameter bytes give: (start, end) big-endian, or ⊥ when start > end (R162). -/
def axisOf (p0 p1 p2 p3 : Byte) : Option (Word × Word) :=
  let s := p0 ++ p1
  let e := p2 ++ p3
  if s ≤ e then some (s, e) else none

/-- The axis after one more parameter byte, `ps` being the bytes before it (R162). -/
def axisStep (axis : Option (Word × Word)) (ps : List Byte) (b : Byte) : Option (Word × Word) :=
  match ps with
  | [p0, p1, p2] => axisOf p0 p1 p2 b
  | _ => axis

/-- The cursor after one sample (R164). -/
def advance (xs xe : Word) (cur : Nat × Nat) : Nat × Nat :=
  if cur.1 + 1 > xe.toNat then (xs.toNat, cur.2 + 1) else (cur.1 + 1, cur.2)

/-- A whole sample in WRITE (R163, R165). -/
def Receiver.sample (r : Receiver) (v : Word) : Receiver :=
  match r.xAxis, r.yAxis, r.cursor with
  | some (xs, xe), some (_, ye), some cur =>
    if cur.2 > ye.toNat then { r with rxf := some .overrun }
    else { r with fm := store r.fm (fmKey cur.1 cur.2) v, cursor := some (advance xs xe cur) }
  | _, _, _ => r.mark .noWindow

/-- A data byte (R162, R163, R166). -/
def Receiver.data (r : Receiver) (b : Byte) : Receiver :=
  match r.mode with
  | .caset ps =>
    if ps.length < 4 then { r with mode := .caset (ps ++ [b]), xAxis := axisStep r.xAxis ps b }
    else r.mark .extraParam
  | .raset ps =>
    if ps.length < 4 then { r with mode := .raset (ps ++ [b]), yAxis := axisStep r.yAxis ps b }
    else r.mark .extraParam
  | .write =>
    match r.high with
    | none => { r with high := some b }
    | some h => { r with high := none }.sample (h ++ b)
  | .idle => r
  | .other => r

/-- One byte of the byte view. -/
def Receiver.byte (c : Config) (r : Receiver) (b : DC × Byte) : Receiver :=
  match b.1 with
  | .command => r.command c b.2
  | .data => r.data b.2

/-- One entry of the wire stream. Chip-select events change nothing (R167). -/
def Receiver.item (c : Config) (r : Receiver) : WireItem → Receiver
  | .cs _ => r
  | .elem e => e.bytes.foldl (Receiver.byte c) r

/-- A run of wire entries, in wire order (R77). -/
def Receiver.items (c : Config) (r : Receiver) (is : List WireItem) : Receiver :=
  is.foldl (Receiver.item c) r

/-- One entry of a pixel write sequence (R168): panel coordinates and the value. -/
structure Pixel where
  x : Int
  y : Int
  v : Word
deriving DecidableEq, Repr

/-- The write of R163 that a byte makes, in panel coordinates (R168). -/
def Receiver.writeOf (c : Config) (r : Receiver) (b : DC × Byte) : List Pixel :=
  match b.1, r.mode, r.high, r.xAxis, r.yAxis, r.cursor with
  | .data, .write, some h, some _, some (_, ye), some cur =>
    if cur.2 > ye.toNat then []
    else [⟨(cur.1 : Int) - (c.xOffset : Int), (cur.2 : Int) - (c.yOffset : Int), h ++ b.2⟩]
  | _, _, _, _, _, _ => []

/-- The writes a run of bytes makes. -/
def Receiver.writesOf (c : Config) : Receiver → List (DC × Byte) → List Pixel
  | _, [] => []
  | r, b :: bs => r.writeOf c b ++ Receiver.writesOf c (r.byte c b) bs

/-- The byte view of a run of wire entries (R100). -/
def byteView : List WireItem → List (DC × Byte)
  | [] => []
  | .cs _ :: is => byteView is
  | .elem e :: is => e.bytes ++ byteView is

/-- The pixel write sequence of a run of wire entries consumed from a receiver (R168). -/
def pixelWrites (c : Config) (r : Receiver) (is : List WireItem) : List Pixel :=
  r.writesOf c (byteView is)

/-- `FM` at a panel coordinate of the configuration (R160, R168). -/
def Receiver.pixelAt (c : Config) (r : Receiver) (x y : Nat) : Option Word :=
  lookup r.fm (fmKey (x + c.xOffset) (y + c.yOffset))

end Sys2Proof.Machine
end

