-- ==== Sys2Proof/Machine/Ops.lean ====
section
/-! DEFINITION. The shared operations of the RGE: the wire and the transaction bracket (spec 40 R121 to R123), chunks
(R124 to R130), the window encoder (41 R151 to R156), the primitives `Plot` and `Fill` (42 R181, R183), completion, abort
and reset (60 R262, R266; 70 R290, R291), and the run of a request as a sequence of atomic steps (70 R307). -/

namespace Sys2Proof.Machine

/-! ### One write per register -/

/-- `WW <- w` -/
def State.setWw (s : State) (w : Width) : State := { s with ww := w }
/-- `STATUS.OUTCOME <- o` -/
def State.setOutcome (s : State) (o : OutcomeCode) : State := { s with outcome := o }
/-- `CS_OUT <- b` -/
def State.setCs (s : State) (b : Bool) : State := { s with csOut := b }
/-- `DC_OUT <- d` -/
def State.setDc (s : State) (d : DC) : State := { s with dcOut := d }
/-- `ASYNC_INFLIGHT <- b` -/
def State.setAsync (s : State) (b : Bool) : State := { s with asyncInflight := b }
/-- `PHASE <- p` -/
def State.setPhase (s : State) (p : Phase) : State := { s with phase := p }
/-- `ACC <- b` -/
def State.setAcc (s : State) (b : Bool) : State := { s with acc := b }
/-- `REJ <- b` -/
def State.setRej (s : State) (b : Bool) : State := { s with rej := b }
/-- the datapath registers -/
def State.setDp (s : State) (d : Datapath) : State := { s with dp := d }
/-- the transport registers -/
def State.setXp (s : State) (x : Transport) : State := { s with xp := x }
/-- the reports still to come -/
def State.setReports (s : State) (rs : List BusReport) : State := { s with reports := rs }
/-- the model's counter of free values -/
def State.setFresh (s : State) (n : Nat) : State := { s with fresh := n }

/-! ### Outputs -/

/-- Entries appended to the wire stream (R121), which the reference receiver consumes in wire order (R77, R160). -/
def State.put (s : State) (is : List WireItem) : State :=
  { s with wire := s.wire ++ is, rx := s.rx.items s.cfg is }

/-- An `XFER` record on the bus-primitive port (R125). -/
def State.record (s : State) (x : Xfer) : State := { s with xfers := s.xfers ++ [x] }

/-- `OpenTxn()` (R122). -/
def openTxn (s : State) : State :=
  if s.csOut then s else (s.setCs true).put [.cs true]

/-- `CloseTxn()` (R123). -/
def closeTxn (s : State) : State :=
  if s.csOut then (s.setCs false).put [.cs false] else s

/-! ### Ends of a request -/

/-- The registers R40 and R41 leave unspecified once their request is over: free values (log 6). DESIGN CHOICE (log 31): `ACC`
and `REJ`, which R40's table lists too, keep their values, since R156 says that nothing else changes them. -/
def releaseDatapath (s : State) : State :=
  ((s.setDp (Config.freeDatapath s.fresh)).setXp (Config.freeTransport s.fresh)).setFresh (s.fresh + 1)

/-- The bytes the host wrote meanwhile are in its memory (R76). -/
def landWrites (s : State) : State :=
  { s with mem := s.mem.writes s.hostWrites, hostWrites := [] }

/-- What the end of a request's rule means outside the RGE's own steps: its working registers are released and the
host's writes have landed. -/
def endRequest (s : State) : State := landWrites (releaseDatapath s)

/-- `complete` (R262). -/
def complete (s : State) : State :=
  ((closeTxn s).setOutcome (outcomeOf s.acc s.rej)).setPhase .idle

/-- `abort(code)` (R266), the one operation behind `raise` (R17): every exceptional end of a request. -/
def abort (code : OutcomeCode) (s : State) : State :=
  ((closeTxn ((s.setWw .w8).setAsync false)).setOutcome code).setPhase .idle

/-- The RGE's reset (R43, R290, R291): the RGE's own state takes its reset values and chip select is released, with its
event. The configuration, host memory, the outputs, the receiver and the inputs are not RGE state. -/
def resetRge (s : State) : State :=
  let t := closeTxn s
  { State.reset with
    cfg := t.cfg
    mem := t.mem
    rx := t.rx
    wire := t.wire
    xfers := t.xfers
    port := t.port
    reports := t.reports
    hostWrites := t.hostWrites
    fresh := t.fresh }

/-! ### Chunks -/

/-- The path of a chunk (R125): asynchronous iff the path exists and the chunk is at least `BULK_MIN` long. -/
def pathFor (c : Config) (len : Nat) : Path :=
  if c.asyncAvailable = true ∧ c.bulkMin ≤ len then .async else .sync

/-- How a chunk ends, the reports the configuration and the path rule out read as completion. -/
inductive ChunkEnd where
  | whole
  | failed (sent : Nat)
  | timedOut (sent : Nat)
  | held
  | reset (sent : Nat)
deriving DecidableEq, Repr

/-- A failed chunk puts 0..len−1 of its elements on the wire (R264, R265). -/
def cut (sent len : Nat) : Nat := min sent (len - 1)

/-- What a report means for a chunk: failure only with `TRANSPORT_MAY_FAIL` (R130, R264), timeout and hold only on the
asynchronous path, timeout only with `ASYNC_TIMEOUT` (R126, R265); failure goes before timeout (R263). -/
def chunkEnd (c : Config) (p : Path) (len : Nat) (r : BusReport) : ChunkEnd :=
  match r with
  | .done => .whole
  | .pending => if p = .async then .held else .whole
  | .never => if p = .async then .held else .whole
  | .failed k => if c.transportMayFail then .failed (cut k len) else .whole
  | .timedOut k => if p = .async ∧ c.asyncTimeout = true then .timedOut (cut k len) else .whole
  | .failedAndTimedOut k =>
    if c.transportMayFail then .failed (cut k len)
    else if p = .async ∧ c.asyncTimeout = true then .timedOut (cut k len)
    else .whole
  | .reset k => .reset (min k len)

/-- The report for the chunk on the bus: past the end of the list every chunk completes (R307's assumption). -/
def nextReport (s : State) : BusReport :=
  match s.reports with
  | [] => .done
  | r :: _ => r

/-- The reports still to come after this one; `never` stays. -/
def restReports : List BusReport → List BusReport
  | [] => []
  | .never :: rs => .never :: rs
  | .done :: rs => rs
  | .pending :: rs => rs
  | .failed _ :: rs => rs
  | .timedOut _ :: rs => rs
  | .failedAndTimedOut _ :: rs => rs
  | .reset _ :: rs => rs

/-- How one atomic step of a request leaves it. -/
inductive Progress where
  /-- the request goes on -/
  | go (s : State)
  /-- the request waits, this step first when it goes on -/
  | held (a : Atom) (s : State)
  /-- the request is over -/
  | ended (s : State)
  /-- there is no step -/
  | stuck (f : Fault)
deriving DecidableEq, Repr

/-- The bookkeeping of `SendData` after a chunk (R128): `PTR` moves on through a host buffer, `REMAIN` goes down. While the
chunk is on the bus `REMAIN` still counts it, and `PTR` past a buffer's end is taken modulo 2³² (log 28). -/
def afterChunk (c : Chunk) (s : State) : State :=
  match c.src with
  | .command _ => s
  | .host =>
    s.setXp { s.xp with
      ptr := s.xp.ptr + BitVec.ofNat 32 (c.len * c.width.bytes)
      remain := s.xp.remain - BitVec.ofNat 32 c.len }
  | .bytes _ => s.setXp { s.xp with remain := s.xp.remain - BitVec.ofNat 32 c.len }
  | .cell _ => s.setXp { s.xp with remain := s.xp.remain - BitVec.ofNat 32 c.len }
  | .block => s.setXp { s.xp with remain := s.xp.remain - BitVec.ofNat 32 c.len }

/-- `Emit` for each value, at the current `DC_OUT` (R121, R125). -/
def emit (w : Width) (vs : List Word) (s : State) : State :=
  s.put (vs.map fun v => .elem (mkElem s.dcOut w v))

/-- The end of an issued chunk (R125, R126, R130): its elements are read, the bus primitive reports, the elements reach
the wire. On failure and timeout the request aborts (R264, R265), at reset it is abandoned (R291). DESIGN CHOICE (log 33): all the
chunk's elements are read whatever the bus reports, so a chunk with absent memory is stuck (R64) also where it would fail, time
out, be held or be reset, and where the absent byte lies past the elements that reach the wire. -/
def settle (c : Chunk) (s : State) : Progress :=
  match chunkValues c s with
  | .error f => .stuck f
  | .ok vs =>
    let t := (s.setReports (restReports s.reports)).setFresh (s.fresh + c.len)
    match chunkEnd s.cfg c.path c.len (nextReport s) with
    | .whole =>
      let u := if c.path = .async then t.setAsync false else t
      .go (afterChunk c (emit c.width vs u))
    | .failed k => .ended (abort .xferFail (endRequest (emit c.width (vs.take k) t)))
    | .timedOut k => .ended (abort .timeout (endRequest (emit c.width (vs.take k) t)))
    | .held => .held (.await c) t
    | .reset k => .ended (resetRge (landWrites (emit c.width (vs.take k) t)))

/-- `IssueChunk` (R125). -/
def issueChunk (src : Source) (len : Nat) (w : Width) (s : State) : Progress :=
  let p := pathFor s.cfg len
  let t := s.record ⟨p, w, len⟩
  let u := if p = .async then t.setAsync true else t
  settle ⟨src, len, w, p⟩ u

/-- Lengths of at most `cap` that sum to `n`: the full ones first, the remainder last (R124, R128, R183). -/
def splitBy (cap n : Nat) : List Nat :=
  List.replicate (n / cap) cap ++ (if n % cap = 0 then [] else [n % cap])

/-- `SendData(src, n, inc)` (R128): nothing at all when n = 0. `ptr` is the host address, where the source has one. -/
def sendData (src : Source) (n : Nat) (ptr : Option Long) : List Atom :=
  if n = 0 then []
  else .startData n ptr :: (splitBy maxChunk n).map (Atom.chunk src) ++ [.endData]

/-- `With16(body)` (R129). -/
def with16 (body : List Atom) : List Atom := .width .w16 :: body ++ [.width .w8]

/-! ### The address window -/

/-- `InPanel(x, y)` (R151). -/
def inPanel (c : Config) (x y : Int) : Bool :=
  decide (0 ≤ x) && decide (x < (c.panelW : Int)) && decide (0 ≤ y) && decide (y < (c.panelH : Int))

/-- `SetWindow` returns ACCEPT (R152). -/
def accepts (c : Config) (x0 y0 x1 y1 : Int) : Bool :=
  inPanel c x0 y0 && inPanel c x1 y1 && decide (x0 ≤ x1) && decide (y0 ≤ y1)

/-- A 16-bit value most significant byte first (R65): v[15:8], v[7:0]. -/
def bigEndian (v : Word) : List Byte := [v.extractLsb' 8 8, v.extractLsb' 0 8]

/-- A controller coordinate: the logical coordinate plus the panel offset (R154), in its 16-bit field (R153). -/
def offsetCoord (v : Int) (offset : Nat) : Word := BitVec.ofInt 16 (v + (offset : Int))

/-- The window command group of an accepted `SetWindow` (R101, R153). -/
def windowGroup (c : Config) (x0 y0 x1 y1 : Int) : List Atom :=
  .command c.opcCaset ::
    sendData (.bytes (bigEndian (offsetCoord x0 c.xOffset) ++ bigEndian (offsetCoord x1 c.xOffset))) 4 none ++
  .command c.opcRaset ::
    sendData (.bytes (bigEndian (offsetCoord y0 c.yOffset) ++ bigEndian (offsetCoord y1 c.yOffset))) 4 none ++
  [.command c.opcRamwr]

/-- A sub-primitive (R180): the `SetWindow` decision and, on ACCEPT only, the group and the data it guards.
DESIGN CHOICE (log 34): the decision's step, with its flag, stands before the group. -/
def guarded (c : Config) (x0 y0 x1 y1 : Int) (body : List Atom) : List Atom :=
  .setWindow x0 y0 x1 y1 :: if accepts c x0 y0 x1 y1 then windowGroup c x0 y0 x1 y1 ++ body else []

/-- The N samples of `Fill`, by `FILL_STRATEGY` (R183). -/
def fillData (c : Config) (v : Word) (n : Nat) : List Atom :=
  match c.fillStrategy with
  | .block b => .loadBlock b v :: (splitBy b n).flatMap fun k => sendData .block k none
  | .fixedSource => sendData (.cell v) n none

/-- The atomic steps of one primitive: `SetWindow` (R152), `Plot` (R181), `Fill` (R183), the blit of R186,
`SendCommand` (R127), and `SendData` in its width (R133 to R135). -/
def expand (c : Config) : Task → List Atom
  | .lineRegs r => [.lineRegs r]
  | .circleRegs r => [.circleRegs r]
  | .triRegs r => [.triRegs r]
  | .window x0 y0 x1 y1 => guarded c x0 y0 x1 y1 []
  | .plot x y v => guarded c x y x y (with16 (sendData (.cell v) 1 none))
  | .fill x0 y0 x1 y1 v =>
    guarded c x0 y0 x1 y1 (with16 (fillData c v ((x1 - x0 + 1) * (y1 - y0 + 1)).toNat))
  | .blit x y w h src =>
    guarded c x y (x + w - 1) (y + h - 1) (with16 (sendData .host (w * h).toNat (some src)))
  | .command op => [.command op]
  | .data .w8 n src => sendData .host n (some src)
  | .data .w16 n src => with16 (sendData .host n (some src))

/-- `Span(xa, xb, y, c)` (R184). -/
def span (xa xb y : Int) (v : Word) : Task := .fill (min xa xb) y (max xa xb) y v

/-! ### Running a request -/

/-- One atomic step (R307): a register write, a `SetWindow` decision with its flag (R156), an edge of the width bracket
(R129), the start of a `SendCommand` or `SendData` (R127, R128), or a chunk with its completion or the abort it causes (the
grain: log 27). DESIGN CHOICE (log 34): `ACC` is set at the decision, as R307 makes that a step of its own, before the window
group is sent, where R153 returns ACCEPT after it. DESIGN CHOICE (log 32): chip select is asserted as R127 and R128 write it,
before the first chunk is issued, so it is asserted and released with nothing between where that chunk sends no element. -/
def atom (a : Atom) (s : State) : Progress :=
  match a with
  | .lineRegs r => .go (s.setDp { s.dp with line := r })
  | .circleRegs r => .go (s.setDp { s.dp with circle := r })
  | .triRegs r => .go (s.setDp { s.dp with tri := r })
  | .loadBlock b v => .go (s.setDp { s.dp with block := List.replicate b v })
  | .setWindow x0 y0 x1 y1 => .go (if accepts s.cfg x0 y0 x1 y1 then s.setAcc true else s.setRej true)
  | .width w => .go (s.setWw w)
  | .command op => issueChunk (.command op) 1 .w8 ((openTxn s).setDc .command)
  | .startData n ptr =>
    let t := (openTxn s).setDc .data
    .go (t.setXp { t.xp with remain := BitVec.ofNat 32 n, ptr := ptr.getD t.xp.ptr })
  | .chunk src len => issueChunk src len s.ww (s.setXp { s.xp with chunkLen := BitVec.ofNat 16 len })
  | .endData => .go ((s.setXp (Config.freeTransport s.fresh)).setFresh (s.fresh + 1))
  | .await c => settle c s

/-- The rest of a running request, to its end, to a hold, or to where there is no step. -/
def run : List Atom → State → Host.Outcome State Fault Refusal
  | [], s => .next (complete (endRequest s))
  | a :: as, s =>
    match atom a s with
    | .go t => run as t
    | .held b t => .next (t.setPhase (.running (b :: as)))
    | .ended t => .next t
    | .stuck f => .fault f

/-- The start of a request's rule: `ACC` and `REJ` are cleared (R156). DESIGN CHOICE (log 29): an ILLEGAL request, which has no
such rule, does not come here, so its acceptance clears neither flag. -/
def begin (s : State) : State := (s.setAcc false).setRej false

/-- The reset input at a step boundary (R290, R291). A chunk still in flight leaves a prefix of its elements on the wire,
of the length the input gives; of one that cannot be read, none. DESIGN CHOICE (logs 26 and 33): that, and that the reset consumes
no report, so what `reports` still lists, a standing `never` too, is for the chunks issued after it. -/
def resetStep (sent : Nat) (s : State) : State :=
  match s.phase with
  | .running (.await c :: _) =>
    match chunkValues c s with
    | .ok vs => resetRge (landWrites (emit c.width (vs.take sent) (s.setFresh (s.fresh + c.len))))
    | .error _ => resetRge (landWrites s)
  | .running _ => resetRge (landWrites s)
  | .idle => resetRge (landWrites s)

/-- A request given as its primitives, run in order (R180). -/
def request (ts : List Task) (s : State) : Host.Outcome State Fault Refusal :=
  run (ts.flatMap (expand s.cfg)) (begin s)

end Sys2Proof.Machine
end

