-- ==== Sys2Proof/Machine/Accept.lean ====
section
/-! DEFINITION. The request port (spec 30 R90): acceptance, the end of an ILLEGAL request (60 R261), and the placing of a
descriptor on the port. -/

namespace Sys2Proof.Machine

/-- Acceptance (R90): the descriptor is captured in `REQ` and leaves the port, `BUSY` becomes 1. -/
def accept (d : Desc) (later : List Desc) (s : State) : State :=
  { s with req := d, port := later, phase := .running [] }

/-- An ILLEGAL request (R261): `raise ILLEGAL()` alone. DESIGN CHOICE (log 29): R156 clears `ACC` and `REJ` at every
acceptance, R261 says that an ILLEGAL request does not touch them; the model follows R261. -/
def illegal (s : State) : State := abort .illegal (landWrites s)

/-- The RGE idle with no reset pending. DESIGN CHOICE (log 9): an idle RGE stays as it is, and a reset input asserted on it is
withdrawn, not carried out; a running one is put through its reset (R290), the one way out of a request that does not end
(R307), with the empty prefix of a chunk in flight on the wire (R291 allows any) and, as at every reset (log 15), with the
host's own writes landed (R76), so that none races with the next request. -/
def readyForRequest (s : State) : State :=
  match s.phase with
  | .idle => { s with resetIn := none }
  | .running _ => resetStep 0 s

/-- A descriptor presented in place of the one now on the port (R90). -/
def present (d : Desc) (s : State) : State := { s with port := d :: s.port.tail }

end Sys2Proof.Machine
end

