-- ==== Sys2Proof/Machine/Circles.lean ====
section
/-! DEFINITION. The midpoint recurrence (spec 44 R220, R221), CIRCLE (R222, R223) and FCIRCLE (R224, R225). -/

namespace Sys2Proof.Machine

/-- The start of the recurrence (R220). -/
def circleStart (r : Int) : CircleRegs := { f := 1 - r, ddFx := 1, ddFy := -2 * r, x := 0, y := r }

/-- One step of the recurrence (R220). -/
def circleNext (c : CircleRegs) : CircleRegs :=
  let d := if c.f ≥ 0 then { c with y := c.y - 1, ddFy := c.ddFy + 2, f := c.f + (c.ddFy + 2) } else c
  { d with x := d.x + 1, ddFx := d.ddFx + 2, f := d.f + (d.ddFx + 2) }

/-- The loop of R221: while `x < y`, a step, then what that step emits. `n` bounds the passes; from `circleStart r` at
most r are made, since a step raises x and never y. -/
def circleLoop (emitted : CircleRegs → List Task) : Nat → CircleRegs → List Task
  | 0, _ => []
  | n + 1, c =>
    if c.x < c.y then .circleRegs (circleNext c) :: emitted (circleNext c) ++ circleLoop emitted n (circleNext c)
    else []

/-- The 8 symmetric points of a step, in the order of R222. -/
def circlePoints (xc yc : Int) (v : Word) (c : CircleRegs) : List Task :=
  [ .plot (xc + c.x) (yc + c.y) v, .plot (xc - c.x) (yc + c.y) v,
    .plot (xc + c.x) (yc - c.y) v, .plot (xc - c.x) (yc - c.y) v,
    .plot (xc + c.y) (yc + c.x) v, .plot (xc - c.y) (yc + c.x) v,
    .plot (xc + c.y) (yc - c.x) v, .plot (xc - c.y) (yc - c.x) v ]

/-- `Circle` (R222): the 4 seeds, then the loop. -/
def circle (xc yc r : Int) (v : Word) : List Task :=
  .circleRegs (circleStart r) ::
  [.plot xc (yc + r) v, .plot xc (yc - r) v, .plot (xc + r) yc v, .plot (xc - r) yc v] ++
  circleLoop (circlePoints xc yc v) r.toNat (circleStart r)

/-- The 4 spans of a step, in the order of R224. -/
def circleSpans (xc yc : Int) (v : Word) (c : CircleRegs) : List Task :=
  [ span (xc - c.x) (xc + c.x) (yc + c.y) v, span (xc - c.x) (xc + c.x) (yc - c.y) v,
    span (xc - c.y) (xc + c.y) (yc + c.x) v, span (xc - c.y) (xc + c.y) (yc - c.x) v ]

/-- `FilledCircle` (R224): the centre span, then the loop; no seeds. -/
def filledCircle (xc yc r : Int) (v : Word) : List Task :=
  .circleRegs (circleStart r) :: span (xc - r) (xc + r) yc v ::
  circleLoop (circleSpans xc yc v) r.toNat (circleStart r)

/-- The rule of CIRCLE (R223). -/
def planCircle (xc yc r color : Word) : List Task := circle (zint xc) (zint yc) (zint r) color

/-- The rule of FCIRCLE (R225). -/
def planFcircle (xc yc r color : Word) : List Task := filledCircle (zint xc) (zint yc) (zint r) color

/-- CIRCLE (R223). -/
def execCircle (xc yc r color : Word) (s : State) : Host.Outcome State Fault Refusal :=
  request (planCircle xc yc r color) s

/-- FCIRCLE (R225). -/
def execFcircle (xc yc r color : Word) (s : State) : Host.Outcome State Fault Refusal :=
  request (planFcircle xc yc r color) s

end Sys2Proof.Machine
end

