-- ==== Sys2Proof/Machine/Raster.lean ====
section
/-! DEFINITION. WINDOW (spec 41 R157), PIXEL, FILLRECT and BLIT (42 R182, R185, R186). -/

namespace Sys2Proof.Machine

/-- The rule of WINDOW (R157). -/
def planWindow (x0 y0 x1 y1 : Word) : List Task := [.window (zint x0) (zint y0) (zint x1) (zint y1)]

/-- The rule of PIXEL (R182). -/
def planPixel (x y color : Word) : List Task := [.plot (zint x) (zint y) color]

/-- The rule of FILLRECT (R185): the corners are not reordered. -/
def planFillrect (x0 y0 x1 y1 color : Word) : List Task := [.fill (zint x0) (zint y0) (zint x1) (zint y1) color]

/-- The rule of BLIT (R186). -/
def planBlit (x y w h : Word) (src : Long) : List Task := [.blit (zint x) (zint y) (zint w) (zint h) src]

/-- WINDOW (R157). -/
def execWindow (x0 y0 x1 y1 : Word) (s : State) : Host.Outcome State Fault Refusal :=
  request (planWindow x0 y0 x1 y1) s

/-- PIXEL (R182). -/
def execPixel (x y color : Word) (s : State) : Host.Outcome State Fault Refusal := request (planPixel x y color) s

/-- FILLRECT (R185). -/
def execFillrect (x0 y0 x1 y1 color : Word) (s : State) : Host.Outcome State Fault Refusal :=
  request (planFillrect x0 y0 x1 y1 color) s

/-- BLIT (R186). -/
def execBlit (x y w h : Word) (src : Long) (s : State) : Host.Outcome State Fault Refusal :=
  request (planBlit x y w h src) s

end Sys2Proof.Machine
end

