-- ==== Sys2Proof/Machine/Transport.lean ====
section
/-! DEFINITION. The requests that reach the transport directly: CMD, DATA.8, DATA.16 (spec 40 R133 to R135). -/

namespace Sys2Proof.Machine

/-- The rule of CMD (R133). -/
def planCmd (opcode : Byte) (n : Word) (src : Long) : List Task := [.command opcode, .data .w8 n.toNat src]

/-- The rule of DATA.8 (R134). -/
def planData8 (n src : Long) : List Task := [.data .w8 n.toNat src]

/-- The rule of DATA.16 (R135). -/
def planData16 (n src : Long) : List Task := [.data .w16 n.toNat src]

/-- CMD (R133). -/
def execCmd (opcode : Byte) (n : Word) (src : Long) (s : State) : Host.Outcome State Fault Refusal :=
  request (planCmd opcode n src) s

/-- DATA.8 (R134). -/
def execData8 (n src : Long) (s : State) : Host.Outcome State Fault Refusal := request (planData8 n src) s

/-- DATA.16 (R135). -/
def execData16 (n src : Long) (s : State) : Host.Outcome State Fault Refusal := request (planData16 n src) s

end Sys2Proof.Machine
end

