-- ==== Sys2Proof/Machine/Lines.lean ====
section
/-! DEFINITION. The line primitive (spec 43 R200 to R203), LINE, RECT and TRI (R204 to R206). -/

namespace Sys2Proof.Machine

/-- The absolute value of an integer (R13). -/
def absInt (v : Int) : Int := if v < 0 then -v else v

/-- The line registers before the first pass of R201: axes exchanged if steep (strictly, R203), endpoints ordered left
to right, `err` at `dx div 2`, `ystep` the sign after the ordering (R202), the walk at the left endpoint. -/
def lineStart (x0 y0 x1 y1 : Int) : LineRegs :=
  let steep := decide (absInt (y1 - y0) > absInt (x1 - x0))
  let a := if steep then (y0, x0, y1, x1) else (x0, y0, x1, y1)
  let b := if a.1 > a.2.2.1 then (a.2.2.1, a.2.2.2, a.1, a.2.1) else a
  { steep := steep
    lx0 := b.1
    ly0 := b.2.1
    lx1 := b.2.2.1
    ly1 := b.2.2.2
    dx := b.2.2.1 - b.1
    dy := absInt (b.2.2.2 - b.2.1)
    err := (b.2.2.1 - b.1) / 2
    ystep := if b.2.1 < b.2.2.2 then 1 else -1
    x := b.1
    y := b.2.1 }

/-- The update at the end of a pass of R201, and the next x of its loop, which stops at `lx1` (R14). DESIGN CHOICE (log 23):
`x` stays at `lx1` after the last pass; `y` may then lie one past R40's range, since R201 updates it in every pass. -/
def lineNext (r : LineRegs) : LineRegs :=
  let e := r.err - r.dy
  let x := if r.x < r.lx1 then r.x + 1 else r.x
  if e < 0 then { r with err := e + r.dx, y := r.y + r.ystep, x := x } else { r with err := e, x := x }

/-- The point a pass of R201 plots: the axes are exchanged back when steep. -/
def linePlot (r : LineRegs) (v : Word) : Task := if r.steep then .plot r.y r.x v else .plot r.x r.y v

/-- The passes of R201 from the given registers: each plots, then updates. -/
def lineWalk (v : Word) : Nat → LineRegs → List Task
  | 0, _ => []
  | n + 1, r => linePlot r v :: .lineRegs (lineNext r) :: lineWalk v n (lineNext r)

/-- `LineGeneral` (R201): the start, then `dx + 1` passes. -/
def lineGeneral (x0 y0 x1 y1 : Int) (v : Word) : List Task :=
  let r := lineStart x0 y0 x1 y1
  .lineRegs r :: lineWalk v (r.dx + 1).toNat r

/-- `Line` (R200): horizontal first, then vertical, each one `Fill` with its ends ordered; else the general case. -/
def line (x0 y0 x1 y1 : Int) (v : Word) : List Task :=
  if y0 = y1 then [span x0 x1 y0 v]
  else if x0 = x1 then [.fill x0 (min y0 y1) x0 (max y0 y1) v]
  else lineGeneral x0 y0 x1 y1 v

/-- The rule of LINE (R204). -/
def planLine (x0 y0 x1 y1 color : Word) : List Task := line (zint x0) (zint y0) (zint x1) (zint y1) color

/-- The rule of RECT (R205): top, left, bottom, right. DESIGN CHOICE (log 24): where x0 = x1 alone the four edges as the
rule gives them are drawn, the segment twice and its end pixels three times; R205's corner case counts three and four. -/
def planRect (x0 y0 x1 y1 color : Word) : List Task :=
  line (zint x0) (zint y0) (zint x1) (zint y0) color ++
  line (zint x0) (zint y0) (zint x0) (zint y1) color ++
  line (zint x0) (zint y1) (zint x1) (zint y1) color ++
  line (zint x1) (zint y0) (zint x1) (zint y1) color

/-- The rule of TRI (R206): edges 1→2, 2→3, 3→1. -/
def planTri (x1 y1 x2 y2 x3 y3 color : Word) : List Task :=
  line (zint x1) (zint y1) (zint x2) (zint y2) color ++
  line (zint x2) (zint y2) (zint x3) (zint y3) color ++
  line (zint x3) (zint y3) (zint x1) (zint y1) color

/-- LINE (R204). -/
def execLine (x0 y0 x1 y1 color : Word) (s : State) : Host.Outcome State Fault Refusal :=
  request (planLine x0 y0 x1 y1 color) s

/-- RECT (R205). -/
def execRect (x0 y0 x1 y1 color : Word) (s : State) : Host.Outcome State Fault Refusal :=
  request (planRect x0 y0 x1 y1 color) s

/-- TRI (R206). -/
def execTri (x1 y1 x2 y2 x3 y3 color : Word) (s : State) : Host.Outcome State Fault Refusal :=
  request (planTri x1 y1 x2 y2 x3 y3 color) s

end Sys2Proof.Machine
end

