-- ==== Sys2Proof/Machine/Triangle.lean ====
section
/-! DEFINITION. The filled triangle: the edge walk with its error accumulator (spec 45 R240, R241, R244) and FTRI (R242). -/

namespace Sys2Proof.Machine

/-- The registers before the first pass of R240: the longer axis of edge 1→2 is walked, ties walk x. -/
def triStart (x1 y1 x2 y2 : Int) : TriRegs :=
  let dx := absInt (x2 - x1)
  let dy := absInt (y2 - y1)
  let sx : Int := if x2 ≥ x1 then 1 else -1
  let sy : Int := if y2 ≥ y1 then 1 else -1
  if dx ≥ dy then
    { x := x1, y := y1, xinc1 := 0, xinc2 := sx, yinc1 := sy, yinc2 := 0
      den := dx, num := dx / 2, numadd := dy, numpixels := dx, curpixel := 0 }
  else
    { x := x1, y := y1, xinc1 := sx, xinc2 := 0, yinc1 := 0, yinc2 := sy
      den := dy, num := dy / 2, numadd := dx, numpixels := dy, curpixel := 0 }

/-- The advance at the end of a pass of R240, and the next `curpixel` of its loop. DESIGN CHOICE (log 25): after the last
pass `curpixel` is one past `numpixels`, as R40's range has it. -/
def triNext (r : TriRegs) : TriRegs :=
  let n := r.num + r.numadd
  let q := if n ≥ r.den then { r with num := n - r.den, x := r.x + r.xinc1, y := r.y + r.yinc1 } else { r with num := n }
  { q with x := q.x + q.xinc2, y := q.y + q.yinc2, curpixel := q.curpixel + 1 }

/-- The passes of R240: each draws a full `Line` from the walking point to vertex 3, then advances; also the last, though
nothing uses the advance (R241). -/
def triWalk (x3 y3 : Int) (v : Word) : Nat → TriRegs → List Task
  | 0, _ => []
  | n + 1, r => line r.x r.y x3 y3 v ++ .triRegs (triNext r) :: triWalk x3 y3 v n (triNext r)

/-- `FilledTriangle` (R240): the start, then `numpixels + 1` passes. -/
def filledTriangle (x1 y1 x2 y2 x3 y3 : Int) (v : Word) : List Task :=
  let r := triStart x1 y1 x2 y2
  .triRegs r :: triWalk x3 y3 v (r.numpixels + 1).toNat r

/-- The rule of FTRI (R242). -/
def planFtri (x1 y1 x2 y2 x3 y3 color : Word) : List Task :=
  filledTriangle (zint x1) (zint y1) (zint x2) (zint y2) (zint x3) (zint y3) color

/-- FTRI (R242). -/
def execFtri (x1 y1 x2 y2 x3 y3 color : Word) (s : State) : Host.Outcome State Fault Refusal :=
  request (planFtri x1 y1 x2 y2 x3 y3 color) s

end Sys2Proof.Machine
end

