-- ==== Sys2Proof/Machine/Dispatch.lean ====
section
/-! DEFINITION. One arm per request: the meaning it has. -/

namespace Sys2Proof.Machine

def exec (i : Instr) (s : State) : Host.Outcome State Fault Refusal :=
  match i with
  | .window x0 y0 x1 y1 => Sys2Proof.Machine.execWindow x0 y0 x1 y1 s
  | .pixel x y color => Sys2Proof.Machine.execPixel x y color s
  | .fillrect x0 y0 x1 y1 color => Sys2Proof.Machine.execFillrect x0 y0 x1 y1 color s
  | .blit x y w h src => Sys2Proof.Machine.execBlit x y w h src s
  | .line x0 y0 x1 y1 color => Sys2Proof.Machine.execLine x0 y0 x1 y1 color s
  | .rect x0 y0 x1 y1 color => Sys2Proof.Machine.execRect x0 y0 x1 y1 color s
  | .circle xc yc r color => Sys2Proof.Machine.execCircle xc yc r color s
  | .fcircle xc yc r color => Sys2Proof.Machine.execFcircle xc yc r color s
  | .tri x1 y1 x2 y2 x3 y3 color => Sys2Proof.Machine.execTri x1 y1 x2 y2 x3 y3 color s
  | .ftri x1 y1 x2 y2 x3 y3 color => Sys2Proof.Machine.execFtri x1 y1 x2 y2 x3 y3 color s
  | .cmd opcode n src => Sys2Proof.Machine.execCmd opcode n src s
  | .data8 n src => Sys2Proof.Machine.execData8 n src s
  | .data16 n src => Sys2Proof.Machine.execData16 n src s

end Sys2Proof.Machine
end

