-- ==== Sys2Proof/Machine/Cycle.lean ====
section
/-! DEFINITION. What one step does: the configuration check, the reset input, a running request, acceptance and decoding
(spec 00 R11; 30 R90, R97; 60 R261; 70 R290, R307). -/

namespace Sys2Proof.Machine

/-- An idle RGE (R90, R290): with nothing presented it waits; else it accepts the presented descriptor, decodes it (R97)
and runs the whole request, or ends it as ILLEGAL (R261). -/
def acceptNext (s : State) : Host.Outcome State Fault Refusal :=
  match s.port with
  | [] => .next (landWrites s)
  | d :: later =>
    match decode d with
    | .ok i => exec i (accept d later s)
    | .error _ => .next (illegal (accept d later s))

/-- One step. A configuration outside R9 is refused (R11). The reset input goes first (R290). A running request, held on
the bus primitive (R126), goes on where it stopped; a descriptor presented meanwhile stays presented (R90). -/
def cycle (s : State) : Host.Outcome State Fault Refusal :=
  if s.cfg.ok = false then .refused .badConfig
  else
    match s.resetIn, s.phase with
    | some k, _ => .next (resetStep k s)
    | none, .running todo => run todo s
    | none, .idle => acceptNext s

end Sys2Proof.Machine
end

