-- ==== Sys2Proof/Machine/Step.lean ====
section
/-! DEFINITION. One step of the machine (spec 30 R90; 60 R261; 70 R290, R307), and how the host places a request. -/

namespace Sys2Proof.Machine

/-- One step of the machine: `cycle` in Machine/Cycle.lean. -/
def step (s : State) : Host.Outcome State Fault Refusal := cycle s

/-- The state with a descriptor, its bits numbered as the opcode table numbers them, where the next step accepts it: on
the request port of an idle RGE (log 9). -/
def State.withFetchWord (s : State) (nbits w : Nat) : State := present (tableDesc nbits w) (readyForRequest s)

end Sys2Proof.Machine
end

