-- ==== Sys2Proof/Machine/Asm.lean ====
section
/-! DEFINITION. The request assembly form of spec 30 R103 with the pseudo-instructions of R104, over lists of characters:
one line to one request, refusing an operand outside its field. Host-side: no step of the machine uses it. -/

namespace Sys2Proof.Machine

/-- Blanks between the mnemonic and the operands, and around operands. -/
def isBlank (c : Char) : Bool := c = ' ' || c = '\t'

/-- A line without its leading blanks. -/
def dropBlanks : List Char → List Char
  | [] => []
  | c :: cs => if isBlank c then dropBlanks cs else c :: cs

/-- A field without the blanks around it. -/
def trimBlanks (cs : List Char) : List Char := (dropBlanks (dropBlanks cs).reverse).reverse

/-- The mnemonic: the characters before the first blank, with what follows it. -/
def splitMnemonic : List Char → List Char × List Char
  | [] => ([], [])
  | c :: cs => if isBlank c then ([], cs) else (c :: (splitMnemonic cs).1, (splitMnemonic cs).2)

/-- The fields of a line, between its commas. -/
def splitCommas : List Char → List (List Char)
  | [] => [[]]
  | c :: cs =>
    if c = ',' then [] :: splitCommas cs
    else
      match splitCommas cs with
      | [] => [[c]]
      | f :: fs => (c :: f) :: fs

/-- The value of a digit in a base of at most 16. -/
def digitValue (base : Nat) (c : Char) : Option Nat :=
  let n := c.toNat
  let v := if 48 ≤ n ∧ n ≤ 57 then some (n - 48)
    else if 65 ≤ n ∧ n ≤ 70 then some (n - 55)
    else if 97 ≤ n ∧ n ≤ 102 then some (n - 87)
    else none
  v.filter fun d => decide (d < base)

/-- The value of digits, the most significant first. -/
def digitsValue (base : Nat) : List Char → Nat → Option Nat
  | [], acc => some acc
  | c :: cs, acc =>
    match digitValue base c with
    | some d => digitsValue base cs (acc * base + d)
    | none => none

/-- An operand: a decimal or a 0x hexadecimal integer (R103). -/
def operandValue (cs : List Char) : Option Nat :=
  match trimBlanks cs with
  | [] => none
  | '0' :: 'x' :: [] => none
  | '0' :: 'x' :: c :: ds => digitsValue 16 (c :: ds) 0
  | c :: ds => digitsValue 10 (c :: ds) 0

/-- All the operands, if each is an integer. -/
def operandValues : List (List Char) → Option (List Nat)
  | [] => some []
  | f :: fs =>
    match operandValue f, operandValues fs with
    | some v, some vs => some (v :: vs)
    | _, _ => none

/-- An operand in a field of `w` bits; refused outside its range (R103). -/
def field (w v : Nat) : Option (BitVec w) := if v < 2 ^ w then some (BitVec.ofNat w v) else none

/-- Three 16-bit operands. -/
def words3 (f : Word → Word → Word → Instr) : List Nat → Option Instr
  | [a, b, c] => do
    let a ← field 16 a
    let b ← field 16 b
    let c ← field 16 c
    some (f a b c)
  | _ => none

/-- Four 16-bit operands. -/
def words4 (f : Word → Word → Word → Word → Instr) : List Nat → Option Instr
  | a :: rest => do
    let a ← field 16 a
    words3 (f a) rest
  | _ => none

/-- Five 16-bit operands. -/
def words5 (f : Word → Word → Word → Word → Word → Instr) : List Nat → Option Instr
  | a :: rest => do
    let a ← field 16 a
    words4 (f a) rest
  | _ => none

/-- Seven 16-bit operands. -/
def words7 (f : Word → Word → Word → Word → Word → Word → Word → Instr) : List Nat → Option Instr
  | a :: b :: rest => do
    let a ← field 16 a
    let b ← field 16 b
    words5 (f a b) rest
  | _ => none

/-- The operands of BLIT: four 16-bit words and the 32-bit `src`. -/
def blitOperands : List Nat → Option Instr
  | [x, y, w, h, src] => do
    let x ← field 16 x
    let y ← field 16 y
    let w ← field 16 w
    let h ← field 16 h
    let src ← field 32 src
    some (.blit x y w h src)
  | _ => none

/-- The operands of CMD: an 8-bit opcode, a 16-bit count, the 32-bit `src`. -/
def cmdOperands : List Nat → Option Instr
  | [op, n, src] => do
    let op ← field 8 op
    let n ← field 16 n
    let src ← field 32 src
    some (.cmd op n src)
  | _ => none

/-- The operands of DATA: the 32-bit `n` and `src`. -/
def dataOperands (f : Long → Long → Instr) : List Nat → Option Instr
  | [n, src] => do
    let n ← field 32 n
    let src ← field 32 src
    some (f n src)
  | _ => none

/-- The operand of CMD0 (R104). -/
def cmd0Operands : List Nat → Option Instr
  | [op] => (field 8 op).map Instr.cmd0
  | _ => none

/-- The operand of CLEAR (R104). -/
def clearOperands (c : Config) : List Nat → Option Instr
  | [color] => (field 16 color).map (Instr.clear c)
  | _ => none

/-- The request of a mnemonic and its operands (R103, R104). -/
def assembleFields (c : Config) (mnemonic : List Char) (vs : List Nat) : Option Instr :=
  if mnemonic = ['W', 'I', 'N', 'D', 'O', 'W'] then words4 .window vs
  else if mnemonic = ['P', 'I', 'X', 'E', 'L'] then words3 .pixel vs
  else if mnemonic = ['F', 'I', 'L', 'L', 'R', 'E', 'C', 'T'] then words5 .fillrect vs
  else if mnemonic = ['B', 'L', 'I', 'T'] then blitOperands vs
  else if mnemonic = ['L', 'I', 'N', 'E'] then words5 .line vs
  else if mnemonic = ['R', 'E', 'C', 'T'] then words5 .rect vs
  else if mnemonic = ['C', 'I', 'R', 'C', 'L', 'E'] then words4 .circle vs
  else if mnemonic = ['F', 'C', 'I', 'R', 'C', 'L', 'E'] then words4 .fcircle vs
  else if mnemonic = ['T', 'R', 'I'] then words7 .tri vs
  else if mnemonic = ['F', 'T', 'R', 'I'] then words7 .ftri vs
  else if mnemonic = ['C', 'M', 'D'] then cmdOperands vs
  else if mnemonic = ['D', 'A', 'T', 'A', '.', '8'] then dataOperands .data8 vs
  else if mnemonic = ['D', 'A', 'T', 'A', '.', '1', '6'] then dataOperands .data16 vs
  else if mnemonic = ['H', 'L', 'I', 'N', 'E'] then words4 Instr.hline vs
  else if mnemonic = ['V', 'L', 'I', 'N', 'E'] then words4 Instr.vline vs
  else if mnemonic = ['C', 'M', 'D', '0'] then cmd0Operands vs
  else if mnemonic = ['C', 'L', 'E', 'A', 'R'] then clearOperands c vs
  else none

/-- One line of request assembly (R103): mnemonic, blanks, operands between commas. -/
def assembleLine (c : Config) (line : List Char) : Option Instr :=
  let p := splitMnemonic (dropBlanks line)
  match operandValues (splitCommas p.2) with
  | some vs => assembleFields c p.1 vs
  | none => none

/-- The controller's commands of R102 as (name in the source, byte, payload bytes where fixed). The bytes are defaults
from general knowledge, as R102 says: PRESUMED (log 11). No rule of the RGE reads this list. -/
def controllerCommands : List (String × Byte × Option Nat) :=
  [ ("column-address-set", 0x2A, some 4), ("row-address-set", 0x2B, some 4), ("memory-write-begin", 0x2C, none),
    ("sleep-out", 0x11, some 0), ("display-on", 0x29, some 0), ("color-mode-set", 0x3A, some 1),
    ("orientation-control", 0x36, some 1), ("inversion-on", 0x21, some 0), ("inversion-off", 0x20, some 0),
    ("tearing-effect-on", 0x35, some 1), ("tearing-effect-off", 0x34, some 0) ]

end Sys2Proof.Machine
end

