-- ==== Sys2Proof/Machine/Atomic.lean ====
section
/-! DEFINITION. The machine one atomic step at a time (spec 70 R307), with `BUSY = 1` and every register as it stands
between two steps of a request, and the reset input at any of them (R291). `Machine.step` runs the same atomic steps
without stopping between them. -/

namespace Sys2Proof.Machine

/-- The primitives of a request's rule. -/
def planOf : Instr → List Task
  | .window x0 y0 x1 y1 => planWindow x0 y0 x1 y1
  | .pixel x y color => planPixel x y color
  | .fillrect x0 y0 x1 y1 color => planFillrect x0 y0 x1 y1 color
  | .blit x y w h src => planBlit x y w h src
  | .line x0 y0 x1 y1 color => planLine x0 y0 x1 y1 color
  | .rect x0 y0 x1 y1 color => planRect x0 y0 x1 y1 color
  | .circle xc yc r color => planCircle xc yc r color
  | .fcircle xc yc r color => planFcircle xc yc r color
  | .tri x1 y1 x2 y2 x3 y3 color => planTri x1 y1 x2 y2 x3 y3 color
  | .ftri x1 y1 x2 y2 x3 y3 color => planFtri x1 y1 x2 y2 x3 y3 color
  | .cmd opcode n src => planCmd opcode n src
  | .data8 n src => planData8 n src
  | .data16 n src => planData16 n src

/-- The first atomic step of an accepted request: its rule starts with `PHASE` at its first step (R90). -/
def startRequest (i : Instr) (s : State) : State :=
  (begin s).setPhase (.running ((planOf i).flatMap (expand s.cfg)))

/-- One atomic step (R307): the decode at acceptance, one step of the running request, or its completion. DESIGN CHOICE
(log 27): a failing decode and its abort are one step, so `BUSY = 1` is never seen of an ILLEGAL request; a chunk that
fails, times out or is reset ends its request in the same step. -/
def tick (s : State) : Host.Outcome State Fault Refusal :=
  if s.cfg.ok = false then .refused .badConfig
  else
    match s.resetIn, s.phase with
    | some k, _ => .next (resetStep k s)
    | none, .running [] => .next (complete (endRequest s))
    | none, .running (a :: todo) =>
      match atom a s with
      | .go t => .next (t.setPhase (.running todo))
      | .held b t => .next (t.setPhase (.running (b :: todo)))
      | .ended t => .next t
      | .stuck f => .fault f
    | none, .idle =>
      match s.port with
      | [] => .next (landWrites s)
      | d :: later =>
        match decode d with
        | .ok i => .next (startRequest i (accept d later s))
        | .error _ => .next (illegal (accept d later s))

/-- `k` atomic steps, ending at the first fault or refusal. -/
def ticks : Nat → State → Host.Outcome State Fault Refusal
  | 0, s => .next s
  | k + 1, s =>
    match tick s with
    | .next t => ticks k t
    | .fault f => .fault f
    | .refused r => .refused r

end Sys2Proof.Machine
end

