-- ==== Sys2Proof/Safety.lean ====
section
/-! DEFINITION. The words claims are stated in: the state between requests, what a request puts on the wire and leaves
behind, the invariant of the machine, and the pixel observation of the reference receiver (spec 10 R32; 30 R101; 40 R121 to
R124; 41 R168; 42 R180 to R186; 60 R262). -/

namespace Sys2Proof

/-! ### Which descriptors are ILLEGAL (R97), said without the decoder -/

/-- The OP values of R93's table. -/
def listedOps : List Nat := [0x01, 0x02, 0x03, 0x04, 0x05, 0x06, 0x07, 0x08, 0x09, 0x0A, 0x10, 0x11]

/-- The words marked "0" in R94, by OP. -/
def reservedWords (op : Nat) : List Nat :=
  if op = 0x01 then [5, 6, 7]
  else if op = 0x02 then [3, 4, 5, 6]
  else if op = 0x03 ∨ op = 0x05 ∨ op = 0x06 then [5, 6]
  else if op = 0x04 then [7]
  else if op = 0x07 ∨ op = 0x08 then [4, 5, 6]
  else if op = 0x10 then [2, 3, 4, 7]
  else if op = 0x11 then [3, 4, 7]
  else []

/-- The number of host elements a descriptor asks for and their size in bytes (R63); 0 where OP reads none. -/
def Desc.reads (d : Desc) : Nat × Nat :=
  if d.op.toNat = 0x04 then ((d.word 3).toNat * (d.word 4).toNat, 2)
  else if d.op.toNat = 0x10 then ((d.word 1).toNat, 1)
  else if d.op.toNat = 0x11 then
    ((d.word 1).toNat + 65536 * (d.word 2).toNat, if d.sub.toNat = 0x10 then 2 else 1)
  else (0, 1)

/-- `SRC` as a number: {W6, W5} (R95). -/
def Desc.source (d : Desc) : Nat := (d.word 5).toNat + 65536 * (d.word 6).toNat

/-- The five checks of R97, in its order. -/
def Desc.illegal (d : Desc) : Prop :=
  d.op.toNat ∉ listedOps ∨
  (d.op.toNat ≠ 0x10 ∧ d.op.toNat ≠ 0x11 ∧ d.sub ≠ 0 ∨ ∃ k ∈ reservedWords d.op.toNat, d.word k ≠ 0) ∨
  (d.op.toNat = 0x11 ∧ d.sub.toNat ≠ 0x08 ∧ d.sub.toNat ≠ 0x10) ∨
  (0 < d.reads.1 ∧ 0xFFFFFFFF < d.source + d.reads.1 * d.reads.2 - 1) ∨
  (0 < d.reads.1 ∧ d.reads.2 = 2 ∧ d.source % 2 = 1)

end Sys2Proof

namespace Sys2Proof.Machine

/-! ### Hypotheses -/

/-- The transport at rest, as it is between requests: `WW = 8` (R32), chip select released (R123), nothing in flight. -/
structure Ready (s : State) : Prop where
  ww : s.ww = .w8
  cs : s.csOut = false
  async : s.asyncInflight = false

/-- The bus primitive completes every chunk (R307's assumption; R130 with `TRANSPORT_MAY_FAIL = false`): every report the
input list gives is a completion (log 7). -/
def Quiet (s : State) : Prop := ∀ r ∈ s.reports, r = BusReport.done

/-- Every one of `n` elements from address `a` can be read, and no host write overlaps one (R64, R76). -/
def Readable (s : State) (w : Width) (n a : Nat) : Prop :=
  ∀ k < n, raced s.hostWrites w (a + k * w.bytes) = false ∧
    (memRead s.cfg.hostEndian s.mem w (a + k * w.bytes)).isSome = true

/-- Host memory admits the element at `a` (R64): at each of its bytes there is memory, or the host is writing it (log 5). -/
def Admits (s : State) (w : Width) (a : Nat) : Prop :=
  ∀ j < w.bytes, (s.mem.read (a + j)).isSome = true ∨ ∃ c ∈ s.hostWrites, c.1 = a + j

/-! ### Elements -/

/-- The values `vs` are `n` elements read from address `a`: each that no host write overlaps is memory's (R70, R76 clause 2);
of the others nothing is said. -/
structure Unraced (s : State) (w : Width) (n a : Nat) (vs : List Word) : Prop where
  length : vs.length = n
  values : ∀ k < n, (∀ c ∈ s.hostWrites, c.1 < a + k * w.bytes ∨ a + k * w.bytes + w.bytes ≤ c.1) →
    vs[k]? = memRead s.cfg.hostEndian s.mem w (a + k * w.bytes)

/-- `n` elements of host memory from address `a`, in buffer order (R61, R62). -/
def hostList (s : State) (w : Width) (n a : Nat) : List Word :=
  (List.range n).map fun k => (memRead s.cfg.hostEndian s.mem w (a + k * w.bytes)).getD 0

/-- A command element (R99). -/
def cmdElem (b : Byte) : Elem := .b8 .command b

/-- A parameter element (R99). -/
def paramElem (b : Byte) : Elem := .b8 .data b

/-- A pixel element (R99). -/
def pixelElem (v : Word) : Elem := .b16 .data v

/-- The two bytes of a 16-bit coordinate, most significant first (R65): v[15:8], v[7:0]. -/
def coordBytes (v : Int) : List Byte := [BitVec.ofInt 8 (v / 256), BitVec.ofInt 8 v]

/-- The 11 elements of R101. -/
def windowElems (c : Config) (x0 y0 x1 y1 : Int) : List Elem :=
  [cmdElem c.opcCaset] ++
  (coordBytes (x0 + (c.xOffset : Int)) ++ coordBytes (x1 + (c.xOffset : Int))).map paramElem ++
  [cmdElem c.opcRaset] ++
  (coordBytes (y0 + (c.yOffset : Int)) ++ coordBytes (y1 + (c.yOffset : Int))).map paramElem ++
  [cmdElem c.opcRamwr]

/-- A sub-primitive (R180): on ACCEPT the group and the samples it guards, on REJECT nothing. -/
def subElems (c : Config) (x0 y0 x1 y1 : Int) (samples : List Word) : List Elem :=
  if accepts c x0 y0 x1 y1 then windowElems c x0 y0 x1 y1 ++ samples.map pixelElem else []

/-- The elements of `Fill` (R183): N samples, all equal. -/
def fillElems (c : Config) (x0 y0 x1 y1 : Int) (v : Word) : List Elem :=
  subElems c x0 y0 x1 y1 (List.replicate ((x1 - x0 + 1) * (y1 - y0 + 1)).toNat v)

/-- The elements one primitive puts on the wire when its chunks complete (R127, R128, R152, R181, R183, R186). -/
def taskElems (s : State) : Task → List Elem
  | .lineRegs _ => []
  | .circleRegs _ => []
  | .triRegs _ => []
  | .window x0 y0 x1 y1 => subElems s.cfg x0 y0 x1 y1 []
  | .plot x y v => subElems s.cfg x y x y [v]
  | .fill x0 y0 x1 y1 v => fillElems s.cfg x0 y0 x1 y1 v
  | .blit x y w h src =>
    subElems s.cfg x y (x + w - 1) (y + h - 1) (hostList s .w16 (w * h).toNat src.toNat)
  | .command op => [cmdElem op]
  | .data w n src => (hostList s w n src.toNat).map (mkElem .data w)

/-- The verdict of the one `SetWindow` of a primitive, if it makes one (R156). -/
def taskVerdict (c : Config) : Task → Option Bool
  | .lineRegs _ => none
  | .circleRegs _ => none
  | .triRegs _ => none
  | .window x0 y0 x1 y1 => some (accepts c x0 y0 x1 y1)
  | .plot x y _ => some (accepts c x y x y)
  | .fill x0 y0 x1 y1 _ => some (accepts c x0 y0 x1 y1)
  | .blit x y w h _ => some (accepts c x y (x + w - 1) (y + h - 1))
  | .command _ => none
  | .data _ _ _ => none

/-- What a primitive reads can be read: nothing on REJECT (R186), and the read range passes no 32-bit address (R63). -/
def taskReadable (s : State) : Task → Prop
  | .lineRegs _ => True
  | .circleRegs _ => True
  | .triRegs _ => True
  | .window _ _ _ _ => True
  | .plot _ _ _ => True
  | .fill _ _ _ _ _ => True
  | .blit x y w h src =>
    accepts s.cfg x y (x + w - 1) (y + h - 1) = true →
      Readable s .w16 (w * h).toNat src.toNat ∧ src.toNat + (w * h).toNat * 2 ≤ 2 ^ 32
  | .command _ => True
  | .data w n src => Readable s w n src.toNat ∧ src.toNat + n * w.bytes ≤ 2 ^ 32

/-- `ACC` after primitives run to their end: some `SetWindow` was accepted (R156). -/
def planAcc (c : Config) (ts : List Task) : Bool := ts.any fun t => decide (taskVerdict c t = some true)

/-- `REJ` after primitives run to their end: some `SetWindow` was rejected (R156). -/
def planRej (c : Config) (ts : List Task) : Bool := ts.any fun t => decide (taskVerdict c t = some false)

/-! ### What a request leaves -/

/-- One transaction (R122, R123): nothing at all for no element, else the elements between the two chip-select events. -/
def transaction (es : List Elem) : List WireItem :=
  match es with
  | [] => []
  | e :: l => .cs true :: .elem e :: l.map WireItem.elem ++ [.cs false]

/-- The wire entries that open a transaction, if it is not open (R122). -/
def opening (cs : Bool) : List WireItem := if cs then [] else [.cs true]

/-- The DC level of an element (R99). -/
def Elem.dc : Elem → DC
  | .b8 d _ => d
  | .b16 d _ => d

/-- The level last driven on the command/data line (R34, R38). -/
def lastDc (d : DC) (es : List Elem) : DC := es.foldl (fun _ e => e.dc) d

/-- What a request that ran to its end leaves, and all it leaves unchanged: on the wire one transaction of its
elements (R121 to R123), which the receiver has consumed (R160); `ACC`, `REJ` (R156) and the outcome they give (R262);
`PHASE` IDLE, `BUSY = 0`, `WW = 8` (R32), chip select released, nothing in flight, DC as last driven (R38). The
configuration, `REQ`, the port and the reset input are unchanged, and host memory has only the host's own writes of that
time (R15, R76), which land at its end by the model's choice (log 15). The datapath and transport registers (R40, R41) are
not named: they are unspecified here. That `ACC` and `REJ` are named, though they stand in R40's table, is log 31. -/
structure Leaves (s t : State) (es : List Elem) (acc rej : Bool) : Prop where
  wire : t.wire = s.wire ++ transaction es
  rx : t.rx = s.rx.items s.cfg (transaction es)
  outcome : t.outcome = outcomeOf acc rej
  acc : t.acc = acc
  rej : t.rej = rej
  phase : t.phase = .idle
  ww : t.ww = .w8
  cs : t.csOut = false
  async : t.asyncInflight = false
  dc : t.dcOut = lastDc s.dcOut es
  cfg : t.cfg = s.cfg
  req : t.req = s.req
  port : t.port = s.port
  resetIn : t.resetIn = s.resetIn
  mem : t.mem = s.mem.writes s.hostWrites
  hostWrites : t.hostWrites = []
  xfers : s.xfers <+: t.xfers
  quiet : Quiet s → Quiet t

/-- The wire entries a step from `s` to `t` appended. -/
def newItems (s t : State) : List WireItem := t.wire.drop s.wire.length

/-- The pixel write sequence of the step from `s` to `t` (R168). -/
def pixelsOf (s t : State) : List Pixel := pixelWrites s.cfg s.rx (newItems s t)

/-- The pixel observation of R168: none for a run in which `RXF ≠ ⊥`. DESIGN CHOICE (log 30): it is defined also after an
opaque command that changes orientation or color mode, where R166 and R305 support no claim about it. -/
def pixelObservation (s t : State) : Option (List Pixel) := if t.rx.rxf = none then some (pixelsOf s t) else none

/-- The pixels of a window's samples in row-major order (R164): `n` samples from the k-th on. -/
def rowMajor (x0 y0 width : Nat) : Nat → List Word → List Pixel
  | _, [] => []
  | k, v :: vs => ⟨((x0 + k % width : Nat) : Int), ((y0 + k / width : Nat) : Int), v⟩ :: rowMajor x0 y0 width (k + 1) vs

/-- The pixel writes of one sub-primitive with its samples (R169). -/
def subPixels (c : Config) (x0 y0 x1 y1 : Int) (samples : List Word) : List Pixel :=
  if accepts c x0 y0 x1 y1 then rowMajor x0.toNat y0.toNat (x1 - x0 + 1).toNat 0 samples else []

/-- The pixel writes of one primitive of a rasterizer request (R169, R181, R183, R186). -/
def taskPixels (s : State) : Task → List Pixel
  | .lineRegs _ => []
  | .circleRegs _ => []
  | .triRegs _ => []
  | .window _ _ _ _ => []
  | .plot x y v => if inPanel s.cfg x y then [⟨x, y, v⟩] else []
  | .fill x0 y0 x1 y1 v => subPixels s.cfg x0 y0 x1 y1 (List.replicate ((x1 - x0 + 1) * (y1 - y0 + 1)).toNat v)
  | .blit x y w h src => subPixels s.cfg x y (x + w - 1) (y + h - 1) (hostList s .w16 (w * h).toNat src.toNat)
  | .command _ => []
  | .data _ _ _ => []

/-- The rasterizer requests (R1 (a)). -/
def isRaster : Instr → Bool
  | .window _ _ _ _ => false
  | .pixel _ _ _ => true
  | .fillrect _ _ _ _ _ => true
  | .blit _ _ _ _ _ => true
  | .line _ _ _ _ _ => true
  | .rect _ _ _ _ _ => true
  | .circle _ _ _ _ => true
  | .fcircle _ _ _ _ => true
  | .tri _ _ _ _ _ _ _ => true
  | .ftri _ _ _ _ _ _ _ => true
  | .cmd _ _ _ => false
  | .data8 _ _ => false
  | .data16 _ _ => false

/-! ### The invariant -/

/-- The width after the remaining atomic steps (R129). -/
def widthAfter : List Atom → Width → Width
  | [], w => w
  | .width v :: as, _ => widthAfter as v
  | .lineRegs _ :: as, w => widthAfter as w
  | .circleRegs _ :: as, w => widthAfter as w
  | .triRegs _ :: as, w => widthAfter as w
  | .loadBlock _ _ :: as, w => widthAfter as w
  | .setWindow _ _ _ _ :: as, w => widthAfter as w
  | .command _ :: as, w => widthAfter as w
  | .startData _ _ :: as, w => widthAfter as w
  | .chunk _ _ :: as, w => widthAfter as w
  | .endData :: as, w => widthAfter as w
  | .await _ :: as, w => widthAfter as w

/-- A step that moves a chunk of 1 to 65535 elements, or moves none (R124). No step still to come waits on the bus. -/
def Atom.capped : Atom → Bool
  | .chunk _ len => decide (1 ≤ len) && decide (len ≤ maxChunk)
  | .await _ => false
  | .lineRegs _ => true
  | .circleRegs _ => true
  | .triRegs _ => true
  | .loadBlock _ _ => true
  | .setWindow _ _ _ _ => true
  | .width _ => true
  | .command _ => true
  | .startData _ _ => true
  | .endData => true

/-- Chip select is asserted before every chunk of the remaining steps, given its level before them (R122). -/
def chunksOpen : List Atom → Bool → Bool
  | [], _ => true
  | .command _ :: as, _ => chunksOpen as true
  | .startData _ _ :: as, _ => chunksOpen as true
  | .chunk _ _ :: as, b => b && chunksOpen as b
  | .await _ :: as, b => b && chunksOpen as b
  | .lineRegs _ :: as, b => chunksOpen as b
  | .circleRegs _ :: as, b => chunksOpen as b
  | .triRegs _ :: as, b => chunksOpen as b
  | .loadBlock _ _ :: as, b => chunksOpen as b
  | .setWindow _ _ _ _ :: as, b => chunksOpen as b
  | .width _ :: as, b => chunksOpen as b
  | .endData :: as, b => chunksOpen as b

/-- The remaining steps of a request close the open width bracket (R129), assert chip select before every chunk (R122),
and move chunks of 1 to 65535 elements (R124). -/
def stepsInv (as : List Atom) (ww : Width) (cs : Bool) : Prop :=
  widthAfter as ww = .w8 ∧ chunksOpen as cs = true ∧ as.all Atom.capped = true

/-- A chunk that may be held on the bus: asynchronous, by the condition of R125, and within the cap of R124. -/
structure Chunk.Held (c : Chunk) (cfg : Config) : Prop where
  path : c.path = .async
  available : cfg.asyncAvailable = true
  long : cfg.bulkMin ≤ c.len
  capped : 1 ≤ c.len ∧ c.len ≤ maxChunk

/-- The invariant's part about `PHASE` (R32, R39, R42): idle, the transport is at rest; running, `ASYNC_INFLIGHT` is 1
exactly while the first step is a chunk on the bus. -/
def phaseInv (s : State) : Prop :=
  match s.phase with
  | .idle => Ready s
  | .running (.await c :: as) =>
    s.asyncInflight = true ∧ s.csOut = true ∧ c.Held s.cfg ∧ stepsInv as s.ww s.csOut
  | .running as => s.asyncInflight = false ∧ stepsInv as s.ww s.csOut

/-- The atomic steps of a request's rule (R180, R307). -/
def stepsOf (i : Instr) (c : Config) : List Atom := (planOf i).flatMap (expand c)

/-- The verdict of a `SetWindow` decision; no other step makes one. -/
def Atom.verdict (c : Config) : Atom → Option Bool
  | .setWindow x0 y0 x1 y1 => some (accepts c x0 y0 x1 y1)
  | .lineRegs _ => none
  | .circleRegs _ => none
  | .triRegs _ => none
  | .loadBlock _ _ => none
  | .width _ => none
  | .command _ => none
  | .startData _ _ => none
  | .chunk _ _ => none
  | .endData => none
  | .await _ => none

/-- The step that issued a chunk. -/
def Chunk.step (c : Chunk) : Atom :=
  match c.src with
  | .command op => .command op
  | .bytes l => .chunk (.bytes l) c.len
  | .cell v => .chunk (.cell v) c.len
  | .block => .chunk .block c.len
  | .host => .chunk .host c.len

/-- The steps a `PHASE` stands before: a chunk on the bus stands for the step that issued it. -/
def resumes : List Atom → List Atom
  | [] => []
  | .await c :: as => c.step :: as
  | a :: as => a :: as

/-- The datapath after one more step: each of its four parts is written by its own step alone (R40, R45). -/
def dpWrite (d : Datapath) : Atom → Datapath
  | .lineRegs r => { d with line := r }
  | .circleRegs r => { d with circle := r }
  | .triRegs r => { d with tri := r }
  | .loadBlock b v => { d with block := List.replicate b v }
  | .setWindow _ _ _ _ => d
  | .width _ => d
  | .command _ => d
  | .startData _ _ => d
  | .chunk _ _ => d
  | .endData => d
  | .await _ => d

/-- `PHASE` is a position inside the captured request (R42, R90): the steps it stands before end the steps of the request that
`REQ` encodes, `ACC` and `REJ` are what the steps before it gave (R156; at the decision, before the group: log 34), and the
datapath registers hold what those last wrote (R40, R45), over any datapath the request began with. -/
def onRequest (s : State) : Prop :=
  match s.phase with
  | .idle => True
  | .running todo =>
    ∃ (i : Instr) (before : List Atom) (dp : Datapath), decode s.req = .ok i ∧
      stepsOf i s.cfg = before ++ resumes todo ∧ s.dp = before.foldl dpWrite dp ∧
      s.acc = before.any (fun a => decide (a.verdict s.cfg = some true)) ∧
      s.rej = before.any (fun a => decide (a.verdict s.cfg = some false))

/-- A record of the bus-primitive port within the cap of R124. -/
def Xfer.capped (x : Xfer) : Bool := decide (1 ≤ x.len) && decide (x.len ≤ maxChunk)

/-- The chip-select events of a wire stream alternate, from released, and leave the given level (R122, R123). -/
def csLevel : Bool → List WireItem → Option Bool
  | b, [] => some b
  | b, .cs a :: is => if a = b then none else csLevel a is
  | b, .elem _ :: is => if b then csLevel b is else none

/-- The reference receiver's own form: at most four parameter bytes, axes with start ≤ end, the frame memory rising. -/
def Receiver.wf (r : Receiver) : Bool :=
  (match r.mode with
    | .caset ps => decide (ps.length ≤ 4)
    | .raset ps => decide (ps.length ≤ 4)
    | .idle => true
    | .write => true
    | .other => true) &&
  (match r.xAxis with | none => true | some (a, b) => decide (a ≤ b)) &&
  (match r.yAxis with | none => true | some (a, b) => decide (a ≤ b)) &&
  rising r.fm

/-- The invariant every step keeps. Every element of the wire lies inside a transaction. -/
structure Inv (s : State) : Prop where
  phase : phaseInv s
  request : onRequest s
  mem : s.mem.wf = true
  wire : csLevel false s.wire = some s.csOut
  xfers : s.xfers.all Xfer.capped = true
  rx : s.rx.wf = true

/-! ### What the rasterizer rules draw, said without their loops -/

/-- The elements of one `Plot` (R181). -/
def plotElems (c : Config) (v : Word) (p : Int × Int) : List Elem :=
  if inPanel c p.1 p.2 then windowElems c p.1 p.2 p.1 p.2 ++ [pixelElem v] else []

/-- Some point of a list is on the panel, so its `Plot` is accepted. -/
def anyIn (c : Config) (ps : List (Int × Int)) : Bool := ps.any fun p => inPanel c p.1 p.2

/-- Some point of a list is off the panel, so its `Plot` is rejected. -/
def anyOut (c : Config) (ps : List (Int × Int)) : Bool := ps.any fun p => !inPanel c p.1 p.2

/-- A rectangle, corner to corner. -/
structure Box where
  x0 : Int
  y0 : Int
  x1 : Int
  y1 : Int
deriving DecidableEq, Repr

/-- `SetWindow` accepts the rectangle (R152). -/
def Box.accepted (c : Config) (b : Box) : Bool := accepts c b.x0 b.y0 b.x1 b.y1

/-- The elements of `Fill` over the rectangle (R183). -/
def Box.elems (c : Config) (v : Word) (b : Box) : List Elem := fillElems c b.x0 b.y0 b.x1 b.y1 v

/-- The points a list of primitives plots, in order. -/
def plottedPoints (ts : List Task) : List (Int × Int) :=
  ts.filterMap fun t =>
    match t with
    | .plot x y _ => some (x, y)
    | .lineRegs _ => none
    | .circleRegs _ => none
    | .triRegs _ => none
    | .window _ _ _ _ => none
    | .fill _ _ _ _ _ => none
    | .blit _ _ _ _ _ => none
    | .command _ => none
    | .data _ _ _ => none

/-- The values the line registers take in a list of primitives, in order. -/
def lineValues (ts : List Task) : List LineRegs :=
  ts.filterMap fun t =>
    match t with
    | .lineRegs r => some r
    | .circleRegs _ => none
    | .triRegs _ => none
    | .plot _ _ _ => none
    | .window _ _ _ _ => none
    | .fill _ _ _ _ _ => none
    | .blit _ _ _ _ _ => none
    | .command _ => none
    | .data _ _ _ => none

/-- The values the filled-triangle registers take in a list of primitives, in order. -/
def triValues (ts : List Task) : List TriRegs :=
  ts.filterMap fun t =>
    match t with
    | .triRegs r => some r
    | .lineRegs _ => none
    | .circleRegs _ => none
    | .plot _ _ _ => none
    | .window _ _ _ _ => none
    | .fill _ _ _ _ _ => none
    | .blit _ _ _ _ _ => none
    | .command _ => none
    | .data _ _ _ => none

/-- The values the circle registers take in a list of primitives, in order. -/
def circleValues (ts : List Task) : List CircleRegs :=
  ts.filterMap fun t =>
    match t with
    | .circleRegs r => some r
    | .lineRegs _ => none
    | .triRegs _ => none
    | .plot _ _ _ => none
    | .window _ _ _ _ => none
    | .fill _ _ _ _ _ => none
    | .blit _ _ _ _ _ => none
    | .command _ => none
    | .data _ _ _ => none

/-- The points of a line that is not steep and runs left to right, one for each x: by k steps to the right the error
term of R201 has crossed zero `⌈(k·dy − dx div 2) / dx⌉` times. -/
def shallowPoints (x0 y0 x1 y1 : Int) : List (Int × Int) :=
  let dx := x1 - x0
  let dy := absInt (y1 - y0)
  (List.range (dx + 1).toNat).map fun k =>
    let rise := ((k : Int) * dy + dx - 1 - dx / 2) / dx
    (x0 + k, if y0 < y1 then y0 + rise else y0 - rise)

/-- The points of the general line of R201 in its order: axes exchanged when steep (R203), ends ordered. -/
def generalPoints (x0 y0 x1 y1 : Int) : List (Int × Int) :=
  let ordered := fun a b c d => if a > c then shallowPoints c d a b else shallowPoints a b c d
  if absInt (y1 - y0) > absInt (x1 - x0) then (ordered y0 x0 y1 x1).map fun p => (p.2, p.1)
  else ordered x0 y0 x1 y1

/-- The values of the circle registers after each step of the loop of R221, from the iterates of the step. -/
def circleSteps (r : Int) : List CircleRegs :=
  (((List.range r.toNat).map fun k => Nat.iterate circleNext k (circleStart r)).takeWhile fun c => decide (c.x < c.y)).map
    circleNext

/-- The points of R222: the four seeds, then eight for each step. -/
def circleOutline (xc yc r : Int) : List (Int × Int) :=
  [(xc, yc + r), (xc, yc - r), (xc + r, yc), (xc - r, yc)] ++
  (circleSteps r).flatMap fun k =>
    [ (xc + k.x, yc + k.y), (xc - k.x, yc + k.y), (xc + k.x, yc - k.y), (xc - k.x, yc - k.y),
      (xc + k.y, yc + k.x), (xc - k.y, yc + k.x), (xc + k.y, yc - k.x), (xc - k.y, yc - k.x) ]

/-- The rows of R224: the centre row, then four for each step. -/
def circleRows (xc yc r : Int) : List Box :=
  ⟨xc - r, yc, xc + r, yc⟩ ::
  (circleSteps r).flatMap fun k =>
    [ ⟨xc - k.x, yc + k.y, xc + k.x, yc + k.y⟩, ⟨xc - k.x, yc - k.y, xc + k.x, yc - k.y⟩,
      ⟨xc - k.y, yc + k.x, xc + k.y, yc + k.x⟩, ⟨xc - k.y, yc - k.x, xc + k.y, yc - k.x⟩ ]

/-- The edge of a rectangle or a straight line as the one rectangle `Fill` draws (R200, R205). -/
def edge (x0 y0 x1 y1 : Int) : Box := ⟨min x0 x1, min y0 y1, max x0 x1, max y0 y1⟩

/-- A line is one `Fill` when it is horizontal or vertical (R200). -/
def straight (x0 y0 x1 y1 : Int) : Bool := decide (y0 = y1) || decide (x0 = x1)

/-- The elements of `Line` (R200): one `Fill`, or one `Plot` for each point of the general case. -/
def lineElems (c : Config) (v : Word) (x0 y0 x1 y1 : Int) : List Elem :=
  if straight x0 y0 x1 y1 then (edge x0 y0 x1 y1).elems c v
  else (generalPoints x0 y0 x1 y1).flatMap (plotElems c v)

/-- Some sub-primitive of `Line` is accepted. -/
def lineAcc (c : Config) (x0 y0 x1 y1 : Int) : Bool :=
  if straight x0 y0 x1 y1 then (edge x0 y0 x1 y1).accepted c else anyIn c (generalPoints x0 y0 x1 y1)

/-- Some sub-primitive of `Line` is rejected. -/
def lineRej (c : Config) (x0 y0 x1 y1 : Int) : Bool :=
  if straight x0 y0 x1 y1 then !(edge x0 y0 x1 y1).accepted c else anyOut c (generalPoints x0 y0 x1 y1)

/-- The walking points of R240: the long axis advances by one each pass, the short axis by the overflows of the
accumulator so far, `(den div 2 + j·numadd) div den` (R241). -/
def walkPoints (x1 y1 x2 y2 : Int) : List (Int × Int) :=
  let dx := absInt (x2 - x1)
  let dy := absInt (y2 - y1)
  let sx : Int := if x2 ≥ x1 then 1 else -1
  let sy : Int := if y2 ≥ y1 then 1 else -1
  if dx ≥ dy then
    (List.range (dx + 1).toNat).map fun j => (x1 + sx * j, y1 + sy * ((dx / 2 + (j : Int) * dy) / dx))
  else
    (List.range (dy + 1).toNat).map fun j => (x1 + sx * ((dy / 2 + (j : Int) * dx) / dy), y1 + sy * j)

/-! ### Chunks, aborts, the other configuration -/

/-- The elements of a chunk in flight that a reset lets reach the wire (R291): as many as the input gives, and, by the model's
choice (log 33), none of a chunk that cannot be read. -/
def inFlight (sent : Nat) (s : State) : List Elem :=
  match s.phase with
  | .running (.await c :: _) =>
    match chunkValues c s with
    | .ok vs => (vs.take sent).map (mkElem s.dcOut c.width)
    | .error _ => []
  | .running _ => []
  | .idle => []

/-- What a hold on an asynchronous chunk leaves after the elements already sent, and all it leaves unchanged (R126). The
transaction is open also where nothing was sent (log 32). -/
structure Holds (s t : State) (es : List Elem) : Prop where
  wire : t.wire = s.wire ++ opening s.csOut ++ es.map WireItem.elem
  busy : t.busy = true
  async : t.asyncInflight = true
  cs : t.csOut = true
  outcome : t.outcome = s.outcome
  cfg : t.cfg = s.cfg
  req : t.req = s.req
  port : t.port = s.port
  resetIn : t.resetIn = s.resetIn
  mem : t.mem = s.mem
  hostWrites : t.hostWrites = s.hostWrites

/-- What the RGE's reset leaves (R43, R290): the reset values; the configuration and the port stay, and host memory has the
host's own writes (log 15). -/
structure Resets (s t : State) : Prop where
  ww : t.ww = .w8
  status : t.status &&& 0xFF7F = 0
  cs : t.csOut = false
  async : t.asyncInflight = false
  phase : t.phase = .idle
  resetIn : t.resetIn = none
  cfg : t.cfg = s.cfg
  port : t.port = s.port
  mem : t.mem = s.mem.writes s.hostWrites

/-- What an abort leaves after the elements already sent, and all it leaves unchanged (R264 to R267). Host memory has the
host's own writes (log 15), and the transaction is opened and closed also where nothing was sent (log 32). -/
structure Aborts (s t : State) (es : List Elem) (code : OutcomeCode) : Prop where
  wire : t.wire = s.wire ++ opening s.csOut ++ es.map WireItem.elem ++ [.cs false]
  outcome : t.outcome = code
  phase : t.phase = .idle
  ww : t.ww = .w8
  cs : t.csOut = false
  async : t.asyncInflight = false
  cfg : t.cfg = s.cfg
  req : t.req = s.req
  port : t.port = s.port
  resetIn : t.resetIn = s.resetIn
  mem : t.mem = s.mem.writes s.hostWrites

/-- What a stretch of a request adds to the wire (R122, R123): while it goes on, elements of the one open transaction; at
its end the transaction is closed, or was never opened. -/
structure OneBracket (s t : State) : Prop where
  going : t.busy = true → ∃ es : List Elem, t.wire = s.wire ++ opening s.csOut ++ es.map WireItem.elem
  ended : t.busy = false → (s.csOut = false ∧ t.wire = s.wire) ∨
    ∃ es : List Elem, t.wire = s.wire ++ opening s.csOut ++ es.map WireItem.elem ++ [.cs false]

/-- The record of a chunk, with the path of R125: asynchronous exactly where the path exists and the chunk has at least
`BULK_MIN` elements. -/
def recordOf (c : Config) (w : Width) (len : Nat) : Xfer :=
  ⟨if c.asyncAvailable = true ∧ c.bulkMin ≤ len then .async else .sync, w, len⟩

/-- The records of `SendData` of n elements in a width (R125, R128). -/
def dataRecords (c : Config) (w : Width) (n : Nat) : List Xfer :=
  (List.range ((n + 65534) / 65535)).map fun j => recordOf c w (min 65535 (n - 65535 * j))

/-- The records of the samples of `Fill` (R183): one `SendData` of at most B after another, or one `SendData` of all. -/
def fillRecords (c : Config) (n : Nat) : List Xfer :=
  match c.fillStrategy with
  | .block b =>
    (List.range ((n + b - 1) / b)).map fun j => recordOf c .w16 (min b (n - b * j))
  | .fixedSource => dataRecords c .w16 n

/-- The records of a window group (R153): its five chunks of 1, 4, 1, 4 and 1 bytes. -/
def windowRecords (c : Config) : List Xfer := [1, 4, 1, 4, 1].map (recordOf c .w8)

/-- The records of one primitive whose chunks complete (R125, R127, R128, R153, R180, R181, R183, R186). -/
def taskRecords (c : Config) : Task → List Xfer
  | .lineRegs _ => []
  | .circleRegs _ => []
  | .triRegs _ => []
  | .window x0 y0 x1 y1 => if accepts c x0 y0 x1 y1 then windowRecords c else []
  | .plot x y _ => if inPanel c x y then windowRecords c ++ [recordOf c .w16 1] else []
  | .fill x0 y0 x1 y1 _ =>
    if accepts c x0 y0 x1 y1 then windowRecords c ++ fillRecords c ((x1 - x0 + 1) * (y1 - y0 + 1)).toNat else []
  | .blit x y w h _ =>
    if accepts c x y (x + w - 1) (y + h - 1) then windowRecords c ++ dataRecords c .w16 (w * h).toNat else []
  | .command _ => [recordOf c .w8 1]
  | .data w n _ => dataRecords c w n

/-- The records a step appended. -/
def newRecords (s t : State) : List Xfer := t.xfers.drop s.xfers.length

/-- The axis that the first four parameter bytes of an address command give (R162): start and end, most significant byte
first; none when the start is past the end. -/
def groupAxis (vs : List Word) : Option (Word × Word) :=
  let v := fun k : Nat => (vs[k]?.getD 0).toNat
  let start := 256 * v 0 + v 1
  let stop := 256 * v 2 + v 3
  if start ≤ stop then some (BitVec.ofNat 16 start, BitVec.ofNat 16 stop) else none

/-- The same state in an instance with another asynchronous path (R131). -/
def repath (available : Bool) (bulkMin : Nat) (s : State) : State :=
  { s with cfg := { s.cfg with asyncAvailable := available, bulkMin := bulkMin } }

/-- The requests with more than one sub-primitive (R260). -/
def isComposite : Instr → Bool
  | .window _ _ _ _ => false
  | .pixel _ _ _ => false
  | .fillrect _ _ _ _ _ => false
  | .blit _ _ _ _ _ => false
  | .line _ _ _ _ _ => true
  | .rect _ _ _ _ _ => true
  | .circle _ _ _ _ => true
  | .fcircle _ _ _ _ => true
  | .tri _ _ _ _ _ _ _ => true
  | .ftri _ _ _ _ _ _ _ => true
  | .cmd _ _ _ => false
  | .data8 _ _ => false
  | .data16 _ _ => false

/-- The causes R260 and R262 give for the outcome with which a request ends (a reset, R291, leaves the code of OK). R262 reads
`ACC` and `REJ` in the request; that they still hold those values in the state after it is the model's choice (R156 against
R40: log 31). -/
structure Caused (i : Instr) (s t : State) : Prop where
  illegal : t.outcome ≠ .illegal
  failed : t.outcome = .xferFail → s.cfg.transportMayFail = true
  timedOut : t.outcome = .timeout → s.cfg.asyncTimeout = true ∧ s.cfg.asyncAvailable = true
  partialBounds : t.outcome = .partialBounds → isComposite i = true ∧ t.acc = true ∧ t.rej = true
  noop : t.outcome = .noop →
    (isRaster i = true ∨ ∃ x0 y0 x1 y1, i = .window x0 y0 x1 y1) ∧ t.acc = false ∧ t.rej = true
  ok : t.outcome = .ok → t.rej = false

end Sys2Proof.Machine
end

