-- ==== Sys2Proof/Certificates/Slice0/Obligations.lean ====
section
/-! DEFINITION. The statements for the provers, in the order of the spec's files. Each says which rules of spec/ it
formalises, and names the log entry of what in it is the model's own choice. Three choices run through the statements of results
and are said here once: the conditions on `reports` speak of the model's list of the bus primitive's reports (`Quiet`: log 7),
what a request leaves of host memory (`Leaves`, `Aborts`, `Resets`) takes the host's own writes at its end (log 15),
and what a hold, an abort or a reset leaves on the wire opens with chip select although no element was sent (log 32). A step
is a whole request, up to a hold (log 8). -/

open Sys2Proof Sys2Proof.Machine

/-! ### The encoding (30) -/

/-- R97: the decoder reads back every well-formed request from its descriptor, with every operand. -/
def Obligations.DecodeOfEncode : Prop := ∀ i : Instr, i.wellFormed = true → decode (encode i) = .ok i

/-- R91 to R96: a descriptor that decodes is the descriptor of the request read from it, so no bit of it is ignored. -/
def Obligations.EncodeOfDecode : Prop :=
  ∀ (d : Desc) (i : Instr), decode d = .ok i → encode i = d ∧ i.wellFormed = true

/-- R93, R96, R97: a descriptor's fields are read as the request of the opcode-table row that selects it, and are rejected
exactly where no row does. -/
def Obligations.DecoderFollowsTable : Prop :=
  ∀ d : Desc,
    (∃ i, decodeFields d = .ok i ∧ ∃ r ∈ opcodeTable, r.selects d = true ∧ r.mnemonic = i.mnemonic) ∨
    ((∃ e, decodeFields d = .error e) ∧ ∀ r ∈ opcodeTable, r.selects d = false)

/-- R105: the two worked encodings, in both directions. -/
def Obligations.WorkedEncodings : Prop :=
  encode (.line 0 0 4 2 0xF800) = Desc.ofWords 0x0005 0x0000 0x0000 0x0004 0x0002 0x0000 0x0000 0xF800 ∧
  decode (Desc.ofWords 0x0005 0x0000 0x0000 0x0004 0x0002 0x0000 0x0000 0xF800) = .ok (.line 0 0 4 2 0xF800) ∧
  encode (.data16 100000 0x20000000) = Desc.ofWords 0x1011 0x86A0 0x0001 0x0000 0x0000 0x0000 0x2000 0x0000 ∧
  decode (Desc.ofWords 0x1011 0x86A0 0x0001 0x0000 0x0000 0x0000 0x2000 0x0000) = .ok (.data16 100000 0x20000000)

/-- R97, with the range of R63 and the alignment of R69: a descriptor is ILLEGAL when one of the checks (a) to (e) holds of its
words, and only then. -/
def Obligations.IllegalByFiveChecks : Prop := ∀ d : Desc, (∃ e, decode d = .error e) ↔ d.illegal

/-- R261, R90: an ILLEGAL request changes the outcome, captures `REQ` and leaves the port, and nothing else changes; but host
memory takes the host's own writes of that time, which empties the list of them (R76; log 15, the model's choice). That
`ACC` and `REJ` stay is log 29. -/
def Obligations.IllegalChangesOnlyOutcome : Prop :=
  ∀ (s : State) (d : Desc) (later : List Desc) (e : Reject), s.cfg.ok = true → s.resetIn = none → s.phase = .idle →
    Ready s → s.port = d :: later → decode d = .error e →
    step s = .next { s with
      req := d, port := later, outcome := .illegal, mem := s.mem.writes s.hostWrites, hostWrites := [] }

/-- R90: an idle RGE accepts the presented descriptor: it is in `REQ`, `BUSY` is 1, and the step is the meaning of the
decoded request there (a step is a whole request, up to a hold: log 8). A descriptor presented while `BUSY = 1` stays
presented. -/
def Obligations.AcceptanceRunsRequest : Prop :=
  (∀ (s : State) (d : Desc) (later : List Desc) (i : Instr), s.cfg.ok = true → s.resetIn = none → s.phase = .idle →
    s.port = d :: later → decode d = .ok i →
    ∃ a : State, a = { s with req := d, port := later, phase := .running [] } ∧ a.busy = true ∧ step s = exec i a) ∧
  (∀ s t : State, s.busy = true → step s = .next t → t.port = s.port)

/-- R104: `CLEAR color` fills the whole panel: every pixel of it is one sample of the color, and the outcome is OK. -/
def Obligations.ClearFillsPanel : Prop :=
  ∀ (color : Word) (s : State), s.cfg.ok = true → Ready s → Quiet s →
    ∃ t, exec (Instr.clear s.cfg color) s = .next t ∧
      Leaves s t
        (windowElems s.cfg 0 0 ((s.cfg.panelW : Int) - 1) ((s.cfg.panelH : Int) - 1) ++
          List.replicate (s.cfg.panelW * s.cfg.panelH) (pixelElem color)) true false

/-! ### The configuration and the state (00, 10) -/

/-- R11: a configuration that breaks a constraint of R9 is refused. That the machine refuses nothing else is the model's: what
else the spec refuses (two agents on one port, R275) is outside the model (log 19). -/
def Obligations.RefusesBadConfigOnly : Prop :=
  ∀ s : State,
    (step s = .refused .badConfig ↔
      ¬ (1 ≤ s.cfg.panelW ∧ s.cfg.panelW ≤ 65535 ∧ 1 ≤ s.cfg.panelH ∧ s.cfg.panelH ≤ 65535 ∧
        s.cfg.panelW - 1 + s.cfg.xOffset ≤ 65535 ∧ s.cfg.panelH - 1 + s.cfg.yOffset ≤ 65535 ∧
        s.cfg.opcCaset ≠ s.cfg.opcRaset ∧ s.cfg.opcCaset ≠ s.cfg.opcRamwr ∧ s.cfg.opcRaset ≠ s.cfg.opcRamwr ∧
        1 ≤ s.cfg.bulkMin ∧ s.cfg.bulkMin ≤ 65535 ∧ ∀ b, s.cfg.fillStrategy = .block b → 1 ≤ b ∧ b ≤ 64)) ∧
    ∀ r, step s = .refused r → r = .badConfig

/-- R37: no step changes the configuration. -/
def Obligations.StepKeepsConfig : Prop := ∀ s t : State, step s = .next t → t.cfg = s.cfg

/-- R34, R260: every field of `STATUS`, the six outcome codes by number, its reserved bits, that the outcome codes 6 and 7 never
stand in it, and its reset value but for the DC bit. -/
def Obligations.StatusFields : Prop :=
  ∀ s : State,
    s.status.getLsbD 0 = !decide (s.phase = .idle) ∧
    s.status.extractLsb' 1 3 = (match s.outcome with
      | .ok => 0 | .noop => 1 | .partialBounds => 2 | .illegal => 3 | .xferFail => 4 | .timeout => 5) ∧
    (s.status.extractLsb' 1 3).toNat ≤ 5 ∧
    s.status.getLsbD 4 = decide (s.ww = .w16) ∧ s.status.getLsbD 5 = s.asyncInflight ∧ s.status.getLsbD 6 = s.csOut ∧
    s.status.getLsbD 7 = decide (s.dcOut = .data) ∧ s.status.extractLsb' 8 8 = 0 ∧
    State.reset.status &&& 0xFF7F = 0

/-- R34, R42: while a request runs, one atomic step after another (the grain: logs 8 and 27), `STATUS.OUTCOME` is the previous
request's and `REQ` is held. -/
def Obligations.OutcomeAndReqHeldWhileBusy : Prop :=
  ∀ s t : State, tick s = .next t → t.busy = true → t.outcome = s.outcome ∧ (s.busy = true → t.req = s.req)

/-- R43: the values reset gives. -/
def Obligations.ResetValues : Prop :=
  State.reset.ww = .w8 ∧ State.reset.status &&& 0xFF7F = 0 ∧ State.reset.csOut = false ∧
  State.reset.asyncInflight = false ∧ State.reset.phase = .idle

/-- R32, R123, R129, R266: every request that ends leaves the transport at rest, however its chunks ended; also one that ends
in a later step, after a hold. -/
def Obligations.EveryEndRests : Prop :=
  (∀ (i : Instr) (s t : State), Ready s → exec i s = .next t → t.busy = false → Ready t) ∧
  (∀ s t : State, Inv s → s.busy = true → step s = .next t → t.busy = false → Ready t)

/-- The invariant holds at reset. It speaks of the model's own canonical forms of host memory (log 4) and of the receiver
(log 12). -/
def Obligations.InvAtReset : Prop := Inv State.reset

/-- Every step, and every atomic step (log 27), keeps the invariant: R32 and R39 in every phase, R122 to R124 and R129 for the
rest of a running request, R125 for a held chunk, R42 and R156 for what `PHASE`, `REQ`, `ACC` and `REJ` say of each other (a
flag is set at the decision, before the window group is sent: the model's choice, log 34), R40 and R45 for the line, circle
and filled-triangle registers and the block, which hold what the request's steps so far last wrote, alternating chip-select
events with every element inside a transaction, chunk records of 1 to 65535 elements, and the model's canonical forms of host
memory (log 4) and of the receiver (log 12). -/
def Obligations.StepKeepsInv : Prop :=
  ∀ s t : State, Inv s → (step s = .next t → Inv t) ∧ (tick s = .next t → Inv t)

/-! ### Host memory (20) -/

/-- R15, R60, R76: a step changes no byte of host memory that the host is not itself writing (when its writes land is log 15). -/
def Obligations.RgeWritesNoHostMemory : Prop :=
  ∀ (s t : State) (a : Nat), step s = .next t → (∀ c ∈ s.hostWrites, c.1 ≠ a) → t.mem.read a = s.mem.read a

/-- R67: the byte order of a 16-bit element. -/
def Obligations.ElementByteOrder : Prop :=
  ∀ (m : Memory) (a : Nat) (p q : Byte), m.read a = some p → m.read (a + 1) = some q →
    memRead .little m .w16 a = some (q ++ p) ∧ memRead .big m .w16 a = some (p ++ q)

/-- R64: a request that reads host memory and whose k-th element, of the n it asks for, is the first not there makes no step,
also where the host is writing some of what it reads. The model's choices: the fault names that element's address (log 4), the
whole chunk does not happen (log 16), and the step answers no state although earlier chunks are on the wire (log 8). -/
def Obligations.AbsentMemorySticks : Prop :=
  ∀ (n src : Long) (s : State) (k : Nat), s.cfg.ok = true → Ready s → Quiet s → k < n.toNat →
    ((Instr.data8 n src).wellFormed = true → (∀ j < k, Admits s .w8 (src.toNat + j)) → ¬ Admits s .w8 (src.toNat + k) →
      exec (.data8 n src) s = .fault (.hostMemoryAbsent (src.toNat + k))) ∧
    ((Instr.data16 n src).wellFormed = true → (∀ j < k, Admits s .w16 (src.toNat + 2 * j)) →
      ¬ Admits s .w16 (src.toNat + 2 * k) →
      exec (.data16 n src) s = .fault (.hostMemoryAbsent (src.toNat + 2 * k))) ∧
    (∀ (op : Byte) (m : Word), m.toNat = n.toNat → (Instr.cmd op m src).wellFormed = true →
      (∀ j < k, Admits s .w8 (src.toNat + j)) → ¬ Admits s .w8 (src.toNat + k) →
      exec (.cmd op m src) s = .fault (.hostMemoryAbsent (src.toNat + k))) ∧
    (∀ x y w h : Word, w.toNat * h.toNat = n.toNat → (Instr.blit x y w h src).wellFormed = true →
      accepts s.cfg (zint x) (zint y) (zint x + zint w - 1) (zint y + zint h - 1) = true →
      (∀ j < k, Admits s .w16 (src.toNat + 2 * j)) → ¬ Admits s .w16 (src.toNat + 2 * k) →
      exec (.blit x y w h src) s = .fault (.hostMemoryAbsent (src.toNat + 2 * k)))

/-- R70, R76 clause 2: host writes that race with a request that reads host memory leave the raced elements open, a 16-bit one
also where only one of its bytes is raced (free values: log 5), and nothing else: DATA.8, DATA.16, CMD and an accepted BLIT end
OK with all their elements, and every element no write overlaps is the memory's. (A byte the host is writing counts as there:
log 5; the writes land at the end: log 15.) -/
def Obligations.RaceOpensOnlyRacedElements : Prop :=
  ∀ (w : Width) (n a : Nat) (src : Long) (s : State), s.cfg.ok = true → Ready s → Quiet s → a = src.toNat →
    (∀ k < n, Admits s w (a + k * w.bytes)) →
    (∀ (m : Long) (i : Instr), i = (match w with | .w8 => Instr.data8 m src | .w16 => Instr.data16 m src) → m.toNat = n →
      i.wellFormed = true →
      ∃ (t : State) (vs : List Word), exec i s = .next t ∧ Leaves s t (vs.map (mkElem .data w)) false false ∧
        Unraced s w n a vs) ∧
    (∀ (op : Byte) (m : Word), w = .w8 → m.toNat = n → (Instr.cmd op m src).wellFormed = true →
      ∃ (t : State) (vs : List Word), exec (.cmd op m src) s = .next t ∧
        Leaves s t (cmdElem op :: vs.map (mkElem .data .w8)) false false ∧ Unraced s w n a vs) ∧
    (∀ x y wd h : Word, w = .w16 → wd.toNat * h.toNat = n → (Instr.blit x y wd h src).wellFormed = true →
      accepts s.cfg (zint x) (zint y) (zint x + zint wd - 1) (zint y + zint h - 1) = true →
      ∃ (t : State) (vs : List Word), exec (.blit x y wd h src) s = .next t ∧
        Leaves s t (windowElems s.cfg (zint x) (zint y) (zint x + zint wd - 1) (zint y + zint h - 1) ++ vs.map pixelElem)
          true false ∧
        Unraced s w n a vs)

/-! ### The transport (40) -/

/-- R77, R121, R160: a step only appends to the wire and to the records, and the receiver consumes what it appends to the
wire, in order. -/
def Obligations.OutputsOnlyExtend : Prop :=
  ∀ s t : State, step s = .next t →
    s.wire <+: t.wire ∧ s.xfers <+: t.xfers ∧ t.rx = s.rx.items s.cfg (newItems s t)

/-- R122, R123: whatever the bus reports, what a request puts on the wire is one transaction, or nothing: a step of it that
does not end it leaves the transaction open, the next one goes on in it, and the step that ends it closes it. (That it is opened
where the first chunk sends nothing: log 32.) -/
def Obligations.OneTransaction : Prop :=
  (∀ (i : Instr) (s t : State), Ready s → exec i s = .next t → OneBracket s t) ∧
  (∀ s t : State, Inv s → s.busy = true → step s = .next t → OneBracket s t)

/-- R124: every chunk a request issues has 1 to 65535 elements, also those it issues in later steps, after a hold. -/
def Obligations.ChunkCap : Prop :=
  (∀ (i : Instr) (s t : State), exec i s = .next t → ∀ x ∈ newRecords s t, 1 ≤ x.len ∧ x.len ≤ 65535) ∧
  (∀ s t : State, Inv s → step s = .next t → ∀ x ∈ newRecords s t, 1 ≤ x.len ∧ x.len ≤ 65535)

/-- R125, R128, R133 to R135: the chunks of the transport requests: as many as the cap asks for, full ones first, each on
the path its own length selects: asynchronous exactly where `ASYNC_AVAILABLE` and it has at least `BULK_MIN` elements. -/
def Obligations.DataChunks : Prop :=
  ∀ (s t : State), Ready s → Quiet s →
    (∀ (op : Byte) (n : Word) (src : Long), exec (.cmd op n src) s = .next t →
      newRecords s t =
        ⟨if s.cfg.asyncAvailable = true ∧ s.cfg.bulkMin ≤ 1 then .async else .sync, .w8, 1⟩ ::
          dataRecords s.cfg .w8 n.toNat) ∧
    (∀ n src : Long, exec (.data8 n src) s = .next t → newRecords s t = dataRecords s.cfg .w8 n.toNat) ∧
    (∀ n src : Long, exec (.data16 n src) s = .next t → newRecords s t = dataRecords s.cfg .w16 n.toNat)

/-- R131: the asynchronous path is invisible on the wire: with any `ASYNC_AVAILABLE` and `BULK_MIN` a request whose chunks
complete leaves the same state but for the records and the `ASYNC_INFLIGHT` bit. R131 does not say, and the model's choices
give, that raced elements are the same too (free values by the model's counter: log 5), that the registers left free are
(log 6), and that it is stuck at the same address (logs 4 and 16). -/
def Obligations.PathInvisible : Prop :=
  ∀ (i : Instr) (s : State) (available : Bool) (bulkMin : Nat), Quiet s →
    (∀ t, exec i s = .next t →
      ∃ u, exec i (repath available bulkMin s) = .next u ∧
        { u with cfg := t.cfg, xfers := t.xfers, asyncInflight := t.asyncInflight } = t) ∧
    (∀ f, exec i s = .fault f → exec i (repath available bulkMin s) = .fault f)

/-- R126, R41, R128: an asynchronous chunk whose completion has not come holds the request. DATA.8 and DATA.16 whose chunk j
is the first so reported issue it and nothing more: the earlier chunks' elements are on the wire, `BUSY`, `ASYNC_INFLIGHT` and
chip select are 1, the outcome is the previous one; `REMAIN` counts the elements from chunk j on, `PTR` is the address of its
first and `CHUNK_LEN` its length (that `REMAIN` still counts it and what `PTR` points at in a hold: log 28), and DC is at
data, also with nothing sent (R128; log 10). And while the bus still reports nothing, a step changes only the report consumed
and the model's own counter (logs 5 and 7). -/
def Obligations.AsyncChunkHolds : Prop :=
  (∀ (w : Width) (n src : Long) (s : State) (i : Instr) (j len : Nat) (rs : List BusReport),
    i = (match w with | .w8 => Instr.data8 n src | .w16 => Instr.data16 n src) → i.wellFormed = true → Ready s →
    65535 * j < n.toNat → len = min 65535 (n.toNat - 65535 * j) →
    s.cfg.asyncAvailable = true → s.cfg.bulkMin ≤ len → Readable s w n.toNat src.toNat →
    s.reports = List.replicate j .done ++ .pending :: rs →
    ∃ (t : State) (todo : List Atom), exec i s = .next t ∧
      Holds s t (((hostList s w n.toNat src.toNat).take (65535 * j)).map (mkElem .data w)) ∧
      t.phase = .running (.await ⟨.host, len, w, .async⟩ :: todo) ∧ t.ww = w ∧ t.dcOut = .data ∧ t.reports = rs ∧
      t.xp.remain.toNat = n.toNat - 65535 * j ∧ t.xp.ptr.toNat = src.toNat + 65535 * j * w.bytes ∧
      t.xp.chunkLen.toNat = len ∧ t.xfers = s.xfers ++ (dataRecords s.cfg w n.toNat).take (j + 1)) ∧
  (∀ (s : State) (c : Chunk) (todo : List Atom) (vs : List Word) (rs : List BusReport), s.cfg.ok = true →
    s.resetIn = none → s.phase = .running (.await c :: todo) → c.path = .async → chunkValues c s = .ok vs →
    s.reports = .pending :: rs → step s = .next { s with reports := rs, fresh := s.fresh + c.len })

/-- R126, R307: if the completion never comes, the request never ends: after any number of steps `BUSY` is still 1 and the
wire is as it was. That it never comes is the report `never`, which stays at the head of the list (log 7). -/
def Obligations.NeverCompletedHangs : Prop :=
  ∀ (s : State) (c : Chunk) (todo : List Atom) (vs : List Word) (rs : List BusReport), s.cfg.ok = true →
    s.resetIn = none → s.phase = .running (.await c :: todo) → c.path = .async → chunkValues c s = .ok vs →
    s.reports = .never :: rs →
    ∀ k, ∃ t : State, Sys2Proof.core.run k s = .next t ∧ t.busy = true ∧ t.wire = s.wire ∧ t.outcome = s.outcome

/-- R133: CMD sends its command byte, then its n parameter bytes from host memory; the outcome is OK. -/
def Obligations.CmdResult : Prop :=
  ∀ (op : Byte) (n : Word) (src : Long) (s : State), (Instr.cmd op n src).wellFormed = true → s.cfg.ok = true →
    Ready s → Quiet s → Readable s .w8 n.toNat src.toNat →
    ∃ t, exec (.cmd op n src) s = .next t ∧
      Leaves s t (cmdElem op :: (hostList s .w8 n.toNat src.toNat).map fun v => paramElem (v.setWidth 8)) false false

/-- R134: DATA.8 sends N bytes of host memory as parameter elements; N = 0 sends nothing; the outcome is OK. -/
def Obligations.Data8Result : Prop :=
  ∀ (n src : Long) (s : State), (Instr.data8 n src).wellFormed = true → s.cfg.ok = true → Ready s → Quiet s →
    Readable s .w8 n.toNat src.toNat →
    ∃ t, exec (.data8 n src) s = .next t ∧
      Leaves s t ((hostList s .w8 n.toNat src.toNat).map fun v => paramElem (v.setWidth 8)) false false

/-- R135: DATA.16 sends N 16-bit elements of host memory as pixel elements; N = 0 sends nothing; the outcome is OK. -/
def Obligations.Data16Result : Prop :=
  ∀ (n src : Long) (s : State), (Instr.data16 n src).wellFormed = true → s.cfg.ok = true → Ready s → Quiet s →
    Readable s .w16 n.toNat src.toNat →
    ∃ t, exec (.data16 n src) s = .next t ∧
      Leaves s t ((hostList s .w16 n.toNat src.toNat).map pixelElem) false false

/-! ### The address window and the receiver (41) -/

/-- R151 and the acceptance condition of R152. -/
def Obligations.WindowAcceptance : Prop :=
  ∀ (c : Config) (x0 y0 x1 y1 : Int),
    (inPanel c x0 y0 = true ↔ 0 ≤ x0 ∧ x0 < c.panelW ∧ 0 ≤ y0 ∧ y0 < c.panelH) ∧
    (accepts c x0 y0 x1 y1 = true ↔ inPanel c x0 y0 = true ∧ inPanel c x1 y1 = true ∧ x0 ≤ x1 ∧ y0 ≤ y1)

/-- R101, R152, R157, R262: WINDOW emits the 11 elements and is OK when its rectangle is accepted; else nothing and NOOP. (The
host's own writes land at its end: log 15.) -/
def Obligations.WindowResult : Prop :=
  ∀ (x0 y0 x1 y1 : Word) (s : State), s.cfg.ok = true → Ready s → Quiet s →
    ∃ ok, ok = accepts s.cfg (zint x0) (zint y0) (zint x1) (zint y1) ∧
    ∃ t, exec (.window x0 y0 x1 y1) s = .next t ∧
      Leaves s t (if ok then windowElems s.cfg (zint x0) (zint y0) (zint x1) (zint y1) else []) ok (!ok)

/-- What the reference receiver does with the host's own windows and data, where no fault mark stands before (R168; what a
second mark would do is log 17).
R304, R163 to R165: after an accepted WINDOW, a DATA.16 that fits writes the window in row-major order, and one with more
samples than the window sets RX_OVERRUN. R166, R294: DATA.8 and DATA.16 in IDLE or OPAQUE change nothing. R163, R294: a CMD
of OPC_RAMWR and samples with no window defined set RX_NO_WINDOW and write nothing. R161, R162, R305: a CMD of OPC_CASET or
OPC_RASET with four parameters or more sets its axis from the first four, undefined where the start is past the end; with more
than four it sets RX_EXTRA_PARAM; with fewer it leaves its axis undefined as the next command comes. -/
def Obligations.HostStreamFitsWindow : Prop :=
  (∀ (x0 y0 x1 y1 : Word) (n src : Long) (s t u : State) (area : Nat), s.cfg.ok = true → Ready s → Quiet s →
    s.rx.rxf = none → accepts s.cfg (zint x0) (zint y0) (zint x1) (zint y1) = true →
    area = (x1.toNat - x0.toNat + 1) * (y1.toNat - y0.toNat + 1) →
    exec (.window x0 y0 x1 y1) s = .next t → (Instr.data16 n src).wellFormed = true →
    Readable t .w16 n.toNat src.toNat → exec (.data16 n src) t = .next u →
    (n.toNat ≤ area →
      pixelObservation t u =
        some (rowMajor x0.toNat y0.toNat (x1.toNat - x0.toNat + 1) 0 (hostList t .w16 n.toNat src.toNat))) ∧
    (area < n.toNat → u.rx.rxf = some .overrun ∧ pixelObservation t u = none)) ∧
  (∀ (w : Width) (n src : Long) (s t : State) (i : Instr),
    i = (match w with | .w8 => Instr.data8 n src | .w16 => Instr.data16 n src) → s.rx.mode = .idle ∨ s.rx.mode = .other →
    exec i s = .next t → t.rx = s.rx) ∧
  (∀ (n src src' : Long) (s t u : State), s.cfg.ok = true → Ready s → Quiet s → s.rx.rxf = none →
    s.rx.xAxis = none ∨ s.rx.yAxis = none → exec (.cmd s.cfg.opcRamwr 0 src') s = .next t → 0 < n.toNat →
    (Instr.data16 n src).wellFormed = true → Readable t .w16 n.toNat src.toNat → exec (.data16 n src) t = .next u →
    t.rx.mode = .write ∧ t.rx.rxf = none ∧ u.rx.rxf = some .noWindow ∧ u.rx.fm = s.rx.fm) ∧
  (∀ (isX : Bool) (n : Word) (op : Byte) (src src' : Long) (s t u : State) (axis : Receiver → Option (Word × Word)),
    axis = (if isX then fun r => r.xAxis else fun r => r.yAxis) → s.cfg.ok = true → Ready s → Quiet s → s.rx.rxf = none →
    (Instr.cmd (if isX then s.cfg.opcCaset else s.cfg.opcRaset) n src).wellFormed = true →
    Readable s .w8 n.toNat src.toNat →
    exec (.cmd (if isX then s.cfg.opcCaset else s.cfg.opcRaset) n src) s = .next t → exec (.cmd op 0 src') t = .next u →
    t.rx.fm = s.rx.fm ∧ t.rx.rxf = (if 4 < n.toNat then some .extraParam else none) ∧
    (4 ≤ n.toNat → axis t.rx = groupAxis (hostList s .w8 n.toNat src.toNat) ∧ axis u.rx = axis t.rx) ∧
    (n.toNat < 4 → axis u.rx = none))

/-- R169, R168: the pixel write sequence of a rasterizer request is its sub-primitives' samples one after another, each window
in row-major order; the request sets no fault mark; and the frame memory is written in that order, a later write over an
earlier. Where a fault mark stands already there is no pixel observation, and nothing is said of the frame memory. -/
def Obligations.RasterPixelSequence : Prop :=
  ∀ (i : Instr) (s t : State), isRaster i = true → s.cfg.ok = true → Ready s → Quiet s →
    (∀ k ∈ planOf i, taskReadable s k) → exec i s = .next t →
    pixelObservation s t = (if s.rx.rxf = none then some ((planOf i).flatMap (taskPixels s)) else none) ∧
    t.rx.rxf = s.rx.rxf ∧
    (s.rx.rxf = none → t.rx.fm = ((planOf i).flatMap (taskPixels s)).foldl
      (fun m (p : Pixel) =>
        store m (fmKey (p.x + (s.cfg.xOffset : Int)).toNat (p.y + (s.cfg.yOffset : Int)).toNat) p.v) s.rx.fm)

/-! ### Raster primitives (42) -/

/-- R181, R182, R262: PIXEL emits the window group of its point and one pixel element and is OK, or emits nothing and is NOOP.
(The host's own writes land at its end: log 15.) -/
def Obligations.PixelResult : Prop :=
  ∀ (x y color : Word) (s : State), s.cfg.ok = true → Ready s → Quiet s →
    ∃ ok, ok = inPanel s.cfg (zint x) (zint y) ∧
    ∃ t, exec (.pixel x y color) s = .next t ∧
      Leaves s t
        (if ok then windowElems s.cfg (zint x) (zint y) (zint x) (zint y) ++ [pixelElem color] else []) ok (!ok)

/-- R183, R185: FILLRECT emits the window group and exactly N samples, all equal to the color, or nothing. -/
def Obligations.FillrectResult : Prop :=
  ∀ (x0 y0 x1 y1 color : Word) (s : State), s.cfg.ok = true → Ready s → Quiet s →
    ∃ ok, ok = accepts s.cfg (zint x0) (zint y0) (zint x1) (zint y1) ∧
    ∃ t, exec (.fillrect x0 y0 x1 y1 color) s = .next t ∧
      Leaves s t
        (if ok then windowElems s.cfg (zint x0) (zint y0) (zint x1) (zint y1) ++
          List.replicate ((x1.toNat - x0.toNat + 1) * (y1.toNat - y0.toNat + 1)) (pixelElem color) else []) ok (!ok)

/-- R125, R127, R128, R153, R180 to R186: the chunks of every request whose chunks complete: for each accepted window the five of
its group (1, 4, 1, 4 and 1 bytes), then those of the samples it guards: one for a Plot, as many as the cap asks for of a
BLIT's w × h elements, and of a Fill one for each block of B, or as many as the cap asks for from the held cell; for a rejected
one none. Each is asynchronous exactly where `ASYNC_AVAILABLE` and it has at least `BULK_MIN` elements (`recordOf`). FILLRECT
and BLIT are said in their own operands too. -/
def Obligations.FillChunks : Prop :=
  (∀ (c : Config) (w : Width) (len : Nat),
    (recordOf c w len).path = .async ↔ c.asyncAvailable = true ∧ c.bulkMin ≤ len) ∧
  (∀ (i : Instr) (s t : State), s.cfg.ok = true → Ready s → Quiet s → exec i s = .next t →
    newRecords s t = (planOf i).flatMap (taskRecords s.cfg)) ∧
  (∀ (x0 y0 x1 y1 color : Word) (s t : State), s.cfg.ok = true → Ready s → Quiet s →
    accepts s.cfg (zint x0) (zint y0) (zint x1) (zint y1) = true → exec (.fillrect x0 y0 x1 y1 color) s = .next t →
    newRecords s t = windowRecords s.cfg ++
      fillRecords s.cfg ((x1.toNat - x0.toNat + 1) * (y1.toNat - y0.toNat + 1))) ∧
  (∀ (x y w h : Word) (src : Long) (s t : State), s.cfg.ok = true → Ready s → Quiet s →
    accepts s.cfg (zint x) (zint y) (zint x + zint w - 1) (zint y + zint h - 1) = true →
    exec (.blit x y w h src) s = .next t →
    newRecords s t = windowRecords s.cfg ++ dataRecords s.cfg .w16 (w.toNat * h.toNat))

/-- R61, R152, R186, R262: BLIT emits the window group and the w × h elements of the buffer in order and is OK; a rejected one
reads nothing, emits nothing and is NOOP. (The host's own writes land at its end: log 15.) -/
def Obligations.BlitResult : Prop :=
  ∀ (x y w h : Word) (src : Long) (s : State) (ok : Bool), (Instr.blit x y w h src).wellFormed = true →
    s.cfg.ok = true → Ready s → Quiet s →
    ok = accepts s.cfg (zint x) (zint y) (zint x + zint w - 1) (zint y + zint h - 1) →
    (ok = true → Readable s .w16 (w.toNat * h.toNat) src.toNat) →
    ∃ t, exec (.blit x y w h src) s = .next t ∧
      Leaves s t
        (if ok then windowElems s.cfg (zint x) (zint y) (zint x + zint w - 1) (zint y + zint h - 1) ++
          (hostList s .w16 (w.toNat * h.toNat) src.toNat).map pixelElem else []) ok (!ok)

/-- R163, R164, R185, R168: after an accepted FILLRECT, where no fault mark stands, the frame memory holds the color at every
pixel of the rectangle, every other pixel is as before, and no fault mark is set. -/
def Obligations.FillrectPaints : Prop :=
  ∀ (x0 y0 x1 y1 color : Word) (s : State), s.cfg.ok = true → Ready s → Quiet s → s.rx.rxf = none →
    accepts s.cfg (zint x0) (zint y0) (zint x1) (zint y1) = true →
    ∃ t, exec (.fillrect x0 y0 x1 y1 color) s = .next t ∧ t.rx.rxf = none ∧
      ∀ px py : Nat, px + s.cfg.xOffset ≤ 65535 →
        t.rx.pixelAt s.cfg px py =
          if x0.toNat ≤ px ∧ px ≤ x1.toNat ∧ y0.toNat ≤ py ∧ py ≤ y1.toNat then some color
          else s.rx.pixelAt s.cfg px py

/-- R61, R163, R164, R186, R168: after an accepted BLIT, where no fault mark stands, the frame memory holds the buffer at the
rectangle, row after row, every other pixel is as before (§8's round trip), and no fault mark is set. -/
def Obligations.BlitRoundTrip : Prop :=
  ∀ (x y w h : Word) (src : Long) (s : State), (Instr.blit x y w h src).wellFormed = true → s.cfg.ok = true →
    Ready s → Quiet s → s.rx.rxf = none →
    accepts s.cfg (zint x) (zint y) (zint x + zint w - 1) (zint y + zint h - 1) = true →
    Readable s .w16 (w.toNat * h.toNat) src.toNat →
    ∃ t, exec (.blit x y w h src) s = .next t ∧ t.rx.rxf = none ∧
      (∀ dx dy : Nat, dx < w.toNat → dy < h.toNat →
        t.rx.pixelAt s.cfg (x.toNat + dx) (y.toNat + dy) =
          memRead s.cfg.hostEndian s.mem .w16 (src.toNat + 2 * (dy * w.toNat + dx))) ∧
      (∀ px py : Nat, px + s.cfg.xOffset ≤ 65535 →
        ¬ (x.toNat ≤ px ∧ px < x.toNat + w.toNat ∧ y.toNat ≤ py ∧ py < y.toNat + h.toNat) →
        t.rx.pixelAt s.cfg px py = s.rx.pixelAt s.cfg px py)

/-! ### Lines (43) -/

/-- R200 to R204: LINE is one filled rectangle when horizontal or vertical, with its ends ordered; else one plot for each
point of the line that lies nearest below the error threshold, in the order of R201. -/
def Obligations.LineResult : Prop :=
  ∀ (x0 y0 x1 y1 color : Word) (s : State), s.cfg.ok = true → Ready s → Quiet s →
    ∃ t, exec (.line x0 y0 x1 y1 color) s = .next t ∧
      Leaves s t (lineElems s.cfg color (zint x0) (zint y0) (zint x1) (zint y1))
        (lineAcc s.cfg (zint x0) (zint y0) (zint x1) (zint y1)) (lineRej s.cfg (zint x0) (zint y0) (zint x1) (zint y1))

/-- R204: a line and the line with its ends exchanged are the same request in every state. -/
def Obligations.LineEndsExchange : Prop :=
  ∀ (x0 y0 x1 y1 color : Word) (s : State), exec (.line x0 y0 x1 y1 color) s = exec (.line x1 y1 x0 y0 color) s

/-- R201 to R204, R40: the general line makes max(|x1 − x0|, |y1 − y0|) + 1 plots, from one end to the other, each at the walk
registers, axes exchanged back when steep. The line registers start at the left end with `err` at `dx div 2`; each pass, the
last too, takes `dy` off `err`, and where that is below zero moves `y` by `ystep` and puts `dx` on `err`; the next pass has the
next `x`; the others stand still. At every plot all are in R40's ranges. (After the last pass `x` stays, and `y` may be one past
its range: log 23.)
That the registers of State hold these values in turn is StepKeepsInv. -/
def Obligations.LinePlotCount : Prop :=
  ∀ (x0 y0 x1 y1 color : Word) (ps : List (Int × Int)) (rs : List LineRegs), x0 ≠ x1 → y0 ≠ y1 →
    ps = plottedPoints (planLine x0 y0 x1 y1 color) → rs = lineValues (planLine x0 y0 x1 y1 color) →
    (ps.length : Int) = max (absInt (zint x1 - zint x0)) (absInt (zint y1 - zint y0)) + 1 ∧
    ((ps.head? = some (zint x0, zint y0) ∧ ps.getLast? = some (zint x1, zint y1)) ∨
      (ps.head? = some (zint x1, zint y1) ∧ ps.getLast? = some (zint x0, zint y0))) ∧
    rs.length = ps.length + 1 ∧ ps = rs.dropLast.map (fun r => if r.steep then (r.y, r.x) else (r.x, r.y)) ∧
    (∀ r, rs.head? = some r → r.x = r.lx0 ∧ r.y = r.ly0 ∧ r.err = r.dx / 2) ∧
    (∀ (k : Nat) (r q : LineRegs), rs[k]? = some r → rs[k + 1]? = some q →
      q = { r with
        x := if k + 1 < ps.length then r.x + 1 else r.x
        y := if r.err - r.dy < 0 then r.y + r.ystep else r.y
        err := if r.err - r.dy < 0 then r.err - r.dy + r.dx else r.err - r.dy }) ∧
    (∀ r ∈ rs.dropLast, r.steep = decide (absInt (zint y1 - zint y0) > absInt (zint x1 - zint x0)) ∧
      r.dx = r.lx1 - r.lx0 ∧ r.dy = absInt (r.ly1 - r.ly0) ∧ r.ystep = (if r.ly0 < r.ly1 then 1 else -1) ∧
      0 ≤ r.lx0 ∧ r.lx1 ≤ 65535 ∧ 0 ≤ r.ly0 ∧ r.ly0 ≤ 65535 ∧ 0 ≤ r.ly1 ∧ r.ly1 ≤ 65535 ∧
      1 ≤ r.dx ∧ r.dx ≤ 65535 ∧ 1 ≤ r.dy ∧ r.dy ≤ 65535 ∧ 0 ≤ r.err ∧ r.err < r.dx ∧
      r.lx0 ≤ r.x ∧ r.x ≤ r.lx1 ∧ min r.ly0 r.ly1 ≤ r.y ∧ r.y ≤ max r.ly0 r.ly1)

/-- R205: RECT fills its top, left, bottom and right edges in that order, each with its ends ordered, each whole or not at
all, also where x0 = x1 or y0 = y1 (where R205's corner case counts otherwise: log 24). -/
def Obligations.RectResult : Prop :=
  ∀ (x0 y0 x1 y1 color : Word) (s : State) (bs : List Box), s.cfg.ok = true → Ready s → Quiet s →
    bs = [edge (zint x0) (zint y0) (zint x1) (zint y0), edge (zint x0) (zint y0) (zint x0) (zint y1),
      edge (zint x0) (zint y1) (zint x1) (zint y1), edge (zint x1) (zint y0) (zint x1) (zint y1)] →
    ∃ t, exec (.rect x0 y0 x1 y1 color) s = .next t ∧
      Leaves s t (bs.flatMap (Box.elems s.cfg color)) (bs.any (Box.accepted s.cfg))
        (bs.any fun b => !b.accepted s.cfg)

/-- R206: TRI draws the lines 1→2, 2→3 and 3→1 in that order. -/
def Obligations.TriResult : Prop :=
  ∀ (x1 y1 x2 y2 x3 y3 color : Word) (s : State), s.cfg.ok = true → Ready s → Quiet s →
    ∃ t, exec (.tri x1 y1 x2 y2 x3 y3 color) s = .next t ∧
      Leaves s t
        (lineElems s.cfg color (zint x1) (zint y1) (zint x2) (zint y2) ++
          lineElems s.cfg color (zint x2) (zint y2) (zint x3) (zint y3) ++
          lineElems s.cfg color (zint x3) (zint y3) (zint x1) (zint y1))
        (lineAcc s.cfg (zint x1) (zint y1) (zint x2) (zint y2) || lineAcc s.cfg (zint x2) (zint y2) (zint x3) (zint y3) ||
          lineAcc s.cfg (zint x3) (zint y3) (zint x1) (zint y1))
        (lineRej s.cfg (zint x1) (zint y1) (zint x2) (zint y2) || lineRej s.cfg (zint x2) (zint y2) (zint x3) (zint y3) ||
          lineRej s.cfg (zint x3) (zint y3) (zint x1) (zint y1))

/-! ### Circles (44) -/

/-- R220, for CIRCLE and FCIRCLE alike: the circle registers start at (x, y) = (0, r); each step raises x by 1, and lowers y by
1 exactly when f ≥ 0; and in every value they take the decision variable is (x + 1)² + y² − y − r², the two increments are
2x + 1 and −2y, and x and y are in R40's ranges.
That the registers of State hold these values in turn is StepKeepsInv. -/
def Obligations.CircleDecisionVariable : Prop :=
  ∀ (xc yc r color : Word) (cs : List CircleRegs), cs = circleValues (planCircle xc yc r color) →
    circleValues (planFcircle xc yc r color) = cs ∧
    (∀ c, cs.head? = some c → c.x = 0 ∧ c.y = zint r) ∧
    (∀ (k : Nat) (c d : CircleRegs), cs[k]? = some c → cs[k + 1]? = some d →
      d.x = c.x + 1 ∧ d.y = (if 0 ≤ c.f then c.y - 1 else c.y)) ∧
    (∀ c ∈ cs, c.f = (c.x + 1) * (c.x + 1) + c.y * c.y - c.y - zint r * zint r ∧ c.ddFx = 2 * c.x + 1 ∧
      c.ddFy = -2 * c.y ∧ 0 ≤ c.x ∧ c.x ≤ 65535 ∧ 0 ≤ c.y ∧ c.y ≤ 65535)

/-- R221: the loop makes as many steps (R220's, which CircleDecisionVariable says) as the least k with x ≥ y, and terminates:
at most r. -/
def Obligations.CircleLoopBound : Prop :=
  ∀ (xc yc r color : Word), ∃ n ≤ r.toNat,
    circleValues (planCircle xc yc r color) =
      (List.range (n + 1)).map (fun k => Nat.iterate circleNext k (circleStart (zint r))) ∧
    (∀ k < n, (Nat.iterate circleNext k (circleStart (zint r))).x < (Nat.iterate circleNext k (circleStart (zint r))).y) ∧
    (Nat.iterate circleNext n (circleStart (zint r))).y ≤ (Nat.iterate circleNext n (circleStart (zint r))).x

/-- R222, R223: CIRCLE plots the four seeds, then the eight points of each step, each clipped by itself. -/
def Obligations.CircleResult : Prop :=
  ∀ (xc yc r color : Word) (s : State) (ps : List (Int × Int)), s.cfg.ok = true → Ready s → Quiet s →
    ps = circleOutline (zint xc) (zint yc) (zint r) →
    ∃ t, exec (.circle xc yc r color) s = .next t ∧
      Leaves s t (ps.flatMap (plotElems s.cfg color)) (anyIn s.cfg ps) (anyOut s.cfg ps)

/-- R223: the set of points a circle plots is invariant under the reflections about its centre. -/
def Obligations.CircleSymmetry : Prop :=
  ∀ (xc yc r color : Word) (dx dy : Int) (ps : List (Int × Int)), ps = plottedPoints (planCircle xc yc r color) →
    (zint xc + dx, zint yc + dy) ∈ ps →
    (zint xc - dx, zint yc + dy) ∈ ps ∧ (zint xc + dx, zint yc - dy) ∈ ps ∧ (zint xc + dy, zint yc + dx) ∈ ps

/-- R224, R225: FCIRCLE fills the centre row, then the four rows of each step, each whole or not at all. -/
def Obligations.FcircleResult : Prop :=
  ∀ (xc yc r color : Word) (s : State) (bs : List Box), s.cfg.ok = true → Ready s → Quiet s →
    bs = circleRows (zint xc) (zint yc) (zint r) →
    ∃ t, exec (.fcircle xc yc r color) s = .next t ∧
      Leaves s t (bs.flatMap (Box.elems s.cfg color)) (bs.any (Box.accepted s.cfg))
        (bs.any fun b => !b.accepted s.cfg)

/-! ### The filled triangle (45) -/

/-- R240, R242: FTRI draws a line to vertex 3 from each walking point, in order. -/
def Obligations.FtriResult : Prop :=
  ∀ (x1 y1 x2 y2 x3 y3 color : Word) (s : State) (ps : List (Int × Int)), s.cfg.ok = true → Ready s → Quiet s →
    ps = walkPoints (zint x1) (zint y1) (zint x2) (zint y2) →
    ∃ t, exec (.ftri x1 y1 x2 y2 x3 y3 color) s = .next t ∧
      Leaves s t (ps.flatMap fun p => lineElems s.cfg color p.1 p.2 (zint x3) (zint y3))
        (ps.any fun p => lineAcc s.cfg p.1 p.2 (zint x3) (zint y3))
        (ps.any fun p => lineRej s.cfg p.1 p.2 (zint x3) (zint y3))

/-- R240, R241: there are `numpixels` + 1 passes, and at the last, `curpixel = numpixels`, the walking point is vertex 2. Each
pass, the last too, puts `numadd` on `num`, and where that reaches `den` takes `den` off and moves the point by the first
increments; then it moves the point by the second. (That `curpixel` counts on after the last pass: log 25.)
That the registers of State hold these values in turn is StepKeepsInv. -/
def Obligations.FtriWalkEndsOnVertex : Prop :=
  ∀ (x1 y1 x2 y2 x3 y3 color : Word) (rs : List TriRegs), rs = triValues (planFtri x1 y1 x2 y2 x3 y3 color) →
    ∃ m : Nat, (m : Int) = max (absInt (zint x2 - zint x1)) (absInt (zint y2 - zint y1)) ∧ rs.length = m + 2 ∧
      (∀ (k : Nat) (r : TriRegs), rs[k]? = some r → r.curpixel = k ∧ r.numpixels = m) ∧
      (∃ r, rs[m]? = some r ∧ r.x = zint x2 ∧ r.y = zint y2) ∧
      (∀ (k : Nat) (r q : TriRegs), rs[k]? = some r → rs[k + 1]? = some q →
        q = { r with
          num := if r.den ≤ r.num + r.numadd then r.num + r.numadd - r.den else r.num + r.numadd
          x := (if r.den ≤ r.num + r.numadd then r.x + r.xinc1 else r.x) + r.xinc2
          y := (if r.den ≤ r.num + r.numadd then r.y + r.yinc1 else r.y) + r.yinc2
          curpixel := r.curpixel + 1 })

/-! ### Outcomes (60) -/

/-- R260, R262: an outcome comes only from its cause: a transport code only where the configuration allows it, PARTIAL only from
the requests with several sub-primitives, NOOP from none that opens no window, each with its flags, OK only with no rejected
window, and ILLEGAL from no decoded request; also of a request that ends in a later step, after a hold. The flags are read in the
state after the request's end: R156 changes them nowhere else, R40 leaves them unspecified there, and that they are kept is the
model's choice (log 31). (A request that a reset abandons leaves the code of OK whatever its windows, R291; that `REJ` is 0 then is
log 3.) -/
def Obligations.OutcomesHaveCauses : Prop :=
  (∀ (i : Instr) (s t : State), exec i s = .next t → t.busy = false → Caused i s t) ∧
  (∀ s t : State, Inv s → s.busy = true → step s = .next t → t.busy = false →
    ∃ i, decode s.req = .ok i ∧ Caused i s t)

/-- R263, R264, R266: DATA.8 and DATA.16 whose chunk j fails put on the wire the earlier chunks and a prefix of that one,
shorter than it, and abort with XFER_FAIL, also where a timeout is reported with the failure; and so does any request whose
chunk is held on the bus when its failure is reported, with a prefix of that chunk. DC stays as driven for the chunk, also
where none of it was sent (R34, R38, R128; log 10). -/
def Obligations.FailedChunkAborts : Prop :=
  (∀ (w : Width) (n src : Long) (s : State) (i : Instr) (j k : Nat) (rest : List BusReport),
    i = (match w with | .w8 => Instr.data8 n src | .w16 => Instr.data16 n src) → i.wellFormed = true →
    s.cfg.transportMayFail = true → Ready s → Readable s w n.toNat src.toNat → 65535 * j < n.toNat →
    (s.reports = List.replicate j .done ++ .failed k :: rest ∨
      s.reports = List.replicate j .done ++ .failedAndTimedOut k :: rest) →
    ∃ t, exec i s = .next t ∧ t.dcOut = .data ∧
      Aborts s t
        (((hostList s w n.toNat src.toNat).take (65535 * j + min k (min 65535 (n.toNat - 65535 * j) - 1))).map
          (mkElem .data w)) .xferFail) ∧
  (∀ (s : State) (c : Chunk) (todo : List Atom) (vs : List Word) (k : Nat) (rest : List BusReport), s.cfg.ok = true →
    s.resetIn = none → s.phase = .running (.await c :: todo) → s.csOut = true → chunkValues c s = .ok vs →
    s.cfg.transportMayFail = true → (s.reports = .failed k :: rest ∨ s.reports = .failedAndTimedOut k :: rest) →
    ∃ t, step s = .next t ∧ t.dcOut = s.dcOut ∧
      Aborts s t ((vs.take (min k (c.len - 1))).map (mkElem s.dcOut c.width)) .xferFail)

/-- R265, R266: DATA.8 and DATA.16 whose asynchronous chunk j times out put on the wire the earlier chunks and a prefix of
that one, shorter than it, and abort with TIMEOUT; and so does any request at any step of the hold on an asynchronous chunk,
with a prefix of that chunk. DC stays as driven for the chunk, also where none of it was sent (R34, R38, R128; log 10). -/
def Obligations.TimedOutChunkAborts : Prop :=
  (∀ (w : Width) (n src : Long) (s : State) (i : Instr) (j k len : Nat) (rest : List BusReport),
    i = (match w with | .w8 => Instr.data8 n src | .w16 => Instr.data16 n src) → i.wellFormed = true →
    len = min 65535 (n.toNat - 65535 * j) → s.cfg.asyncTimeout = true → s.cfg.asyncAvailable = true →
    s.cfg.bulkMin ≤ len → Ready s → Readable s w n.toNat src.toNat → 65535 * j < n.toNat →
    s.reports = List.replicate j .done ++ .timedOut k :: rest →
    ∃ t, exec i s = .next t ∧ t.dcOut = .data ∧
      Aborts s t
        (((hostList s w n.toNat src.toNat).take (65535 * j + min k (len - 1))).map (mkElem .data w)) .timeout) ∧
  (∀ (s : State) (c : Chunk) (todo : List Atom) (vs : List Word) (k : Nat) (rest : List BusReport), s.cfg.ok = true →
    s.resetIn = none → s.phase = .running (.await c :: todo) → c.path = .async → s.csOut = true →
    chunkValues c s = .ok vs → s.cfg.asyncTimeout = true → s.reports = .timedOut k :: rest →
    ∃ t, step s = .next t ∧ t.dcOut = s.dcOut ∧
      Aborts s t ((vs.take (min k (c.len - 1))).map (mkElem s.dcOut c.width)) .timeout)

/-- R264 to R267, R126, R291: whatever the bus reports of its chunks, a request that can read its memory runs to its end with all
its elements, or stops with a prefix of them on the wire: aborted or held on a chunk, short of them all and with DC at the
level of the next (R38, R127, R128; with nothing of the chunk sent: log 10), or reset. And whatever it reports short of never
completing one and of a reset, the presented request ends, after holds of any number of steps: with all its elements, or
aborted with a prefix of them. (The reports, and that no more steps are taken than they ask for: log 7.) -/
def Obligations.AbortSendsPrefix : Prop :=
  (∀ (i : Instr) (s : State) (es : List Elem), s.cfg.ok = true → Ready s → (∀ k ∈ planOf i, taskReadable s k) →
    es = (planOf i).flatMap (taskElems s) →
    ∃ t, exec i s = .next t ∧
      (Leaves s t es (planAcc s.cfg (planOf i)) (planRej s.cfg (planOf i)) ∨
        (∃ (sent : List Elem) (e : Elem), sent ++ [e] <+: es ∧ t.dcOut = e.dc ∧
          (Aborts s t sent .xferFail ∨ Aborts s t sent .timeout ∨ Holds s t sent)) ∨
        ∃ sent : List Elem, sent <+: es ∧ Resets s t ∧
          t.wire = s.wire ++ .cs true :: sent.map WireItem.elem ++ [.cs false])) ∧
  (∀ (i : Instr) (s a : State) (later : List Desc) (es : List Elem), s.cfg.ok = true → s.resetIn = none →
    s.phase = .idle → i.wellFormed = true → s.port = encode i :: later → Ready s → (∀ k ∈ planOf i, taskReadable s k) →
    (∀ r ∈ s.reports, r ≠ .never ∧ ∀ k, r ≠ .reset k) → es = (planOf i).flatMap (taskElems s) →
    a = accept (encode i) later s →
    ∃ (k : Nat) (t : State), k ≤ s.reports.length ∧ Sys2Proof.core.run (k + 1) s = .next t ∧
      (Leaves a t es (planAcc s.cfg (planOf i)) (planRej s.cfg (planOf i)) ∨
        ∃ (sent : List Elem) (e : Elem), sent ++ [e] <+: es ∧ t.dcOut = e.dc ∧
          (Aborts a t sent .xferFail ∨ Aborts a t sent .timeout)))

/-! ### Reset, waiting and steps (70) -/

/-- R290, R291: the reset input at any point: the RGE takes its reset values, the configuration and the port stay, and the
wire gains only a prefix of a chunk in flight and the release of chip select. Between two steps; and inside one, while chunk j
of DATA.8 or DATA.16 is on the bus, after the earlier chunks; and while any chunk is held. (The length of the prefix is an
input: logs 7 and 22; that a chunk in flight which cannot be read leaves none, whatever the input, is the model's choice: log
33; what is left of the reports: log 26; that host memory has the host's own writes then: log 15.) -/
def Obligations.ResetInput : Prop :=
  (∀ (s : State) (sent : Nat), s.cfg.ok = true → s.resetIn = some sent →
    ∃ t, step s = .next t ∧ Resets s t ∧
      t.wire = s.wire ++ (inFlight sent s).map WireItem.elem ++ (if s.csOut then [.cs false] else [])) ∧
  (∀ (w : Width) (n src : Long) (s : State) (i : Instr) (j k : Nat) (rest : List BusReport),
    i = (match w with | .w8 => Instr.data8 n src | .w16 => Instr.data16 n src) → i.wellFormed = true → Ready s →
    Readable s w n.toNat src.toNat → 65535 * j < n.toNat → s.reports = List.replicate j .done ++ .reset k :: rest →
    ∃ t, exec i s = .next t ∧ Resets s t ∧
      t.wire = s.wire ++ .cs true ::
        (((hostList s w n.toNat src.toNat).take (65535 * j + min k (min 65535 (n.toNat - 65535 * j)))).map
          (mkElem .data w)).map WireItem.elem ++ [.cs false]) ∧
  (∀ (s : State) (c : Chunk) (todo : List Atom) (vs : List Word) (k : Nat) (rest : List BusReport), s.cfg.ok = true →
    s.resetIn = none → s.phase = .running (.await c :: todo) → s.csOut = true → chunkValues c s = .ok vs →
    s.reports = .reset k :: rest →
    ∃ t, step s = .next t ∧ Resets s t ∧
      t.wire = s.wire ++ ((vs.take (min k c.len)).map (mkElem s.dcOut c.width)).map WireItem.elem ++ [.cs false])

/-- R277, R76: an idle RGE with nothing presented waits: all its state persists; and the host's own writes land at once, which is
the model's choice (log 15). -/
def Obligations.IdleWaits : Prop :=
  ∀ s : State, s.cfg.ok = true → s.resetIn = none → s.phase = .idle → s.port = [] →
    step s = .next { s with mem := s.mem.writes s.hostWrites, hostWrites := [] }

/-- R307: a request whose chunks complete, some after any number of steps, ends after finitely many steps, with all its elements
on the wire: no more than one and one for each report, by the model's list of reports (log 7). -/
def Obligations.DelayedRequestEnds : Prop :=
  ∀ (i : Instr) (s : State) (later : List Desc), s.cfg.ok = true → s.resetIn = none → s.phase = .idle →
    i.wellFormed = true → s.port = encode i :: later → Ready s → (∀ k ∈ planOf i, taskReadable s k) →
    (∀ r ∈ s.reports, r = .done ∨ r = .pending) →
    ∃ (k : Nat) (t : State), k ≤ s.reports.length ∧ Sys2Proof.core.run (k + 1) s = .next t ∧ t.busy = false ∧
      t.wire = s.wire ++ transaction ((planOf i).flatMap (taskElems s)) ∧
      t.outcome = outcomeOf (planAcc s.cfg (planOf i)) (planRej s.cfg (planOf i))

/-- R307: a step of the machine is a finite run of atomic steps, each with its own registers in between: the model's `step` and
its `tick` agree (logs 8 and 27). -/
def Obligations.StepIsAtomicSteps : Prop := ∀ s : State, ∃ k, 1 ≤ k ∧ ticks k s = step s
end

