-- ==== Sys2Proof/Laws/Encoding.lean ====
section
/-! SUPPORT. The words of a descriptor given by its words (R91), and a descriptor given by its own words: what decoding and
encoding are compared by. -/

namespace Sys2Proof

section words

variable (w0 w1 w2 w3 w4 w5 w6 w7 : Word)

@[simp] theorem word_ofWords_0 : (Desc.ofWords w0 w1 w2 w3 w4 w5 w6 w7).word 0 = w0 := by
  unfold Desc.word Desc.ofWords
  rw [BitVec.extractLsb'_append_eq_of_add_le (w := 112) (by decide),
    BitVec.extractLsb'_append_eq_of_add_le (w := 96) (by decide),
    BitVec.extractLsb'_append_eq_of_add_le (w := 80) (by decide),
    BitVec.extractLsb'_append_eq_of_add_le (w := 64) (by decide),
    BitVec.extractLsb'_append_eq_of_add_le (w := 48) (by decide),
    BitVec.extractLsb'_append_eq_of_add_le (w := 32) (by decide),
    BitVec.extractLsb'_append_eq_of_add_le (w := 16) (by decide)]
  exact BitVec.extractLsb'_eq_self

@[simp] theorem word_ofWords_1 : (Desc.ofWords w0 w1 w2 w3 w4 w5 w6 w7).word 1 = w1 := by
  unfold Desc.word Desc.ofWords
  rw [BitVec.extractLsb'_append_eq_of_add_le (w := 112) (by decide),
    BitVec.extractLsb'_append_eq_of_add_le (w := 96) (by decide),
    BitVec.extractLsb'_append_eq_of_add_le (w := 80) (by decide),
    BitVec.extractLsb'_append_eq_of_add_le (w := 64) (by decide),
    BitVec.extractLsb'_append_eq_of_add_le (w := 48) (by decide),
    BitVec.extractLsb'_append_eq_of_add_le (w := 32) (by decide),
    BitVec.extractLsb'_append_eq_of_le (w := 16) (by decide)]
  exact BitVec.extractLsb'_eq_self

@[simp] theorem word_ofWords_2 : (Desc.ofWords w0 w1 w2 w3 w4 w5 w6 w7).word 2 = w2 := by
  unfold Desc.word Desc.ofWords
  rw [BitVec.extractLsb'_append_eq_of_add_le (w := 112) (by decide),
    BitVec.extractLsb'_append_eq_of_add_le (w := 96) (by decide),
    BitVec.extractLsb'_append_eq_of_add_le (w := 80) (by decide),
    BitVec.extractLsb'_append_eq_of_add_le (w := 64) (by decide),
    BitVec.extractLsb'_append_eq_of_add_le (w := 48) (by decide),
    BitVec.extractLsb'_append_eq_of_le (w := 32) (by decide)]
  exact BitVec.extractLsb'_eq_self

@[simp] theorem word_ofWords_3 : (Desc.ofWords w0 w1 w2 w3 w4 w5 w6 w7).word 3 = w3 := by
  unfold Desc.word Desc.ofWords
  rw [BitVec.extractLsb'_append_eq_of_add_le (w := 112) (by decide),
    BitVec.extractLsb'_append_eq_of_add_le (w := 96) (by decide),
    BitVec.extractLsb'_append_eq_of_add_le (w := 80) (by decide),
    BitVec.extractLsb'_append_eq_of_add_le (w := 64) (by decide),
    BitVec.extractLsb'_append_eq_of_le (w := 48) (by decide)]
  exact BitVec.extractLsb'_eq_self

@[simp] theorem word_ofWords_4 : (Desc.ofWords w0 w1 w2 w3 w4 w5 w6 w7).word 4 = w4 := by
  unfold Desc.word Desc.ofWords
  rw [BitVec.extractLsb'_append_eq_of_add_le (w := 112) (by decide),
    BitVec.extractLsb'_append_eq_of_add_le (w := 96) (by decide),
    BitVec.extractLsb'_append_eq_of_add_le (w := 80) (by decide),
    BitVec.extractLsb'_append_eq_of_le (w := 64) (by decide)]
  exact BitVec.extractLsb'_eq_self

@[simp] theorem word_ofWords_5 : (Desc.ofWords w0 w1 w2 w3 w4 w5 w6 w7).word 5 = w5 := by
  unfold Desc.word Desc.ofWords
  rw [BitVec.extractLsb'_append_eq_of_add_le (w := 112) (by decide),
    BitVec.extractLsb'_append_eq_of_add_le (w := 96) (by decide),
    BitVec.extractLsb'_append_eq_of_le (w := 80) (by decide)]
  exact BitVec.extractLsb'_eq_self

@[simp] theorem word_ofWords_6 : (Desc.ofWords w0 w1 w2 w3 w4 w5 w6 w7).word 6 = w6 := by
  unfold Desc.word Desc.ofWords
  rw [BitVec.extractLsb'_append_eq_of_add_le (w := 112) (by decide),
    BitVec.extractLsb'_append_eq_of_le (w := 96) (by decide)]
  exact BitVec.extractLsb'_eq_self

@[simp] theorem word_ofWords_7 : (Desc.ofWords w0 w1 w2 w3 w4 w5 w6 w7).word 7 = w7 := by
  unfold Desc.word Desc.ofWords
  rw [BitVec.extractLsb'_append_eq_of_le (w := 112) (by decide)]
  exact BitVec.extractLsb'_eq_self

/-- A byte of the first word, at its own place in the descriptor. -/
theorem extract_first (k : Nat) (h : k + 8 ≤ 16) :
    (Desc.ofWords w0 w1 w2 w3 w4 w5 w6 w7).extractLsb' k 8 = w0.extractLsb' k 8 := by
  unfold Desc.ofWords
  rw [BitVec.extractLsb'_append_eq_of_add_le (w := 112) (by omega),
    BitVec.extractLsb'_append_eq_of_add_le (w := 96) (by omega),
    BitVec.extractLsb'_append_eq_of_add_le (w := 80) (by omega),
    BitVec.extractLsb'_append_eq_of_add_le (w := 64) (by omega),
    BitVec.extractLsb'_append_eq_of_add_le (w := 48) (by omega),
    BitVec.extractLsb'_append_eq_of_add_le (w := 32) (by omega),
    BitVec.extractLsb'_append_eq_of_add_le (w := 16) (by omega)]

@[simp] theorem op_ofWords : (Desc.ofWords w0 w1 w2 w3 w4 w5 w6 w7).op = w0.extractLsb' 0 8 :=
  extract_first w0 w1 w2 w3 w4 w5 w6 w7 0 (by decide)

@[simp] theorem sub_ofWords : (Desc.ofWords w0 w1 w2 w3 w4 w5 w6 w7).sub = w0.extractLsb' 8 8 :=
  extract_first w0 w1 w2 w3 w4 w5 w6 w7 8 (by decide)

end words

/-- A descriptor is its eight words (R91). -/
theorem ofWords_words (d : Desc) :
    Desc.ofWords (d.word 0) (d.word 1) (d.word 2) (d.word 3) (d.word 4) (d.word 5) (d.word 6) (d.word 7) = d := by
  unfold Desc.ofWords Desc.word
  have h : ∀ k, BitVec.extractLsb' (16 * (k + 1)) 16 d ++ BitVec.extractLsb' 0 (16 * (k + 1)) d =
      BitVec.extractLsb' 0 (16 + 16 * (k + 1)) d := fun k => by
    rw [BitVec.extractLsb'_append_extractLsb'_eq_extractLsb' (by omega)]
  exact ((congrArg _ ((congrArg _ ((congrArg _ ((congrArg _ ((congrArg _ ((congrArg _ (h 0)).trans (h 1))).trans (h 2))).trans
    (h 3))).trans (h 4))).trans (h 5))).trans (h 6)).trans BitVec.extractLsb'_eq_self

/-- The first word is its two bytes (R92). -/
theorem sub_append_op (d : Desc) : (d.sub ++ d.op : Word) = d.word 0 := by
  unfold Desc.sub Desc.op Desc.word
  rw [BitVec.extractLsb'_append_extractLsb'_eq_extractLsb' (by omega)]

@[simp] theorem first_byte_append (a b : Byte) : (a ++ b : Word).extractLsb' 0 8 = b := by
  rw [BitVec.extractLsb'_append_eq_of_add_le (w := 8) (by omega)]
  exact BitVec.extractLsb'_eq_self

@[simp] theorem second_byte_append (a b : Byte) : (a ++ b : Word).extractLsb' 8 8 = a := by
  rw [BitVec.extractLsb'_append_eq_of_le (w := 8) (by omega)]
  exact BitVec.extractLsb'_eq_self

/-- A 32-bit operand is its two halves (R95). -/
@[simp] theorem hi_append_lo (v : Long) : (hi v ++ lo v : Long) = v := by
  unfold hi lo
  exact (BitVec.extractLsb'_append_extractLsb'_eq_extractLsb' (by omega)).trans BitVec.extractLsb'_eq_self

@[simp] theorem lo_append (a b : Word) : lo (a ++ b) = b := by
  unfold lo
  rw [BitVec.extractLsb'_append_eq_of_add_le (w := 16) (by omega)]
  exact BitVec.extractLsb'_eq_self

@[simp] theorem hi_append (a b : Word) : hi (a ++ b) = a := by
  unfold hi
  rw [BitVec.extractLsb'_append_eq_of_le (w := 16) (by omega)]
  exact BitVec.extractLsb'_eq_self

end Sys2Proof
end

