-- ==== Sys2Proof/Laws/Memory.lean ====
section
/-! SUPPORT. The laws of `lookup` and `store`: a read after a write, and the canonical form every memory operation keeps. -/

namespace Sys2Proof.Machine

@[simp] theorem lookup_nil {α : Type} (k : Nat) : lookup ([] : List (Nat × α)) k = none := rfl

theorem lookup_cons {α : Type} (p : Nat × α) (l : List (Nat × α)) (k : Nat) :
    lookup (p :: l) k = if p.1 = k then some p.2 else lookup l k := rfl

theorem rising_cons_iff {α : Type} (p : Nat × α) (l : List (Nat × α)) :
    rising (p :: l) = true ↔ (∀ q ∈ l, p.1 < q.1) ∧ rising l = true := by
  induction l generalizing p with
  | nil => simp [rising]
  | cons q l ih =>
    simp only [rising, Bool.and_eq_true, decide_eq_true_eq, List.mem_cons, forall_eq_or_imp]
    constructor
    · rintro ⟨h, hr⟩
      exact ⟨⟨h, fun r hm => lt_trans h (((ih q).1 hr).1 r hm)⟩, hr⟩
    · rintro ⟨⟨h, -⟩, hr⟩
      exact ⟨h, hr⟩

/-- Reading the key just written gives the value written. -/
@[simp] theorem lookup_store_self {α : Type} (l : List (Nat × α)) (k : Nat) (v : α) :
    lookup (store l k v) k = some v := by
  induction l with
  | nil => simp [store, lookup]
  | cons p l ih =>
    simp only [store]
    split
    · simp [lookup]
    · split
      · simp [lookup]
      · rename_i h1 h2
        have : p.1 ≠ k := fun h => h2 h.symm
        simp [lookup, this, ih]

/-- A write leaves every other key alone. -/
theorem lookup_store_ne {α : Type} (l : List (Nat × α)) {k a : Nat} (v : α) (h : a ≠ k) :
    lookup (store l k v) a = lookup l a := by
  induction l with
  | nil => simp [store, lookup, Ne.symm h]
  | cons p l ih =>
    simp only [store]
    split
    · simp [lookup, Ne.symm h]
    · split
      · rename_i _ hk
        simp [lookup, ← hk, Ne.symm h]
      · simp [lookup, ih]

theorem mem_store {α : Type} (l : List (Nat × α)) (k : Nat) (v : α) (q : Nat × α) (h : q ∈ store l k v) :
    q = (k, v) ∨ q ∈ l := by
  induction l with
  | nil => simpa [store] using h
  | cons p l ih =>
    simp only [store] at h
    split at h
    · simpa using h
    · split at h
      · rcases List.mem_cons.1 h with rfl | h
        · exact .inl rfl
        · exact .inr (List.mem_cons_of_mem _ h)
      · rcases List.mem_cons.1 h with rfl | h
        · simp
        · rcases ih h with rfl | h
          · exact .inl rfl
          · exact .inr (List.mem_cons_of_mem _ h)

/-- A write keeps the keys strictly rising. -/
theorem rising_store {α : Type} (l : List (Nat × α)) (k : Nat) (v : α) (h : rising l = true) :
    rising (store l k v) = true := by
  induction l with
  | nil => rfl
  | cons p l ih =>
    have hp := (rising_cons_iff p l).1 h
    simp only [store]
    split
    · rename_i hk
      refine (rising_cons_iff _ _).2 ⟨fun q hq => ?_, h⟩
      rcases List.mem_cons.1 hq with rfl | hq
      · exact hk
      · exact lt_trans hk (hp.1 q hq)
    · split
      · rename_i _ hk
        exact (rising_cons_iff _ _).2 ⟨fun q hq => by simpa [hk] using hp.1 q hq, hp.2⟩
      · rename_i h1 h2
        refine (rising_cons_iff _ _).2 ⟨fun q hq => ?_, ih hp.2⟩
        rcases mem_store l k v q hq with rfl | hq
        · simp only
          omega
        · exact hp.1 q hq

theorem Memory.wf_iff (m : Memory) : Memory.wf m = true ↔ rising m = true ∧ ∀ c ∈ m, c.1 < 2 ^ 32 := by
  simp [Memory.wf]

/-- A host write keeps the canonical form. -/
theorem Memory.wf_write {m : Memory} (h : Memory.wf m = true) (a : Nat) (v : Byte) :
    Memory.wf (Memory.write m a v) = true := by
  rw [Memory.wf_iff] at *
  simp only [Memory.write]
  split
  · rename_i ha
    refine ⟨rising_store m a v h.1, fun c hc => ?_⟩
    rcases mem_store m a v c hc with rfl | hc
    · exact ha
    · exact h.2 c hc
  · exact h

/-- The host's writes keep the canonical form. -/
theorem Memory.wf_writes {m : Memory} (h : Memory.wf m = true) (cs : List Host.Cell) :
    Memory.wf (Memory.writes m cs) = true := by
  induction cs generalizing m with
  | nil => exact h
  | cons c cs ih => exact ih (Memory.wf_write h c.1 c.2)

/-- Reading a byte the host has just written. -/
theorem Memory.read_write_self (m : Memory) {a : Nat} (v : Byte) (h : a < 2 ^ 32) :
    Memory.read (Memory.write m a v) a = some v := by
  rw [Memory.read, Memory.write, if_pos h, lookup_store_self]

/-- A host write leaves every other byte alone. -/
theorem Memory.read_write_ne (m : Memory) {a b : Nat} (v : Byte) (h : b ≠ a) :
    Memory.read (Memory.write m a v) b = Memory.read m b := by
  simp only [Memory.read, Memory.write]
  split
  · exact lookup_store_ne m v h
  · rfl

/-- The host's writes leave every byte they do not name alone. -/
theorem Memory.read_writes_ne (m : Memory) (cs : List Host.Cell) {b : Nat} (h : ∀ c ∈ cs, c.1 ≠ b) :
    Memory.read (Memory.writes m cs) b = Memory.read m b := by
  induction cs generalizing m with
  | nil => rfl
  | cons c cs ih =>
    have := ih (Memory.write m c.1 c.2) fun d hd => h d (List.mem_cons_of_mem _ hd)
    exact this.trans (Memory.read_write_ne m c.2 (Ne.symm (h c (List.mem_cons_self ..))))

@[simp] theorem Memory.writes_nil (m : Memory) : Memory.writes m [] = m := rfl

end Sys2Proof.Machine
end

