-- ==== Sys2Proof/Laws/State.lean ====
section
/-! SUPPORT. What each write of one register leaves in each field of the state: one lemma per field per update, by rfl. -/

namespace Sys2Proof.Machine

variable (s : State)

@[simp] theorem State.setWw_cfg (w : Width) : (s.setWw w).cfg = s.cfg := rfl
@[simp] theorem State.setWw_ww (w : Width) : (s.setWw w).ww = w := rfl
@[simp] theorem State.setWw_outcome (w : Width) : (s.setWw w).outcome = s.outcome := rfl
@[simp] theorem State.setWw_csOut (w : Width) : (s.setWw w).csOut = s.csOut := rfl
@[simp] theorem State.setWw_dcOut (w : Width) : (s.setWw w).dcOut = s.dcOut := rfl
@[simp] theorem State.setWw_asyncInflight (w : Width) : (s.setWw w).asyncInflight = s.asyncInflight := rfl
@[simp] theorem State.setWw_req (w : Width) : (s.setWw w).req = s.req := rfl
@[simp] theorem State.setWw_phase (w : Width) : (s.setWw w).phase = s.phase := rfl
@[simp] theorem State.setWw_acc (w : Width) : (s.setWw w).acc = s.acc := rfl
@[simp] theorem State.setWw_rej (w : Width) : (s.setWw w).rej = s.rej := rfl
@[simp] theorem State.setWw_dp (w : Width) : (s.setWw w).dp = s.dp := rfl
@[simp] theorem State.setWw_xp (w : Width) : (s.setWw w).xp = s.xp := rfl
@[simp] theorem State.setWw_mem (w : Width) : (s.setWw w).mem = s.mem := rfl
@[simp] theorem State.setWw_rx (w : Width) : (s.setWw w).rx = s.rx := rfl
@[simp] theorem State.setWw_wire (w : Width) : (s.setWw w).wire = s.wire := rfl
@[simp] theorem State.setWw_xfers (w : Width) : (s.setWw w).xfers = s.xfers := rfl
@[simp] theorem State.setWw_resetIn (w : Width) : (s.setWw w).resetIn = s.resetIn := rfl
@[simp] theorem State.setWw_port (w : Width) : (s.setWw w).port = s.port := rfl
@[simp] theorem State.setWw_reports (w : Width) : (s.setWw w).reports = s.reports := rfl
@[simp] theorem State.setWw_hostWrites (w : Width) : (s.setWw w).hostWrites = s.hostWrites := rfl
@[simp] theorem State.setWw_fresh (w : Width) : (s.setWw w).fresh = s.fresh := rfl

@[simp] theorem State.setOutcome_cfg (o : OutcomeCode) : (s.setOutcome o).cfg = s.cfg := rfl
@[simp] theorem State.setOutcome_ww (o : OutcomeCode) : (s.setOutcome o).ww = s.ww := rfl
@[simp] theorem State.setOutcome_outcome (o : OutcomeCode) : (s.setOutcome o).outcome = o := rfl
@[simp] theorem State.setOutcome_csOut (o : OutcomeCode) : (s.setOutcome o).csOut = s.csOut := rfl
@[simp] theorem State.setOutcome_dcOut (o : OutcomeCode) : (s.setOutcome o).dcOut = s.dcOut := rfl
@[simp] theorem State.setOutcome_asyncInflight (o : OutcomeCode) : (s.setOutcome o).asyncInflight = s.asyncInflight := rfl
@[simp] theorem State.setOutcome_req (o : OutcomeCode) : (s.setOutcome o).req = s.req := rfl
@[simp] theorem State.setOutcome_phase (o : OutcomeCode) : (s.setOutcome o).phase = s.phase := rfl
@[simp] theorem State.setOutcome_acc (o : OutcomeCode) : (s.setOutcome o).acc = s.acc := rfl
@[simp] theorem State.setOutcome_rej (o : OutcomeCode) : (s.setOutcome o).rej = s.rej := rfl
@[simp] theorem State.setOutcome_dp (o : OutcomeCode) : (s.setOutcome o).dp = s.dp := rfl
@[simp] theorem State.setOutcome_xp (o : OutcomeCode) : (s.setOutcome o).xp = s.xp := rfl
@[simp] theorem State.setOutcome_mem (o : OutcomeCode) : (s.setOutcome o).mem = s.mem := rfl
@[simp] theorem State.setOutcome_rx (o : OutcomeCode) : (s.setOutcome o).rx = s.rx := rfl
@[simp] theorem State.setOutcome_wire (o : OutcomeCode) : (s.setOutcome o).wire = s.wire := rfl
@[simp] theorem State.setOutcome_xfers (o : OutcomeCode) : (s.setOutcome o).xfers = s.xfers := rfl
@[simp] theorem State.setOutcome_resetIn (o : OutcomeCode) : (s.setOutcome o).resetIn = s.resetIn := rfl
@[simp] theorem State.setOutcome_port (o : OutcomeCode) : (s.setOutcome o).port = s.port := rfl
@[simp] theorem State.setOutcome_reports (o : OutcomeCode) : (s.setOutcome o).reports = s.reports := rfl
@[simp] theorem State.setOutcome_hostWrites (o : OutcomeCode) : (s.setOutcome o).hostWrites = s.hostWrites := rfl
@[simp] theorem State.setOutcome_fresh (o : OutcomeCode) : (s.setOutcome o).fresh = s.fresh := rfl

@[simp] theorem State.setCs_cfg (b : Bool) : (s.setCs b).cfg = s.cfg := rfl
@[simp] theorem State.setCs_ww (b : Bool) : (s.setCs b).ww = s.ww := rfl
@[simp] theorem State.setCs_outcome (b : Bool) : (s.setCs b).outcome = s.outcome := rfl
@[simp] theorem State.setCs_csOut (b : Bool) : (s.setCs b).csOut = b := rfl
@[simp] theorem State.setCs_dcOut (b : Bool) : (s.setCs b).dcOut = s.dcOut := rfl
@[simp] theorem State.setCs_asyncInflight (b : Bool) : (s.setCs b).asyncInflight = s.asyncInflight := rfl
@[simp] theorem State.setCs_req (b : Bool) : (s.setCs b).req = s.req := rfl
@[simp] theorem State.setCs_phase (b : Bool) : (s.setCs b).phase = s.phase := rfl
@[simp] theorem State.setCs_acc (b : Bool) : (s.setCs b).acc = s.acc := rfl
@[simp] theorem State.setCs_rej (b : Bool) : (s.setCs b).rej = s.rej := rfl
@[simp] theorem State.setCs_dp (b : Bool) : (s.setCs b).dp = s.dp := rfl
@[simp] theorem State.setCs_xp (b : Bool) : (s.setCs b).xp = s.xp := rfl
@[simp] theorem State.setCs_mem (b : Bool) : (s.setCs b).mem = s.mem := rfl
@[simp] theorem State.setCs_rx (b : Bool) : (s.setCs b).rx = s.rx := rfl
@[simp] theorem State.setCs_wire (b : Bool) : (s.setCs b).wire = s.wire := rfl
@[simp] theorem State.setCs_xfers (b : Bool) : (s.setCs b).xfers = s.xfers := rfl
@[simp] theorem State.setCs_resetIn (b : Bool) : (s.setCs b).resetIn = s.resetIn := rfl
@[simp] theorem State.setCs_port (b : Bool) : (s.setCs b).port = s.port := rfl
@[simp] theorem State.setCs_reports (b : Bool) : (s.setCs b).reports = s.reports := rfl
@[simp] theorem State.setCs_hostWrites (b : Bool) : (s.setCs b).hostWrites = s.hostWrites := rfl
@[simp] theorem State.setCs_fresh (b : Bool) : (s.setCs b).fresh = s.fresh := rfl

@[simp] theorem State.setDc_cfg (d : DC) : (s.setDc d).cfg = s.cfg := rfl
@[simp] theorem State.setDc_ww (d : DC) : (s.setDc d).ww = s.ww := rfl
@[simp] theorem State.setDc_outcome (d : DC) : (s.setDc d).outcome = s.outcome := rfl
@[simp] theorem State.setDc_csOut (d : DC) : (s.setDc d).csOut = s.csOut := rfl
@[simp] theorem State.setDc_dcOut (d : DC) : (s.setDc d).dcOut = d := rfl
@[simp] theorem State.setDc_asyncInflight (d : DC) : (s.setDc d).asyncInflight = s.asyncInflight := rfl
@[simp] theorem State.setDc_req (d : DC) : (s.setDc d).req = s.req := rfl
@[simp] theorem State.setDc_phase (d : DC) : (s.setDc d).phase = s.phase := rfl
@[simp] theorem State.setDc_acc (d : DC) : (s.setDc d).acc = s.acc := rfl
@[simp] theorem State.setDc_rej (d : DC) : (s.setDc d).rej = s.rej := rfl
@[simp] theorem State.setDc_dp (d : DC) : (s.setDc d).dp = s.dp := rfl
@[simp] theorem State.setDc_xp (d : DC) : (s.setDc d).xp = s.xp := rfl
@[simp] theorem State.setDc_mem (d : DC) : (s.setDc d).mem = s.mem := rfl
@[simp] theorem State.setDc_rx (d : DC) : (s.setDc d).rx = s.rx := rfl
@[simp] theorem State.setDc_wire (d : DC) : (s.setDc d).wire = s.wire := rfl
@[simp] theorem State.setDc_xfers (d : DC) : (s.setDc d).xfers = s.xfers := rfl
@[simp] theorem State.setDc_resetIn (d : DC) : (s.setDc d).resetIn = s.resetIn := rfl
@[simp] theorem State.setDc_port (d : DC) : (s.setDc d).port = s.port := rfl
@[simp] theorem State.setDc_reports (d : DC) : (s.setDc d).reports = s.reports := rfl
@[simp] theorem State.setDc_hostWrites (d : DC) : (s.setDc d).hostWrites = s.hostWrites := rfl
@[simp] theorem State.setDc_fresh (d : DC) : (s.setDc d).fresh = s.fresh := rfl

@[simp] theorem State.setAsync_cfg (b : Bool) : (s.setAsync b).cfg = s.cfg := rfl
@[simp] theorem State.setAsync_ww (b : Bool) : (s.setAsync b).ww = s.ww := rfl
@[simp] theorem State.setAsync_outcome (b : Bool) : (s.setAsync b).outcome = s.outcome := rfl
@[simp] theorem State.setAsync_csOut (b : Bool) : (s.setAsync b).csOut = s.csOut := rfl
@[simp] theorem State.setAsync_dcOut (b : Bool) : (s.setAsync b).dcOut = s.dcOut := rfl
@[simp] theorem State.setAsync_asyncInflight (b : Bool) : (s.setAsync b).asyncInflight = b := rfl
@[simp] theorem State.setAsync_req (b : Bool) : (s.setAsync b).req = s.req := rfl
@[simp] theorem State.setAsync_phase (b : Bool) : (s.setAsync b).phase = s.phase := rfl
@[simp] theorem State.setAsync_acc (b : Bool) : (s.setAsync b).acc = s.acc := rfl
@[simp] theorem State.setAsync_rej (b : Bool) : (s.setAsync b).rej = s.rej := rfl
@[simp] theorem State.setAsync_dp (b : Bool) : (s.setAsync b).dp = s.dp := rfl
@[simp] theorem State.setAsync_xp (b : Bool) : (s.setAsync b).xp = s.xp := rfl
@[simp] theorem State.setAsync_mem (b : Bool) : (s.setAsync b).mem = s.mem := rfl
@[simp] theorem State.setAsync_rx (b : Bool) : (s.setAsync b).rx = s.rx := rfl
@[simp] theorem State.setAsync_wire (b : Bool) : (s.setAsync b).wire = s.wire := rfl
@[simp] theorem State.setAsync_xfers (b : Bool) : (s.setAsync b).xfers = s.xfers := rfl
@[simp] theorem State.setAsync_resetIn (b : Bool) : (s.setAsync b).resetIn = s.resetIn := rfl
@[simp] theorem State.setAsync_port (b : Bool) : (s.setAsync b).port = s.port := rfl
@[simp] theorem State.setAsync_reports (b : Bool) : (s.setAsync b).reports = s.reports := rfl
@[simp] theorem State.setAsync_hostWrites (b : Bool) : (s.setAsync b).hostWrites = s.hostWrites := rfl
@[simp] theorem State.setAsync_fresh (b : Bool) : (s.setAsync b).fresh = s.fresh := rfl

@[simp] theorem State.setPhase_cfg (p : Phase) : (s.setPhase p).cfg = s.cfg := rfl
@[simp] theorem State.setPhase_ww (p : Phase) : (s.setPhase p).ww = s.ww := rfl
@[simp] theorem State.setPhase_outcome (p : Phase) : (s.setPhase p).outcome = s.outcome := rfl
@[simp] theorem State.setPhase_csOut (p : Phase) : (s.setPhase p).csOut = s.csOut := rfl
@[simp] theorem State.setPhase_dcOut (p : Phase) : (s.setPhase p).dcOut = s.dcOut := rfl
@[simp] theorem State.setPhase_asyncInflight (p : Phase) : (s.setPhase p).asyncInflight = s.asyncInflight := rfl
@[simp] theorem State.setPhase_req (p : Phase) : (s.setPhase p).req = s.req := rfl
@[simp] theorem State.setPhase_phase (p : Phase) : (s.setPhase p).phase = p := rfl
@[simp] theorem State.setPhase_acc (p : Phase) : (s.setPhase p).acc = s.acc := rfl
@[simp] theorem State.setPhase_rej (p : Phase) : (s.setPhase p).rej = s.rej := rfl
@[simp] theorem State.setPhase_dp (p : Phase) : (s.setPhase p).dp = s.dp := rfl
@[simp] theorem State.setPhase_xp (p : Phase) : (s.setPhase p).xp = s.xp := rfl
@[simp] theorem State.setPhase_mem (p : Phase) : (s.setPhase p).mem = s.mem := rfl
@[simp] theorem State.setPhase_rx (p : Phase) : (s.setPhase p).rx = s.rx := rfl
@[simp] theorem State.setPhase_wire (p : Phase) : (s.setPhase p).wire = s.wire := rfl
@[simp] theorem State.setPhase_xfers (p : Phase) : (s.setPhase p).xfers = s.xfers := rfl
@[simp] theorem State.setPhase_resetIn (p : Phase) : (s.setPhase p).resetIn = s.resetIn := rfl
@[simp] theorem State.setPhase_port (p : Phase) : (s.setPhase p).port = s.port := rfl
@[simp] theorem State.setPhase_reports (p : Phase) : (s.setPhase p).reports = s.reports := rfl
@[simp] theorem State.setPhase_hostWrites (p : Phase) : (s.setPhase p).hostWrites = s.hostWrites := rfl
@[simp] theorem State.setPhase_fresh (p : Phase) : (s.setPhase p).fresh = s.fresh := rfl

@[simp] theorem State.setAcc_cfg (b : Bool) : (s.setAcc b).cfg = s.cfg := rfl
@[simp] theorem State.setAcc_ww (b : Bool) : (s.setAcc b).ww = s.ww := rfl
@[simp] theorem State.setAcc_outcome (b : Bool) : (s.setAcc b).outcome = s.outcome := rfl
@[simp] theorem State.setAcc_csOut (b : Bool) : (s.setAcc b).csOut = s.csOut := rfl
@[simp] theorem State.setAcc_dcOut (b : Bool) : (s.setAcc b).dcOut = s.dcOut := rfl
@[simp] theorem State.setAcc_asyncInflight (b : Bool) : (s.setAcc b).asyncInflight = s.asyncInflight := rfl
@[simp] theorem State.setAcc_req (b : Bool) : (s.setAcc b).req = s.req := rfl
@[simp] theorem State.setAcc_phase (b : Bool) : (s.setAcc b).phase = s.phase := rfl
@[simp] theorem State.setAcc_acc (b : Bool) : (s.setAcc b).acc = b := rfl
@[simp] theorem State.setAcc_rej (b : Bool) : (s.setAcc b).rej = s.rej := rfl
@[simp] theorem State.setAcc_dp (b : Bool) : (s.setAcc b).dp = s.dp := rfl
@[simp] theorem State.setAcc_xp (b : Bool) : (s.setAcc b).xp = s.xp := rfl
@[simp] theorem State.setAcc_mem (b : Bool) : (s.setAcc b).mem = s.mem := rfl
@[simp] theorem State.setAcc_rx (b : Bool) : (s.setAcc b).rx = s.rx := rfl
@[simp] theorem State.setAcc_wire (b : Bool) : (s.setAcc b).wire = s.wire := rfl
@[simp] theorem State.setAcc_xfers (b : Bool) : (s.setAcc b).xfers = s.xfers := rfl
@[simp] theorem State.setAcc_resetIn (b : Bool) : (s.setAcc b).resetIn = s.resetIn := rfl
@[simp] theorem State.setAcc_port (b : Bool) : (s.setAcc b).port = s.port := rfl
@[simp] theorem State.setAcc_reports (b : Bool) : (s.setAcc b).reports = s.reports := rfl
@[simp] theorem State.setAcc_hostWrites (b : Bool) : (s.setAcc b).hostWrites = s.hostWrites := rfl
@[simp] theorem State.setAcc_fresh (b : Bool) : (s.setAcc b).fresh = s.fresh := rfl

@[simp] theorem State.setRej_cfg (b : Bool) : (s.setRej b).cfg = s.cfg := rfl
@[simp] theorem State.setRej_ww (b : Bool) : (s.setRej b).ww = s.ww := rfl
@[simp] theorem State.setRej_outcome (b : Bool) : (s.setRej b).outcome = s.outcome := rfl
@[simp] theorem State.setRej_csOut (b : Bool) : (s.setRej b).csOut = s.csOut := rfl
@[simp] theorem State.setRej_dcOut (b : Bool) : (s.setRej b).dcOut = s.dcOut := rfl
@[simp] theorem State.setRej_asyncInflight (b : Bool) : (s.setRej b).asyncInflight = s.asyncInflight := rfl
@[simp] theorem State.setRej_req (b : Bool) : (s.setRej b).req = s.req := rfl
@[simp] theorem State.setRej_phase (b : Bool) : (s.setRej b).phase = s.phase := rfl
@[simp] theorem State.setRej_acc (b : Bool) : (s.setRej b).acc = s.acc := rfl
@[simp] theorem State.setRej_rej (b : Bool) : (s.setRej b).rej = b := rfl
@[simp] theorem State.setRej_dp (b : Bool) : (s.setRej b).dp = s.dp := rfl
@[simp] theorem State.setRej_xp (b : Bool) : (s.setRej b).xp = s.xp := rfl
@[simp] theorem State.setRej_mem (b : Bool) : (s.setRej b).mem = s.mem := rfl
@[simp] theorem State.setRej_rx (b : Bool) : (s.setRej b).rx = s.rx := rfl
@[simp] theorem State.setRej_wire (b : Bool) : (s.setRej b).wire = s.wire := rfl
@[simp] theorem State.setRej_xfers (b : Bool) : (s.setRej b).xfers = s.xfers := rfl
@[simp] theorem State.setRej_resetIn (b : Bool) : (s.setRej b).resetIn = s.resetIn := rfl
@[simp] theorem State.setRej_port (b : Bool) : (s.setRej b).port = s.port := rfl
@[simp] theorem State.setRej_reports (b : Bool) : (s.setRej b).reports = s.reports := rfl
@[simp] theorem State.setRej_hostWrites (b : Bool) : (s.setRej b).hostWrites = s.hostWrites := rfl
@[simp] theorem State.setRej_fresh (b : Bool) : (s.setRej b).fresh = s.fresh := rfl

@[simp] theorem State.setDp_cfg (d : Datapath) : (s.setDp d).cfg = s.cfg := rfl
@[simp] theorem State.setDp_ww (d : Datapath) : (s.setDp d).ww = s.ww := rfl
@[simp] theorem State.setDp_outcome (d : Datapath) : (s.setDp d).outcome = s.outcome := rfl
@[simp] theorem State.setDp_csOut (d : Datapath) : (s.setDp d).csOut = s.csOut := rfl
@[simp] theorem State.setDp_dcOut (d : Datapath) : (s.setDp d).dcOut = s.dcOut := rfl
@[simp] theorem State.setDp_asyncInflight (d : Datapath) : (s.setDp d).asyncInflight = s.asyncInflight := rfl
@[simp] theorem State.setDp_req (d : Datapath) : (s.setDp d).req = s.req := rfl
@[simp] theorem State.setDp_phase (d : Datapath) : (s.setDp d).phase = s.phase := rfl
@[simp] theorem State.setDp_acc (d : Datapath) : (s.setDp d).acc = s.acc := rfl
@[simp] theorem State.setDp_rej (d : Datapath) : (s.setDp d).rej = s.rej := rfl
@[simp] theorem State.setDp_dp (d : Datapath) : (s.setDp d).dp = d := rfl
@[simp] theorem State.setDp_xp (d : Datapath) : (s.setDp d).xp = s.xp := rfl
@[simp] theorem State.setDp_mem (d : Datapath) : (s.setDp d).mem = s.mem := rfl
@[simp] theorem State.setDp_rx (d : Datapath) : (s.setDp d).rx = s.rx := rfl
@[simp] theorem State.setDp_wire (d : Datapath) : (s.setDp d).wire = s.wire := rfl
@[simp] theorem State.setDp_xfers (d : Datapath) : (s.setDp d).xfers = s.xfers := rfl
@[simp] theorem State.setDp_resetIn (d : Datapath) : (s.setDp d).resetIn = s.resetIn := rfl
@[simp] theorem State.setDp_port (d : Datapath) : (s.setDp d).port = s.port := rfl
@[simp] theorem State.setDp_reports (d : Datapath) : (s.setDp d).reports = s.reports := rfl
@[simp] theorem State.setDp_hostWrites (d : Datapath) : (s.setDp d).hostWrites = s.hostWrites := rfl
@[simp] theorem State.setDp_fresh (d : Datapath) : (s.setDp d).fresh = s.fresh := rfl

@[simp] theorem State.setXp_cfg (x : Transport) : (s.setXp x).cfg = s.cfg := rfl
@[simp] theorem State.setXp_ww (x : Transport) : (s.setXp x).ww = s.ww := rfl
@[simp] theorem State.setXp_outcome (x : Transport) : (s.setXp x).outcome = s.outcome := rfl
@[simp] theorem State.setXp_csOut (x : Transport) : (s.setXp x).csOut = s.csOut := rfl
@[simp] theorem State.setXp_dcOut (x : Transport) : (s.setXp x).dcOut = s.dcOut := rfl
@[simp] theorem State.setXp_asyncInflight (x : Transport) : (s.setXp x).asyncInflight = s.asyncInflight := rfl
@[simp] theorem State.setXp_req (x : Transport) : (s.setXp x).req = s.req := rfl
@[simp] theorem State.setXp_phase (x : Transport) : (s.setXp x).phase = s.phase := rfl
@[simp] theorem State.setXp_acc (x : Transport) : (s.setXp x).acc = s.acc := rfl
@[simp] theorem State.setXp_rej (x : Transport) : (s.setXp x).rej = s.rej := rfl
@[simp] theorem State.setXp_dp (x : Transport) : (s.setXp x).dp = s.dp := rfl
@[simp] theorem State.setXp_xp (x : Transport) : (s.setXp x).xp = x := rfl
@[simp] theorem State.setXp_mem (x : Transport) : (s.setXp x).mem = s.mem := rfl
@[simp] theorem State.setXp_rx (x : Transport) : (s.setXp x).rx = s.rx := rfl
@[simp] theorem State.setXp_wire (x : Transport) : (s.setXp x).wire = s.wire := rfl
@[simp] theorem State.setXp_xfers (x : Transport) : (s.setXp x).xfers = s.xfers := rfl
@[simp] theorem State.setXp_resetIn (x : Transport) : (s.setXp x).resetIn = s.resetIn := rfl
@[simp] theorem State.setXp_port (x : Transport) : (s.setXp x).port = s.port := rfl
@[simp] theorem State.setXp_reports (x : Transport) : (s.setXp x).reports = s.reports := rfl
@[simp] theorem State.setXp_hostWrites (x : Transport) : (s.setXp x).hostWrites = s.hostWrites := rfl
@[simp] theorem State.setXp_fresh (x : Transport) : (s.setXp x).fresh = s.fresh := rfl

@[simp] theorem State.setReports_cfg (l : List BusReport) : (s.setReports l).cfg = s.cfg := rfl
@[simp] theorem State.setReports_ww (l : List BusReport) : (s.setReports l).ww = s.ww := rfl
@[simp] theorem State.setReports_outcome (l : List BusReport) : (s.setReports l).outcome = s.outcome := rfl
@[simp] theorem State.setReports_csOut (l : List BusReport) : (s.setReports l).csOut = s.csOut := rfl
@[simp] theorem State.setReports_dcOut (l : List BusReport) : (s.setReports l).dcOut = s.dcOut := rfl
@[simp] theorem State.setReports_asyncInflight (l : List BusReport) : (s.setReports l).asyncInflight = s.asyncInflight := rfl
@[simp] theorem State.setReports_req (l : List BusReport) : (s.setReports l).req = s.req := rfl
@[simp] theorem State.setReports_phase (l : List BusReport) : (s.setReports l).phase = s.phase := rfl
@[simp] theorem State.setReports_acc (l : List BusReport) : (s.setReports l).acc = s.acc := rfl
@[simp] theorem State.setReports_rej (l : List BusReport) : (s.setReports l).rej = s.rej := rfl
@[simp] theorem State.setReports_dp (l : List BusReport) : (s.setReports l).dp = s.dp := rfl
@[simp] theorem State.setReports_xp (l : List BusReport) : (s.setReports l).xp = s.xp := rfl
@[simp] theorem State.setReports_mem (l : List BusReport) : (s.setReports l).mem = s.mem := rfl
@[simp] theorem State.setReports_rx (l : List BusReport) : (s.setReports l).rx = s.rx := rfl
@[simp] theorem State.setReports_wire (l : List BusReport) : (s.setReports l).wire = s.wire := rfl
@[simp] theorem State.setReports_xfers (l : List BusReport) : (s.setReports l).xfers = s.xfers := rfl
@[simp] theorem State.setReports_resetIn (l : List BusReport) : (s.setReports l).resetIn = s.resetIn := rfl
@[simp] theorem State.setReports_port (l : List BusReport) : (s.setReports l).port = s.port := rfl
@[simp] theorem State.setReports_reports (l : List BusReport) : (s.setReports l).reports = l := rfl
@[simp] theorem State.setReports_hostWrites (l : List BusReport) : (s.setReports l).hostWrites = s.hostWrites := rfl
@[simp] theorem State.setReports_fresh (l : List BusReport) : (s.setReports l).fresh = s.fresh := rfl

@[simp] theorem State.setFresh_cfg (n : Nat) : (s.setFresh n).cfg = s.cfg := rfl
@[simp] theorem State.setFresh_ww (n : Nat) : (s.setFresh n).ww = s.ww := rfl
@[simp] theorem State.setFresh_outcome (n : Nat) : (s.setFresh n).outcome = s.outcome := rfl
@[simp] theorem State.setFresh_csOut (n : Nat) : (s.setFresh n).csOut = s.csOut := rfl
@[simp] theorem State.setFresh_dcOut (n : Nat) : (s.setFresh n).dcOut = s.dcOut := rfl
@[simp] theorem State.setFresh_asyncInflight (n : Nat) : (s.setFresh n).asyncInflight = s.asyncInflight := rfl
@[simp] theorem State.setFresh_req (n : Nat) : (s.setFresh n).req = s.req := rfl
@[simp] theorem State.setFresh_phase (n : Nat) : (s.setFresh n).phase = s.phase := rfl
@[simp] theorem State.setFresh_acc (n : Nat) : (s.setFresh n).acc = s.acc := rfl
@[simp] theorem State.setFresh_rej (n : Nat) : (s.setFresh n).rej = s.rej := rfl
@[simp] theorem State.setFresh_dp (n : Nat) : (s.setFresh n).dp = s.dp := rfl
@[simp] theorem State.setFresh_xp (n : Nat) : (s.setFresh n).xp = s.xp := rfl
@[simp] theorem State.setFresh_mem (n : Nat) : (s.setFresh n).mem = s.mem := rfl
@[simp] theorem State.setFresh_rx (n : Nat) : (s.setFresh n).rx = s.rx := rfl
@[simp] theorem State.setFresh_wire (n : Nat) : (s.setFresh n).wire = s.wire := rfl
@[simp] theorem State.setFresh_xfers (n : Nat) : (s.setFresh n).xfers = s.xfers := rfl
@[simp] theorem State.setFresh_resetIn (n : Nat) : (s.setFresh n).resetIn = s.resetIn := rfl
@[simp] theorem State.setFresh_port (n : Nat) : (s.setFresh n).port = s.port := rfl
@[simp] theorem State.setFresh_reports (n : Nat) : (s.setFresh n).reports = s.reports := rfl
@[simp] theorem State.setFresh_hostWrites (n : Nat) : (s.setFresh n).hostWrites = s.hostWrites := rfl
@[simp] theorem State.setFresh_fresh (n : Nat) : (s.setFresh n).fresh = n := rfl

@[simp] theorem State.put_cfg (is : List WireItem) : (s.put is).cfg = s.cfg := rfl
@[simp] theorem State.put_ww (is : List WireItem) : (s.put is).ww = s.ww := rfl
@[simp] theorem State.put_outcome (is : List WireItem) : (s.put is).outcome = s.outcome := rfl
@[simp] theorem State.put_csOut (is : List WireItem) : (s.put is).csOut = s.csOut := rfl
@[simp] theorem State.put_dcOut (is : List WireItem) : (s.put is).dcOut = s.dcOut := rfl
@[simp] theorem State.put_asyncInflight (is : List WireItem) : (s.put is).asyncInflight = s.asyncInflight := rfl
@[simp] theorem State.put_req (is : List WireItem) : (s.put is).req = s.req := rfl
@[simp] theorem State.put_phase (is : List WireItem) : (s.put is).phase = s.phase := rfl
@[simp] theorem State.put_acc (is : List WireItem) : (s.put is).acc = s.acc := rfl
@[simp] theorem State.put_rej (is : List WireItem) : (s.put is).rej = s.rej := rfl
@[simp] theorem State.put_dp (is : List WireItem) : (s.put is).dp = s.dp := rfl
@[simp] theorem State.put_xp (is : List WireItem) : (s.put is).xp = s.xp := rfl
@[simp] theorem State.put_mem (is : List WireItem) : (s.put is).mem = s.mem := rfl
@[simp] theorem State.put_rx (is : List WireItem) : (s.put is).rx = s.rx.items s.cfg is := rfl
@[simp] theorem State.put_wire (is : List WireItem) : (s.put is).wire = s.wire ++ is := rfl
@[simp] theorem State.put_xfers (is : List WireItem) : (s.put is).xfers = s.xfers := rfl
@[simp] theorem State.put_resetIn (is : List WireItem) : (s.put is).resetIn = s.resetIn := rfl
@[simp] theorem State.put_port (is : List WireItem) : (s.put is).port = s.port := rfl
@[simp] theorem State.put_reports (is : List WireItem) : (s.put is).reports = s.reports := rfl
@[simp] theorem State.put_hostWrites (is : List WireItem) : (s.put is).hostWrites = s.hostWrites := rfl
@[simp] theorem State.put_fresh (is : List WireItem) : (s.put is).fresh = s.fresh := rfl

@[simp] theorem State.record_cfg (x : Xfer) : (s.record x).cfg = s.cfg := rfl
@[simp] theorem State.record_ww (x : Xfer) : (s.record x).ww = s.ww := rfl
@[simp] theorem State.record_outcome (x : Xfer) : (s.record x).outcome = s.outcome := rfl
@[simp] theorem State.record_csOut (x : Xfer) : (s.record x).csOut = s.csOut := rfl
@[simp] theorem State.record_dcOut (x : Xfer) : (s.record x).dcOut = s.dcOut := rfl
@[simp] theorem State.record_asyncInflight (x : Xfer) : (s.record x).asyncInflight = s.asyncInflight := rfl
@[simp] theorem State.record_req (x : Xfer) : (s.record x).req = s.req := rfl
@[simp] theorem State.record_phase (x : Xfer) : (s.record x).phase = s.phase := rfl
@[simp] theorem State.record_acc (x : Xfer) : (s.record x).acc = s.acc := rfl
@[simp] theorem State.record_rej (x : Xfer) : (s.record x).rej = s.rej := rfl
@[simp] theorem State.record_dp (x : Xfer) : (s.record x).dp = s.dp := rfl
@[simp] theorem State.record_xp (x : Xfer) : (s.record x).xp = s.xp := rfl
@[simp] theorem State.record_mem (x : Xfer) : (s.record x).mem = s.mem := rfl
@[simp] theorem State.record_rx (x : Xfer) : (s.record x).rx = s.rx := rfl
@[simp] theorem State.record_wire (x : Xfer) : (s.record x).wire = s.wire := rfl
@[simp] theorem State.record_xfers (x : Xfer) : (s.record x).xfers = s.xfers ++ [x] := rfl
@[simp] theorem State.record_resetIn (x : Xfer) : (s.record x).resetIn = s.resetIn := rfl
@[simp] theorem State.record_port (x : Xfer) : (s.record x).port = s.port := rfl
@[simp] theorem State.record_reports (x : Xfer) : (s.record x).reports = s.reports := rfl
@[simp] theorem State.record_hostWrites (x : Xfer) : (s.record x).hostWrites = s.hostWrites := rfl
@[simp] theorem State.record_fresh (x : Xfer) : (s.record x).fresh = s.fresh := rfl

end Sys2Proof.Machine
end

