-- ==== Sys2Proof/Laws/Ops.lean ====
section
/-! SUPPORT. The shared operations, each with what it does said once: composition of runs of atomic steps, chunks that
complete, `SendCommand`, `SendData`, the window group, the width bracket, and each primitive. -/

namespace Sys2Proof.Machine

/-! ### Small facts -/

@[simp] theorem Receiver.items_nil (c : Config) (r : Receiver) : r.items c [] = r := rfl

theorem Receiver.items_append (c : Config) (r : Receiver) (l m : List WireItem) :
    r.items c (l ++ m) = (r.items c l).items c m := by
  simp [Receiver.items]

@[simp] theorem Receiver.items_cs (c : Config) (r : Receiver) (b : Bool) : r.items c [.cs b] = r := rfl

theorem quiet_nextReport {s : State} (h : Quiet s) : nextReport s = .done := by
  unfold nextReport
  split
  · rfl
  · rename_i r rs hr
    exact h r (by simp [hr])

theorem mem_restReports {rs : List BusReport} {r : BusReport} (h : r ∈ restReports rs) : r ∈ rs := by
  cases rs with
  | nil => exact h
  | cons q rs => cases q <;> simp_all [restReports]

theorem quiet_setReports {s : State} (h : Quiet s) : Quiet (s.setReports (restReports s.reports)) :=
  fun r hr => h r (mem_restReports hr)

theorem openTxn_wire (s : State) : (openTxn s).wire = s.wire ++ opening s.csOut := by
  unfold openTxn opening
  split <;> simp

theorem openTxn_rx (s : State) : (openTxn s).rx = s.rx := by
  unfold openTxn
  split <;> simp

@[simp] theorem openTxn_csOut (s : State) : (openTxn s).csOut = true := by
  unfold openTxn
  split <;> simp_all

theorem closeTxn_csOut (s : State) : (closeTxn s).csOut = false := by
  unfold closeTxn
  split <;> simp_all

/-! ### What a stretch of a request keeps -/

/-- The state a stretch of atomic steps leaves unchanged whatever it sends. -/
structure Keeps (s t : State) : Prop where
  cfg : t.cfg = s.cfg
  ww : t.ww = s.ww
  outcome : t.outcome = s.outcome
  req : t.req = s.req
  phase : t.phase = s.phase
  mem : t.mem = s.mem
  hostWrites : t.hostWrites = s.hostWrites
  port : t.port = s.port
  resetIn : t.resetIn = s.resetIn

theorem Keeps.refl (s : State) : Keeps s s := ⟨rfl, rfl, rfl, rfl, rfl, rfl, rfl, rfl, rfl⟩

theorem Keeps.trans {s t u : State} (h : Keeps s t) (k : Keeps t u) : Keeps s u where
  cfg := k.cfg.trans h.cfg
  ww := k.ww.trans h.ww
  outcome := k.outcome.trans h.outcome
  req := k.req.trans h.req
  phase := k.phase.trans h.phase
  mem := k.mem.trans h.mem
  hostWrites := k.hostWrites.trans h.hostWrites
  port := k.port.trans h.port
  resetIn := k.resetIn.trans h.resetIn

theorem openTxn_keeps (s : State) : Keeps s (openTxn s) := by
  unfold openTxn
  split
  · exact Keeps.refl s
  · exact ⟨rfl, rfl, rfl, rfl, rfl, rfl, rfl, rfl, rfl⟩

/-- Elements sent inside an open transaction at the current DC level, every chunk complete. -/
structure Streamed (es : List Elem) (s t : State) : Prop where
  keeps : Keeps s t
  dp : t.dp = s.dp
  acc : t.acc = s.acc
  rej : t.rej = s.rej
  cs : t.csOut = s.csOut
  dc : t.dcOut = s.dcOut
  async : t.asyncInflight = false
  wire : t.wire = s.wire ++ es.map WireItem.elem
  rx : t.rx = s.rx.items s.cfg (es.map WireItem.elem)
  xfers : s.xfers <+: t.xfers
  quiet : Quiet t

theorem Streamed.trans {es fs : List Elem} {s t u : State} (h : Streamed es s t) (k : Streamed fs t u) :
    Streamed (es ++ fs) s u where
  keeps := h.keeps.trans k.keeps
  dp := k.dp.trans h.dp
  acc := k.acc.trans h.acc
  rej := k.rej.trans h.rej
  cs := k.cs.trans h.cs
  dc := k.dc.trans h.dc
  async := k.async
  wire := by rw [k.wire, h.wire]; simp
  rx := by rw [k.rx, h.rx, h.keeps.cfg, List.map_append, Receiver.items_append]
  xfers := h.xfers.trans k.xfers
  quiet := k.quiet

theorem Streamed.nil {s : State} (ha : s.asyncInflight = false) (hq : Quiet s) : Streamed [] s s where
  keeps := Keeps.refl s
  dp := rfl
  acc := rfl
  rej := rfl
  cs := rfl
  dc := rfl
  async := ha
  wire := by simp
  rx := rfl
  xfers := List.prefix_refl _
  quiet := hq

/-! ### A chunk that completes -/

/-- The state after an issued chunk completes with the given values. -/
def settled (c : Chunk) (vs : List Word) (s : State) : State :=
  let t := (s.setReports (restReports s.reports)).setFresh (s.fresh + c.len)
  afterChunk c (emit c.width vs (if c.path = .async then t.setAsync false else t))

theorem settle_quiet {c : Chunk} {s : State} {vs : List Word} (hv : chunkValues c s = .ok vs) (hq : Quiet s) :
    settle c s = .go (settled c vs s) := by
  simp [settle, hv, quiet_nextReport hq, chunkEnd, settled]

/-- `afterChunk` writes transport registers only. -/
theorem afterChunk_eq (c : Chunk) (s : State) : ∃ x, afterChunk c s = s.setXp x := by
  unfold afterChunk
  split
  · exact ⟨s.xp, rfl⟩
  all_goals exact ⟨_, rfl⟩

theorem afterChunk_xp_host (n : Nat) (w : Width) (p : Path) (s : State) :
    (afterChunk ⟨.host, n, w, p⟩ s).xp.ptr = s.xp.ptr + BitVec.ofNat 32 (n * w.bytes) := rfl

theorem settled_streamed {c : Chunk} {vs : List Word} {s : State} (hq : Quiet s)
    (ha : c.path = .async ∨ s.asyncInflight = false) :
    Streamed (vs.map (mkElem s.dcOut c.width)) s (settled c vs s) := by
  obtain ⟨x, hx⟩ := afterChunk_eq c (emit c.width vs (if c.path = .async then
    ((s.setReports (restReports s.reports)).setFresh (s.fresh + c.len)).setAsync false
    else (s.setReports (restReports s.reports)).setFresh (s.fresh + c.len)))
  have hs : settled c vs s = (emit c.width vs (if c.path = .async then
    ((s.setReports (restReports s.reports)).setFresh (s.fresh + c.len)).setAsync false
    else (s.setReports (restReports s.reports)).setFresh (s.fresh + c.len))).setXp x := hx
  rw [hs]
  have hq' : Quiet (s.setReports (restReports s.reports)) := quiet_setReports hq
  by_cases hp : c.path = .async
  · simp only [if_pos hp]
    constructor
    · constructor <;> simp [emit]
    all_goals first | exact hq' | simp [emit, Function.comp_def]
  · simp only [if_neg hp]
    constructor
    · constructor <;> simp [emit]
    all_goals first | exact hq' | simp [emit, Function.comp_def, ha.resolve_left hp]

/-- The state in which an issued chunk settles. -/
def issued (len : Nat) (w : Width) (s : State) : State :=
  let t := s.record ⟨pathFor s.cfg len, w, len⟩
  if pathFor s.cfg len = .async then t.setAsync true else t

theorem issueChunk_eq (src : Source) (len : Nat) (w : Width) (s : State) :
    issueChunk src len w s = settle ⟨src, len, w, pathFor s.cfg len⟩ (issued len w s) := rfl

theorem issued_fields (len : Nat) (w : Width) (s : State) :
    Keeps s (issued len w s) ∧ (issued len w s).dp = s.dp ∧ (issued len w s).xp = s.xp ∧
    (issued len w s).acc = s.acc ∧ (issued len w s).rej = s.rej ∧ (issued len w s).csOut = s.csOut ∧
    (issued len w s).dcOut = s.dcOut ∧ (issued len w s).wire = s.wire ∧ (issued len w s).rx = s.rx ∧
    (issued len w s).xfers = s.xfers ++ [⟨pathFor s.cfg len, w, len⟩] ∧ (issued len w s).reports = s.reports ∧
    (issued len w s).fresh = s.fresh := by
  unfold issued
  by_cases hp : pathFor s.cfg len = .async
  · simp only [if_pos hp]
    exact ⟨⟨rfl, rfl, rfl, rfl, rfl, rfl, rfl, rfl, rfl⟩, rfl, rfl, rfl, rfl, rfl, rfl, rfl, rfl, rfl, rfl, rfl⟩
  · simp only [if_neg hp]
    exact ⟨⟨rfl, rfl, rfl, rfl, rfl, rfl, rfl, rfl, rfl⟩, rfl, rfl, rfl, rfl, rfl, rfl, rfl, rfl, rfl, rfl, rfl⟩

theorem issued_async (len : Nat) (w : Width) {s : State} (ha : s.asyncInflight = false) :
    pathFor s.cfg len = .async ∨ (issued len w s).asyncInflight = false := by
  unfold issued
  by_cases hp : pathFor s.cfg len = .async
  · exact .inl hp
  · right
    simp only [if_neg hp]
    exact ha

/-- A chunk whose values are known and which completes: its elements are streamed. -/
theorem issueChunk_quiet {src : Source} {len : Nat} {w : Width} {s : State} {vs : List Word}
    (hv : chunkValues ⟨src, len, w, pathFor s.cfg len⟩ (issued len w s) = .ok vs) (hq : Quiet s)
    (ha : s.asyncInflight = false) :
    ∃ t, issueChunk src len w s = .go t ∧ Streamed (vs.map (mkElem s.dcOut w)) s t ∧
      t = settled ⟨src, len, w, pathFor s.cfg len⟩ vs (issued len w s) := by
  obtain ⟨hk, hdp, hxp, hacc, hrej, hcs, hdc, hwire, hrx, hxf, hrep, -⟩ := issued_fields len w s
  have hq' : Quiet (issued len w s) := by
    intro r hr
    rw [hrep] at hr
    exact hq r hr
  refine ⟨_, ?_, ?_, rfl⟩
  · rw [issueChunk_eq, settle_quiet hv hq']
  · have h := settled_streamed (c := ⟨src, len, w, pathFor s.cfg len⟩) (vs := vs) hq' (issued_async len w ha)
    exact
      { keeps := hk.trans h.keeps
        dp := h.dp.trans hdp
        acc := h.acc.trans hacc
        rej := h.rej.trans hrej
        cs := h.cs.trans hcs
        dc := h.dc.trans hdc
        async := h.async
        wire := by rw [h.wire, hwire, hdc]
        rx := by rw [h.rx, hrx, hdc, hk.cfg]
        xfers := ((List.prefix_append _ _).trans (by rw [hxf])).trans h.xfers
        quiet := h.quiet }

/-! ### Runs of atomic steps -/

/-- The atomic steps `as` take `s` to `t` and the request goes on. -/
def GoesTo (as : List Atom) (s t : State) : Prop := ∀ bs, run (as ++ bs) s = run bs t

theorem GoesTo.nil (s : State) : GoesTo [] s s := fun _ => rfl

theorem GoesTo.append {as bs : List Atom} {s t u : State} (h : GoesTo as s t) (k : GoesTo bs t u) :
    GoesTo (as ++ bs) s u := by
  intro cs
  rw [List.append_assoc, h, k]

theorem GoesTo.one {a : Atom} {s t : State} (h : atom a s = .go t) : GoesTo [a] s t := by
  intro bs
  simp [run, h]

theorem GoesTo.cons {a : Atom} {as : List Atom} {s t u : State} (h : atom a s = .go t) (k : GoesTo as t u) :
    GoesTo (a :: as) s u :=
  GoesTo.append (as := [a]) (GoesTo.one h) k

theorem run_of_goesTo {as : List Atom} {s t : State} (h : GoesTo as s t) :
    run as s = .next (complete (endRequest t)) := by
  have := h []
  rwa [List.append_nil] at this

/-! ### What a stretch of a request sends -/

/-- The wire entries of elements sent from a transaction level. -/
def sentItems (cs : Bool) (es : List Elem) : List WireItem :=
  match es with
  | [] => []
  | e :: l => opening cs ++ (e :: l).map WireItem.elem

theorem sentItems_append (cs : Bool) (es fs : List Elem) :
    sentItems cs (es ++ fs) = sentItems cs es ++ sentItems (cs || !es.isEmpty) fs := by
  cases es with
  | nil => simp [sentItems]
  | cons e es =>
    cases fs with
    | nil => simp [sentItems]
    | cons f fs => simp [sentItems, opening]

/-- Elements sent from any transaction level, every chunk complete, with the flags the window decisions set. -/
structure Sent (es : List Elem) (a r : Bool) (s t : State) : Prop where
  keeps : Keeps s t
  acc : t.acc = (s.acc || a)
  rej : t.rej = (s.rej || r)
  cs : t.csOut = (s.csOut || !es.isEmpty)
  dc : t.dcOut = lastDc s.dcOut es
  async : t.asyncInflight = false
  wire : t.wire = s.wire ++ sentItems s.csOut es
  rx : t.rx = s.rx.items s.cfg (sentItems s.csOut es)
  xfers : s.xfers <+: t.xfers
  quiet : Quiet t

theorem lastDc_append (d : DC) (es fs : List Elem) : lastDc d (es ++ fs) = lastDc (lastDc d es) fs := by
  simp [lastDc]

theorem Sent.trans {es fs : List Elem} {a b q r : Bool} {s t u : State} (h : Sent es a q s t) (k : Sent fs b r t u) :
    Sent (es ++ fs) (a || b) (q || r) s u where
  keeps := h.keeps.trans k.keeps
  acc := by rw [k.acc, h.acc, Bool.or_assoc]
  rej := by rw [k.rej, h.rej, Bool.or_assoc]
  cs := by rw [k.cs, h.cs]; cases es <;> simp
  dc := by rw [k.dc, h.dc, lastDc_append]
  async := k.async
  wire := by rw [k.wire, h.wire, h.cs, sentItems_append, List.append_assoc]
  rx := by rw [k.rx, h.rx, h.cs, h.keeps.cfg, sentItems_append, Receiver.items_append]
  xfers := h.xfers.trans k.xfers
  quiet := k.quiet

/-- A step that sends nothing. -/
theorem Sent.none {a r : Bool} {s t : State} (hk : Keeps s t) (hacc : t.acc = (s.acc || a)) (hrej : t.rej = (s.rej || r))
    (hcs : t.csOut = s.csOut) (hdc : t.dcOut = s.dcOut) (hasync : t.asyncInflight = false) (hw : t.wire = s.wire)
    (hrx : t.rx = s.rx) (hx : t.xfers = s.xfers) (hq : Quiet t) : Sent [] a r s t where
  keeps := hk
  acc := hacc
  rej := hrej
  cs := by simp [hcs]
  dc := by simp [hdc, lastDc]
  async := hasync
  wire := by simp [hw, sentItems]
  rx := by simp [hrx, sentItems]
  xfers := hx ▸ List.prefix_refl _
  quiet := hq

theorem Sent.refl {s : State} (ha : s.asyncInflight = false) (hq : Quiet s) : Sent [] false false s s :=
  Sent.none (Keeps.refl s) (by simp) (by simp) rfl rfl ha rfl rfl rfl hq

theorem lastDc_map {es : List Elem} {d e : DC} (h : ∀ x ∈ es, x.dc = e) (hne : es ≠ []) : lastDc d es = e := by
  induction es generalizing d with
  | nil => exact absurd rfl hne
  | cons x xs ih =>
    cases xs with
    | nil => simpa [lastDc] using h x (by simp)
    | cons y ys => exact ih (d := x.dc) (fun z hz => h z (List.mem_cons_of_mem _ hz)) (by simp)

@[simp] theorem mkElem_dc (d : DC) (w : Width) (v : Word) : (mkElem d w v).dc = d := by
  cases w <;> rfl

/-- Opening a transaction, driving DC and streaming elements at that level is sending them. -/
theorem sent_of_streamed {es : List Elem} {d : DC} {s t : State} (hne : es ≠ []) (hd : ∀ x ∈ es, x.dc = d)
    (h : Streamed es ((openTxn s).setDc d) t) : Sent es false false s t where
  keeps := ((openTxn_keeps s).trans (t := openTxn s) (u := (openTxn s).setDc d)
    ⟨rfl, rfl, rfl, rfl, rfl, rfl, rfl, rfl, rfl⟩).trans h.keeps
  acc := by
    rw [h.acc]; simp only [State.setDc_acc, Bool.or_false]
    unfold openTxn; split <;> rfl
  rej := by
    rw [h.rej]; simp only [State.setDc_rej, Bool.or_false]
    unfold openTxn; split <;> rfl
  cs := by
    cases es with
    | nil => exact absurd rfl hne
    | cons e es => simp [h.cs]
  dc := by rw [h.dc, lastDc_map hd hne]; rfl
  async := h.async
  wire := by
    cases es with
    | nil => exact absurd rfl hne
    | cons e es => rw [h.wire]; simp [openTxn_wire, sentItems]
  rx := by
    have hc : (openTxn s).cfg = s.cfg := (openTxn_keeps s).cfg
    cases es with
    | nil => exact absurd rfl hne
    | cons e es =>
      rw [h.rx]
      simp only [State.setDc_rx, openTxn_rx, State.setDc_cfg, hc, sentItems, Receiver.items_append]
      unfold opening
      split <;> simp
  xfers := by
    refine List.IsPrefix.trans ?_ h.xfers
    unfold openTxn
    split <;> exact List.prefix_refl _
  quiet := h.quiet

/-! ### SendCommand -/

theorem openTxn_reports (s : State) : (openTxn s).reports = s.reports := by
  unfold openTxn
  split <;> rfl

theorem openTxn_async (s : State) : (openTxn s).asyncInflight = s.asyncInflight := by
  unfold openTxn
  split <;> rfl

theorem openTxn_dp (s : State) : (openTxn s).dp = s.dp := by
  unfold openTxn
  split <;> rfl

/-- `SendCommand` puts its one element on the wire (R127). -/
theorem command_goes (op : Byte) {s : State} (ha : s.asyncInflight = false) (hq : Quiet s) :
    ∃ t, GoesTo [.command op] s t ∧ Sent [cmdElem op] false false s t ∧ t.dp = s.dp := by
  have hq' : Quiet ((openTxn s).setDc .command) := fun r hr => hq r (by simpa [openTxn_reports] using hr)
  obtain ⟨t, ht, hst, -⟩ := issueChunk_quiet (src := .command op) (len := 1) (w := .w8)
    (s := (openTxn s).setDc .command) (vs := [op.setWidth 16]) rfl hq' (by simpa [openTxn_async] using ha)
  have he : ([op.setWidth 16].map (mkElem ((openTxn s).setDc .command).dcOut .w8)) = [cmdElem op] := by
    have : (BitVec.setWidth 8 (BitVec.setWidth 16 op)) = op := by
      apply BitVec.eq_of_toNat_eq
      simp only [BitVec.toNat_setWidth]
      omega
    simp [mkElem, cmdElem, this]
  rw [he] at hst
  refine ⟨t, GoesTo.one ht, sent_of_streamed (by simp) (by simp [cmdElem, Elem.dc]) hst, ?_⟩
  rw [hst.dp]
  simp [openTxn_dp]

/-! ### SendData -/

/-- The lengths of `splitBy` sum to `n` (R124, R128). -/
theorem splitBy_sum (cap n : Nat) : (splitBy cap n).sum = n := by
  unfold splitBy
  have h : cap * (n / cap) + n % cap = n := Nat.div_add_mod n cap
  rw [Nat.mul_comm] at h
  split
  · rename_i h0
    simp only [List.append_nil, List.sum_replicate, smul_eq_mul]
    omega
  · simp only [List.sum_append, List.sum_replicate, smul_eq_mul, List.sum_cons, List.sum_nil]
    omega

/-- Every length of `splitBy` is between 1 and the cap (R124). -/
theorem splitBy_mem {cap n k : Nat} (hc : 0 < cap) (h : k ∈ splitBy cap n) : 1 ≤ k ∧ k ≤ cap := by
  unfold splitBy at h
  rcases List.mem_append.1 h with h | h
  · have := (List.mem_replicate.1 h).2
    omega
  · have hm := Nat.mod_lt n hc
    split at h
    · simp at h
    · simp only [List.mem_singleton] at h
      omega

theorem splitBy_zero (cap : Nat) : splitBy cap 0 = [] := by
  simp [splitBy]

/-- Streaming the chunks of one `SendData` from an internal source: all of its values. -/
theorem chunks_goes {src : Source} {ls : List Nat} {s : State} (vals : Nat → List Word)
    (hsrc : ∀ (t : State) (k : Nat), t.dp = s.dp → k ∈ ls →
      chunkValues ⟨src, k, t.ww, pathFor t.cfg k⟩ (issued k t.ww t) = .ok (vals k))
    (ha : s.asyncInflight = false) (hq : Quiet s) :
    ∃ t, GoesTo (ls.map (Atom.chunk src)) s t ∧
      Streamed ((ls.flatMap vals).map (mkElem s.dcOut s.ww)) s t := by
  induction ls generalizing s with
  | nil => exact ⟨s, GoesTo.nil s, Streamed.nil ha hq⟩
  | cons k ls ih =>
    let s1 := s.setXp { s.xp with chunkLen := BitVec.ofNat 16 k }
    obtain ⟨t, ht, hst, -⟩ := issueChunk_quiet (src := src) (len := k) (w := s.ww) (s := s1) (vs := vals k)
      (hsrc s1 k rfl (by simp)) hq ha
    have hst' : Streamed ((vals k).map (mkElem s.dcOut s.ww)) s t :=
      ⟨⟨hst.keeps.cfg, hst.keeps.ww, hst.keeps.outcome, hst.keeps.req, hst.keeps.phase, hst.keeps.mem,
        hst.keeps.hostWrites, hst.keeps.port, hst.keeps.resetIn⟩, hst.dp, hst.acc, hst.rej, hst.cs, hst.dc, hst.async,
        hst.wire, hst.rx, hst.xfers, hst.quiet⟩
    obtain ⟨u, hu, hsu⟩ := ih (s := t)
      (fun v j hv hj => hsrc v j (hv.trans hst'.dp) (List.mem_cons_of_mem _ hj)) hst'.async hst'.quiet
    refine ⟨u, GoesTo.cons (t := t) ?_ hu, ?_⟩
    · exact ht
    · have := hst'.trans hsu
      rw [hst'.dc, hst'.keeps.ww] at this
      simpa using this

/-- `SendData` from an internal source (R128): nothing for n = 0, else its values in one run. -/
theorem sendData_goes {src : Source} {n : Nat} {s : State} (vals : Nat → List Word)
    (hsrc : ∀ (t : State) (k : Nat), t.dp = s.dp → k ∈ splitBy maxChunk n →
      chunkValues ⟨src, k, t.ww, pathFor t.cfg k⟩ (issued k t.ww t) = .ok (vals k))
    (hne : n ≠ 0 → (splitBy maxChunk n).flatMap vals ≠ []) (ha : s.asyncInflight = false) (hq : Quiet s) :
    ∃ t, GoesTo (sendData src n none) s t ∧
      Sent (((splitBy maxChunk n).flatMap vals).map (mkElem .data s.ww)) false false s t ∧ t.dp = s.dp := by
  unfold sendData
  by_cases hn : n = 0
  · subst hn
    simp only [if_true, splitBy_zero, List.flatMap_nil, List.map_nil]
    exact ⟨s, GoesTo.nil s, Sent.refl ha hq, rfl⟩
  · rw [if_neg hn]
    let s1 := ((openTxn s).setDc .data)
    let s2 := s1.setXp { s1.xp with remain := BitVec.ofNat 32 n, ptr := (none : Option Long).getD s1.xp.ptr }
    have hdp : s2.dp = s.dp := by
      show (openTxn s).dp = s.dp
      exact openTxn_dp s
    have hww : s2.ww = s.ww := (openTxn_keeps s).ww
    obtain ⟨t, ht, hst⟩ := chunks_goes (src := src) (ls := splitBy maxChunk n) (s := s2) vals
      (fun v k hv hk => hsrc v k (hv.trans hdp) hk)
      (by show (openTxn s).asyncInflight = false; rw [openTxn_async]; exact ha)
      (fun r hr => hq r (by rw [← openTxn_reports s]; exact hr))
    have hst1 : Streamed (((splitBy maxChunk n).flatMap vals).map (mkElem .data s.ww)) s1 t := by
      rw [hww] at hst
      exact ⟨⟨hst.keeps.cfg, hst.keeps.ww, hst.keeps.outcome, hst.keeps.req, hst.keeps.phase, hst.keeps.mem,
        hst.keeps.hostWrites, hst.keeps.port, hst.keeps.resetIn⟩, hst.dp, hst.acc, hst.rej, hst.cs, hst.dc, hst.async,
        hst.wire, hst.rx, hst.xfers, hst.quiet⟩
    have hsent := sent_of_streamed (d := .data) (es := ((splitBy maxChunk n).flatMap vals).map (mkElem .data s.ww))
      (s := s) (t := t) (by simpa using hne hn) (fun x hx => by
        obtain ⟨v, -, rfl⟩ := List.mem_map.1 hx
        simp) hst1
    let u := (t.setXp (Config.freeTransport t.fresh)).setFresh (t.fresh + 1)
    refine ⟨u, ?_, ?_, ?_⟩
    · exact GoesTo.cons (t := s2) rfl (ht.append (GoesTo.one (t := u) rfl))
    · exact ⟨⟨hsent.keeps.cfg, hsent.keeps.ww, hsent.keeps.outcome, hsent.keeps.req, hsent.keeps.phase, hsent.keeps.mem,
        hsent.keeps.hostWrites, hsent.keeps.port, hsent.keeps.resetIn⟩, hsent.acc, hsent.rej, hsent.cs, hsent.dc,
        hsent.async, hsent.wire, hsent.rx, hsent.xfers, hsent.quiet⟩
    · show t.dp = s.dp
      exact hst.dp.trans hdp

end Sys2Proof.Machine
end

