-- ==== Sys2Proof/Laws/PerInstr.lean ====
section
/-! SUPPORT. A statement about each request as syntax: its descriptor selects its own row of the opcode table
    (spec 30 R93,
R96). One lemma per constructor. -/

namespace Sys2Proof.Laws.TableRow

open Sys2Proof

/-- The request's descriptor selects the row of the opcode table that bears its mnemonic. -/
def Statement (i : Instr) : Prop := ∃ r ∈ opcodeTable, r.mnemonic = i.mnemonic ∧ r.selects (encode i) = true

theorem ofWords_and (a0 a1 a2 a3 a4 a5 a6 a7 b0 b1 b2 b3 b4 b5 b6 b7 : Word) :
    Desc.ofWords a0 a1 a2 a3 a4 a5 a6 a7 &&& Desc.ofWords b0 b1 b2 b3 b4 b5 b6 b7 =
      Desc.ofWords (a0 &&& b0) (a1 &&& b1) (a2 &&& b2) (a3 &&& b3) (a4 &&& b4) (a5 &&& b5) (a6 &&& b6)
    (a7 &&& b7) := by
  exact BitVec.and_append.trans
    (congrArg (_ ++ ·) (BitVec.and_append.trans
    (congrArg (_ ++ ·) (BitVec.and_append.trans
    (congrArg (_ ++ ·) (BitVec.and_append.trans
    (congrArg (_ ++ ·) (BitVec.and_append.trans
    (congrArg (_ ++ ·) (BitVec.and_append.trans
    (congrArg (_ ++ ·) (BitVec.and_append))))))))))))

/-- A row whose mask and pattern are given word by word. -/
theorem selects_words {name : String} {p m : Desc} {a0 a1 a2 a3 a4 a5 a6 a7 p0 m0 m1 m2 m3 m4 m5 m6 m7 : Word}
    (hm : m = Desc.ofWords m0 m1 m2 m3 m4 m5 m6 m7) (hp : p = Desc.ofWords p0 0 0 0 0 0 0 0) (h0 : a0 &&& m0 = p0)
    (h1 : a1 &&& m1 = 0) (h2 : a2 &&& m2 = 0) (h3 : a3 &&& m3 = 0) (h4 : a4 &&& m4 = 0) (h5 : a5 &&& m5 = 0)
    (h6 : a6 &&& m6 = 0) (h7 : a7 &&& m7 = 0) :
    (⟨name, p, m⟩ : Row).selects (Desc.ofWords a0 a1 a2 a3 a4 a5 a6 a7) = true := by
  simp only [Row.selects, decide_eq_true_eq, hm, hp, ofWords_and, h0, h1, h2, h3, h4, h5, h6, h7]

theorem and_zero_word (a : Word) : a &&& 0 = 0 := BitVec.and_zero

theorem window (x0 y0 x1 y1 : Word) : Statement (.window x0 y0 x1 y1) :=
  ⟨_, List.mem_of_getElem? (i := 0) rfl, rfl, selects_words (p0 := 0x1) (m0 := 0xFFFF) (m1 := 0) (m2 := 0) (m3 := 0)
    (m4 := 0) (m5 := 0xFFFF) (m6 := 0xFFFF) (m7 := 0xFFFF) rfl rfl rfl
    (and_zero_word _) (and_zero_word _) (and_zero_word _) (and_zero_word _) rfl rfl rfl⟩

theorem pixel (x y color : Word) : Statement (.pixel x y color) :=
  ⟨_, List.mem_of_getElem? (i := 1) rfl, rfl, selects_words (p0 := 0x2) (m0 := 0xFFFF) (m1 := 0) (m2 := 0)
    (m3 := 0xFFFF) (m4 := 0xFFFF) (m5 := 0xFFFF) (m6 := 0xFFFF) (m7 := 0) rfl rfl rfl
    (and_zero_word _) (and_zero_word _) rfl rfl rfl rfl (and_zero_word _)⟩

theorem fillrect (x0 y0 x1 y1 color : Word) : Statement (.fillrect x0 y0 x1 y1 color) :=
  ⟨_, List.mem_of_getElem? (i := 2) rfl, rfl, selects_words (p0 := 0x3) (m0 := 0xFFFF) (m1 := 0) (m2 := 0) (m3 := 0)
    (m4 := 0) (m5 := 0xFFFF) (m6 := 0xFFFF) (m7 := 0) rfl rfl rfl
    (and_zero_word _) (and_zero_word _) (and_zero_word _) (and_zero_word _) rfl rfl (and_zero_word _)⟩

theorem blit (x y w h : Word) (src : Long) : Statement (.blit x y w h src) :=
  ⟨_, List.mem_of_getElem? (i := 3) rfl, rfl, selects_words (p0 := 0x4) (m0 := 0xFFFF) (m1 := 0) (m2 := 0) (m3 := 0)
    (m4 := 0) (m5 := 0) (m6 := 0) (m7 := 0xFFFF) rfl rfl rfl
    (and_zero_word _) (and_zero_word _) (and_zero_word _) (and_zero_word _) (and_zero_word _) (and_zero_word _) rfl⟩

theorem line (x0 y0 x1 y1 color : Word) : Statement (.line x0 y0 x1 y1 color) :=
  ⟨_, List.mem_of_getElem? (i := 4) rfl, rfl, selects_words (p0 := 0x5) (m0 := 0xFFFF) (m1 := 0) (m2 := 0) (m3 := 0)
    (m4 := 0) (m5 := 0xFFFF) (m6 := 0xFFFF) (m7 := 0) rfl rfl rfl
    (and_zero_word _) (and_zero_word _) (and_zero_word _) (and_zero_word _) rfl rfl (and_zero_word _)⟩

theorem rect (x0 y0 x1 y1 color : Word) : Statement (.rect x0 y0 x1 y1 color) :=
  ⟨_, List.mem_of_getElem? (i := 5) rfl, rfl, selects_words (p0 := 0x6) (m0 := 0xFFFF) (m1 := 0) (m2 := 0) (m3 := 0)
    (m4 := 0) (m5 := 0xFFFF) (m6 := 0xFFFF) (m7 := 0) rfl rfl rfl
    (and_zero_word _) (and_zero_word _) (and_zero_word _) (and_zero_word _) rfl rfl (and_zero_word _)⟩

theorem circle (xc yc r color : Word) : Statement (.circle xc yc r color) :=
  ⟨_, List.mem_of_getElem? (i := 6) rfl, rfl, selects_words (p0 := 0x7) (m0 := 0xFFFF) (m1 := 0) (m2 := 0) (m3 := 0)
    (m4 := 0xFFFF) (m5 := 0xFFFF) (m6 := 0xFFFF) (m7 := 0) rfl rfl rfl
    (and_zero_word _) (and_zero_word _) (and_zero_word _) rfl rfl rfl (and_zero_word _)⟩

theorem fcircle (xc yc r color : Word) : Statement (.fcircle xc yc r color) :=
  ⟨_, List.mem_of_getElem? (i := 7) rfl, rfl, selects_words (p0 := 0x8) (m0 := 0xFFFF) (m1 := 0) (m2 := 0) (m3 := 0)
    (m4 := 0xFFFF) (m5 := 0xFFFF) (m6 := 0xFFFF) (m7 := 0) rfl rfl rfl
    (and_zero_word _) (and_zero_word _) (and_zero_word _) rfl rfl rfl (and_zero_word _)⟩

theorem tri (x1 y1 x2 y2 x3 y3 color : Word) : Statement (.tri x1 y1 x2 y2 x3 y3 color) :=
  ⟨_, List.mem_of_getElem? (i := 8) rfl, rfl, selects_words (p0 := 0x9) (m0 := 0xFFFF) (m1 := 0) (m2 := 0) (m3 := 0)
    (m4 := 0) (m5 := 0) (m6 := 0) (m7 := 0) rfl rfl rfl
    (and_zero_word _) (and_zero_word _) (and_zero_word _) (and_zero_word _) (and_zero_word _) (and_zero_word _)
    (and_zero_word _)⟩

theorem ftri (x1 y1 x2 y2 x3 y3 color : Word) : Statement (.ftri x1 y1 x2 y2 x3 y3 color) :=
  ⟨_, List.mem_of_getElem? (i := 9) rfl, rfl, selects_words (p0 := 0xa) (m0 := 0xFFFF) (m1 := 0) (m2 := 0) (m3 := 0)
    (m4 := 0) (m5 := 0) (m6 := 0) (m7 := 0) rfl rfl rfl
    (and_zero_word _) (and_zero_word _) (and_zero_word _) (and_zero_word _) (and_zero_word _) (and_zero_word _)
    (and_zero_word _)⟩

/-- The first word of CMD under its mask: SUB is the command byte (R92). -/
theorem cmd_first (opcode : Byte) : (opcode ++ (0x10 : Byte) : Word) &&& 0x00FF = 0x10 := by
  have h : (0x00FF : Word) = (0 : Byte) ++ (0xFF : Byte) := rfl
  rw [h]
  exact BitVec.and_append.trans (congrArg (· ++ _) BitVec.and_zero)

theorem cmd (opcode : Byte) (n : Word) (src : Long) : Statement (.cmd opcode n src) :=
  ⟨_, List.mem_of_getElem? (i := 10) rfl, rfl, selects_words (p0 := 0x10) (m0 := 0x00FF) (m1 := 0) (m2 := 0xFFFF)
    (m3 := 0xFFFF) (m4 := 0xFFFF) (m5 := 0) (m6 := 0) (m7 := 0xFFFF) rfl rfl (cmd_first opcode)
    (and_zero_word _) rfl rfl rfl (and_zero_word _) (and_zero_word _) rfl⟩

theorem data8 (n src : Long) : Statement (.data8 n src) :=
  ⟨_, List.mem_of_getElem? (i := 11) rfl, rfl, selects_words (p0 := 0x811) (m0 := 0xFFFF) (m1 := 0) (m2 := 0)
    (m3 := 0xFFFF) (m4 := 0xFFFF) (m5 := 0) (m6 := 0) (m7 := 0xFFFF) rfl rfl rfl
    (and_zero_word _) (and_zero_word _) rfl rfl (and_zero_word _) (and_zero_word _) rfl⟩

theorem data16 (n src : Long) : Statement (.data16 n src) :=
  ⟨_, List.mem_of_getElem? (i := 12) rfl, rfl, selects_words (p0 := 0x1011) (m0 := 0xFFFF) (m1 := 0) (m2 := 0)
    (m3 := 0xFFFF) (m4 := 0xFFFF) (m5 := 0) (m6 := 0) (m7 := 0xFFFF) rfl rfl rfl
    (and_zero_word _) (and_zero_word _) rfl rfl (and_zero_word _) (and_zero_word _) rfl⟩

end Sys2Proof.Laws.TableRow
end

