-- ==== Sys2Proof/Laws/Tasks.lean ====
section
/-! SUPPORT. What each primitive sends when its chunks complete: host-memory streams, the window group, the width bracket,
sub-primitives, and a whole request from its primitives. -/

namespace Sys2Proof.Machine

/-! ### Host memory -/

theorem hostList_congr {s t : State} (hc : t.cfg = s.cfg) (hm : t.mem = s.mem) (w : Width) (n a : Nat) :
    hostList t w n a = hostList s w n a := by
  simp [hostList, hc, hm]

theorem readable_congr {s t : State} (hc : t.cfg = s.cfg) (hm : t.mem = s.mem) (hw : t.hostWrites = s.hostWrites)
    {w : Width} {n a : Nat} (h : Readable s w n a) : Readable t w n a := by
  intro k hk
  rw [hc, hm, hw]
  exact h k hk

theorem hostList_append (s : State) (w : Width) (n m a : Nat) :
    hostList s w (n + m) a = hostList s w n a ++ hostList s w m (a + n * w.bytes) := by
  simp only [hostList, List.range_add, List.map_append, List.map_map]
  congr 1
  apply List.map_congr_left
  intro k _
  simp only [Function.comp_apply]
  congr 2
  rw [Nat.add_mul, Nat.add_assoc]

theorem readable_append {s : State} {w : Width} {n m a : Nat} (h : Readable s w (n + m) a) :
    Readable s w n a ∧ Readable s w m (a + n * w.bytes) := by
  refine ⟨fun k hk => h k (by omega), fun k hk => ?_⟩
  have := h (n + k) (by omega)
  rwa [Nat.add_mul, ← Nat.add_assoc] at this

@[simp] theorem hostList_length (s : State) (w : Width) (n a : Nat) : (hostList s w n a).length = n := by
  simp [hostList]

/-- Elements that can be read are read (R61, R62). -/
theorem hostElems_readable {s : State} {w : Width} {n a : Nat} (k : Nat) (h : Readable s w n a) :
    hostElems s w n a k = .ok (hostList s w n a) := by
  induction n generalizing a k with
  | zero => rfl
  | succ n ih =>
    have h0 := h 0 (by omega)
    simp only [Nat.zero_mul, Nat.add_zero] at h0
    have hr : Readable s w n (a + w.bytes) := by
      have := (readable_append (n := 1) (m := n) (by rwa [Nat.add_comm] at h)).2
      simpa using this
    obtain ⟨v, hv⟩ := Option.isSome_iff_exists.1 h0.2
    have he : hostElem s w a k = .ok v := by simp [hostElem, h0.1, hv]
    have hl : hostList s w (n + 1) a = v :: hostList s w n (a + w.bytes) := by
      have := hostList_append s w 1 n a
      rw [Nat.add_comm] at this
      rw [this]
      simp [hostList, hv]
    simp [hostElems, he, ih _ hr, hl]

/-- Streaming host chunks from `PTR` (R62, R128). -/
theorem hostChunks_goes {ls : List Nat} {s : State} {a : Nat} (hptr : s.xp.ptr = BitVec.ofNat 32 a)
    (hr : Readable s s.ww ls.sum a) (hb : a + ls.sum * s.ww.bytes ≤ 2 ^ 32) (hpos : ∀ k ∈ ls, 0 < k)
    (ha : s.asyncInflight = false) (hq : Quiet s) :
    ∃ t, GoesTo (ls.map (Atom.chunk .host)) s t ∧
      Streamed ((hostList s s.ww ls.sum a).map (mkElem s.dcOut s.ww)) s t := by
  induction ls generalizing s a with
  | nil => exact ⟨s, GoesTo.nil s, by simpa [hostList] using Streamed.nil ha hq⟩
  | cons k ls ih =>
    simp only [List.sum_cons] at hr hb
    have hk : 0 < k := hpos k (by simp)
    have hbytes : 0 < s.ww.bytes := by cases s.ww <;> decide
    have hlt : a < 2 ^ 32 := by
      have : 1 * 1 ≤ (k + ls.sum) * s.ww.bytes := Nat.mul_le_mul (by omega) hbytes
      omega
    let s1 := s.setXp { s.xp with chunkLen := BitVec.ofNat 16 k }
    obtain ⟨hkeep, -, hxp, -⟩ := issued_fields k s.ww s1
    have hkr := readable_append hr
    have hv : chunkValues ⟨.host, k, s.ww, pathFor s1.cfg k⟩ (issued k s.ww s1) = .ok (hostList s s.ww k a) := by
      have hrk : Readable (issued k s.ww s1) s.ww k a :=
        readable_congr hkeep.cfg hkeep.mem hkeep.hostWrites hkr.1
      simp only [chunkValues, hxp]
      have : (s1.xp.ptr).toNat = a := by
        show s.xp.ptr.toNat = a
        rw [hptr]
        simp only [BitVec.toNat_ofNat]
        exact Nat.mod_eq_of_lt hlt
      rw [this, hostElems_readable _ hrk, hostList_congr hkeep.cfg hkeep.mem]
      rfl
    obtain ⟨t, ht, hst, hset⟩ := issueChunk_quiet (src := .host) (len := k) (w := s.ww) (s := s1) hv hq ha
    have hst' : Streamed ((hostList s s.ww k a).map (mkElem s.dcOut s.ww)) s t :=
      ⟨⟨hst.keeps.cfg, hst.keeps.ww, hst.keeps.outcome, hst.keeps.req, hst.keeps.phase, hst.keeps.mem,
        hst.keeps.hostWrites, hst.keeps.port, hst.keeps.resetIn⟩, hst.dp, hst.acc, hst.rej, hst.cs, hst.dc, hst.async,
        hst.wire, hst.rx, hst.xfers, hst.quiet⟩
    have hptr' : t.xp.ptr = BitVec.ofNat 32 (a + k * s.ww.bytes) := by
      rw [hset]
      have hx : ∀ (p : Path) (u : State), (settled ⟨.host, k, s.ww, p⟩ (hostList s s.ww k a) u).xp.ptr =
          u.xp.ptr + BitVec.ofNat 32 (k * s.ww.bytes) := by
        intro p u
        simp only [settled, afterChunk_xp_host, emit, State.put_xp]
        split <;> simp
      rw [hx, hxp]
      show s.xp.ptr + _ = _
      rw [hptr, BitVec.ofNat_add]
    have hww : t.ww = s.ww := hst'.keeps.ww
    obtain ⟨u, hu, hsu⟩ := ih (s := t) (a := a + k * s.ww.bytes) hptr'
      (by rw [hww]; exact readable_congr hst'.keeps.cfg hst'.keeps.mem hst'.keeps.hostWrites hkr.2)
      (by rw [hww]; rw [Nat.add_mul] at hb; omega)
      (fun j hj => hpos j (List.mem_cons_of_mem _ hj)) hst'.async hst'.quiet
    refine ⟨u, GoesTo.cons (t := t) ht hu, ?_⟩
    have := hst'.trans hsu
    rw [hst'.dc, hww, hostList_congr hst'.keeps.cfg hst'.keeps.mem] at this
    simpa [hostList_append] using this

/-- `SendData` from a host address (R128). -/
theorem sendHost_goes {n : Nat} {src : Long} {s : State} (hr : Readable s s.ww n src.toNat)
    (hb : src.toNat + n * s.ww.bytes ≤ 2 ^ 32) (ha : s.asyncInflight = false) (hq : Quiet s) :
    ∃ t, GoesTo (sendData .host n (some src)) s t ∧
      Sent ((hostList s s.ww n src.toNat).map (mkElem .data s.ww)) false false s t := by
  unfold sendData
  by_cases hn : n = 0
  · subst hn
    exact ⟨s, GoesTo.nil s, by simpa [hostList] using Sent.refl ha hq⟩
  · rw [if_neg hn]
    let s1 := (openTxn s).setDc .data
    let s2 := s1.setXp { s1.xp with remain := BitVec.ofNat 32 n, ptr := (some src).getD s1.xp.ptr }
    have hk := openTxn_keeps s
    have hww : s2.ww = s.ww := hk.ww
    obtain ⟨t, ht, hst⟩ := hostChunks_goes (ls := splitBy maxChunk n) (s := s2) (a := src.toNat)
      (by show src = BitVec.ofNat 32 src.toNat; simp)
      (by rw [splitBy_sum, hww]; exact readable_congr hk.cfg hk.mem hk.hostWrites hr)
      (by rw [splitBy_sum, hww]; exact hb)
      (fun k hk => by have := (splitBy_mem (by decide) hk).1; omega)
      (by show (openTxn s).asyncInflight = false; rw [openTxn_async]; exact ha)
      (fun r hr => hq r (by rw [← openTxn_reports s]; exact hr))
    have hl : hostList s2 s2.ww (splitBy maxChunk n).sum src.toNat = hostList s s.ww n src.toNat := by
      rw [splitBy_sum, hww]
      exact hostList_congr hk.cfg hk.mem _ _ _
    have hst1 : Streamed ((hostList s s.ww n src.toNat).map (mkElem .data s.ww)) s1 t := by
      rw [hl, hww] at hst
      exact ⟨⟨hst.keeps.cfg, hst.keeps.ww, hst.keeps.outcome, hst.keeps.req, hst.keeps.phase, hst.keeps.mem,
        hst.keeps.hostWrites, hst.keeps.port, hst.keeps.resetIn⟩, hst.dp, hst.acc, hst.rej, hst.cs, hst.dc, hst.async,
        hst.wire, hst.rx, hst.xfers, hst.quiet⟩
    have hne : (hostList s s.ww n src.toNat).map (mkElem .data s.ww) ≠ [] := by
      intro h0
      have := congrArg List.length h0
      simp at this
      exact hn this
    have hsent := sent_of_streamed (d := .data) (s := s) (t := t) hne (fun x hx => by
      obtain ⟨v, -, rfl⟩ := List.mem_map.1 hx
      simp) hst1
    let u := (t.setXp (Config.freeTransport t.fresh)).setFresh (t.fresh + 1)
    refine ⟨u, ?_, ?_⟩
    · exact GoesTo.cons (t := s2) rfl (ht.append (GoesTo.one (t := u) rfl))
    · exact ⟨⟨hsent.keeps.cfg, hsent.keeps.ww, hsent.keeps.outcome, hsent.keeps.req, hsent.keeps.phase, hsent.keeps.mem,
        hsent.keeps.hostWrites, hsent.keeps.port, hsent.keeps.resetIn⟩, hsent.acc, hsent.rej, hsent.cs, hsent.dc,
        hsent.async, hsent.wire, hsent.rx, hsent.xfers, hsent.quiet⟩

/-! ### Internal sources -/

theorem issued_dp (k : Nat) (w : Width) (s : State) : (issued k w s).dp = s.dp := (issued_fields k w s).2.1

/-- `SendData` of a cell held constant (R128, inc = 0). -/
theorem sendCell_goes (v : Word) (n : Nat) {s : State} (ha : s.asyncInflight = false) (hq : Quiet s) :
    ∃ t, GoesTo (sendData (.cell v) n none) s t ∧
      Sent ((List.replicate n v).map (mkElem .data s.ww)) false false s t ∧ t.dp = s.dp := by
  have hl : ∀ ls : List Nat, ls.flatMap (fun k => List.replicate k v) = List.replicate ls.sum v := by
    intro ls
    induction ls with
    | nil => rfl
    | cons k ls ih => simp [ih]
  have := sendData_goes (src := .cell v) (n := n) (s := s) (fun k => List.replicate k v) (fun _ _ _ _ => rfl)
    (fun hn => by rw [hl, splitBy_sum]; simpa using hn) ha hq
  rwa [hl, splitBy_sum] at this

theorem splitBy_small {cap n : Nat} (h0 : n ≠ 0) (h : n < cap) : splitBy cap n = [n] := by
  simp [splitBy, Nat.div_eq_of_lt h, Nat.mod_eq_of_lt h, h0]

/-- `SendData` of the four parameter bytes of one axis (R153). -/
theorem sendBytes_goes (b0 b1 b2 b3 : Byte) {s : State} (hw : s.ww = .w8) (ha : s.asyncInflight = false) (hq : Quiet s) :
    ∃ t, GoesTo (sendData (.bytes [b0, b1, b2, b3]) 4 none) s t ∧
      Sent ([b0, b1, b2, b3].map paramElem) false false s t ∧ t.dp = s.dp := by
  have h := sendData_goes (src := .bytes [b0, b1, b2, b3]) (n := 4) (s := s)
    (fun _ => [b0, b1, b2, b3].map fun b => b.setWidth 16) (fun _ _ _ _ => rfl)
    (by rw [splitBy_small (by decide) (by decide)]; simp) ha hq
  rw [splitBy_small (by decide) (by decide), hw] at h
  have hb : ∀ b : Byte, mkElem .data .w8 (b.setWidth 16) = paramElem b := by
    intro b
    have : (BitVec.setWidth 8 (BitVec.setWidth 16 b)) = b := by
      apply BitVec.eq_of_toNat_eq
      simp only [BitVec.toNat_setWidth]
      omega
    simp [mkElem, paramElem, this]
  simpa [hb] using h

/-- `SendData` of `k` samples of the loaded block (R183). -/
theorem sendBlock_goes {b k : Nat} {v : Word} {s : State} (hblock : s.dp.block = List.replicate b v) (hk : 1 ≤ k)
    (hkb : k ≤ b) (hb : b ≤ fillBlockMax) (ha : s.asyncInflight = false) (hq : Quiet s) :
    ∃ t, GoesTo (sendData .block k none) s t ∧
      Sent ((List.replicate k v).map (mkElem .data s.ww)) false false s t ∧ t.dp = s.dp := by
  have hlt : k < maxChunk := by unfold fillBlockMax at hb; unfold maxChunk; omega
  have h := sendData_goes (src := .block) (n := k) (s := s) (fun j => s.dp.block.take j)
    (fun t j ht _ => by simp [chunkValues, issued_dp, ht])
    (fun hn => by
      rw [splitBy_small hn hlt]
      simp only [List.flatMap_cons, List.flatMap_nil, List.append_nil, hblock, List.take_replicate]
      intro h0
      have := congrArg List.length h0
      simp at this
      omega) ha hq
  rw [splitBy_small (by omega) hlt] at h
  simpa [hblock, Nat.min_eq_left hkb] using h

theorem sendBlocks_goes {b : Nat} {v : Word} {ls : List Nat} {s : State} (hblock : s.dp.block = List.replicate b v)
    (hls : ∀ k ∈ ls, 1 ≤ k ∧ k ≤ b) (hb : b ≤ fillBlockMax) (ha : s.asyncInflight = false) (hq : Quiet s) :
    ∃ t, GoesTo (ls.flatMap fun k => sendData .block k none) s t ∧
      Sent ((List.replicate ls.sum v).map (mkElem .data s.ww)) false false s t := by
  induction ls generalizing s with
  | nil => exact ⟨s, GoesTo.nil s, by simpa using Sent.refl ha hq⟩
  | cons k ls ih =>
    obtain ⟨t, ht, hst, hdp⟩ := sendBlock_goes hblock (hls k (by simp)).1 (hls k (by simp)).2 hb ha hq
    obtain ⟨u, hu, hsu⟩ := ih (s := t) (by rw [hdp]; exact hblock) (fun j hj => hls j (List.mem_cons_of_mem _ hj))
      hst.async hst.quiet
    refine ⟨u, by simpa using ht.append hu, ?_⟩
    have := hst.trans hsu
    rw [hst.keeps.ww] at this
    simpa using this

/-- The samples of `Fill`: N of them, whatever the strategy (R183). -/
theorem fillData_goes (v : Word) (n : Nat) {s : State} (hcfg : s.cfg.fillStrategy.ok = true)
    (ha : s.asyncInflight = false) (hq : Quiet s) :
    ∃ t, GoesTo (fillData s.cfg v n) s t ∧
      Sent ((List.replicate n v).map (mkElem .data s.ww)) false false s t := by
  unfold fillData
  split
  · rename_i b hb
    have hok : 1 ≤ b ∧ b ≤ fillBlockMax := by
      rw [hb] at hcfg
      simpa [FillStrategy.ok] using hcfg
    let s1 := s.setDp { s.dp with block := List.replicate b v }
    obtain ⟨t, ht, hst⟩ := sendBlocks_goes (b := b) (v := v) (ls := splitBy b n) (s := s1) rfl
      (fun k hk => splitBy_mem (by omega) hk) hok.2 ha hq
    rw [splitBy_sum] at hst
    refine ⟨t, GoesTo.cons (t := s1) rfl ht, ?_⟩
    exact ⟨⟨hst.keeps.cfg, hst.keeps.ww, hst.keeps.outcome, hst.keeps.req, hst.keeps.phase, hst.keeps.mem,
        hst.keeps.hostWrites, hst.keeps.port, hst.keeps.resetIn⟩, hst.acc, hst.rej, hst.cs, hst.dc,
        hst.async, hst.wire, hst.rx, hst.xfers, hst.quiet⟩
  · obtain ⟨t, ht, hst, -⟩ := sendCell_goes v n ha hq
    exact ⟨t, ht, hst⟩

/-! ### The width bracket and the window -/

/-- `With16(body)` around a body run at width 16, from and back to width 8 (R129). -/
theorem with16_goes {body : List Atom} {es : List Elem} {s : State} (hw : s.ww = .w8)
    (hbody : ∃ t, GoesTo body (s.setWw .w16) t ∧ Sent es false false (s.setWw .w16) t) :
    ∃ t, GoesTo (with16 body) s t ∧ Sent es false false s t := by
  obtain ⟨t, ht, hst⟩ := hbody
  refine ⟨t.setWw .w8, GoesTo.cons (t := s.setWw .w16) rfl (ht.append (GoesTo.one (t := t.setWw .w8) rfl)), ?_⟩
  exact ⟨⟨hst.keeps.cfg, hw.symm, hst.keeps.outcome, hst.keeps.req, hst.keeps.phase, hst.keeps.mem,
        hst.keeps.hostWrites, hst.keeps.port, hst.keeps.resetIn⟩, hst.acc, hst.rej, hst.cs, hst.dc,
        hst.async, hst.wire, hst.rx, hst.xfers, hst.quiet⟩

theorem bigEndian_offset (v : Int) (k : Nat) : bigEndian (offsetCoord v k) = coordBytes (v + (k : Int)) := by
  unfold bigEndian offsetCoord coordBytes
  generalize v + (k : Int) = z
  have h1 : (BitVec.ofInt 16 z).extractLsb' 8 8 = BitVec.ofInt 8 (z / 256) := by
    apply BitVec.eq_of_toNat_eq
    simp only [BitVec.extractLsb'_toNat, BitVec.toNat_ofInt, Nat.shiftRight_eq_div_pow]
    omega
  have h2 : (BitVec.ofInt 16 z).extractLsb' 0 8 = BitVec.ofInt 8 z := by
    apply BitVec.eq_of_toNat_eq
    simp only [BitVec.extractLsb'_toNat, BitVec.toNat_ofInt, Nat.shiftRight_eq_div_pow]
    omega
  rw [h1, h2]

/-- The window command group of R101 on the wire. -/
theorem windowGroup_goes (x0 y0 x1 y1 : Int) {s : State} (hw : s.ww = .w8) (ha : s.asyncInflight = false) (hq : Quiet s) :
    ∃ t, GoesTo (windowGroup s.cfg x0 y0 x1 y1) s t ∧ Sent (windowElems s.cfg x0 y0 x1 y1) false false s t := by
  obtain ⟨t1, g1, s1, -⟩ := command_goes s.cfg.opcCaset ha hq
  obtain ⟨t2, g2, s2, -⟩ := sendBytes_goes (BitVec.ofInt 8 ((x0 + (s.cfg.xOffset : Int)) / 256))
    (BitVec.ofInt 8 (x0 + (s.cfg.xOffset : Int))) (BitVec.ofInt 8 ((x1 + (s.cfg.xOffset : Int)) / 256))
    (BitVec.ofInt 8 (x1 + (s.cfg.xOffset : Int))) (s := t1) (s1.keeps.ww.trans hw) s1.async s1.quiet
  obtain ⟨t3, g3, s3, -⟩ := command_goes s.cfg.opcRaset s2.async s2.quiet
  obtain ⟨t4, g4, s4, -⟩ := sendBytes_goes (BitVec.ofInt 8 ((y0 + (s.cfg.yOffset : Int)) / 256))
    (BitVec.ofInt 8 (y0 + (s.cfg.yOffset : Int))) (BitVec.ofInt 8 ((y1 + (s.cfg.yOffset : Int)) / 256))
    (BitVec.ofInt 8 (y1 + (s.cfg.yOffset : Int))) (s := t3)
    (s3.keeps.ww.trans (s2.keeps.ww.trans (s1.keeps.ww.trans hw))) s3.async s3.quiet
  obtain ⟨t5, g5, s5, -⟩ := command_goes s.cfg.opcRamwr s4.async s4.quiet
  refine ⟨t5, ?_, ?_⟩
  · have h := g1.append (g2.append (g3.append (g4.append g5)))
    unfold windowGroup
    simp only [bigEndian_offset]
    simpa [coordBytes] using h
  · have h := s1.trans (s2.trans (s3.trans (s4.trans s5)))
    simpa [windowElems, coordBytes] using h

/-- A sub-primitive (R180) whose body sends its samples. -/
theorem guarded_goes {x0 y0 x1 y1 : Int} {body : List Atom} {samples : List Word} {s : State} (hw : s.ww = .w8)
    (ha : s.asyncInflight = false) (hq : Quiet s)
    (hbody : accepts s.cfg x0 y0 x1 y1 = true → ∀ u, Keeps s u → u.asyncInflight = false → Quiet u →
      ∃ t, GoesTo body u t ∧ Sent (samples.map pixelElem) false false u t) :
    ∃ t, GoesTo (guarded s.cfg x0 y0 x1 y1 body) s t ∧
      Sent (subElems s.cfg x0 y0 x1 y1 samples) (decide (some (accepts s.cfg x0 y0 x1 y1) = some true))
        (decide (some (accepts s.cfg x0 y0 x1 y1) = some false)) s t := by
  unfold guarded subElems
  by_cases hacc : accepts s.cfg x0 y0 x1 y1 = true
  · simp only [hacc, if_true]
    let s1 := s.setAcc true
    have hs1 : Sent [] true false s s1 :=
      Sent.none ⟨rfl, rfl, rfl, rfl, rfl, rfl, rfl, rfl, rfl⟩ (by simp [s1]) (by simp [s1]) rfl rfl ha rfl rfl rfl hq
    have h1 : atom (.setWindow x0 y0 x1 y1) s = .go s1 := by
      show Progress.go _ = _
      rw [if_pos hacc]
    obtain ⟨t, ht, hst⟩ := windowGroup_goes x0 y0 x1 y1 (s := s1) hw ha hq
    obtain ⟨u, hu, hsu⟩ := hbody hacc t (hs1.keeps.trans hst.keeps) hst.async hst.quiet
    refine ⟨u, GoesTo.cons h1 (ht.append hu), ?_⟩
    have := hs1.trans (hst.trans hsu)
    have hc : s1.cfg = s.cfg := rfl
    rw [hc] at this
    simpa using this
  · have hr : accepts s.cfg x0 y0 x1 y1 = false := by simpa using hacc
    simp only [hr, Bool.false_eq_true, if_false]
    let s1 := s.setRej true
    refine ⟨s1, GoesTo.one ?_, Sent.none ⟨rfl, rfl, rfl, rfl, rfl, rfl, rfl, rfl, rfl⟩ (by simp [s1]) (by simp [s1]) rfl
      rfl ha rfl rfl rfl hq⟩
    show Progress.go _ = _
    rw [if_neg hacc]

/-! ### Primitives and requests -/

/-- One primitive from a transport at width 8 with nothing in flight, when it can read what it reads. -/
theorem task_goes (t : Task) {s : State} (hcfg : s.cfg.fillStrategy.ok = true) (hw : s.ww = .w8)
    (ha : s.asyncInflight = false) (hq : Quiet s) (hr : taskReadable s t) :
    ∃ u, GoesTo (expand s.cfg t) s u ∧
      Sent (taskElems s t) (decide (taskVerdict s.cfg t = some true)) (decide (taskVerdict s.cfg t = some false)) s u := by
  cases t with
  | lineRegs r =>
    refine ⟨s.setDp { s.dp with line := r }, GoesTo.one rfl, ?_⟩
    exact Sent.none ⟨rfl, rfl, rfl, rfl, rfl, rfl, rfl, rfl, rfl⟩ (by simp [taskVerdict]) (by simp [taskVerdict]) rfl rfl
      ha rfl rfl rfl hq
  | circleRegs r =>
    refine ⟨s.setDp { s.dp with circle := r }, GoesTo.one rfl, ?_⟩
    exact Sent.none ⟨rfl, rfl, rfl, rfl, rfl, rfl, rfl, rfl, rfl⟩ (by simp [taskVerdict]) (by simp [taskVerdict]) rfl rfl
      ha rfl rfl rfl hq
  | triRegs r =>
    refine ⟨s.setDp { s.dp with tri := r }, GoesTo.one rfl, ?_⟩
    exact Sent.none ⟨rfl, rfl, rfl, rfl, rfl, rfl, rfl, rfl, rfl⟩ (by simp [taskVerdict]) (by simp [taskVerdict]) rfl rfl
      ha rfl rfl rfl hq
  | window x0 y0 x1 y1 =>
    exact guarded_goes hw ha hq fun _ u _ hau hqu => ⟨u, GoesTo.nil u, by simpa using Sent.refl hau hqu⟩
  | plot x y v =>
    refine guarded_goes hw ha hq fun _ u hku hau hqu => ?_
    refine with16_goes (hku.ww.trans hw) ?_
    obtain ⟨t, ht, hst, -⟩ := sendCell_goes v 1 (s := u.setWw .w16) hau hqu
    exact ⟨t, ht, by simpa [mkElem, pixelElem] using hst⟩
  | fill x0 y0 x1 y1 v =>
    refine guarded_goes hw ha hq fun _ u hku hau hqu => ?_
    refine with16_goes (hku.ww.trans hw) ?_
    rw [← hku.cfg] at hcfg
    obtain ⟨t, ht, hst⟩ := fillData_goes v ((x1 - x0 + 1) * (y1 - y0 + 1)).toNat (s := u.setWw .w16) hcfg hau hqu
    refine ⟨t, ?_, ?_⟩
    · rw [← hku.cfg]
      exact ht
    · simpa [mkElem, pixelElem] using hst
  | blit x y w h src =>
    refine guarded_goes hw ha hq fun hacc u hku hau hqu => ?_
    refine with16_goes (hku.ww.trans hw) ?_
    obtain ⟨hrd, hb⟩ := hr hacc
    have hrd' : Readable (u.setWw .w16) .w16 (w * h).toNat src.toNat :=
      readable_congr hku.cfg hku.mem hku.hostWrites hrd
    obtain ⟨t, ht, hst⟩ := sendHost_goes (s := u.setWw .w16) hrd' hb hau hqu
    refine ⟨t, ht, ?_⟩
    have hl : hostList (u.setWw .w16) .w16 (w * h).toNat src.toNat = hostList s .w16 (w * h).toNat src.toNat :=
      hostList_congr hku.cfg hku.mem _ _ _
    rw [State.setWw_ww, hl] at hst
    exact hst
  | command op =>
    obtain ⟨t, ht, hst, -⟩ := command_goes op ha hq
    exact ⟨t, ht, hst⟩
  | data w n src =>
    obtain ⟨hrd, hb⟩ := hr
    cases w with
    | w8 =>
      obtain ⟨t, ht, hst⟩ := sendHost_goes (s := s) (by rw [hw]; exact hrd) (by rw [hw]; exact hb) ha hq
      rw [hw] at hst
      exact ⟨t, ht, hst⟩
    | w16 =>
      refine with16_goes hw ?_
      have hrd' : Readable (s.setWw .w16) .w16 n src.toNat := readable_congr rfl rfl rfl hrd
      obtain ⟨t, ht, hst⟩ := sendHost_goes (s := s.setWw .w16) hrd' hb ha hq
      refine ⟨t, ht, ?_⟩
      have hl : hostList (s.setWw .w16) .w16 n src.toNat = hostList s .w16 n src.toNat := hostList_congr rfl rfl _ _ _
      rw [State.setWw_ww, hl] at hst
      exact hst

theorem taskElems_congr {s t : State} (hc : t.cfg = s.cfg) (hm : t.mem = s.mem) (k : Task) :
    taskElems t k = taskElems s k := by
  cases k <;> simp [taskElems, hc, hostList_congr hc hm]

theorem taskReadable_congr {s t : State} (hc : t.cfg = s.cfg) (hm : t.mem = s.mem) (hw : t.hostWrites = s.hostWrites)
    {k : Task} (h : taskReadable s k) : taskReadable t k := by
  cases k with
  | blit x y w h' src =>
    intro ha
    rw [hc] at ha
    exact ⟨readable_congr hc hm hw (h ha).1, (h ha).2⟩
  | data w n src => exact ⟨readable_congr hc hm hw h.1, h.2⟩
  | _ => trivial

/-- Primitives one after another (R180). -/
theorem tasks_goes (ts : List Task) {s : State} (hcfg : s.cfg.fillStrategy.ok = true) (hw : s.ww = .w8)
    (ha : s.asyncInflight = false) (hq : Quiet s) (hr : ∀ t ∈ ts, taskReadable s t) :
    ∃ u, GoesTo (ts.flatMap (expand s.cfg)) s u ∧
      Sent (ts.flatMap (taskElems s)) (ts.any fun t => decide (taskVerdict s.cfg t = some true))
        (ts.any fun t => decide (taskVerdict s.cfg t = some false)) s u := by
  induction ts generalizing s with
  | nil => exact ⟨s, GoesTo.nil s, Sent.refl ha hq⟩
  | cons t ts ih =>
    obtain ⟨u, hu, hsu⟩ := task_goes t hcfg hw ha hq (hr t (by simp))
    have hk := hsu.keeps
    obtain ⟨v, hv, hsv⟩ := ih (s := u) (by rw [hk.cfg]; exact hcfg) (hk.ww.trans hw) hsu.async hsu.quiet
      (fun k hkm => taskReadable_congr hk.cfg hk.mem hk.hostWrites (hr k (List.mem_cons_of_mem _ hkm)))
    refine ⟨v, ?_, ?_⟩
    · rw [hk.cfg] at hv
      simpa using hu.append hv
    · have := hsu.trans hsv
      have he : ts.flatMap (taskElems u) = ts.flatMap (taskElems s) := by
        congr 1
        funext k
        exact taskElems_congr hk.cfg hk.mem k
      rw [he, hk.cfg] at this
      simpa using this

theorem transaction_eq (es : List Elem) :
    transaction es = sentItems false es ++ (if es = [] then [] else [.cs false]) := by
  cases es <;> simp [transaction, sentItems, opening]

/-- What completion (R262) leaves in every field but the wire, the receiver and chip select. -/
structure Completes (s t : State) : Prop where
  cfg : t.cfg = s.cfg
  ww : t.ww = s.ww
  outcome : t.outcome = outcomeOf s.acc s.rej
  acc : t.acc = s.acc
  rej : t.rej = s.rej
  dc : t.dcOut = s.dcOut
  async : t.asyncInflight = s.asyncInflight
  req : t.req = s.req
  phase : t.phase = .idle
  port : t.port = s.port
  resetIn : t.resetIn = s.resetIn
  mem : t.mem = s.mem
  hostWrites : t.hostWrites = s.hostWrites
  xfers : t.xfers = s.xfers
  reports : t.reports = s.reports

theorem closeTxn_fields (s : State) :
    (closeTxn s).wire = s.wire ++ (if s.csOut then [.cs false] else []) ∧ (closeTxn s).rx = s.rx ∧
    (closeTxn s).csOut = false := by
  unfold closeTxn
  split <;> simp_all

theorem complete_fields (s : State) :
    (complete s).wire = s.wire ++ (if s.csOut then [.cs false] else []) ∧ (complete s).rx = s.rx ∧
    (complete s).csOut = false ∧ Completes s (complete s) := by
  obtain ⟨h1, h2, h3⟩ := closeTxn_fields s
  refine ⟨h1, h2, h3, ?_⟩
  unfold complete closeTxn
  split <;> exact ⟨rfl, rfl, rfl, rfl, rfl, rfl, rfl, rfl, rfl, rfl, rfl, rfl, rfl, rfl, rfl⟩

/-- What a request does when every chunk completes and it can read what it reads: one transaction of its primitives'
elements, and the outcome of its window decisions (R180, R262). -/
theorem request_leaves (ts : List Task) {s : State} (hcfg : s.cfg.fillStrategy.ok = true) (hs : Ready s) (hq : Quiet s)
    (hr : ∀ t ∈ ts, taskReadable s t) :
    ∃ t, request ts s = .next t ∧ Leaves s t (ts.flatMap (taskElems s)) (planAcc s.cfg ts) (planRej s.cfg ts) := by
  obtain ⟨u, hu, hsu⟩ := tasks_goes ts (s := begin s) hcfg hs.ww hs.async hq
    (fun k hk => taskReadable_congr rfl rfl rfl (hr k hk))
  have he : ts.flatMap (taskElems (begin s)) = ts.flatMap (taskElems s) := by
    congr 1
  rw [he] at hsu
  have hbw : (begin s).wire = s.wire := rfl
  have hbr : (begin s).rx = s.rx := rfl
  have hbc : (begin s).cfg = s.cfg := rfl
  have hbcs : (begin s).csOut = false := hs.cs
  have hba : (begin s).acc = false := rfl
  have hbj : (begin s).rej = false := rfl
  have hk := hsu.keeps
  have hacc := hsu.acc
  have hrej := hsu.rej
  have hwire := hsu.wire
  have hrx := hsu.rx
  have hcs := hsu.cs
  rw [hba, hbc, Bool.false_or] at hacc
  rw [hbj, hbc, Bool.false_or] at hrej
  rw [hbw, hbcs] at hwire
  rw [hbr, hbc, hbcs] at hrx
  rw [hbcs, Bool.false_or] at hcs
  rw [hbc] at hu
  refine ⟨complete (endRequest u), run_of_goesTo hu, ?_⟩
  obtain ⟨hcw, hcr, hcc, hck⟩ := complete_fields (endRequest u)
  have hes : (endRequest u).csOut = u.csOut := rfl
  have hew : (endRequest u).wire = u.wire := rfl
  have her : (endRequest u).rx = u.rx := rfl
  have hec : (endRequest u).cfg = u.cfg := rfl
  exact
    { wire := by
        rw [hcw, hes, hew, hwire, hcs, transaction_eq, List.append_assoc]
        cases ts.flatMap (taskElems s) <;> simp
      rx := by rw [hcr, her, hrx, transaction_eq, Receiver.items_append]; split <;> simp
      outcome := by
        rw [hck.outcome]
        show outcomeOf u.acc u.rej = _
        rw [hacc, hrej]
        rfl
      acc := hck.acc.trans hacc
      rej := hck.rej.trans hrej
      phase := hck.phase
      ww := hck.ww.trans (hk.ww.trans hs.ww)
      cs := hcc
      async := hck.async.trans hsu.async
      dc := hck.dc.trans hsu.dc
      cfg := hck.cfg.trans hk.cfg
      req := hck.req.trans hk.req
      port := hck.port.trans hk.port
      resetIn := hck.resetIn.trans hk.resetIn
      mem := by
        rw [hck.mem]
        show u.mem.writes u.hostWrites = _
        rw [hk.mem, hk.hostWrites]
        rfl
      hostWrites := hck.hostWrites
      xfers := hck.xfers ▸ hsu.xfers
      quiet := by
        intro _ r hr
        rw [hck.reports] at hr
        exact hsu.quiet r hr }

end Sys2Proof.Machine
end

