-- ==== Sys2Proof/Laws/Runs.lean ====
section
/-! SUPPORT. What any stretch of a request can do, whatever the bus reports: the one inversion of an atomic step, of a run, of
a request and of a step that whole-machine statements are read from. -/

namespace Sys2Proof.Machine

/-- From `s` to `t` the configuration and the port stay, the outputs only grow and the receiver consumes what the wire gains,
and host memory stays or takes the host's own writes. -/
structure Moves (s t : State) : Prop where
  cfg : t.cfg = s.cfg
  port : t.port = s.port
  out : ∃ is, t.wire = s.wire ++ is ∧ t.rx = s.rx.items s.cfg is
  xfers : s.xfers <+: t.xfers
  mem : (t.mem = s.mem ∧ t.hostWrites = s.hostWrites) ∨ (t.mem = s.mem.writes s.hostWrites ∧ t.hostWrites = [])

theorem Moves.refl (s : State) : Moves s s :=
  ⟨rfl, rfl, ⟨[], by simp, rfl⟩, List.prefix_refl _, .inl ⟨rfl, rfl⟩⟩

theorem Moves.trans {s t u : State} (h : Moves s t) (k : Moves t u) : Moves s u where
  cfg := k.cfg.trans h.cfg
  port := k.port.trans h.port
  out := by
    obtain ⟨is, hw, hr⟩ := h.out
    obtain ⟨js, kw, kr⟩ := k.out
    exact ⟨is ++ js, by rw [kw, hw, List.append_assoc], by rw [kr, hr, h.cfg, Receiver.items_append]⟩
  xfers := h.xfers.trans k.xfers
  mem := by
    rcases h.mem with ⟨hm, hw⟩ | ⟨hm, hw⟩ <;> rcases k.mem with ⟨km, kw⟩ | ⟨km, kw⟩
    · exact .inl ⟨km.trans hm, kw.trans hw⟩
    · exact .inr ⟨by rw [km, hm, hw], kw⟩
    · exact .inr ⟨km.trans hm, kw.trans hw⟩
    · exact .inr ⟨by rw [km, hm, hw, Memory.writes_nil], kw⟩

/-- A change of registers alone. -/
theorem Moves.regs {s t : State} (h1 : t.cfg = s.cfg) (h2 : t.port = s.port) (h3 : t.wire = s.wire) (h4 : t.rx = s.rx)
    (h5 : t.xfers = s.xfers) (h6 : t.mem = s.mem) (h7 : t.hostWrites = s.hostWrites) : Moves s t :=
  ⟨h1, h2, ⟨[], by simp [h3], h4⟩, by rw [h5], .inl ⟨h6, h7⟩⟩

theorem put_moves (s : State) (is : List WireItem) : Moves s (s.put is) :=
  ⟨rfl, rfl, ⟨is, rfl, rfl⟩, List.prefix_refl _, .inl ⟨rfl, rfl⟩⟩

theorem emit_moves (w : Width) (vs : List Word) (s : State) : Moves s (emit w vs s) := put_moves _ _

theorem record_moves (s : State) (x : Xfer) : Moves s (s.record x) :=
  ⟨rfl, rfl, ⟨[], by simp, rfl⟩, List.prefix_append _ _, .inl ⟨rfl, rfl⟩⟩

theorem openTxn_moves (s : State) : Moves s (openTxn s) := by
  unfold openTxn
  split
  · exact Moves.refl s
  · exact Moves.trans (t := s.setCs true) (Moves.regs rfl rfl rfl rfl rfl rfl rfl) (put_moves _ _)

theorem closeTxn_moves (s : State) : Moves s (closeTxn s) := by
  unfold closeTxn
  split
  · exact Moves.trans (t := s.setCs false) (Moves.regs rfl rfl rfl rfl rfl rfl rfl) (put_moves _ _)
  · exact Moves.refl s

theorem landWrites_moves (s : State) : Moves s (landWrites s) :=
  ⟨rfl, rfl, ⟨[], by simp [landWrites], rfl⟩, List.prefix_refl _, .inr ⟨rfl, rfl⟩⟩

theorem endRequest_moves (s : State) : Moves s (endRequest s) :=
  Moves.trans (t := releaseDatapath s) (Moves.regs rfl rfl rfl rfl rfl rfl rfl) (landWrites_moves _)

theorem complete_moves (s : State) : Moves s (complete s) :=
  (closeTxn_moves s).trans (Moves.regs rfl rfl rfl rfl rfl rfl rfl)

theorem abort_moves (code : OutcomeCode) (s : State) : Moves s (abort code s) :=
  Moves.trans (t := (s.setWw .w8).setAsync false) (Moves.regs rfl rfl rfl rfl rfl rfl rfl)
    ((closeTxn_moves _).trans (Moves.regs rfl rfl rfl rfl rfl rfl rfl))

theorem resetRge_moves (s : State) : Moves s (resetRge s) :=
  (closeTxn_moves s).trans (Moves.regs rfl rfl rfl rfl rfl rfl rfl)

theorem afterChunk_moves (c : Chunk) (s : State) : Moves s (afterChunk c s) := by
  obtain ⟨x, hx⟩ := afterChunk_eq c s
  rw [hx]
  exact Moves.regs rfl rfl rfl rfl rfl rfl rfl

/-- A property of the state an atomic step answers, where it answers one. -/
def Progress.All (p : State → Prop) : Progress → Prop
  | .go t => p t
  | .held _ t => p t
  | .ended t => p t
  | .stuck _ => True

theorem Progress.All.imp {p q : State → Prop} {g : Progress} (h : g.All p) (hpq : ∀ t, p t → q t) : g.All q := by
  cases g with
  | go t => exact hpq t h
  | held a t => exact hpq t h
  | ended t => exact hpq t h
  | stuck f => trivial

theorem settle_moves (c : Chunk) (s : State) : (settle c s).All (Moves s) := by
  unfold settle
  split
  · trivial
  · have h0 : Moves s ((s.setReports (restReports s.reports)).setFresh (s.fresh + c.len)) :=
      Moves.regs rfl rfl rfl rfl rfl rfl rfl
    dsimp only
    split
    · refine (h0.trans ?_).trans (afterChunk_moves _ _)
      split
      · refine Moves.trans (t := ((s.setReports (restReports s.reports)).setFresh (s.fresh + c.len)).setAsync false) ?_
          (emit_moves _ _ _)
        exact Moves.regs rfl rfl rfl rfl rfl rfl rfl
      · exact emit_moves _ _ _
    · exact ((h0.trans (emit_moves _ _ _)).trans (endRequest_moves _)).trans (abort_moves _ _)
    · exact ((h0.trans (emit_moves _ _ _)).trans (endRequest_moves _)).trans (abort_moves _ _)
    · exact h0
    · exact ((h0.trans (emit_moves _ _ _)).trans (landWrites_moves _)).trans (resetRge_moves _)

theorem issueChunk_moves (src : Source) (len : Nat) (w : Width) (s : State) : (issueChunk src len w s).All (Moves s) := by
  rw [issueChunk_eq]
  refine (settle_moves _ _).imp fun t ht => Moves.trans ?_ ht
  unfold issued
  dsimp only
  split
  · exact (record_moves s _).trans (Moves.regs rfl rfl rfl rfl rfl rfl rfl)
  · exact record_moves s _

/-- What one atomic step can do, whatever the bus reports. -/
theorem atom_moves (a : Atom) (s : State) : (atom a s).All (Moves s) := by
  cases a with
  | setWindow x0 y0 x1 y1 =>
    show Moves s (if _ then _ else _)
    split <;> exact Moves.regs rfl rfl rfl rfl rfl rfl rfl
  | command op =>
    exact (issueChunk_moves (.command op) 1 .w8 ((openTxn s).setDc .command)).imp fun t ht =>
      (Moves.trans (u := (openTxn s).setDc .command) (openTxn_moves s) (Moves.regs rfl rfl rfl rfl rfl rfl rfl)).trans ht
  | startData n ptr => exact (openTxn_moves s).trans (Moves.regs rfl rfl rfl rfl rfl rfl rfl)
  | chunk src len =>
    exact (issueChunk_moves src len s.ww (s.setXp { s.xp with chunkLen := BitVec.ofNat 16 len })).imp fun t ht =>
      Moves.trans (t := s.setXp { s.xp with chunkLen := BitVec.ofNat 16 len })
        (Moves.regs rfl rfl rfl rfl rfl rfl rfl) ht
  | await c => exact settle_moves c s
  | lineRegs r => exact Moves.regs rfl rfl rfl rfl rfl rfl rfl
  | circleRegs r => exact Moves.regs rfl rfl rfl rfl rfl rfl rfl
  | triRegs r => exact Moves.regs rfl rfl rfl rfl rfl rfl rfl
  | loadBlock b v => exact Moves.regs rfl rfl rfl rfl rfl rfl rfl
  | width w => exact Moves.regs rfl rfl rfl rfl rfl rfl rfl
  | endData => exact Moves.regs rfl rfl rfl rfl rfl rfl rfl

/-- An invariant of the atomic steps is an invariant of runs: `p as s` says `s` may go on with the steps `as`, `q t` what holds
where a run answers. The one induction over runs. -/
theorem run_induct {p : List Atom → State → Prop} {q : State → Prop} (hend : ∀ s, p [] s → q (complete (endRequest s)))
    (hgo : ∀ a as s t, p (a :: as) s → atom a s = .go t → p as t)
    (hheld : ∀ a as s b t, p (a :: as) s → atom a s = .held b t → q (t.setPhase (.running (b :: as))))
    (hended : ∀ a as s t, p (a :: as) s → atom a s = .ended t → q t) :
    ∀ as s t, p as s → run as s = .next t → q t := by
  intro as
  induction as with
  | nil =>
    intro s t hp h
    cases h
    exact hend s hp
  | cons a as ih =>
    intro s t hp h
    unfold run at h
    split at h
    · rename_i u hu
      exact ih u t (hgo a as s u hp hu) h
    · rename_i b u hu
      cases h
      exact hheld a as s b _ hp hu
    · rename_i u hu
      cases h
      exact hended a as s _ hp hu
    · cases h

theorem run_moves {as : List Atom} {s t : State} (h : run as s = .next t) : Moves s t := by
  refine run_induct (p := fun _ v => Moves s v) (q := Moves s) ?_ ?_ ?_ ?_ as s t (Moves.refl s) h
  · exact fun v hv => (hv.trans (endRequest_moves v)).trans (complete_moves _)
  · intro a as u v hu hv
    have h1 := atom_moves a u
    rw [hv] at h1
    exact hu.trans h1
  · intro a as u b v hu hv
    have h1 := atom_moves a u
    rw [hv] at h1
    exact (Moves.trans hu h1).trans (Moves.regs rfl rfl rfl rfl rfl rfl rfl)
  · intro a as u v hu hv
    have h1 := atom_moves a u
    rw [hv] at h1
    exact hu.trans h1

/-- Every request's meaning is its plan, run. -/
theorem exec_eq_request (i : Instr) (s : State) : exec i s = request (planOf i) s := by
  cases i <;> rfl

theorem begin_moves (s : State) : Moves s (begin s) := Moves.regs rfl rfl rfl rfl rfl rfl rfl

theorem exec_moves {i : Instr} {s t : State} (h : exec i s = .next t) : Moves s t := by
  rw [exec_eq_request] at h
  exact (begin_moves s).trans (run_moves h)

/-- No run is refused. -/
theorem run_not_refused (as : List Atom) (s : State) (r : Refusal) : run as s ≠ .refused r := by
  induction as generalizing s with
  | nil => intro h; cases h
  | cons a as ih =>
    unfold run
    split
    · exact ih _
    · intro h; cases h
    · intro h; cases h
    · intro h; cases h

theorem resetStep_moves (k : Nat) (s : State) : Moves s (resetStep k s) := by
  have h : Moves s (resetRge (landWrites s)) := (landWrites_moves s).trans (resetRge_moves _)
  unfold resetStep
  split
  · split
    · refine Moves.trans (Moves.trans (Moves.trans (t := s.setFresh _) ?_ (emit_moves _ _ _)) (landWrites_moves _))
        (resetRge_moves _)
      exact Moves.regs rfl rfl rfl rfl rfl rfl rfl
    · exact h
  · exact h
  · exact h

/-- The cases of a step that answers a next state: the reset input, a running request going on, waiting, a request accepted
and run, and an ILLEGAL one. -/
theorem step_cases {s t : State} (h : step s = .next t) :
    s.cfg.ok = true ∧
    ((∃ k, s.resetIn = some k ∧ t = resetStep k s) ∨
      (s.resetIn = none ∧ ∃ todo, s.phase = .running todo ∧ run todo s = .next t) ∨
      (s.resetIn = none ∧ s.phase = .idle ∧ s.port = [] ∧ t = landWrites s) ∨
      (s.resetIn = none ∧ s.phase = .idle ∧ ∃ d later i, s.port = d :: later ∧ decode d = .ok i ∧
        exec i (accept d later s) = .next t) ∨
      (s.resetIn = none ∧ s.phase = .idle ∧ ∃ d later e, s.port = d :: later ∧ decode d = .error e ∧
        t = illegal (accept d later s))) := by
  unfold step cycle at h
  split at h
  · cases h
  · rename_i hok
    refine ⟨by simpa using hok, ?_⟩
    split at h
    · rename_i k hk
      cases h
      exact .inl ⟨k, hk, rfl⟩
    · rename_i todo hr hp
      exact .inr (.inl ⟨hr, todo, hp, h⟩)
    · rename_i hr hp
      unfold acceptNext at h
      split at h
      · rename_i hport
        cases h
        exact .inr (.inr (.inl ⟨hr, hp, hport, rfl⟩))
      · rename_i d later hport
        split at h
        · rename_i i hi
          exact .inr (.inr (.inr (.inl ⟨hr, hp, d, later, i, hport, hi, h⟩)))
        · rename_i e he
          cases h
          exact .inr (.inr (.inr (.inr ⟨hr, hp, d, later, e, hport, he, rfl⟩)))

theorem illegal_moves (s : State) : Moves s (illegal s) := (landWrites_moves s).trans (abort_moves _ _)

/-- What a step can do: from the state as it is, or as acceptance leaves it (`REQ`, `PHASE` and the port alone differ). -/
theorem step_moves {s t : State} (h : step s = .next t) :
    Moves s t ∨ ∃ d later, s.phase = .idle ∧ s.port = d :: later ∧ Moves (accept d later s) t := by
  obtain ⟨-, ⟨k, -, rfl⟩ | ⟨-, todo, -, hr⟩ | ⟨-, -, -, rfl⟩ | ⟨-, hp, d, later, i, hport, -, he⟩ |
    ⟨-, hp, d, later, e, hport, -, rfl⟩⟩ := step_cases h
  · exact .inl (resetStep_moves k s)
  · exact .inl (run_moves hr)
  · exact .inl (landWrites_moves s)
  · exact .inr ⟨d, later, hp, hport, exec_moves he⟩
  · exact .inr ⟨d, later, hp, hport, illegal_moves _⟩

end Sys2Proof.Machine
end

