-- ==== Sys2Proof/Laws/Walks.lean ====
section
/-! SUPPORT. The loops of the line, the circle and the filled triangle as iterates of their one step, and which elements of
host memory are there. -/

namespace Sys2Proof.Machine

/-! ### Readers of a list of primitives split over its parts -/

theorem lineValues_append (as bs : List Task) : lineValues (as ++ bs) = lineValues as ++ lineValues bs :=
  List.filterMap_append

theorem triValues_append (as bs : List Task) : triValues (as ++ bs) = triValues as ++ triValues bs :=
  List.filterMap_append

theorem circleValues_append (as bs : List Task) : circleValues (as ++ bs) = circleValues as ++ circleValues bs :=
  List.filterMap_append

theorem plottedPoints_append (as bs : List Task) : plottedPoints (as ++ bs) = plottedPoints as ++ plottedPoints bs :=
  List.filterMap_append

/-- Iterates of a step, the first n, split at the first. -/
theorem iterates_succ {α : Type} (f : α → α) (n : Nat) (a : α) :
    (List.range (n + 1)).map (fun k => Nat.iterate f k a) = a :: (List.range n).map fun k => Nat.iterate f k (f a) := by
  rw [List.range_succ_eq_map]
  simp [Function.comp_def]

/-! ### The line (R201) -/

/-- The registers after each pass of R201 are the iterates of `lineNext`. -/
theorem lineValues_lineWalk (v : Word) (n : Nat) (r : LineRegs) :
    lineValues (lineWalk v n r) = (List.range n).map fun k => Nat.iterate lineNext k (lineNext r) := by
  induction n generalizing r with
  | zero => rfl
  | succ n ih =>
    have h : lineWalk v (n + 1) r = [linePlot r v, .lineRegs (lineNext r)] ++ lineWalk v n (lineNext r) := rfl
    rw [iterates_succ, ← ih, h, lineValues_append]
    unfold linePlot
    cases r.steep <;> rfl

/-- The registers of the general line, before the first pass and after each. -/
theorem lineValues_lineGeneral (x0 y0 x1 y1 : Int) (v : Word) :
    lineValues (lineGeneral x0 y0 x1 y1 v) =
      (List.range (((lineStart x0 y0 x1 y1).dx + 1).toNat + 1)).map fun k =>
        Nat.iterate lineNext k (lineStart x0 y0 x1 y1) := by
  rw [iterates_succ, ← lineValues_lineWalk v]
  rfl

/-- Each pass of R201 plots the walk registers it starts with, axes exchanged back when steep. -/
theorem plottedPoints_lineWalk (v : Word) (n : Nat) (r : LineRegs) :
    plottedPoints (lineWalk v n r) =
      ((List.range n).map fun k => Nat.iterate lineNext k r).map fun r =>
        if r.steep then (r.y, r.x) else (r.x, r.y) := by
  induction n generalizing r with
  | zero => rfl
  | succ n ih =>
    have h : lineWalk v (n + 1) r = [linePlot r v, .lineRegs (lineNext r)] ++ lineWalk v n (lineNext r) := rfl
    rw [h, plottedPoints_append, ih, iterates_succ]
    unfold linePlot
    cases hs : r.steep <;> simp [plottedPoints, hs]

/-- One pass in all its registers: the error term, and the walk (R201). -/
theorem lineNext_eq (r : LineRegs) :
    lineNext r = { r with
      x := if r.x < r.lx1 then r.x + 1 else r.x
      y := if r.err - r.dy < 0 then r.y + r.ystep else r.y
      err := if r.err - r.dy < 0 then r.err - r.dy + r.dx else r.err - r.dy } := by
  unfold lineNext
  by_cases h : r.err - r.dy < 0 <;> simp only [if_pos, if_neg, h, not_false_eq_true]

/-- A line writes no circle and no filled-triangle register. -/
theorem line_registers (x0 y0 x1 y1 : Int) (v : Word) :
    triValues (line x0 y0 x1 y1 v) = [] ∧ circleValues (line x0 y0 x1 y1 v) = [] := by
  have walk : ∀ n r, triValues (lineWalk v n r) = [] ∧ circleValues (lineWalk v n r) = [] := by
    intro n
    induction n with
    | zero => exact fun _ => ⟨rfl, rfl⟩
    | succ n ih =>
      intro r
      have h : lineWalk v (n + 1) r = [linePlot r v, .lineRegs (lineNext r)] ++ lineWalk v n (lineNext r) := rfl
      rw [h, triValues_append, circleValues_append, (ih _).1, (ih _).2]
      unfold linePlot
      cases r.steep <;> exact ⟨rfl, rfl⟩
  unfold line
  split
  · exact ⟨rfl, rfl⟩
  · split
    · exact ⟨rfl, rfl⟩
    · exact walk _ _

/-! ### The filled triangle (R240) -/

/-- The registers after each pass of R240 are the iterates of `triNext`. -/
theorem triValues_triWalk (x3 y3 : Int) (v : Word) (n : Nat) (r : TriRegs) :
    triValues (triWalk x3 y3 v n r) = (List.range n).map fun k => Nat.iterate triNext k (triNext r) := by
  induction n generalizing r with
  | zero => rfl
  | succ n ih =>
    have h : triWalk x3 y3 v (n + 1) r =
        line r.x r.y x3 y3 v ++ ([.triRegs (triNext r)] ++ triWalk x3 y3 v n (triNext r)) := rfl
    rw [iterates_succ, ← ih, h, triValues_append, triValues_append, (line_registers _ _ _ _ _).1]
    rfl

/-- The registers of the filled triangle, before the first pass and after each. -/
theorem triValues_filledTriangle (x1 y1 x2 y2 x3 y3 : Int) (v : Word) :
    triValues (filledTriangle x1 y1 x2 y2 x3 y3 v) =
      (List.range (((triStart x1 y1 x2 y2).numpixels + 1).toNat + 1)).map fun k =>
        Nat.iterate triNext k (triStart x1 y1 x2 y2) := by
  rw [iterates_succ, ← triValues_triWalk x3 y3 v]
  rfl

/-! ### The circle (R221) -/

/-- The loop's register values do not depend on what its steps draw, as long as that writes no circle register. -/
theorem circleValues_circleLoop {em fm : CircleRegs → List Task} (he : ∀ c, circleValues (em c) = [])
    (hf : ∀ c, circleValues (fm c) = []) (n : Nat) (c : CircleRegs) :
    circleValues (circleLoop em n c) = circleValues (circleLoop fm n c) := by
  induction n generalizing c with
  | zero => rfl
  | succ n ih =>
    unfold circleLoop
    split
    · have h : ∀ (l : List Task) (m : List Task),
          circleValues (.circleRegs (circleNext c) :: l ++ m) = circleNext c :: (circleValues l ++ circleValues m) := by
        intro l m
        rw [circleValues_append]
        rfl
      rw [h, h, he, hf, ih]
    · rfl

/-! ### Host memory -/

theorem admitted_iff (s : State) (a : Nat) :
    admitted s a = true ↔ ((s.mem.read a).isSome = true ∨ ∃ c ∈ s.hostWrites, c.1 = a) := by
  simp [admitted]

/-- The element is there at every byte. -/
theorem admittedElem_iff (s : State) (w : Width) (a : Nat) : admittedElem s w a = true ↔ Admits s w a := by
  cases w with
  | w8 =>
    simp only [admittedElem, admitted_iff, Admits, Width.bytes]
    refine ⟨fun h j hj => ?_, fun h => h 0 (by decide)⟩
    obtain rfl : j = 0 := by omega
    exact h
  | w16 =>
    simp only [admittedElem, Bool.and_eq_true, admitted_iff, Admits, Width.bytes]
    refine ⟨fun h j hj => ?_, fun h => ⟨h 0 (by decide), h 1 (by decide)⟩⟩
    obtain rfl | rfl : j = 0 ∨ j = 1 := by omega
    · exact h.1
    · exact h.2

theorem memRead_isSome (e : Endian) (m : Memory) (w : Width) (a : Nat) :
    (memRead e m w a).isSome = true ↔ ∀ j < w.bytes, (m.read (a + j)).isSome = true := by
  cases w with
  | w8 =>
    simp only [memRead, Option.isSome_map, Width.bytes]
    refine ⟨fun h j hj => ?_, fun h => h 0 (by decide)⟩
    obtain rfl : j = 0 := by omega
    exact h
  | w16 =>
    simp only [memRead, Width.bytes]
    refine ⟨fun h j hj => ?_, fun h => ?_⟩
    · obtain rfl | rfl : j = 0 ∨ j = 1 := by omega
      · cases h0 : m.read a <;> simp_all
      · cases h1 : m.read (a + 1) <;> simp_all
    · obtain ⟨p, hp⟩ := Option.isSome_iff_exists.1 (h 0 (by decide))
      obtain ⟨q, hq⟩ := Option.isSome_iff_exists.1 (h 1 (by decide))
      rw [Nat.add_zero] at hp
      simp [hp, hq]

/-- A read of host memory answers exactly where the element is there; else it stops at the element's address (R64). -/
theorem hostElem_cases (s : State) (w : Width) (a k : Nat) :
    (Admits s w a ∧ ∃ v, hostElem s w a k = .ok v) ∨
    (¬ Admits s w a ∧ hostElem s w a k = .error (.hostMemoryAbsent a)) := by
  unfold hostElem
  by_cases hr : raced s.hostWrites w a = true
  · rw [if_pos hr]
    by_cases ha : admittedElem s w a = true
    · exact .inl ⟨(admittedElem_iff s w a).1 ha, _, by rw [if_pos ha]⟩
    · exact .inr ⟨fun h => ha ((admittedElem_iff s w a).2 h), by rw [if_neg ha]⟩
  · rw [if_neg hr]
    have hfree : Admits s w a ↔ (memRead s.cfg.hostEndian s.mem w a).isSome = true := by
      rw [memRead_isSome]
      refine ⟨fun h j hj => (h j hj).resolve_right ?_, fun h j hj => .inl (h j hj)⟩
      rintro ⟨c, hc, hca⟩
      refine hr (List.any_eq_true.2 ⟨c, hc, ?_⟩)
      simp only [Bool.and_eq_true, decide_eq_true_eq]
      omega
    rw [hfree]
    cases memRead s.cfg.hostEndian s.mem w a with
    | some v => exact .inl ⟨rfl, v, rfl⟩
    | none => exact .inr ⟨nofun, rfl⟩

/-- An element that no host write overlaps is read as memory has it (R61, R62). -/
theorem hostElem_unraced {s : State} {w : Width} {a : Nat} (k : Nat) (hr : raced s.hostWrites w a = false) {v : Word}
    (h : hostElem s w a k = .ok v) : memRead s.cfg.hostEndian s.mem w a = some v := by
  unfold hostElem at h
  rw [if_neg (by simp [hr])] at h
  split at h
  · rename_i u hu
    cases h
    exact hu
  · cases h

/-- Elements that are there are read, each that no host write overlaps as memory has it (R70, R76 clause 2). -/
theorem hostElems_admits {s : State} {w : Width} {n a : Nat} (k : Nat) (h : ∀ j < n, Admits s w (a + j * w.bytes)) :
    ∃ vs, hostElems s w n a k = .ok vs ∧ vs.length = n ∧
      ∀ j < n, raced s.hostWrites w (a + j * w.bytes) = false →
        vs[j]? = memRead s.cfg.hostEndian s.mem w (a + j * w.bytes) := by
  induction n generalizing a k with
  | zero => exact ⟨[], rfl, rfl, fun j hj => absurd hj (by omega)⟩
  | succ n ih =>
    have h0 : Admits s w a := by simpa using h 0 (by omega)
    have hstep : ∀ j, a + w.bytes + j * w.bytes = a + (j + 1) * w.bytes := by
      intro j
      rw [Nat.add_mul]
      omega
    obtain ⟨v, hv⟩ := ((hostElem_cases s w a k).resolve_right fun hc => hc.1 h0).2
    obtain ⟨vs, hvs, hlen, hval⟩ := ih (a := a + w.bytes) (k + 1) fun j hj => by
      rw [hstep]
      exact h (j + 1) (by omega)
    refine ⟨v :: vs, by simp [hostElems, hv, hvs], by simp [hlen], ?_⟩
    intro j hj hr
    cases j with
    | zero =>
      simp only [Nat.zero_mul, Nat.add_zero] at hr ⊢
      rw [hostElem_unraced k hr hv]
      rfl
    | succ j =>
      rw [← hstep] at hr ⊢
      exact hval j (by omega) hr

end Sys2Proof.Machine
end

