-- ==== Sys2Proof/Tests/Slice0.lean ====
section
/-! SUPPORT. The model's own tests: the smoke of WellFormed, words written out from the spec's encodings, at most two small
tests for each request from the spec's vectors (95), and for each obligation with hypotheses a state and operands that meet
them all. -/

namespace Sys2Proof.Tests

open Sys2Proof Sys2Proof.Machine

/-! ### WellFormed: an ill-formed term for each check (R63, R69) -/

theorem test_range_blit_refused : (Instr.blit 0 0 2 2 0xFFFFFFFA).wellFormed = false := by decide
theorem test_range_cmd_refused : (Instr.cmd 0x3A 2 0xFFFFFFFF).wellFormed = false := by decide
theorem test_range_data8_refused : (Instr.data8 2 0xFFFFFFFF).wellFormed = false := by decide
theorem test_range_data16_refused : (Instr.data16 0x80000000 2).wellFormed = false := by decide
theorem test_odd_blit_refused : (Instr.blit 0 0 2 1 0x101).wellFormed = false := by decide
theorem test_odd_data16_refused : (Instr.data16 1 0x101).wellFormed = false := by decide
theorem test_odd_without_read_accepted :
    (Instr.data16 0 0x101).wellFormed = true ∧ (Instr.blit 0 0 0 1 0x101).wellFormed = true := by decide
theorem test_range_last_byte_accepted :
    (Instr.data8 1 0xFFFFFFFF).wellFormed = true ∧ (Instr.data16 0x80000000 0).wellFormed = true := by decide

/-! ### Decoding: words written out from R91 to R95 and from the vectors of 95 -/

theorem test_decode_window :
    decode (Desc.ofWords 0x0001 0x000A 0x0014 0x000B 0x0015 0 0 0) = .ok (.window 10 20 11 21) := by decide
theorem test_decode_pixel : decode (Desc.ofWords 0x0002 1 2 0 0 0 0 0xF800) = .ok (.pixel 1 2 0xF800) := by decide
theorem test_decode_fillrect :
    decode (Desc.ofWords 0x0003 0 0 1 1 0 0 0x001F) = .ok (.fillrect 0 0 1 1 0x001F) := by decide
theorem test_decode_blit :
    decode (Desc.ofWords 0x0004 10 20 3 2 0x0400 0x2000 0) = .ok (.blit 10 20 3 2 0x20000400) := by decide
theorem test_decode_line :
    decode (Desc.ofWords 0x0005 0 0 4 2 0 0 0xF800) = .ok (.line 0 0 4 2 0xF800) := by decide
theorem test_decode_rect : decode (Desc.ofWords 0x0006 0 0 2 1 0 0 7) = .ok (.rect 0 0 2 1 7) := by decide
theorem test_decode_circle : decode (Desc.ofWords 0x0007 50 51 2 0 0 0 7) = .ok (.circle 50 51 2 7) := by decide
theorem test_decode_fcircle : decode (Desc.ofWords 0x0008 50 51 2 0 0 0 7) = .ok (.fcircle 50 51 2 7) := by decide
theorem test_decode_tri : decode (Desc.ofWords 0x0009 1 2 3 4 5 6 7) = .ok (.tri 1 2 3 4 5 6 7) := by decide
theorem test_decode_ftri : decode (Desc.ofWords 0x000A 1 2 3 4 5 6 7) = .ok (.ftri 1 2 3 4 5 6 7) := by decide
theorem test_decode_cmd :
    decode (Desc.ofWords 0x3A10 1 0 0 0 0 0x2000 0) = .ok (.cmd 0x3A 1 0x20000000) := by decide
theorem test_decode_data8 : decode (Desc.ofWords 0x0811 3 0 0 0 0x0100 0 0) = .ok (.data8 3 0x100) := by decide
theorem test_decode_data16 :
    decode (Desc.ofWords 0x1011 0x86A0 0x0001 0 0 0 0x2000 0) = .ok (.data16 100000 0x20000000) := by decide

/-- V-E3, one descriptor for each check of R97, by name. -/
theorem test_decode_rejects :
    decode (Desc.ofWords 0 0 0 0 0 0 0 0) = .error .reservedOp ∧
    decode (Desc.ofWords 0x000B 0 0 0 0 0 0 0) = .error .reservedOp ∧
    decode (Desc.ofWords 0x0102 1 2 0 0 0 0 0xF800) = .error .reservedField ∧
    decode (Desc.ofWords 0x0002 1 2 1 0 0 0 0xF800) = .error .reservedField ∧
    decode (Desc.ofWords 0x2910 0 0 0 0 0 0 1) = .error .reservedField ∧
    decode (Desc.ofWords 0x0911 1 0 0 0 0x0100 0 0) = .error .dataWidth ∧
    decode (Desc.ofWords 0x0811 2 0 0 0 0xFFFF 0xFFFF 0) = .error .readRange ∧
    decode (Desc.ofWords 0x1011 1 0 0 0 0x0101 0 0) = .error .oddSource := by decide

/-- The bits of a table word stand as the table numbers them, the first word lowest (V-E1). -/
theorem test_table_word :
    decodeTableWord 128 0xF8000000000000020004000000000005 = some (.line 0 0 4 2 0xF800) ∧
    decodeTableWord 128 0 = none := by decide

/-! ### One step -/

/-- The reset state with bytes of host memory from an address on. -/
def withBytes (a : Nat) (bs : List Byte) : State :=
  { State.reset with mem := Memory.writes [] (bs.zipIdx.map fun p => (a + p.2, p.1)) }

/-- The state after one step that runs a request, presented as a descriptor. -/
def after (s : State) (i : Instr) : Option State :=
  match step (present (encode i) s) with
  | .next t => some t
  | .fault _ => none
  | .refused _ => none

/-- The wire and `STATUS` after one request. -/
def seen (s : State) (i : Instr) : Option (List WireItem × BitVec 16) := (after s i).map fun t => (t.wire, t.status)

/-- The number of elements, the pixel writes (R168) without their values, and `STATUS` after one request. -/
def drawn (s : State) (i : Instr) : Option (List (Int × Int) × BitVec 16) :=
  (after s i).map fun t => ((pixelsOf s t).map fun p => (p.x, p.y), t.status)

/-- A command element on the wire. -/
def cb (b : Byte) : WireItem := .elem (.b8 .command b)

/-- A parameter element on the wire. -/
def db (b : Byte) : WireItem := .elem (.b8 .data b)

/-- A pixel element on the wire. -/
def px (v : Word) : WireItem := .elem (.b16 .data v)

/-- V-W1, the example of R157. -/
theorem test_window :
    seen { State.reset with cfg := { Config.vectors with yOffset := 80 } } (.window 10 20 11 21) =
      some ([.cs true, cb 0x2A, db 0, db 10, db 0, db 11, cb 0x2B, db 0, db 100, db 0, db 101, cb 0x2C, .cs false],
        0x0000) := by decide +kernel

/-- R157: x1 = PANEL_W is rejected: nothing on the wire, NOOP. -/
theorem test_window_rejected : seen State.reset (.window 0 0 240 0) = some ([], 0x0002) := by decide +kernel

/-- V-P1, the example of R182. -/
theorem test_pixel :
    seen State.reset (.pixel 1 2 0xF800) =
      some ([.cs true, cb 0x2A, db 0, db 1, db 0, db 1, cb 0x2B, db 0, db 2, db 0, db 2, cb 0x2C, px 0xF800, .cs false],
        0x0080) := by decide +kernel

/-- V-T7: the records of one accepted Plot. -/
theorem test_pixel_records :
    (after State.reset (.pixel 1 2 0xF800)).map (fun t => t.xfers) =
      some [⟨.sync, .w8, 1⟩, ⟨.sync, .w8, 4⟩, ⟨.sync, .w8, 1⟩, ⟨.sync, .w8, 4⟩, ⟨.sync, .w8, 1⟩, ⟨.sync, .w16, 1⟩] := by
  decide +kernel

/-- The example of R185. -/
theorem test_fillrect :
    seen State.reset (.fillrect 0 0 1 1 0x001F) =
      some ([.cs true, cb 0x2A, db 0, db 0, db 0, db 1, cb 0x2B, db 0, db 0, db 0, db 1, cb 0x2C, px 0x1F, px 0x1F, px 0x1F,
        px 0x1F, .cs false], 0x0080) := by decide +kernel

/-- R183: five samples in blocks of two. -/
theorem test_fillrect_blocks :
    (after { State.reset with cfg := { Config.vectors with fillStrategy := .block 2 } } (.fillrect 0 0 4 0 7)).map
      (fun t => t.xfers.drop 5) = some [⟨.sync, .w16, 2⟩, ⟨.sync, .w16, 2⟩, ⟨.sync, .w16, 1⟩] := by decide +kernel

/-- The example of R186. -/
theorem test_blit :
    (after (withBytes 0x100 [0x11, 0x11, 0x22, 0x22]) (.blit 0 0 2 1 0x100)).map
      (fun t => (t.wire.drop 12, t.rx.fm, t.status)) =
      some ([px 0x1111, px 0x2222, .cs false], [(fmKey 0 0, 0x1111), (fmKey 1 0, 0x2222)], 0x0080) := by decide +kernel

/-- V-E3: BLIT with w = 0 reads nothing, and its odd source is not checked. -/
theorem test_blit_empty : seen State.reset (.blit 0 0 0 1 0x101) = some ([], 0x0002) := by decide +kernel

/-- V-L3, the example of R204. -/
theorem test_line :
    drawn State.reset (.line 0 0 4 2 0xF800) = some ([(0, 0), (1, 0), (2, 1), (3, 1), (4, 2)], 0x0080) := by
  decide +kernel

/-- R203: the descending diagonal is not steep, so it runs from the left. -/
theorem test_line_diagonal :
    drawn State.reset (.line 0 4 4 0 7) = some ([(0, 4), (1, 3), (2, 2), (3, 1), (4, 0)], 0x0080) := by decide +kernel

/-- The example of R205: the four edges in order, corners twice. -/
theorem test_rect :
    drawn State.reset (.rect 0 0 2 1 7) =
      some ([(0, 0), (1, 0), (2, 0), (0, 0), (0, 1), (0, 1), (1, 1), (2, 1), (2, 0), (2, 1)], 0x0080) := by decide +kernel

/-- V-L19: edges with an end off the panel are dropped whole: PARTIAL. -/
theorem test_rect_partial :
    drawn State.reset (.rect 238 0 240 1 7) = some ([(238, 0), (238, 1)], 0x0084) := by decide +kernel

/-- The example of R206. -/
theorem test_tri :
    drawn State.reset (.tri 0 0 4 0 0 4 7) =
      some ([(0, 0), (1, 0), (2, 0), (3, 0), (4, 0), (0, 4), (1, 3), (2, 2), (3, 1), (4, 0), (0, 0), (0, 1), (0, 2), (0, 3),
        (0, 4)], 0x0080) := by decide +kernel

/-- V-C2, R223: r = 1 plots 12 points. -/
theorem test_circle :
    drawn State.reset (.circle 50 50 1 7) =
      some ([(50, 51), (50, 49), (51, 50), (49, 50), (51, 50), (49, 50), (51, 50), (49, 50), (50, 51), (50, 51), (50, 49),
        (50, 49)], 0x0080) := by decide +kernel

/-- V-C6: a circle wholly off the panel is NOOP. -/
theorem test_circle_off_panel : drawn State.reset (.circle 1000 1000 1 7) = some ([], 0x0002) := by decide +kernel

/-- R225: r = 1 writes 11 samples over the plus shape. -/
theorem test_fcircle :
    drawn State.reset (.fcircle 50 50 1 7) =
      some ([(49, 50), (50, 50), (51, 50), (49, 50), (50, 50), (51, 50), (49, 50), (50, 50), (51, 50), (50, 51), (50, 49)],
        0x0080) := by decide +kernel

/-- The walk of R242's example, with the advance of R240 after its last pass. -/
theorem test_ftri_walk :
    (triValues (planFtri 0 0 4 2 0 4 7)).map (fun r => (r.x, r.y)) =
      [(0, 0), (1, 1), (2, 1), (3, 2), (4, 2), (5, 3)] := by decide

/-- V-FT2: all three vertices equal is one pixel. -/
theorem test_ftri_point : drawn State.reset (.ftri 5 5 5 5 5 5 7) = some ([(5, 5)], 0x0080) := by decide +kernel

/-- V-T1, the example of R133. -/
theorem test_cmd :
    seen (withBytes 0x20000000 [0x55]) (.cmd 0x3A 1 0x20000000) = some ([.cs true, cb 0x3A, db 0x55, .cs false], 0x0080) := by
  decide +kernel

/-- V-T2: n = 0 sends the command alone and reads nothing. -/
theorem test_cmd0 : seen State.reset (Instr.cmd0 0x29) = some ([.cs true, cb 0x29, .cs false], 0x0000) := by
  decide +kernel

/-- V-T9, the example of R134. -/
theorem test_data8 :
    seen (withBytes 0x100 [1, 2, 3]) (.data8 3 0x100) = some ([.cs true, db 1, db 2, db 3, .cs false], 0x0080) := by
  decide +kernel

/-- V-T3: N = 0 sends nothing and opens no transaction. -/
theorem test_data8_empty : seen State.reset (.data8 0 0x100) = some ([], 0x0000) := by decide +kernel

/-- V-T8, little-endian host memory: the example of R135. -/
theorem test_data16 :
    seen (withBytes 0x200 [0x00, 0xF8, 0xE0, 0x07]) (.data16 2 0x200) =
      some ([.cs true, px 0xF800, px 0x07E0, .cs false], 0x0080) := by decide +kernel

/-- V-T8, big-endian host memory. -/
theorem test_data16_big :
    seen { withBytes 0x200 [0x00, 0xF8, 0xE0, 0x07] with cfg := { Config.vectors with hostEndian := .big } }
      (.data16 2 0x200) = some ([.cs true, px 0x00F8, px 0xE007, .cs false], 0x0080) := by decide +kernel

/-- V-E3 and R261: an ILLEGAL request from reset. -/
theorem test_illegal :
    step (present 0 State.reset) = .next { State.reset with outcome := .illegal } := by rfl

/-- R97 (e), V-E3: decode comes before the bounds check. -/
theorem test_illegal_status : seen State.reset (.blit 0xEF 0 2 1 0x101) = some ([], 0x0006) := by decide +kernel

/-- R264, R266: a failed second chunk leaves the first and a prefix, and releases chip select: XFER_FAIL. -/
theorem test_xfer_fail :
    seen { State.reset with cfg := { Config.vectors with transportMayFail := true }, reports := [.done, .failed 2] }
      (.pixel 1 2 7) = some ([.cs true, cb 0x2A, db 0, db 1, .cs false], 0x0088) := by decide +kernel

/-- R265: an asynchronous chunk that times out with nothing sent. -/
theorem test_timeout :
    seen { withBytes 0 [1] with
        cfg := { Config.vectors with asyncTimeout := true, bulkMin := 1 }, reports := [.timedOut 0] }
      (.data8 1 0) = some ([.cs true, .cs false], 0x008A) := by decide +kernel

/-- R126: an asynchronous chunk not yet complete holds the request with `BUSY`, `ASYNC_INFLIGHT`, CS and DC at 1. -/
theorem test_hold :
    seen { withBytes 0 [1] with cfg := { Config.vectors with bulkMin := 1 }, reports := [.pending] } (.data8 1 0) =
      some ([.cs true], 0x00E1) := by decide +kernel

/-- R64: no memory at the source: no step. -/
theorem test_absent_memory : after State.reset (.data8 1 0x100) = none := by decide +kernel

/-- R290: the reset input releases chip select with its event. -/
theorem test_reset_input :
    step { State.reset with csOut := true, ww := .w16, phase := .running [], resetIn := some 0 } =
      .next { State.reset with wire := [.cs false] } := by rfl

/-- R103, R104: a line of assembly, a pseudo-instruction, and an operand outside its field. -/
theorem test_assemble :
    assembleLine Config.vectors "LINE 0, 0, 4, 2, 0xF800".toList = some (.line 0 0 4 2 0xF800) ∧
    assembleLine Config.vectors "HLINE 1, 2, 3, 7".toList = some (.line 1 3 2 3 7) ∧
    assembleLine Config.vectors "CLEAR 7".toList = some (.fillrect 0 0 239 239 7) ∧
    assembleLine Config.vectors "DATA.16 100000, 0x20000000".toList = some (.data16 100000 0x20000000) ∧
    assembleLine Config.vectors "PIXEL 65536, 0, 0".toList = none := by decide +kernel

/-! ### Witnesses: each obligation's hypotheses are met together -/

theorem ready_reset : Ready State.reset := ⟨rfl, rfl, rfl⟩

theorem quiet_of_nil {s : State} (h : s.reports = []) : Quiet s := by
  intro r hr
  rw [h] at hr
  exact absurd hr (List.not_mem_nil)

theorem quiet_reset : Quiet State.reset := quiet_of_nil rfl

/-- DecodeOfEncode, at the last address R63 allows. -/
theorem witness_DecodeOfEncode : ∃ i : Instr, i.wellFormed = true ∧ i = .data16 1 0xFFFFFFFE := ⟨_, by decide, rfl⟩

/-- EncodeOfDecode. -/
theorem witness_EncodeOfDecode : ∃ (d : Desc) (i : Instr), decode d = .ok i := ⟨_, _, test_decode_cmd⟩

/-- IllegalByFiveChecks: each of the five checks is met by a descriptor, and none by another. -/
theorem witness_IllegalByFiveChecks :
    (0 : Desc).op.toNat ∉ listedOps ∧ (Desc.ofWords 0x0102 1 2 0 0 0 0 0).sub ≠ 0 ∧
    (Desc.ofWords 0x0002 1 2 1 0 0 0 0).word 3 ≠ 0 ∧ (Desc.ofWords 0x0911 1 0 0 0 0 0 0).sub.toNat = 9 ∧
    (Desc.ofWords 0x0811 2 0 0 0 0xFFFF 0xFFFF 0).source + 2 * 1 - 1 = 2 ^ 32 ∧
    (Desc.ofWords 0x1011 1 0 0 0 0x0101 0 0).reads = (1, 2) ∧
    decode (Desc.ofWords 0x0811 1 0 0 0 0xFFFF 0xFFFF 0) = .ok (.data8 1 0xFFFFFFFF) := by decide

/-- IllegalChangesOnlyOutcome. -/
theorem witness_IllegalChangesOnlyOutcome :
    ∃ (s : State) (d : Desc) (later : List Desc) (e : Reject), s.cfg.ok = true ∧ s.resetIn = none ∧ s.phase = .idle ∧
      Ready s ∧ s.port = d :: later ∧ decode d = .error e :=
  ⟨{ State.reset with port := [0] }, 0, [], .reservedOp, by decide, rfl, rfl, ⟨rfl, rfl, rfl⟩, rfl, by decide⟩

/-- AcceptanceRunsRequest, first clause. -/
theorem witness_AcceptanceRunsRequest :
    ∃ (s : State) (d : Desc) (later : List Desc) (i : Instr), s.cfg.ok = true ∧ s.resetIn = none ∧ s.phase = .idle ∧
      s.port = d :: later ∧ decode d = .ok i :=
  ⟨{ State.reset with port := [Desc.ofWords 0x0002 1 2 0 0 0 0 0xF800] }, _, _, _, by decide, rfl, rfl, rfl,
    test_decode_pixel⟩

/-- A request waiting for an asynchronous chunk, with the given reports to come and a descriptor presented meanwhile. -/
def waiting (rs : List BusReport) : State :=
  { State.reset with
    csOut := true, dcOut := .data, asyncInflight := true, ww := .w16, port := [0], reports := rs
    phase := .running [.await ⟨.cell 7, 3, .w16, .async⟩, .endData, .width .w8] }

/-- AcceptanceRunsRequest, second clause; StepKeepsConfig, RgeWritesNoHostMemory and OutputsOnlyExtend: a step of a busy
RGE answers a next state. -/
theorem witness_busy_step : ∃ s t : State, s.busy = true ∧ step s = .next t ∧ ∀ c ∈ s.hostWrites, c.1 ≠ 0 :=
  ⟨waiting [], _, rfl, rfl, by decide⟩

/-- OutcomeAndReqHeldWhileBusy. -/
theorem witness_OutcomeAndReqHeldWhileBusy : ∃ s t : State, tick s = .next t ∧ t.busy = true ∧ s.busy = true :=
  ⟨waiting [], _, rfl, rfl, rfl⟩

/-- The request-result obligations without operand conditions, ClearFillsPanel among them. -/
theorem witness_results : State.reset.cfg.ok = true ∧ Ready State.reset ∧ Quiet State.reset :=
  ⟨by decide, ready_reset, quiet_reset⟩

/-- A next state of a request from reset: EveryEndRests, OneTransaction, ChunkCap and OutcomesHaveCauses, first clauses. -/
theorem witness_request_ends : ∃ (i : Instr) (s t : State), Ready s ∧ exec i s = .next t ∧ t.busy = false :=
  ⟨Instr.cmd0 0x29, State.reset, _, ready_reset, rfl, rfl⟩

/-- `CMD0 0x29` held on its one chunk, with the given reports to come. -/
def heldCommand (rs : List BusReport) : State :=
  { State.reset with
    cfg := { Config.vectors with bulkMin := 1, transportMayFail := true, asyncTimeout := true }
    req := encode (Instr.cmd0 0x29), csOut := true, asyncInflight := true, wire := [.cs true]
    xfers := [⟨.async, .w8, 1⟩], reports := rs, phase := .running [.await ⟨.command 0x29, 1, .w8, .async⟩] }

theorem heldCommand_inv (rs : List BusReport) : Inv (heldCommand rs) where
  phase := ⟨rfl, rfl, ⟨rfl, rfl, (by decide : 1 ≤ 1), by decide⟩, rfl, rfl, rfl⟩
  request := ⟨Instr.cmd0 0x29, [], Datapath.reset, (by decide : decode (encode (Instr.cmd0 0x29)) = .ok (Instr.cmd0 0x29)), rfl, rfl,
    rfl, rfl⟩
  mem := rfl
  wire := rfl
  xfers := rfl
  rx := rfl

/-- A request that ends after a hold: EveryEndRests, OneTransaction, ChunkCap and OutcomesHaveCauses, second clauses. -/
theorem witness_held_request_ends :
    ∃ s t : State, Inv s ∧ s.busy = true ∧ step s = .next t ∧ t.busy = false ∧ t.wire = [.cs true, cb 0x29, .cs false] :=
  ⟨heldCommand [], _, heldCommand_inv [], rfl, rfl, rfl, rfl⟩

/-- StepKeepsInv, in a state that waits for a chunk. -/
theorem witness_StepKeepsInv : ∃ s t u : State, Inv s ∧ step s = .next t ∧ tick s = .next u :=
  ⟨heldCommand [.pending], _, _, heldCommand_inv _, rfl, rfl⟩

/-- ElementByteOrder. -/
theorem witness_ElementByteOrder : ∃ (m : Memory) (a : Nat) (p q : Byte), m.read a = some p ∧ m.read (a + 1) = some q :=
  ⟨[(7, 1), (8, 2)], 7, 1, 2, rfl, rfl⟩

/-- AbsentMemorySticks: each of its clauses, the second element absent, the address below it the last there; of a halfword
only the first byte is there, and the host is writing it. -/
theorem witness_AbsentMemorySticks :
    Admits (withBytes 0x100 [1]) .w8 0x100 ∧ ¬ Admits (withBytes 0x100 [1]) .w8 0x101 ∧
    (Instr.data8 2 0x100).wellFormed = true ∧ (Instr.cmd 0x3A 2 0x100).wellFormed = true ∧
    Admits { withBytes 0x100 [1, 2] with hostWrites := [(0x102, 3)] } .w16 0x100 ∧
    ¬ Admits { withBytes 0x100 [1, 2] with hostWrites := [(0x102, 3)] } .w16 0x102 ∧
    (Instr.data16 2 0x100).wellFormed = true ∧ (Instr.blit 0 0 2 1 0x100).wellFormed = true ∧
    accepts Config.vectors 0 0 1 0 = true ∧ Ready (withBytes 0x100 [1]) ∧ Quiet (withBytes 0x100 [1]) :=
  ⟨by unfold Admits; decide, by unfold Admits; decide, by decide, by decide, by unfold Admits; decide,
    by unfold Admits; decide, by decide, by decide, by decide, ⟨rfl, rfl, rfl⟩, quiet_of_nil rfl⟩

/-- RaceOpensOnlyRacedElements, each of its clauses: two elements, the first under no host write, the second under one, at one
of its bytes, which is not there otherwise. -/
theorem witness_RaceOpensOnlyRacedElements :
    ∃ s t : State, s.cfg.ok = true ∧ Ready s ∧ Quiet s ∧ (∀ k < 2, Admits s .w8 (0x100 + k * 1)) ∧
      (Instr.data8 2 0x100).wellFormed = true ∧ (Instr.cmd 0x3A 2 0x100).wellFormed = true ∧
      raced s.hostWrites .w8 0x100 = false ∧ raced s.hostWrites .w8 0x101 = true ∧
      t.cfg.ok = true ∧ Ready t ∧ Quiet t ∧ (∀ k < 2, Admits t .w16 (0x100 + k * 2)) ∧
      (Instr.data16 2 0x100).wellFormed = true ∧ (Instr.blit 0 0 2 1 0x100).wellFormed = true ∧
      accepts t.cfg 0 0 1 0 = true ∧ raced t.hostWrites .w16 0x100 = false ∧ raced t.hostWrites .w16 0x102 = true := by
  refine ⟨{ withBytes 0x100 [1] with hostWrites := [(0x101, 9)] },
    { withBytes 0x100 [1, 2, 3] with hostWrites := [(0x103, 9)] }, by decide, ⟨rfl, rfl, rfl⟩, quiet_of_nil rfl, ?_,
    by decide, by decide, by decide, by decide, by decide, ⟨rfl, rfl, rfl⟩, quiet_of_nil rfl, ?_, by decide, by decide,
    by decide, by decide, by decide⟩ <;> (unfold Admits; decide)

/-- DataChunks and PathInvisible: the three transport requests end from reset; and one is stuck. -/
theorem witness_DataChunks :
    Ready State.reset ∧ Quiet State.reset ∧ (∃ t, exec (.cmd 0x29 0 0) State.reset = .next t) ∧
    (∃ t, exec (.data8 0 0) State.reset = .next t) ∧ (∃ t, exec (.data16 0 0) State.reset = .next t) ∧
    exec (.data8 1 0) State.reset = .fault (.hostMemoryAbsent 0) :=
  ⟨ready_reset, quiet_reset, ⟨_, rfl⟩, ⟨_, rfl⟩, ⟨_, rfl⟩, rfl⟩

/-- AsyncChunkHolds, first clause: a chunk exactly at the threshold. -/
theorem witness_AsyncChunkHolds :
    ∃ s : State, (Instr.data16 1 0x100).wellFormed = true ∧ (Instr.data8 1 0x100).wellFormed = true ∧ Ready s ∧
      65535 * 0 < (1 : Long).toNat ∧ s.cfg.asyncAvailable = true ∧
      s.cfg.bulkMin = min 65535 ((1 : Long).toNat - 65535 * 0) ∧ Readable s .w16 1 0x100 ∧ Readable s .w8 1 0x100 ∧
      s.reports = List.replicate 0 .done ++ .pending :: [] :=
  ⟨{ withBytes 0x100 [1, 2] with cfg := { Config.vectors with bulkMin := 1 }, reports := [.pending] }, by decide,
    by decide, ⟨rfl, rfl, rfl⟩, by decide, rfl, by decide, by unfold Readable; decide, by unfold Readable; decide, rfl⟩

/-- AsyncChunkHolds, second clause, and NeverCompletedHangs. -/
theorem witness_waiting (rs : List BusReport) :
    (waiting rs).cfg.ok = true ∧ (waiting rs).resetIn = none ∧
    (waiting rs).phase = .running [.await ⟨.cell 7, 3, .w16, .async⟩, .endData, .width .w8] ∧
    chunkValues ⟨.cell 7, 3, .w16, .async⟩ (waiting rs) = .ok [7, 7, 7] ∧ (waiting rs).reports = rs :=
  ⟨by show Config.vectors.ok = true; decide, rfl, rfl, rfl, rfl⟩

/-- CmdResult and Data8Result, with one byte at the top of memory; Data16Result and BlitResult, with two elements. -/
theorem witness_reading_results :
    (Instr.cmd 0x3A 1 0xFFFFFFFF).wellFormed = true ∧ (Instr.data8 1 0xFFFFFFFF).wellFormed = true ∧
    Readable (withBytes 0xFFFFFFFF [1]) .w8 1 0xFFFFFFFF ∧ (Instr.data16 2 0x100).wellFormed = true ∧
    (Instr.blit 238 0 2 1 0x100).wellFormed = true ∧ accepts Config.vectors 238 0 (238 + 2 - 1) (0 + 1 - 1) = true ∧
    Readable (withBytes 0x100 [1, 2, 3, 4]) .w16 2 0x100 ∧ accepts Config.vectors 239 0 (239 + 2 - 1) (0 + 1 - 1) = false := by
  refine ⟨by decide, by decide, by unfold Readable; decide, by decide, by decide, by decide, by unfold Readable; decide,
    by decide⟩

/-- WindowAcceptance and WindowResult: accepted at the last pixel, rejected one past it. -/
theorem witness_window_bounds :
    accepts Config.vectors 239 239 239 239 = true ∧ accepts Config.vectors 239 239 240 239 = false ∧
    accepts Config.vectors 1 0 0 0 = false := by decide

/-- HostStreamFitsWindow, first clause: a one-pixel window, then one sample (as many as fit) or two (one too many). -/
theorem witness_HostStreamFitsWindow :
    ∃ s t u v : State, s.cfg.ok = true ∧ Ready s ∧ Quiet s ∧ s.rx.rxf = none ∧ accepts s.cfg 0 0 0 0 = true ∧
      exec (.window 0 0 0 0) s = .next t ∧ Readable t .w16 2 0x100 ∧ exec (.data16 1 0x100) t = .next u ∧
      exec (.data16 2 0x100) t = .next v := by
  have hq : Quiet (withBytes 0x100 [1, 2, 3, 4]) := quiet_of_nil rfl
  obtain ⟨t, ht, hl⟩ := request_leaves (planWindow 0 0 0 0) (s := withBytes 0x100 [1, 2, 3, 4]) (by decide) ⟨rfl, rfl, rfl⟩
    hq (by
      intro k hk
      obtain rfl : k = .window 0 0 0 0 := by simpa [planWindow, zint] using hk
      trivial)
  have hr : Readable t .w16 2 0x100 := by
    refine readable_congr hl.cfg hl.mem ?_ (show Readable (withBytes 0x100 [1, 2, 3, 4]) .w16 2 0x100 by
      unfold Readable; decide)
    rw [hl.hostWrites]
    rfl
  have hcfg : t.cfg.fillStrategy.ok = true := by rw [hl.cfg]; decide
  have hready : Ready t := ⟨hl.ww, hl.cs, hl.async⟩
  have hd : ∀ n : Long, n.toNat ≤ 2 → ∃ u, exec (.data16 n 0x100) t = .next u := by
    intro n hn
    obtain ⟨u, hu, -⟩ := request_leaves (planData16 n 0x100) hcfg hready (hl.quiet hq) (by
      intro k hk
      obtain rfl : k = .data .w16 n.toNat 0x100 := by simpa [planData16] using hk
      refine ⟨fun j hj => hr j (by omega), ?_⟩
      have : (0x100 : Long).toNat = 256 := rfl
      simp only [Width.bytes]
      omega)
    exact ⟨u, hu⟩
  obtain ⟨u, hu⟩ := hd 1 (by decide)
  obtain ⟨v, hv⟩ := hd 2 (by decide)
  exact ⟨_, t, u, v, by decide, ⟨rfl, rfl, rfl⟩, hq, rfl, by decide, ht, hr, hu, hv⟩

/-- HostStreamFitsWindow, the other clauses, from the start of observation: data in IDLE and, after an opaque command, in OPAQUE;
a write with no window and one sample; an axis with 3, 4 (its start at its end, and one past it) and 5 parameters. -/
theorem witness_HostStreamFitsWindow_marks :
    (∃ s t : State, s.rx.mode = .idle ∧ exec (.data8 1 0) s = .next t) ∧
    (∃ s t : State, s.rx.mode = .other ∧ exec (.data16 1 0) s = .next t) ∧
    (State.reset.rx.xAxis = none ∧ State.reset.rx.rxf = none) ∧
    (∃ t u : State, exec (.cmd State.reset.cfg.opcRamwr 0 0) { withBytes 0 [1, 2] with req := 0 } = .next t ∧
      exec (.data16 1 0) t = .next u ∧ u.rx.rxf = some .noWindow) ∧
    (∀ n : Word, n = 3 ∨ n = 4 ∨ n = 5 →
      (Instr.cmd State.reset.cfg.opcCaset n 0).wellFormed = true ∧
      Readable (withBytes 0 [0, 9, 0, 9, 0]) .w8 n.toNat 0 ∧
      ∃ t u : State, exec (.cmd State.reset.cfg.opcCaset n 0) (withBytes 0 [0, 9, 0, 9, 0]) = .next t ∧
        exec (Instr.cmd0 0x29) t = .next u) ∧
    groupAxis [0, 9, 0, 9] = some (9, 9) ∧ groupAxis [0, 9, 0, 8] = none := by
  refine ⟨⟨withBytes 0 [1], _, rfl, rfl⟩, ⟨{ withBytes 0 [1, 2] with rx := { Receiver.start with mode := .other } }, _, rfl,
    rfl⟩, ⟨rfl, rfl⟩, ⟨_, _, rfl, rfl, rfl⟩, ?_, by decide, by decide⟩
  rintro n (rfl | rfl | rfl) <;>
    exact ⟨by decide, by unfold Readable; decide, _, _, rfl, rfl⟩

/-- RasterPixelSequence and BlitRoundTrip, with a request that reads memory. -/
theorem witness_RasterPixelSequence :
    ∃ (i : Instr) (s t : State), isRaster i = true ∧ s.cfg.ok = true ∧ Ready s ∧ Quiet s ∧
      (∀ k ∈ planOf i, taskReadable s k) ∧ exec i s = .next t ∧ s.rx.rxf = none := by
  have hr : ∀ k ∈ planOf (.blit 0 0 2 1 0x100), taskReadable (withBytes 0x100 [1, 2, 3, 4]) k := by
    intro k hk
    obtain rfl : k = .blit 0 0 2 1 0x100 := by simpa [planOf, planBlit, zint] using hk
    intro _
    exact ⟨by unfold Readable; decide, by decide⟩
  obtain ⟨t, ht, -⟩ := request_leaves (planOf (.blit 0 0 2 1 0x100)) (s := withBytes 0x100 [1, 2, 3, 4]) (by decide)
    ⟨rfl, rfl, rfl⟩ (quiet_of_nil rfl) hr
  exact ⟨_, _, t, rfl, by decide, ⟨rfl, rfl, rfl⟩, quiet_of_nil rfl, hr, ht, rfl⟩

/-- FillChunks and FillrectPaints: an accepted FILLRECT ends; of a BLIT it is witness_RasterPixelSequence. -/
theorem witness_FillChunks :
    ∃ (s t : State), s.cfg.ok = true ∧ Ready s ∧ Quiet s ∧ s.rx.rxf = none ∧ accepts s.cfg 0 0 1 1 = true ∧
      exec (.fillrect 0 0 1 1 7) s = .next t := by
  obtain ⟨t, ht, -⟩ := request_leaves (planFillrect 0 0 1 1 7) (s := State.reset) (by decide) ready_reset quiet_reset
    (by
      intro k hk
      obtain rfl : k = .fill 0 0 1 1 7 := by simpa [planFillrect, zint] using hk
      trivial)
  exact ⟨_, t, by decide, ready_reset, quiet_reset, rfl, by decide, ht⟩

/-- LinePlotCount, CircleSymmetry and CircleDecisionVariable: a general line and its registers; a point, and two values one
after the other, of a circle. -/
theorem witness_plotted :
    (0 : Word) ≠ 4 ∧ (0 : Word) ≠ 2 ∧ plottedPoints (planLine 0 0 4 2 7) = [(0, 0), (1, 0), (2, 1), (3, 1), (4, 2)] ∧
    (zint 50 + 1, zint 50 + 2) ∈ plottedPoints (planCircle 50 50 2 7) ∧
    (lineValues (planLine 0 0 4 2 7)).map (fun r => (r.x, r.y, r.err)) =
      [(0, 0, 2), (1, 0, 0), (2, 1, 2), (3, 1, 0), (4, 2, 2), (4, 2, 0)] ∧
    (circleValues (planCircle 50 50 2 7))[1]? = some ⟨2, 3, -4, 1, 2⟩ ∧
    (circleValues (planCircle 50 50 2 7))[2]? = some ⟨5, 5, -2, 2, 1⟩ := by decide

/-- FailedChunkAborts, and ResetInput's second clause: the first and only chunk of DATA.8 and of DATA.16 fails, in both forms
of the report, or is reset. -/
theorem witness_FailedChunkAborts (r : BusReport) :
    ∃ s : State, s.cfg.transportMayFail = true ∧ Ready s ∧ Readable s .w8 2 0x100 ∧ Readable s .w16 1 0x100 ∧
      (Instr.data8 2 0x100).wellFormed = true ∧ (Instr.data16 1 0x100).wellFormed = true ∧
      s.reports = List.replicate 0 .done ++ r :: [] :=
  ⟨{ withBytes 0x100 [1, 2] with cfg := { Config.vectors with transportMayFail := true }, reports := [r] }, rfl,
    ⟨rfl, rfl, rfl⟩, by unfold Readable; simp only [withBytes]; decide, by unfold Readable; simp only [withBytes]; decide,
    by decide, by decide, rfl⟩

/-- FailedChunkAborts, TimedOutChunkAborts and ResetInput, their clauses of a held chunk: any report comes first. -/
theorem witness_held_reports (r : BusReport) :
    ∃ (s : State) (c : Chunk), s.cfg.ok = true ∧ s.resetIn = none ∧ s.phase = .running (.await c :: []) ∧ c.path = .async ∧
      s.csOut = true ∧ chunkValues c s = .ok [0x29] ∧ s.cfg.transportMayFail = true ∧ s.cfg.asyncTimeout = true ∧
      s.reports = r :: [] :=
  ⟨heldCommand [r], _, (by decide : (heldCommand []).cfg.ok = true), rfl, rfl, rfl, rfl, rfl, rfl, rfl, rfl⟩

/-- TimedOutChunkAborts, first clause, with a chunk exactly at the threshold. -/
theorem witness_TimedOutChunkAborts :
    ∃ s : State, s.cfg.asyncTimeout = true ∧ s.cfg.asyncAvailable = true ∧ s.cfg.bulkMin = min 65535 (1 - 65535 * 0) ∧
      Ready s ∧ Readable s .w16 1 0x100 ∧ (Instr.data16 1 0x100).wellFormed = true ∧
      s.reports = List.replicate 0 .done ++ .timedOut 0 :: [] :=
  ⟨{ withBytes 0x100 [1, 2] with cfg := { Config.vectors with asyncTimeout := true, bulkMin := 1 }, reports := [.timedOut 0] },
    rfl, rfl, by decide, ⟨rfl, rfl, rfl⟩, by unfold Readable; decide, by decide, rfl⟩

/-- AbortSendsPrefix, both clauses: a presented request that reads nothing, and reports of every kind the second allows. -/
theorem witness_AbortSendsPrefix :
    ∃ (i : Instr) (s : State), s.cfg.ok = true ∧ s.resetIn = none ∧ s.phase = .idle ∧ i.wellFormed = true ∧
      s.port = encode i :: [] ∧ Ready s ∧ (∀ k ∈ planOf i, taskReadable s k) ∧
      (∀ r ∈ s.reports, r ≠ .never ∧ ∀ k, r ≠ .reset k) ∧
      s.reports = [.done, .pending, .failed 1, .timedOut 2, .failedAndTimedOut 3] := by
  refine ⟨.pixel 1 2 7, { State.reset with
      reports := [.done, .pending, .failed 1, .timedOut 2, .failedAndTimedOut 3], port := [encode (.pixel 1 2 7)] },
    by decide, rfl, rfl, by decide, rfl, ⟨rfl, rfl, rfl⟩, ?_, ?_, rfl⟩
  · intro k hk
    obtain rfl : k = .plot 1 2 7 := by simpa [planOf, planPixel, zint] using hk
    trivial
  · intro r hr
    simp only [List.mem_cons, List.not_mem_nil, or_false] at hr
    rcases hr with rfl | rfl | rfl | rfl | rfl <;> exact ⟨nofun, nofun⟩

/-- ResetInput, first clause, with a chunk in flight. -/
theorem witness_ResetInput :
    ∃ s : State, s.cfg.ok = true ∧ s.resetIn = some 2 ∧ inFlight 2 s = [.b16 .data 7, .b16 .data 7] :=
  ⟨{ waiting [] with resetIn := some 2 }, by decide, rfl, rfl⟩

/-- IdleWaits: the reset state. -/
theorem witness_IdleWaits :
    State.reset.cfg.ok = true ∧ State.reset.resetIn = none ∧ State.reset.phase = .idle ∧ State.reset.port = [] :=
  ⟨by decide, rfl, rfl, rfl⟩

/-- DelayedRequestEnds: a request whose one chunk is reported pending once. -/
theorem witness_DelayedRequestEnds :
    ∃ (i : Instr) (s : State) (later : List Desc), s.cfg.ok = true ∧ s.resetIn = none ∧ s.phase = .idle ∧
      i.wellFormed = true ∧ s.port = encode i :: later ∧ Ready s ∧ (∀ k ∈ planOf i, taskReadable s k) ∧
      (∀ r ∈ s.reports, r = .done ∨ r = .pending) ∧ s.reports = [.pending] := by
  refine ⟨Instr.cmd0 0x29, { State.reset with
      cfg := { Config.vectors with bulkMin := 1 }, reports := [.pending], port := [encode (Instr.cmd0 0x29)] }, [],
    by decide, rfl, rfl, by decide, rfl, ⟨rfl, rfl, rfl⟩, ?_, by decide, rfl⟩
  intro k hk
  have hk' : k = .command 0x29 ∨ k = .data .w8 0 0 := by simpa [planOf, planCmd, Instr.cmd0] using hk
  rcases hk' with rfl | rfl
  · trivial
  · refine ⟨?_, by decide⟩
    unfold Readable
    decide

end Sys2Proof.Tests
end

section
/-! PROOFS. The scope of the model (spec 00): which configurations it gives a meaning, and whose memory it leaves alone. -/

namespace Sys2Proof.Machine

/-! ### The configuration check (R9, R11) -/

theorem FillStrategy.ok_iff (f : FillStrategy) : f.ok = true ↔ ∀ b, f = .block b → 1 ≤ b ∧ b ≤ 64 := by
  cases f with
  | block b =>
    have hmax : fillBlockMax = 64 := rfl
    simp [FillStrategy.ok, ← hmax]
  | fixedSource => simp [FillStrategy.ok]

/-- The constraints of R9, each written out. -/
theorem Config.ok_iff (c : Config) :
    c.ok = true ↔
      1 ≤ c.panelW ∧ c.panelW ≤ 65535 ∧ 1 ≤ c.panelH ∧ c.panelH ≤ 65535 ∧
      c.panelW - 1 + c.xOffset ≤ 65535 ∧ c.panelH - 1 + c.yOffset ≤ 65535 ∧
      c.opcCaset ≠ c.opcRaset ∧ c.opcCaset ≠ c.opcRamwr ∧ c.opcRaset ≠ c.opcRamwr ∧
      1 ≤ c.bulkMin ∧ c.bulkMin ≤ 65535 ∧ ∀ b, c.fillStrategy = .block b → 1 ≤ b ∧ b ≤ 64 := by
  simp only [Config.ok, Bool.and_eq_true, decide_eq_true_eq, FillStrategy.ok_iff, and_assoc]

theorem exec_not_refused (i : Instr) (s : State) (r : Refusal) : exec i s ≠ .refused r := by
  rw [exec_eq_request]
  exact run_not_refused _ _ r

/-- Neither waiting, nor a request, nor an ILLEGAL one is refused. -/
theorem acceptNext_not_refused (s : State) (r : Refusal) : acceptNext s ≠ .refused r := by
  unfold acceptNext
  split
  · exact nofun
  · split
    · exact exec_not_refused _ _ r
    · exact nofun

/-- The configuration check is the one place where a step is refused. -/
theorem step_refused_iff (s : State) (r : Refusal) : step s = .refused r ↔ s.cfg.ok = false ∧ r = .badConfig := by
  unfold step cycle
  split
  · rename_i hbad
    simp [hbad, eq_comm]
  · rename_i hok
    refine iff_of_false ?_ fun h => hok h.1
    split
    · exact nofun
    · exact run_not_refused _ s r
    · exact acceptNext_not_refused s r

/-- Settles O9: a step refuses at its configuration check alone. -/
theorem refusesBadConfigOnly : Obligations.RefusesBadConfigOnly := by
  refine fun s => ⟨?_, fun r hr => ((step_refused_iff s r).1 hr).2⟩
  rw [step_refused_iff, ← Config.ok_iff, Bool.not_eq_true]
  exact and_iff_left rfl

/-! ### Host memory (R15, R60, R76) -/

/-- Where only the host's own writes land, every byte they do not name stays. -/
theorem Moves.read_mem {s t : State} {a : Nat} (h : Moves s t) (ha : ∀ c ∈ s.hostWrites, c.1 ≠ a) :
    t.mem.read a = s.mem.read a := by
  obtain ⟨hm, -⟩ | ⟨hm, -⟩ := h.mem
  · rw [hm]
  · rw [hm, Memory.read_writes_ne _ _ ha]

/-- Settles O17: acceptance touches neither memory nor the host's writes, and from there a step only lands those writes. -/
theorem rgeWritesNoHostMemory : Obligations.RgeWritesNoHostMemory := by
  intro s t a hstep ha
  obtain h | ⟨d, later, -, -, h⟩ := step_moves hstep
  · exact h.read_mem ha
  · exact h.read_mem (s := accept d later s) ha

end Sys2Proof.Machine
end

section
/-! PROOFS. Host memory as requests read it (spec 20; 40 R133 to R135; 42 R186): the results of the requests that read it, where
they are stuck, and what a racing host write opens. -/

namespace Sys2Proof.Machine

/-! ### Byte order and outputs (R67, R77, R121, R160) -/

/-- Settles O18: each byte order is one arm of `halfword`. -/
theorem elementByteOrder : Obligations.ElementByteOrder := by
  intro m a p q hp hq
  constructor <;> simp [memRead, hp, hq, halfword]

/-- The entries a step adds to the wire are those by which its wire is longer. -/
theorem newItems_eq {s t : State} {is : List WireItem} (h : t.wire = s.wire ++ is) : newItems s t = is := by
  simp [newItems, h]

/-- What moves from `s` to `t` extends the outputs, and the receiver has consumed the wire's new part. -/
theorem Moves.outputs_extend {s t : State} (h : Moves s t) :
    s.wire <+: t.wire ∧ s.xfers <+: t.xfers ∧ t.rx = s.rx.items s.cfg (newItems s t) := by
  obtain ⟨is, hwire, hrx⟩ := h.out
  exact ⟨⟨is, hwire.symm⟩, h.xfers, by rw [newItems_eq hwire, hrx]⟩

/-- Settles O21: acceptance touches no output and no receiver, and from there a step moves. -/
theorem outputsOnlyExtend : Obligations.OutputsOnlyExtend := by
  intro s t hstep
  obtain h | ⟨d, later, -, -, h⟩ := step_moves hstep
  · exact h.outputs_extend
  · exact Moves.outputs_extend (s := accept d later s) h

/-! ### What a decoded request may assume -/

theorem Config.fillStrategy_ok {c : Config} (h : c.ok = true) : c.fillStrategy.ok = true := by
  simp only [Config.ok, Bool.and_eq_true] at h
  exact h.2

/-- R63: what a well-formed request reads ends within 32-bit addresses. -/
theorem readRange_le_of_wellFormed {i : Instr} {src : Long} {n size : Nat} (h : i.wellFormed = true)
    (hi : i.readRange = some (src, n, size)) : src.toNat + n * size ≤ 2 ^ 32 := by
  simp only [Instr.wellFormed, Instr.rangeOk, hi, Bool.and_eq_true, Bool.or_eq_true, decide_eq_true_eq] at h
  obtain ⟨rfl | hle, -⟩ := h
  · have := src.isLt
    omega
  · exact hle

/-- R63: the number of elements of a BLIT, as its rule computes it. -/
theorem blit_count (w h : Word) : (zint w * zint h).toNat = w.toNat * h.toNat := by
  rw [zint, zint, ← Int.natCast_mul, Int.toNat_natCast]

/-! ### Results where memory can be read (R133 to R135, R186) -/

/-- A request of one `SendData` from memory that can be read: its elements, and no window decision. -/
theorem data_leaves {w : Width} {n : Nat} {src : Long} {s : State} (hcfg : s.cfg.ok = true) (hs : Ready s) (hq : Quiet s)
    (hr : Readable s w n src.toNat) (hb : src.toNat + n * w.bytes ≤ 2 ^ 32) :
    ∃ t, request [.data w n src] s = .next t ∧
      Leaves s t ((hostList s w n src.toNat).map (mkElem .data w)) false false := by
  obtain ⟨t, ht, hl⟩ := request_leaves [.data w n src] (Config.fillStrategy_ok hcfg) hs hq
    (List.forall_mem_singleton.2 ⟨hr, hb⟩)
  rw [List.flatMap_singleton] at hl
  exact ⟨t, ht, hl⟩

/-- Settles O29: a request of one `SendData` at width 8. -/
theorem data8Result : Obligations.Data8Result :=
  fun _ _ _ hwf hcfg hs hq hr => data_leaves hcfg hs hq hr (readRange_le_of_wellFormed hwf rfl)

/-- Settles O30: a request of one `SendData` at width 16. -/
theorem data16Result : Obligations.Data16Result :=
  fun _ _ _ hwf hcfg hs hq hr => data_leaves hcfg hs hq hr (readRange_le_of_wellFormed hwf rfl)

/-- Settles O28: the command byte is one primitive, its parameters the next. -/
theorem cmdResult : Obligations.CmdResult := by
  intro op n src s hwf hcfg hs hq hr
  have hread : ∀ k ∈ planCmd op n src, taskReadable s k := by
    rw [planCmd, List.forall_mem_cons, List.forall_mem_singleton]
    exact ⟨trivial, hr, readRange_le_of_wellFormed hwf rfl⟩
  obtain ⟨t, ht, hl⟩ := request_leaves _ (Config.fillStrategy_ok hcfg) hs hq hread
  refine ⟨t, ht, ?_⟩
  rwa [planCmd, List.flatMap_cons, List.flatMap_singleton] at hl

/-- Settles O38: one sub-primitive; its flags and its elements are those of its window's verdict. -/
theorem blitResult : Obligations.BlitResult := by
  intro x y w h src s ok hwf hcfg hs hq hok hr
  have hread : ∀ k ∈ planBlit x y w h src, taskReadable s k := by
    simp only [planBlit, List.mem_singleton, forall_eq, taskReadable, blit_count]
    exact fun hacc => ⟨hr (hok.trans hacc), readRange_le_of_wellFormed hwf rfl⟩
  obtain ⟨t, ht, hl⟩ := request_leaves _ (Config.fillStrategy_ok hcfg) hs hq hread
  refine ⟨t, ht, ?_⟩
  rw [planBlit, List.flatMap_singleton, taskElems, subElems, blit_count, ← hok] at hl
  have hverdict : taskVerdict s.cfg (.blit (zint x) (zint y) (zint w) (zint h) src) = some ok := congrArg some hok.symm
  have hacc : planAcc s.cfg [.blit (zint x) (zint y) (zint w) (zint h) src] = ok := by
    simp [planAcc, hverdict]
  have hrej : planRej s.cfg [.blit (zint x) (zint y) (zint w) (zint h) src] = !ok := by
    simp [planRej, hverdict]
  rwa [hacc, hrej] at hl

end Sys2Proof.Machine
end

section
/-! PROOFS. A window and its samples as the reference receiver takes them (spec 41 R160 to R168): what a window group leaves of
the receiver, the samples that fill it in row-major order, and the frame memory after them. -/

namespace Sys2Proof.Machine

/-! ### The receiver over elements -/

theorem Receiver.items_append_elems (c : Config) (r : Receiver) (es fs : List Elem) :
    r.items c ((es ++ fs).map .elem) = (r.items c (es.map .elem)).items c (fs.map .elem) := by
  rw [List.map_append, Receiver.items_append]

/-- A transaction's chip-select events change nothing (R167). -/
theorem Receiver.items_transaction (c : Config) (r : Receiver) (es : List Elem) :
    r.items c (transaction es) = r.items c (es.map .elem) := by
  cases es with
  | nil => rfl
  | cons e es => exact Receiver.items_append c r (.cs true :: (e :: es).map .elem) [.cs false]

/-- A command that ends an address command touches the axes alone (R161). -/
theorem Receiver.dropAxis_eq (r : Receiver) : ∃ xa ya, r.dropAxis = { r with xAxis := xa, yAxis := ya } := by
  unfold Receiver.dropAxis
  split
  · split <;> exact ⟨_, _, rfl⟩
  · split <;> exact ⟨_, _, rfl⟩
  all_goals exact ⟨_, _, rfl⟩

/-- The receiver in WRITE over the window of the given axes, no byte pending, with this frame memory and write cursor. -/
def Receiver.writing (r : Receiver) (xs xe ys ye : Word) (fm : List (Nat × Word)) (cursor : Nat × Nat) : Receiver :=
  { r with
    mode := .write, xAxis := some (xs, xe), yAxis := some (ys, ye), cursor := some cursor, high := none, fm := fm }

/-- OPC_CASET with its four parameters sets the x axis (R161, R162). -/
theorem Receiver.items_caset (c : Config) (r : Receiver) (p0 p1 p2 p3 : Byte) :
    r.items c ((cmdElem c.opcCaset :: [p0, p1, p2, p3].map paramElem).map .elem) =
      { r.dropAxis with mode := .caset [p0, p1, p2, p3], high := none, xAxis := axisOf p0 p1 p2 p3 } := by
  simp [Receiver.items, Receiver.item, Elem.bytes, cmdElem, paramElem, Receiver.byte, Receiver.command, Receiver.data,
    axisStep]

/-- OPC_RASET with its four parameters, after whole parameters of OPC_CASET, sets the y axis (R161, R162). -/
theorem Receiver.items_raset {c : Config} (hne : c.opcCaset ≠ c.opcRaset) {r : Receiver} {q0 q1 q2 q3 : Byte}
    (hm : r.mode = .caset [q0, q1, q2, q3]) (p0 p1 p2 p3 : Byte) :
    r.items c ((cmdElem c.opcRaset :: [p0, p1, p2, p3].map paramElem).map .elem) =
      { r with mode := .raset [p0, p1, p2, p3], high := none, yAxis := axisOf p0 p1 p2 p3 } := by
  simp [Receiver.items, Receiver.item, Elem.bytes, cmdElem, paramElem, Receiver.byte, Receiver.command, Receiver.data,
    axisStep, Receiver.dropAxis, hm, hne.symm]

/-- OPC_RAMWR, after whole parameters of OPC_RASET and with both axes defined, starts the write (R161, R164). -/
theorem Receiver.items_ramwr {c : Config} (hx : c.opcCaset ≠ c.opcRamwr) (hy : c.opcRaset ≠ c.opcRamwr) {r : Receiver}
    {q0 q1 q2 q3 : Byte} (hm : r.mode = .raset [q0, q1, q2, q3]) {xs xe ys ye : Word} (hxa : r.xAxis = some (xs, xe))
    (hya : r.yAxis = some (ys, ye)) :
    r.items c ([cmdElem c.opcRamwr].map .elem) = r.writing xs xe ys ye r.fm (xs.toNat, ys.toNat) := by
  simp [Receiver.items, Receiver.item, Elem.bytes, cmdElem, Receiver.byte, Receiver.command, Receiver.dropAxis, hm,
    hx.symm, hy.symm, Receiver.topLeft, hxa, hya, Receiver.writing]

/-! ### The window group (R101, R153) -/

/-- The two bytes of a coordinate, put together again (R65, R162). -/
theorem coordBytes_append (z : Int) : (BitVec.ofInt 8 (z / 256) ++ BitVec.ofInt 8 z : Word) = BitVec.ofInt 16 z := by
  have h := bigEndian_offset z 0
  simp only [bigEndian, offsetCoord, coordBytes, Nat.cast_zero, Int.add_zero, List.cons.injEq, and_true] at h
  rw [← h.1, ← h.2]
  exact (BitVec.extractLsb'_append_extractLsb'_eq_extractLsb' (by omega)).trans BitVec.extractLsb'_eq_self

/-- The axis that coordinate bytes in rising order give (R162). -/
theorem axisOf_coordBytes {a b : Nat} (hab : a ≤ b) (hb : b ≤ 65535) :
    axisOf (BitVec.ofInt 8 ((a : Int) / 256)) (BitVec.ofInt 8 a) (BitVec.ofInt 8 ((b : Int) / 256)) (BitVec.ofInt 8 b) =
      some (BitVec.ofNat 16 a, BitVec.ofNat 16 b) := by
  have hle : (BitVec.ofNat 16 a) ≤ (BitVec.ofNat 16 b) := by
    rw [BitVec.le_def, BitVec.toNat_ofNat, BitVec.toNat_ofNat]
    omega
  rw [axisOf, coordBytes_append, coordBytes_append, BitVec.ofInt_natCast, BitVec.ofInt_natCast, if_pos hle]

/-- What `SetWindow` accepts lies on the panel, corner to corner (R151, R152). -/
theorem accepts_iff (c : Config) (x0 y0 x1 y1 : Int) :
    accepts c x0 y0 x1 y1 = true ↔ 0 ≤ x0 ∧ x0 ≤ x1 ∧ x1 < c.panelW ∧ 0 ≤ y0 ∧ y0 ≤ y1 ∧ y1 < c.panelH := by
  simp only [accepts, inPanel, Bool.and_eq_true, decide_eq_true_eq]
  omega

/-- The group as its three commands, each with its parameters. -/
theorem windowElems_eq (c : Config) (x0 y0 x1 y1 : Int) :
    windowElems c x0 y0 x1 y1 =
      (cmdElem c.opcCaset ::
        [.ofInt 8 ((x0 + c.xOffset) / 256), .ofInt 8 (x0 + c.xOffset), .ofInt 8 ((x1 + c.xOffset) / 256),
          .ofInt 8 (x1 + c.xOffset)].map paramElem) ++
      ((cmdElem c.opcRaset ::
        [.ofInt 8 ((y0 + c.yOffset) / 256), .ofInt 8 (y0 + c.yOffset), .ofInt 8 ((y1 + c.yOffset) / 256),
          .ofInt 8 (y1 + c.yOffset)].map paramElem) ++ [cmdElem c.opcRamwr]) := rfl

/-- After an accepted window group the receiver writes the window from its top-left corner, whatever it did before. -/
theorem Receiver.items_windowElems {c : Config} (hc : c.ok = true) (r : Receiver) {x0 y0 x1 y1 : Nat}
    (hacc : accepts c x0 y0 x1 y1 = true) :
    r.items c ((windowElems c x0 y0 x1 y1).map .elem) =
      r.writing (.ofNat 16 (x0 + c.xOffset)) (.ofNat 16 (x1 + c.xOffset)) (.ofNat 16 (y0 + c.yOffset))
        (.ofNat 16 (y1 + c.yOffset)) r.fm (x0 + c.xOffset, y0 + c.yOffset) := by
  obtain ⟨-, hx, hxp, -, hy, hyp⟩ := (accepts_iff c _ _ _ _).1 hacc
  obtain ⟨-, -, -, -, hxo, hyo, hcr, hcw, hrw, -⟩ := (Config.ok_iff c).1 hc
  obtain ⟨xa, ya, hdrop⟩ := r.dropAxis_eq
  have hX := axisOf_coordBytes (a := x0 + c.xOffset) (b := x1 + c.xOffset) (by omega) (by omega)
  have hY := axisOf_coordBytes (a := y0 + c.yOffset) (b := y1 + c.yOffset) (by omega) (by omega)
  simp only [Nat.cast_add] at hX hY
  rw [windowElems_eq, Receiver.items_append_elems, Receiver.items_append_elems, Receiver.items_caset, hX, hdrop,
    Receiver.items_raset hcr rfl, hY, Receiver.items_ramwr hcw hrw rfl rfl rfl, BitVec.toNat_ofNat, BitVec.toNat_ofNat,
    Nat.mod_eq_of_lt (by omega), Nat.mod_eq_of_lt (by omega)]
  rfl

/-! ### Samples (R163, R164) -/

/-- The frame memory with the values of pixel writes stored in their order, a later one over an earlier. -/
def paint (c : Config) (fm : List (Nat × Word)) (ps : List Pixel) : List (Nat × Word) :=
  ps.foldl (fun m p => store m (fmKey (p.x + (c.xOffset : Int)).toNat (p.y + (c.yOffset : Int)).toNat) p.v) fm

/-- A pixel as the frame memory's key has it. -/
theorem paint_key (c : Config) (px py : Nat) :
    fmKey ((px : Int) + (c.xOffset : Int)).toNat ((py : Int) + (c.yOffset : Int)).toNat =
      fmKey (px + c.xOffset) (py + c.yOffset) := rfl

/-- A pixel element in WRITE, no byte pending, is one whole sample (R163). -/
theorem Receiver.items_pixelElem (c : Config) {r : Receiver} (hm : r.mode = .write) (hh : r.high = none) (v : Word) :
    r.items c [.elem (pixelElem v)] = r.sample v := by
  have hv : (v.extractLsb' 8 8 ++ v.extractLsb' 0 8 : Word) = v :=
    (BitVec.extractLsb'_append_extractLsb'_eq_extractLsb' (by omega)).trans BitVec.extractLsb'_eq_self
  obtain ⟨mode, xAxis, yAxis, cursor, high, fm, rxf⟩ := r
  cases hm
  cases hh
  simp [Receiver.items, Receiver.item, Elem.bytes, pixelElem, Receiver.byte, Receiver.data, hv]

/-- The cursor goes through a window row after row (R164). -/
theorem advance_rowMajor {xs xe : Word} {width : Nat} (hxe : xe.toNat + 1 = xs.toNat + width) (hpos : 0 < width)
    (ys k : Nat) :
    advance xs xe (xs.toNat + k % width, ys + k / width) = (xs.toNat + (k + 1) % width, ys + (k + 1) / width) := by
  have hk := Nat.mod_add_div k width
  have hlt := Nat.mod_lt k hpos
  unfold advance
  by_cases hend : k % width + 1 = width
  · have h := (Nat.div_mod_unique hpos (a := k + 1) (d := k / width + 1) (c := 0)).2 ⟨by rw [Nat.mul_add]; omega, hpos⟩
    rw [if_pos (by dsimp only; omega), h.1, h.2]
    rfl
  · have h := (Nat.div_mod_unique hpos (a := k + 1) (d := k / width) (c := k % width + 1)).2 ⟨by omega, by omega⟩
    rw [if_neg (by dsimp only; omega), h.1, h.2]
    rfl

/-- Samples that fit a window, from the k-th on, are written to it in row-major order (R163, R164). -/
theorem Receiver.items_pixels (c : Config) (r : Receiver) {xs xe ys ye : Word} {x0 y0 width height k : Nat}
    (hxs : xs.toNat = x0 + c.xOffset) (hys : ys.toNat = y0 + c.yOffset) (hxe : xe.toNat + 1 = xs.toNat + width)
    (hye : ye.toNat + 1 = ys.toNat + height) (vs : List Word) (fm : List (Nat × Word))
    (hfit : k + vs.length ≤ width * height) :
    (r.writing xs xe ys ye fm (xs.toNat + k % width, ys.toNat + k / width)).items c ((vs.map pixelElem).map .elem) =
      r.writing xs xe ys ye (paint c fm (rowMajor x0 y0 width k vs))
        (xs.toNat + (k + vs.length) % width, ys.toNat + (k + vs.length) / width) := by
  induction vs generalizing k fm with
  | nil => rfl
  | cons v vs ih =>
    rw [List.length_cons] at hfit
    have hpos : 0 < width := Nat.pos_of_ne_zero fun h => by simp [h] at hfit
    have hrow : k / width < height := (Nat.div_lt_iff_lt_mul hpos).2 (by rw [Nat.mul_comm]; omega)
    have hin : ¬ ys.toNat + k / width > ye.toNat := by omega
    have hsample : (r.writing xs xe ys ye fm (xs.toNat + k % width, ys.toNat + k / width)).sample v =
        r.writing xs xe ys ye (store fm (fmKey (xs.toNat + k % width) (ys.toNat + k / width)) v)
          (xs.toNat + (k + 1) % width, ys.toNat + (k + 1) / width) := by
      rw [← advance_rowMajor hxe hpos]
      exact if_neg hin
    have hkey : fmKey (xs.toNat + k % width) (ys.toNat + k / width) =
        fmKey (((x0 + k % width : Nat) : Int) + (c.xOffset : Int)).toNat
          (((y0 + k / width : Nat) : Int) + (c.yOffset : Int)).toNat := by
      rw [paint_key, hxs, hys, Nat.add_right_comm x0, Nat.add_right_comm y0]
    rw [List.map_cons, ← List.singleton_append, Receiver.items_append_elems, List.map_singleton,
      Receiver.items_pixelElem c rfl rfl, hsample, ih _ (by omega), hkey, List.length_cons, Nat.add_right_comm k,
      ← Nat.add_assoc]
    rfl

/-- What an accepted window and samples that fit it leave of the receiver: the samples in the frame memory, and no new mark. -/
theorem Receiver.items_window_pixels {c : Config} (hc : c.ok = true) (r : Receiver) {x0 y0 x1 y1 : Nat}
    (hacc : accepts c x0 y0 x1 y1 = true) {vs : List Word} (hfit : vs.length ≤ (x1 - x0 + 1) * (y1 - y0 + 1)) :
    (r.items c ((windowElems c x0 y0 x1 y1 ++ vs.map pixelElem).map .elem)).rxf = r.rxf ∧
    (r.items c ((windowElems c x0 y0 x1 y1 ++ vs.map pixelElem).map .elem)).fm =
      paint c r.fm (rowMajor x0 y0 (x1 - x0 + 1) 0 vs) := by
  obtain ⟨-, hx, hxp, -, hy, hyp⟩ := (accepts_iff c _ _ _ _).1 hacc
  obtain ⟨-, -, -, -, hxo, hyo, -⟩ := (Config.ok_iff c).1 hc
  have hcoord : ∀ a ≤ 65535, (BitVec.ofNat 16 a).toNat = a := fun a ha => by
    rw [BitVec.toNat_ofNat]
    omega
  have hxs := hcoord (x0 + c.xOffset) (by omega)
  have hxe := hcoord (x1 + c.xOffset) (by omega)
  have hys := hcoord (y0 + c.yOffset) (by omega)
  have hye := hcoord (y1 + c.yOffset) (by omega)
  have hwidth : (BitVec.ofNat 16 (x1 + c.xOffset)).toNat + 1 =
      (BitVec.ofNat 16 (x0 + c.xOffset)).toNat + (x1 - x0 + 1) := by omega
  have hheight : (BitVec.ofNat 16 (y1 + c.yOffset)).toNat + 1 =
      (BitVec.ofNat 16 (y0 + c.yOffset)).toNat + (y1 - y0 + 1) := by omega
  have h := Receiver.items_pixels c r (k := 0) hxs hys hwidth hheight vs r.fm (by omega)
  simp only [Nat.zero_mod, Nat.zero_div, Nat.add_zero, hxs, hys] at h
  rw [Receiver.items_append_elems, Receiver.items_windowElems hc r hacc, h]
  exact ⟨rfl, rfl⟩

/-! ### The frame memory after a window's samples -/

/-- A key names one coordinate. -/
theorem fmKey_inj {a b p q : Nat} (ha : a ≤ 65535) (hp : p ≤ 65535) : fmKey a b = fmKey p q ↔ a = p ∧ b = q := by
  unfold fmKey
  omega

/-- A pixel that no sample falls on is as before. -/
theorem lookup_paint_outside (c : Config) {x0 y0 width px py : Nat} (hx : x0 + width + c.xOffset ≤ 65536)
    (hpx : px + c.xOffset ≤ 65535) (hpos : 0 < width) (vs : List Word) (k : Nat) (fm : List (Nat × Word))
    (hout : ∀ j < vs.length, ¬ (px = x0 + (k + j) % width ∧ py = y0 + (k + j) / width)) :
    lookup (paint c fm (rowMajor x0 y0 width k vs)) (fmKey (px + c.xOffset) (py + c.yOffset)) =
      lookup fm (fmKey (px + c.xOffset) (py + c.yOffset)) := by
  induction vs generalizing k fm with
  | nil => rfl
  | cons v vs ih =>
    have hlt := Nat.mod_lt k hpos
    have hle : x0 + k % width + c.xOffset ≤ 65535 := by omega
    have hhead := hout 0 (by simp)
    have hne : fmKey (px + c.xOffset) (py + c.yOffset) ≠
        fmKey (x0 + k % width + c.xOffset) (y0 + k / width + c.yOffset) := by
      rw [Ne, fmKey_inj hpx hle]
      rw [Nat.add_zero] at hhead
      omega
    refine (ih (k + 1) _ fun j hj => ?_).trans (lookup_store_ne fm v hne)
    rw [Nat.add_assoc, Nat.add_comm 1]
    exact hout (j + 1) (by simpa using hj)

/-- The pixel the j-th sample falls on holds that sample. -/
theorem lookup_paint_inside (c : Config) {x0 y0 width : Nat} (hx : x0 + width + c.xOffset ≤ 65536) (hpos : 0 < width)
    (vs : List Word) (k : Nat) (fm : List (Nat × Word)) {j : Nat} (hj : j < vs.length) :
    lookup (paint c fm (rowMajor x0 y0 width k vs))
      (fmKey (x0 + (k + j) % width + c.xOffset) (y0 + (k + j) / width + c.yOffset)) = vs[j]? := by
  induction vs generalizing k fm j with
  | nil => exact absurd hj (Nat.not_lt_zero _)
  | cons v vs ih =>
    cases j with
    | zero =>
      have hlt := Nat.mod_lt (k + 0) hpos
      refine (lookup_paint_outside c hx (by omega) hpos vs (k + 1) _ fun i _ hsame => ?_).trans (lookup_store_self fm _ v)
      have h0 := Nat.mod_add_div k width
      have hi := Nat.mod_add_div (k + 1 + i) width
      rw [← Nat.add_left_cancel hsame.1, ← Nat.add_left_cancel hsame.2, Nat.add_zero, h0] at hi
      omega
    | succ j =>
      rw [show k + (j + 1) = k + 1 + j by omega, rowMajor, paint, List.foldl_cons]
      exact ih (k + 1) _ (Nat.lt_of_succ_lt_succ hj)

/-- The place of a pixel in its rectangle, row after row, is one of the rectangle's. -/
theorem row_index_lt {dx dy width height : Nat} (hdx : dx < width) (hdy : dy < height) :
    dy * width + dx < width * height := by
  calc dy * width + dx < (dy + 1) * width := by rw [Nat.add_mul]; omega
    _ ≤ height * width := Nat.mul_le_mul_right _ hdy
    _ = width * height := Nat.mul_comm ..

/-- A rectangle filled row after row holds, at each of its pixels, that pixel's sample. -/
theorem lookup_paint_rect_inside (c : Config) {x0 y0 width height dx dy : Nat} (hx : x0 + width + c.xOffset ≤ 65536)
    {vs : List Word} (hlen : vs.length = width * height) (fm : List (Nat × Word)) (hdx : dx < width) (hdy : dy < height) :
    lookup (paint c fm (rowMajor x0 y0 width 0 vs)) (fmKey (x0 + dx + c.xOffset) (y0 + dy + c.yOffset)) =
      vs[dy * width + dx]? := by
  have hpos : 0 < width := Nat.zero_lt_of_lt hdx
  have hdm := (Nat.div_mod_unique hpos (a := dy * width + dx) (d := dy) (c := dx)).2
    ⟨by rw [Nat.mul_comm, Nat.add_comm], hdx⟩
  have h := lookup_paint_inside c (y0 := y0) hx hpos vs 0 fm (hlen ▸ row_index_lt hdx hdy)
  rwa [Nat.zero_add, hdm.1, hdm.2] at h

/-- Filling a rectangle leaves every pixel outside it alone. -/
theorem lookup_paint_rect_outside (c : Config) {x0 y0 width height px py : Nat} (hx : x0 + width + c.xOffset ≤ 65536)
    (hpx : px + c.xOffset ≤ 65535) (hpos : 0 < width) {vs : List Word} (hlen : vs.length = width * height)
    (fm : List (Nat × Word)) (hout : ¬ (x0 ≤ px ∧ px < x0 + width ∧ y0 ≤ py ∧ py < y0 + height)) :
    lookup (paint c fm (rowMajor x0 y0 width 0 vs)) (fmKey (px + c.xOffset) (py + c.yOffset)) =
      lookup fm (fmKey (px + c.xOffset) (py + c.yOffset)) := by
  refine lookup_paint_outside c hx hpx hpos vs 0 fm fun j hj hsame => hout ?_
  rw [hlen, Nat.mul_comm, ← Nat.div_lt_iff_lt_mul hpos] at hj
  rw [hsame.1, hsame.2, Nat.zero_add]
  exact ⟨Nat.le_add_right .., Nat.add_lt_add_left (Nat.mod_lt j hpos) _, Nat.le_add_right .., Nat.add_lt_add_left hj _⟩

/-! ### BLIT -/

/-- The j-th element of a buffer that can be read (R61). -/
theorem hostList_getElem? {s : State} {w : Width} {n a j : Nat} (hr : Readable s w n a) (hj : j < n) :
    (hostList s w n a)[j]? = memRead s.cfg.hostEndian s.mem w (a + j * w.bytes) := by
  obtain ⟨v, hv⟩ := Option.isSome_iff_exists.1 (hr j hj).2
  simp [hostList, hj, hv]

/-- The last coordinate of an extent that is not empty, as a number. -/
theorem zint_extent (a : Word) {n : Word} (hn : 0 < n.toNat) :
    zint a + zint n - 1 = ((a.toNat + n.toNat - 1 : Nat) : Int) := by
  simp only [zint]
  omega

/-- An accepted BLIT has a rectangle of at least one pixel, inside the panel (R151, R152). -/
theorem blit_accepted {c : Config} {x y w h : Word}
    (hacc : accepts c (zint x) (zint y) (zint x + zint w - 1) (zint y + zint h - 1) = true) :
    0 < w.toNat ∧ 0 < h.toNat ∧ x.toNat + w.toNat ≤ c.panelW ∧ y.toNat + h.toNat ≤ c.panelH := by
  have hbounds := (accepts_iff ..).1 hacc
  simp only [zint] at hbounds
  omega

/-- Settles O40: the window group puts the receiver at the rectangle's corner and the buffer fills it row after row, where each
key of the frame memory names one pixel. -/
theorem blitRoundTrip : Obligations.BlitRoundTrip := by
  intro x y w h src s hwf hcfg hs hq hmark hacc hr
  obtain ⟨t, ht, hl⟩ := blitResult x y w h src s true hwf hcfg hs hq hacc.symm fun _ => hr
  obtain ⟨hw, hh, hxw, -⟩ := blit_accepted hacc
  obtain ⟨-, -, -, -, hxo, -⟩ := (Config.ok_iff s.cfg).1 hcfg
  have hwidth : x.toNat + w.toNat - 1 - x.toNat + 1 = w.toNat := by omega
  have hheight : y.toNat + h.toNat - 1 - y.toNat + 1 = h.toNat := by omega
  have hlen := hostList_length s .w16 (w.toNat * h.toNat) src.toNat
  have hrx := hl.rx
  rw [zint_extent x hw, zint_extent y hh] at hacc hrx
  rw [Receiver.items_transaction, if_pos rfl] at hrx
  obtain ⟨hrxf, hfm⟩ := Receiver.items_window_pixels hcfg s.rx hacc (by rw [hwidth, hheight, hlen])
  rw [← hrx] at hrxf hfm
  rw [hwidth] at hfm
  have hx : x.toNat + w.toNat + s.cfg.xOffset ≤ 65536 := by omega
  refine ⟨t, ht, hrxf.trans hmark, fun dx dy hdx hdy => ?_, fun px py hpx hout => ?_⟩
  · rw [Receiver.pixelAt, hfm, lookup_paint_rect_inside s.cfg hx hlen _ hdx hdy,
      hostList_getElem? hr (row_index_lt hdx hdy), Nat.mul_comm 2]
    rfl
  · rw [Receiver.pixelAt, hfm, lookup_paint_rect_outside s.cfg hx hpx hw hlen _ hout, Receiver.pixelAt]

end Sys2Proof.Machine
end

section
/-! PROOFS. Requests over host memory that is partly absent or raced (spec 20 R64, R70, R76): one `SendData` from host memory,
element by element, whether it can all be read or not, and the four requests that make one. -/

namespace Sys2Proof.Machine

/-! ### Elements -/

theorem admits_congr {s t : State} (hm : t.mem = s.mem) (hw : t.hostWrites = s.hostWrites) (w : Width) (a : Nat) :
    Admits t w a ↔ Admits s w a := by
  rw [Admits, Admits, hm, hw]

/-- Of `n` elements from address `a`, the k-th is the first not there (R64). -/
structure FirstAbsent (s : State) (w : Width) (n a k : Nat) : Prop where
  lt : k < n
  before : ∀ j < k, Admits s w (a + j * w.bytes)
  absent : ¬ Admits s w (a + k * w.bytes)

theorem FirstAbsent.congr {s t : State} (hm : t.mem = s.mem) (hw : t.hostWrites = s.hostWrites) {w : Width} {n a k : Nat}
    (h : FirstAbsent s w n a k) : FirstAbsent t w n a k where
  lt := h.lt
  before j hj := (admits_congr hm hw w _).2 (h.before j hj)
  absent ha := h.absent ((admits_congr hm hw w _).1 ha)

theorem add_mul_bytes (w : Width) (a n j : Nat) : a + n * w.bytes + j * w.bytes = a + (n + j) * w.bytes := by
  rw [Nat.add_mul, Nat.add_assoc]

/-- Past `m` elements that are there, the first absent one is `m` places nearer. -/
theorem FirstAbsent.drop {s : State} {w : Width} {m n a k : Nat} (h : FirstAbsent s w (m + n) a k) (hm : m ≤ k) :
    FirstAbsent s w n (a + m * w.bytes) (k - m) where
  lt := by have := h.lt; omega
  before j hj := by
    rw [add_mul_bytes]
    exact h.before _ (by omega)
  absent := by
    rw [add_mul_bytes, Nat.add_sub_cancel' hm]
    exact h.absent

/-- A read of elements stops at the first that is not there (R64). -/
theorem hostElems_absent {s : State} {w : Width} {n a k : Nat} (c : Nat) (h : FirstAbsent s w n a k) :
    hostElems s w n a c = .error (.hostMemoryAbsent (a + k * w.bytes)) := by
  induction n generalizing a k c with
  | zero => exact absurd h.lt (Nat.not_lt_zero k)
  | succ n ih =>
    rw [hostElems]
    cases k with
    | zero =>
      have habs := h.absent
      simp only [Nat.zero_mul, Nat.add_zero] at habs ⊢
      obtain ⟨hadm, -⟩ | ⟨-, he⟩ := hostElem_cases s w a c
      · exact absurd hadm habs
      · rw [he]
    | succ k =>
      have hfirst : Admits s w a := by simpa using h.before 0 (by omega)
      have hrest : FirstAbsent s w n (a + w.bytes) k := by
        rw [Nat.add_comm n] at h
        simpa using h.drop (m := 1) (by omega)
      obtain ⟨-, v, hv⟩ | ⟨habs, -⟩ := hostElem_cases s w a c
      · rw [hv]
        dsimp only
        rw [ih (c + 1) hrest, Nat.add_mul, Nat.one_mul, Nat.add_assoc, Nat.add_comm w.bytes]
      · exact absurd hfirst habs

theorem raced_eq_false_iff (ws : List Host.Cell) (w : Width) (a : Nat) :
    raced ws w a = false ↔ ∀ c ∈ ws, c.1 < a ∨ a + w.bytes ≤ c.1 := by
  simp only [raced, List.any_eq_false, Bool.and_eq_true, decide_eq_true_eq, not_and, not_lt]
  exact forall₂_congr fun c _ => by omega

theorem Unraced.congr {s t : State} (hc : t.cfg = s.cfg) (hm : t.mem = s.mem) (hw : t.hostWrites = s.hostWrites)
    {w : Width} {n a : Nat} {vs : List Word} (h : Unraced t w n a vs) : Unraced s w n a vs where
  length := h.length
  values k hk hfree := by
    rw [← hc, ← hm]
    exact h.values k hk (by rwa [hw])

theorem Unraced.append {s : State} {w : Width} {n m a : Nat} {vs us : List Word} (h : Unraced s w n a vs)
    (k : Unraced s w m (a + n * w.bytes) us) : Unraced s w (n + m) a (vs ++ us) where
  length := by rw [List.length_append, h.length, k.length]
  values j hj hfree := by
    by_cases hjn : j < n
    · rw [List.getElem?_append_left (by rwa [h.length])]
      exact h.values j hjn hfree
    · have hplace : a + n * w.bytes + (j - n) * w.bytes = a + j * w.bytes := by
        rw [add_mul_bytes, Nat.add_sub_cancel' (by omega)]
      rw [List.getElem?_append_right (by rw [h.length]; omega), h.length, ← hplace]
      exact k.values (j - n) (by omega) (by rwa [hplace])

/-- Elements that are there are read, those under no host write as memory has them. -/
theorem hostElems_unraced {s : State} {w : Width} {n a : Nat} (c : Nat) (h : ∀ j < n, Admits s w (a + j * w.bytes)) :
    ∃ vs, hostElems s w n a c = .ok vs ∧ Unraced s w n a vs := by
  obtain ⟨vs, hvs, hlen, hval⟩ := hostElems_admits c h
  exact ⟨vs, hvs, hlen, fun k hk hfree => hval k hk ((raced_eq_false_iff ..).2 hfree)⟩

/-! ### Chunks from `PTR` (R62, R128) -/

/-- A run that stops with a fault before the steps after it. -/
def Sticks (as : List Atom) (s : State) (f : Fault) : Prop := ∀ bs, run (as ++ bs) s = .fault f

theorem Sticks.append {as : List Atom} {s : State} {f : Fault} (h : Sticks as s f) (bs : List Atom) :
    Sticks (as ++ bs) s f := by
  intro cs
  rw [List.append_assoc, h]

theorem GoesTo.sticks {as bs : List Atom} {s t : State} {f : Fault} (h : GoesTo as s t) (k : Sticks bs t f) :
    Sticks (as ++ bs) s f := by
  intro cs
  rw [List.append_assoc, h, k]

theorem Sticks.one {a : Atom} {s : State} {f : Fault} (h : atom a s = .stuck f) : Sticks [a] s f := by
  intro bs
  simp [run, h]

theorem settle_stuck {c : Chunk} {s : State} {f : Fault} (h : chunkValues c s = .error f) : settle c s = .stuck f := by
  rw [settle, h]

/-- A chunk moves `PTR` past its elements, whatever their values. -/
theorem settled_ptr (n : Nat) (w : Width) (p : Path) (vs : List Word) (s : State) :
    (settled ⟨.host, n, w, p⟩ vs s).xp.ptr = s.xp.ptr + BitVec.ofNat 32 (n * w.bytes) := by
  rw [settled, afterChunk_xp_host]
  dsimp only [emit]
  split <;> rfl

/-- Where a stream begins, the transport registers do not matter. -/
theorem Streamed.of_setXp {es : List Elem} {x : Transport} {s t : State} (h : Streamed es (s.setXp x) t) :
    Streamed es s t :=
  { h with keeps := { h.keeps with } }

/-- The state in which a chunk of `SendData` settles. -/
def chunkIssued (n : Nat) (s : State) : State := issued n s.ww (s.setXp { s.xp with chunkLen := BitVec.ofNat 16 n })

theorem chunkIssued_keeps (n : Nat) (s : State) : Keeps s (chunkIssued n s) :=
  { (issued_fields n s.ww (s.setXp { s.xp with chunkLen := BitVec.ofNat 16 n })).1 with }

/-- A host chunk reads from the address in `PTR`. -/
theorem chunkIssued_values {s : State} {a : Nat} (hptr : s.xp.ptr = BitVec.ofNat 32 a) (ha : a < 2 ^ 32) (n : Nat)
    (p : Path) :
    chunkValues ⟨.host, n, s.ww, p⟩ (chunkIssued n s) = hostElems (chunkIssued n s) s.ww n a (chunkIssued n s).fresh := by
  have hxp : (chunkIssued n s).xp.ptr = BitVec.ofNat 32 a :=
    (congrArg Transport.ptr (issued_fields n s.ww _).2.2.1).trans hptr
  rw [chunkValues, hxp, BitVec.toNat_ofNat, Nat.mod_eq_of_lt ha]

/-- A chunk whose elements are all there streams them, those under no host write as memory has them. -/
theorem hostChunk_goes {n a : Nat} {s : State} (hptr : s.xp.ptr = BitVec.ofNat 32 a) (ha : a < 2 ^ 32)
    (hadm : ∀ j < n, Admits s s.ww (a + j * s.ww.bytes)) (hasync : s.asyncInflight = false) (hq : Quiet s) :
    ∃ t vs, atom (.chunk .host n) s = .go t ∧ Streamed (vs.map (mkElem s.dcOut s.ww)) s t ∧
      t.xp.ptr = BitVec.ofNat 32 (a + n * s.ww.bytes) ∧ Unraced s s.ww n a vs := by
  have hk := chunkIssued_keeps n s
  obtain ⟨vs, hvs, hun⟩ := hostElems_unraced (s := chunkIssued n s) (chunkIssued n s).fresh fun j hj =>
    (admits_congr hk.mem hk.hostWrites s.ww _).2 (hadm j hj)
  obtain ⟨t, ht, hst, hset⟩ := issueChunk_quiet (src := .host) (len := n) (w := s.ww)
    (s := s.setXp { s.xp with chunkLen := BitVec.ofNat 16 n }) ((chunkIssued_values hptr ha n _).trans hvs) hq hasync
  refine ⟨t, vs, ht, hst.of_setXp, ?_, hun.congr hk.cfg hk.mem hk.hostWrites⟩
  rw [hset, settled_ptr, (issued_fields n s.ww _).2.2.1, BitVec.ofNat_add, ← hptr]
  rfl

/-- A chunk with an absent element is stuck at the first one, whatever the bus reports. -/
theorem hostChunk_sticks {n a k : Nat} {s : State} (hptr : s.xp.ptr = BitVec.ofNat 32 a) (ha : a < 2 ^ 32)
    (h : FirstAbsent s s.ww n a k) : atom (.chunk .host n) s = .stuck (.hostMemoryAbsent (a + k * s.ww.bytes)) :=
  have hk := chunkIssued_keeps n s
  settle_stuck ((chunkIssued_values hptr ha n _).trans (hostElems_absent _ (h.congr hk.mem hk.hostWrites)))

/-- Where chunks of at least one element end within 32-bit addresses, the first starts there. -/
theorem chunks_start_lt {n m a : Nat} {w : Width} (hn : 0 < n) (hb : a + (n + m) * w.bytes ≤ 2 ^ 32) : a < 2 ^ 32 := by
  have hbytes : 0 < w.bytes := by cases w <;> decide
  have := Nat.mul_pos (Nat.add_pos_left hn m) hbytes
  omega

/-- Chunks whose elements are all there stream them, those under no host write as memory has them. -/
theorem hostChunks_unraced {ls : List Nat} {s : State} {a : Nat} (hptr : s.xp.ptr = BitVec.ofNat 32 a)
    (hadm : ∀ j < ls.sum, Admits s s.ww (a + j * s.ww.bytes)) (hb : a + ls.sum * s.ww.bytes ≤ 2 ^ 32)
    (hpos : ∀ n ∈ ls, 0 < n) (hasync : s.asyncInflight = false) (hq : Quiet s) :
    ∃ t vs, GoesTo (ls.map (Atom.chunk .host)) s t ∧ Streamed (vs.map (mkElem s.dcOut s.ww)) s t ∧
      Unraced s s.ww ls.sum a vs := by
  induction ls generalizing s a with
  | nil => exact ⟨s, [], GoesTo.nil s, Streamed.nil hasync hq, rfl, fun k hk => absurd hk (Nat.not_lt_zero k)⟩
  | cons n ls ih =>
    rw [List.sum_cons] at hadm hb ⊢
    obtain ⟨hn, hls⟩ := List.forall_mem_cons.1 hpos
    obtain ⟨t, vs, ht, hst, htp, hun⟩ := hostChunk_goes (n := n) hptr (chunks_start_lt hn hb)
      (fun j hj => hadm j (by omega)) hasync hq
    have hk := hst.keeps
    obtain ⟨u, us, hu, hsu, hus⟩ := ih (s := t) htp
      (fun j hj => by
        rw [hk.ww, add_mul_bytes, admits_congr hk.mem hk.hostWrites]
        exact hadm _ (by omega))
      (by rwa [hk.ww, add_mul_bytes]) hls hst.async hst.quiet
    rw [hst.dc, hk.ww] at hsu
    rw [hk.ww] at hus
    refine ⟨u, vs ++ us, GoesTo.cons ht hu, ?_, hun.append (hus.congr hk.cfg hk.mem hk.hostWrites)⟩
    rw [List.map_append]
    exact hst.trans hsu

/-- Chunks with an absent element stream the chunks before its own, and stick there. -/
theorem hostChunks_sticks {ls : List Nat} {s : State} {a k : Nat} (hptr : s.xp.ptr = BitVec.ofNat 32 a)
    (h : FirstAbsent s s.ww ls.sum a k) (hb : a + ls.sum * s.ww.bytes ≤ 2 ^ 32) (hpos : ∀ n ∈ ls, 0 < n)
    (hasync : s.asyncInflight = false) (hq : Quiet s) :
    Sticks (ls.map (Atom.chunk .host)) s (.hostMemoryAbsent (a + k * s.ww.bytes)) := by
  induction ls generalizing s a k with
  | nil => exact absurd h.lt (Nat.not_lt_zero k)
  | cons n ls ih =>
    rw [List.sum_cons] at h hb
    obtain ⟨hn, hls⟩ := List.forall_mem_cons.1 hpos
    have ha := chunks_start_lt hn hb
    rw [List.map_cons, ← List.singleton_append]
    by_cases hkn : k < n
    · exact (Sticks.one (hostChunk_sticks hptr ha ⟨hkn, h.before, h.absent⟩)).append _
    · obtain ⟨t, vs, ht, hst, htp, -⟩ := hostChunk_goes (n := n) hptr ha (fun j hj => h.before j (by omega)) hasync hq
      have hk := hst.keeps
      have hrest : FirstAbsent t t.ww ls.sum (a + n * s.ww.bytes) (k - n) := by
        rw [hk.ww]
        exact (h.drop (by omega)).congr hk.mem hk.hostWrites
      have hstick := ih htp hrest (by rwa [hk.ww, add_mul_bytes]) hls hst.async hst.quiet
      rw [hk.ww, add_mul_bytes, Nat.add_sub_cancel' (by omega)] at hstick
      exact (GoesTo.one ht).sticks hstick

/-! ### `SendData` from host memory, in its width (R128, R129) -/

/-- The state after `SendData` of `n` elements from a host address has begun. -/
def dataBegun (n : Nat) (src : Long) (s : State) : State :=
  ((openTxn s).setDc .data).setXp { (openTxn s).xp with remain := BitVec.ofNat 32 n, ptr := src }

theorem dataBegun_keeps (n : Nat) (src : Long) (s : State) : Keeps s (dataBegun n src s) :=
  { openTxn_keeps s with }

theorem dataBegun_async (n : Nat) (src : Long) (s : State) : (dataBegun n src s).asyncInflight = s.asyncInflight :=
  openTxn_async s

theorem dataBegun_quiet (n : Nat) (src : Long) {s : State} (hq : Quiet s) : Quiet (dataBegun n src s) :=
  fun r hr => hq r (openTxn_reports s ▸ hr)

theorem sendData_host (n : Nat) (src : Long) (hn : n ≠ 0) :
    sendData .host n (some src) =
      [.startData n (some src)] ++ ((splitBy maxChunk n).map (Atom.chunk .host) ++ [.endData]) := if_neg hn

theorem dataBegun_goes (n : Nat) (src : Long) (s : State) : GoesTo [.startData n (some src)] s (dataBegun n src s) :=
  GoesTo.one rfl

theorem splitBy_maxChunk_pos (n : Nat) : ∀ k ∈ splitBy maxChunk n, 0 < k :=
  fun _ hk => (splitBy_mem (by decide) hk).1

/-- `SendData` from host memory that is all there: every element, those under no host write as memory has them. -/
theorem sendHost_unraced {w : Width} {n : Nat} {src : Long} {s : State} (hww : s.ww = w)
    (hadm : ∀ j < n, Admits s w (src.toNat + j * w.bytes)) (hb : src.toNat + n * w.bytes ≤ 2 ^ 32)
    (hasync : s.asyncInflight = false) (hq : Quiet s) :
    ∃ t vs, GoesTo (sendData .host n (some src)) s t ∧ Sent (vs.map (mkElem .data w)) false false s t ∧
      Unraced s w n src.toNat vs := by
  subst hww
  by_cases hn : n = 0
  · subst hn
    exact ⟨s, [], GoesTo.nil s, Sent.refl hasync hq, rfl, fun k hk => absurd hk (Nat.not_lt_zero k)⟩
  · have hk := dataBegun_keeps n src s
    obtain ⟨t, vs, ht, hst, hun⟩ := hostChunks_unraced (ls := splitBy maxChunk n) (s := dataBegun n src s) (a := src.toNat)
      (BitVec.ofNat_toNat 32 src).symm
      (by
        rw [splitBy_sum, hk.ww]
        exact fun j hj => (admits_congr hk.mem hk.hostWrites _ _).2 (hadm j hj))
      (by rwa [splitBy_sum, hk.ww]) (splitBy_maxChunk_pos n) ((dataBegun_async n src s).trans hasync)
      (dataBegun_quiet n src hq)
    rw [splitBy_sum, hk.ww] at hun
    rw [hk.ww] at hst
    have hne : vs.map (mkElem .data s.ww) ≠ [] := by
      rw [Ne, List.map_eq_nil_iff, ← List.length_eq_zero_iff, hun.length]
      exact hn
    have hsent : Sent (vs.map (mkElem .data s.ww)) false false s t :=
      sent_of_streamed hne (List.forall_mem_map.2 fun v _ => mkElem_dc .data s.ww v) hst.of_setXp
    refine ⟨(t.setXp (Config.freeTransport t.fresh)).setFresh (t.fresh + 1), vs, ?_, ?_,
      hun.congr hk.cfg hk.mem hk.hostWrites⟩
    · rw [sendData_host n src hn]
      exact (dataBegun_goes n src s).append (ht.append (GoesTo.one rfl))
    · exact { hsent with keeps := { hsent.keeps with } }

/-- `SendData` from host memory sticks at the first absent element. -/
theorem sendHost_sticks {w : Width} {n k : Nat} {src : Long} {s : State} (hww : s.ww = w)
    (h : FirstAbsent s w n src.toNat k) (hb : src.toNat + n * w.bytes ≤ 2 ^ 32) (hasync : s.asyncInflight = false)
    (hq : Quiet s) : Sticks (sendData .host n (some src)) s (.hostMemoryAbsent (src.toNat + k * w.bytes)) := by
  subst hww
  have hk := dataBegun_keeps n src s
  have hchunks := hostChunks_sticks (ls := splitBy maxChunk n) (s := dataBegun n src s) (a := src.toNat) (k := k)
    (BitVec.ofNat_toNat 32 src).symm
    (by
      rw [splitBy_sum, hk.ww]
      exact h.congr hk.mem hk.hostWrites)
    (by rwa [splitBy_sum, hk.ww]) (splitBy_maxChunk_pos n) ((dataBegun_async n src s).trans hasync)
    (dataBegun_quiet n src hq)
  rw [hk.ww] at hchunks
  rw [sendData_host n src (Nat.ne_zero_of_lt h.lt)]
  exact (dataBegun_goes n src s).sticks (hchunks.append _)

/-- The primitive `SendData` at its width, its memory all there. -/
theorem data_unraced {w : Width} {n : Nat} {src : Long} {s : State} (hww : s.ww = .w8)
    (hadm : ∀ j < n, Admits s w (src.toNat + j * w.bytes)) (hb : src.toNat + n * w.bytes ≤ 2 ^ 32)
    (hasync : s.asyncInflight = false) (hq : Quiet s) :
    ∃ t vs, GoesTo (expand s.cfg (.data w n src)) s t ∧ Sent (vs.map (mkElem .data w)) false false s t ∧
      Unraced s w n src.toNat vs := by
  cases w with
  | w8 => exact sendHost_unraced hww hadm hb hasync hq
  | w16 =>
    obtain ⟨t, vs, ht, hst, hun⟩ := sendHost_unraced (w := .w16) (s := s.setWw .w16) rfl hadm hb hasync hq
    obtain ⟨u, hu, hsu⟩ := with16_goes hww ⟨t, ht, hst⟩
    exact ⟨u, vs, hu, hsu, hun.congr (s := s) (t := s.setWw .w16) rfl rfl rfl⟩

/-- The primitive `SendData` at its width, an element absent. -/
theorem data_sticks {w : Width} {n k : Nat} {src : Long} {s : State} (hww : s.ww = .w8)
    (h : FirstAbsent s w n src.toNat k) (hb : src.toNat + n * w.bytes ≤ 2 ^ 32) (hasync : s.asyncInflight = false)
    (hq : Quiet s) :
    Sticks (expand s.cfg (.data w n src)) s (.hostMemoryAbsent (src.toNat + k * w.bytes)) := by
  cases w with
  | w8 => exact sendHost_sticks hww h hb hasync hq
  | w16 =>
    have hbody := sendHost_sticks (w := .w16) (s := s.setWw .w16) rfl (h.congr (s := s) (t := s.setWw .w16) rfl rfl) hb hasync hq
    exact (GoesTo.one (a := .width .w16) (t := s.setWw .w16) rfl).sticks (hbody.append [.width .w8])

/-! ### The four requests that read host memory (R133 to R135, R186) -/

/-- A request whose rule sends `es`, with an accepted window or none, and then makes one `SendData` from host memory. -/
def ReadsAfter (i : Instr) (s : State) (es : List Elem) (acc : Bool) (w : Width) (n : Nat) (src : Long) : Prop :=
  ∃ (head : List Atom) (u : State), stepsOf i s.cfg = head ++ expand s.cfg (.data w n src) ∧
    GoesTo head (begin s) u ∧ Sent es acc false (begin s) u

theorem begin_keeps (s : State) : Keeps s (begin s) := ⟨rfl, rfl, rfl, rfl, rfl, rfl, rfl, rfl, rfl⟩

/-- Steps that send all their elements end their request (R262): `request_leaves` of steps that need not find every element
readable. -/
theorem Sent.leaves {as : List Atom} {es : List Elem} {acc rej : Bool} {s u : State} (hs : Ready s)
    (hgo : GoesTo as (begin s) u) (h : Sent es acc rej (begin s) u) :
    ∃ t, run as (begin s) = .next t ∧ Leaves s t es acc rej := by
  have hcs : (begin s).csOut = false := hs.cs
  have hk := h.keeps
  obtain ⟨hwire, hrx, hclosed, hc⟩ := complete_fields (endRequest u)
  have hlevel : (endRequest u).csOut = !es.isEmpty := by
    show u.csOut = _
    rw [h.cs, hcs, Bool.false_or]
  refine ⟨_, run_of_goesTo hgo, ?_⟩
  exact
    { wire := by
        rw [hwire, hlevel]
        show u.wire ++ _ = _
        rw [h.wire, hcs, transaction_eq, List.append_assoc]
        cases es <;> rfl
      rx := by
        rw [hrx]
        show u.rx = _
        rw [h.rx, hcs, transaction_eq, Receiver.items_append]
        cases es <;> rfl
      outcome := by
        rw [hc.outcome]
        show outcomeOf u.acc u.rej = _
        rw [h.acc, h.rej]
        rfl
      acc := hc.acc.trans h.acc
      rej := hc.rej.trans h.rej
      phase := hc.phase
      ww := hc.ww.trans (hk.ww.trans hs.ww)
      cs := hclosed
      async := hc.async.trans h.async
      dc := hc.dc.trans h.dc
      cfg := hc.cfg.trans hk.cfg
      req := hc.req.trans hk.req
      port := hc.port.trans hk.port
      resetIn := hc.resetIn.trans hk.resetIn
      mem := by
        rw [hc.mem]
        show u.mem.writes u.hostWrites = _
        rw [hk.mem, hk.hostWrites]
        rfl
      hostWrites := hc.hostWrites
      xfers := hc.xfers ▸ h.xfers
      quiet := fun _ r hr => h.quiet r (hc.reports ▸ hr) }

section

variable {i : Instr} {s : State} {es : List Elem} {acc : Bool} {w : Width} {n : Nat} {src : Long}

/-- Memory all there: the request ends with all its elements. -/
theorem ReadsAfter.leaves (h : ReadsAfter i s es acc w n src) (hs : Ready s)
    (hadm : ∀ j < n, Admits s w (src.toNat + j * w.bytes)) (hb : src.toNat + n * w.bytes ≤ 2 ^ 32) :
    ∃ t vs, exec i s = .next t ∧ Leaves s t (es ++ vs.map (mkElem .data w)) acc false ∧ Unraced s w n src.toNat vs := by
  obtain ⟨head, u, hsteps, hhead, hsent⟩ := h
  have hk := (begin_keeps s).trans hsent.keeps
  obtain ⟨v, vs, hv, hsv, hun⟩ := data_unraced (w := w) (n := n) (src := src) (hk.ww.trans hs.ww)
    (fun j hj => (admits_congr hk.mem hk.hostWrites w _).2 (hadm j hj)) hb hsent.async hsent.quiet
  rw [hk.cfg] at hv
  have hall := hsent.trans hsv
  rw [Bool.or_false, Bool.false_or] at hall
  obtain ⟨t, ht, hl⟩ := Sent.leaves hs (hhead.append hv) hall
  refine ⟨t, vs, ?_, hl, hun.congr hk.cfg hk.mem hk.hostWrites⟩
  rw [exec_eq_request, ← ht, ← hsteps]
  rfl

/-- An element absent: the request makes no step. -/
theorem ReadsAfter.sticks (h : ReadsAfter i s es acc w n src) (hs : Ready s) {k : Nat}
    (habs : FirstAbsent s w n src.toNat k) (hb : src.toNat + n * w.bytes ≤ 2 ^ 32) :
    exec i s = .fault (.hostMemoryAbsent (src.toNat + k * w.bytes)) := by
  obtain ⟨head, u, hsteps, hhead, hsent⟩ := h
  have hk := (begin_keeps s).trans hsent.keeps
  have hdata := data_sticks (w := w) (n := n) (src := src) (hk.ww.trans hs.ww) (habs.congr hk.mem hk.hostWrites) hb
    hsent.async hsent.quiet
  rw [hk.cfg] at hdata
  have hall := hhead.sticks hdata []
  rw [List.append_nil, ← hsteps] at hall
  rw [exec_eq_request]
  exact hall

end

/-- DATA.8 and DATA.16 send nothing first (R134, R135). -/
theorem data8_readsAfter (n src : Long) {s : State} (hs : Ready s) (hq : Quiet s) :
    ReadsAfter (.data8 n src) s [] false .w8 n.toNat src :=
  ⟨[], begin s, List.append_nil _, GoesTo.nil _, Sent.refl hs.async hq⟩

theorem data16_readsAfter (n src : Long) {s : State} (hs : Ready s) (hq : Quiet s) :
    ReadsAfter (.data16 n src) s [] false .w16 n.toNat src :=
  ⟨[], begin s, List.append_nil _, GoesTo.nil _, Sent.refl hs.async hq⟩

/-- CMD sends its command byte first (R133). -/
theorem cmd_readsAfter (op : Byte) (n : Word) (src : Long) {s : State} (hs : Ready s) (hq : Quiet s) :
    ReadsAfter (.cmd op n src) s [cmdElem op] false .w8 n.toNat src := by
  obtain ⟨u, hu, hsu, -⟩ := command_goes op (s := begin s) hs.async hq
  refine ⟨[.command op], u, ?_, hu, hsu⟩
  rw [stepsOf, planOf, planCmd, List.flatMap_cons, List.flatMap_singleton]
  rfl

/-- An accepted BLIT sends its window group first (R186). -/
theorem blit_readsAfter {x y w h : Word} (src : Long) {s : State} (hs : Ready s) (hq : Quiet s)
    (hacc : accepts s.cfg (zint x) (zint y) (zint x + zint w - 1) (zint y + zint h - 1) = true) :
    ReadsAfter (.blit x y w h src) s
      (windowElems s.cfg (zint x) (zint y) (zint x + zint w - 1) (zint y + zint h - 1)) true .w16
      (w.toNat * h.toNat) src := by
  have hdecision : atom (.setWindow (zint x) (zint y) (zint x + zint w - 1) (zint y + zint h - 1)) (begin s) =
      .go ((begin s).setAcc true) := congrArg Progress.go (if_pos hacc)
  have hflag : Sent [] true false (begin s) ((begin s).setAcc true) :=
    Sent.none ⟨rfl, rfl, rfl, rfl, rfl, rfl, rfl, rfl, rfl⟩ rfl rfl rfl rfl hs.async rfl rfl rfl hq
  obtain ⟨u, hu, hsu⟩ := windowGroup_goes (zint x) (zint y) (zint x + zint w - 1) (zint y + zint h - 1)
    (s := (begin s).setAcc true) hs.ww hs.async hq
  refine ⟨_, u, ?_, GoesTo.cons hdecision hu, hflag.trans hsu⟩
  rw [stepsOf, planOf, planBlit, List.flatMap_singleton, expand, guarded, if_pos hacc, blit_count]
  rfl

theorem firstAbsent_bytes {s : State} {n a k : Nat} (hk : k < n) (hbefore : ∀ j < k, Admits s .w8 (a + j))
    (habs : ¬ Admits s .w8 (a + k)) : FirstAbsent s .w8 n a k :=
  ⟨hk, fun j hj => by simpa [Width.bytes] using hbefore j hj, by simpa [Width.bytes] using habs⟩

theorem firstAbsent_halfwords {s : State} {n a k : Nat} (hk : k < n) (hbefore : ∀ j < k, Admits s .w16 (a + 2 * j))
    (habs : ¬ Admits s .w16 (a + 2 * k)) : FirstAbsent s .w16 n a k :=
  ⟨hk, fun j hj => by simpa [Width.bytes, Nat.mul_comm 2] using hbefore j hj,
    by simpa [Width.bytes, Nat.mul_comm 2] using habs⟩

/-- Settles O19: each request reads after its head, in one `SendData` that sticks at the first absent element. -/
theorem absentMemorySticks : Obligations.AbsentMemorySticks := by
  intro n src s k _ hs hq hk
  refine ⟨fun hwf hbefore habs => ?_, fun hwf hbefore habs => ?_, fun op m hm hwf hbefore habs => ?_,
    fun x y w h hwh hwf hacc hbefore habs => ?_⟩
  · have h := (data8_readsAfter n src hs hq).sticks hs (firstAbsent_bytes hk hbefore habs)
      (readRange_le_of_wellFormed hwf rfl)
    simpa [Width.bytes] using h
  · have h := (data16_readsAfter n src hs hq).sticks hs (firstAbsent_halfwords hk hbefore habs)
      (readRange_le_of_wellFormed hwf rfl)
    simpa [Width.bytes, Nat.mul_comm 2] using h
  · have h := (cmd_readsAfter op m src hs hq).sticks hs (firstAbsent_bytes (hm ▸ hk) hbefore habs)
      (readRange_le_of_wellFormed hwf rfl)
    simpa [Width.bytes] using h
  · have h := (blit_readsAfter src hs hq hacc).sticks hs (firstAbsent_halfwords (hwh ▸ hk) hbefore habs)
      (readRange_le_of_wellFormed hwf rfl)
    simpa [Width.bytes, Nat.mul_comm 2] using h

/-- Settles O20: each request reads after its head, in one `SendData` whose elements are memory's where no write overlaps. -/
theorem raceOpensOnlyRacedElements : Obligations.RaceOpensOnlyRacedElements := by
  rintro w n a src s - hs hq rfl hadm
  refine ⟨fun m i hi hm hwf => ?_, fun op m hw hm hwf => ?_, fun x y wd h hw hn hwf hacc => ?_⟩
  · subst hm
    cases w with
    | w8 =>
      subst hi
      exact (data8_readsAfter m src hs hq).leaves hs hadm (readRange_le_of_wellFormed hwf rfl)
    | w16 =>
      subst hi
      exact (data16_readsAfter m src hs hq).leaves hs hadm (readRange_le_of_wellFormed hwf rfl)
  · subst hw hm
    exact (cmd_readsAfter op m src hs hq).leaves hs hadm (readRange_le_of_wellFormed hwf rfl)
  · subst hw hn
    exact (blit_readsAfter src hs hq hacc).leaves hs hadm (readRange_le_of_wellFormed hwf rfl)

end Sys2Proof.Machine
end

section
/-! PROOFS. The encoding (spec 30): the decoder and the encoder undo each other, the decoder against the opcode table and
against the five checks of R97, acceptance, and the requests of one sub-primitive that read no memory. -/

namespace Sys2Proof

/-! ### Descriptors by their words (R91, R92, R95) -/

/-- A descriptor is known once its words are. -/
theorem ofWords_eq {d : Desc} {w0 w1 w2 w3 w4 w5 w6 w7 : Word} (h0 : d.word 0 = w0) (h1 : d.word 1 = w1)
    (h2 : d.word 2 = w2) (h3 : d.word 3 = w3) (h4 : d.word 4 = w4) (h5 : d.word 5 = w5) (h6 : d.word 6 = w6)
    (h7 : d.word 7 = w7) : Desc.ofWords w0 w1 w2 w3 w4 w5 w6 w7 = d := by
  rw [← h0, ← h1, ← h2, ← h3, ← h4, ← h5, ← h6, ← h7, ofWords_words]

/-- The first word from its two bytes. -/
theorem word_zero_eq {d : Desc} {sub : Byte} {op : Nat} (hsub : d.sub = sub) (hop : d.op.toNat = op) :
    d.word 0 = sub ++ BitVec.ofNat 8 op := by
  rw [← hsub, ← (BitVec.toNat_eq_nat.1 hop).2, sub_append_op]

theorem word_one_eq (d : Desc) : d.word 1 = lo d.count := (lo_append _ _).symm

theorem word_two_eq (d : Desc) : d.word 2 = hi d.count := (hi_append _ _).symm

theorem word_five_eq (d : Desc) : d.word 5 = lo d.src := (lo_append _ _).symm

theorem word_six_eq (d : Desc) : d.word 6 = hi d.src := (hi_append _ _).symm

theorem lo_add_hi (v : Long) : (lo v).toNat + 65536 * (hi v).toNat = v.toNat := by
  simp only [lo, hi, BitVec.extractLsb'_toNat]
  omega

/-! ### The reserved fields (R96) -/

theorem zeroWords_iff (d : Desc) (ks : List Nat) : d.zeroWords ks = true ↔ ∀ k ∈ ks, d.word k = 0 := by
  simp [Desc.zeroWords]

theorem plain_eq_ok_iff {d : Desc} {ks : List Nat} {i j : Instr} :
    d.plain ks i = .ok j ↔ d.sub = 0 ∧ (∀ k ∈ ks, d.word k = 0) ∧ i = j := by
  simp [Desc.plain, ite_eq_iff, zeroWords_iff, and_assoc]

theorem withSub_eq_ok_iff {d : Desc} {ks : List Nat} {i j : Instr} :
    d.withSub ks i = .ok j ↔ (∀ k ∈ ks, d.word k = 0) ∧ i = j := by
  simp [Desc.withSub, ite_eq_iff, zeroWords_iff]

theorem plain_error_iff {d : Desc} {ks : List Nat} {i : Instr} :
    (∃ e, d.plain ks i = .error e) ↔ d.sub ≠ 0 ∨ ∃ k ∈ ks, d.word k ≠ 0 := by
  simp [Desc.plain, ite_eq_iff, zeroWords_iff, imp_iff_not_or]

theorem withSub_error_iff {d : Desc} {ks : List Nat} {i : Instr} :
    (∃ e, d.withSub ks i = .error e) ↔ ∃ k ∈ ks, d.word k ≠ 0 := by
  simp [Desc.withSub, ite_eq_iff, zeroWords_iff]

/-! ### Decoding and encoding (R93, R94, R97) -/

/-- The fields of a request's descriptor are the request, well formed or not. -/
theorem decodeFields_encode (i : Instr) : decodeFields (encode i) = .ok i := by
  cases i <;> simp [encode, decodeFields, Desc.plain, Desc.withSub, Desc.zeroWords, Desc.src, Desc.count]

/-- The fields leave no bit of the descriptor out: a row's operands, its SUB and its reserved words are all of it. The cases
are the arms of `decodeFields`, rows of one format together. -/
theorem encode_of_decodeFields {d : Desc} {i : Instr} (h : decodeFields d = .ok i) : encode i = d := by
  unfold decodeFields at h
  split at h
  case h_1 hop =>
    obtain ⟨hsub, hz, rfl⟩ := plain_eq_ok_iff.1 h
    exact ofWords_eq (word_zero_eq hsub hop) rfl rfl rfl rfl (hz 5 (by decide)) (hz 6 (by decide)) (hz 7 (by decide))
  case h_2 hop =>
    obtain ⟨hsub, hz, rfl⟩ := plain_eq_ok_iff.1 h
    exact ofWords_eq (word_zero_eq hsub hop) rfl rfl (hz 3 (by decide)) (hz 4 (by decide)) (hz 5 (by decide))
      (hz 6 (by decide)) rfl
  case h_3 hop | h_5 hop | h_6 hop =>
    obtain ⟨hsub, hz, rfl⟩ := plain_eq_ok_iff.1 h
    exact ofWords_eq (word_zero_eq hsub hop) rfl rfl rfl rfl (hz 5 (by decide)) (hz 6 (by decide)) rfl
  case h_4 hop =>
    obtain ⟨hsub, hz, rfl⟩ := plain_eq_ok_iff.1 h
    exact ofWords_eq (word_zero_eq hsub hop) rfl rfl rfl rfl (word_five_eq d) (word_six_eq d) (hz 7 (by decide))
  case h_7 hop | h_8 hop =>
    obtain ⟨hsub, hz, rfl⟩ := plain_eq_ok_iff.1 h
    exact ofWords_eq (word_zero_eq hsub hop) rfl rfl rfl (hz 4 (by decide)) (hz 5 (by decide)) (hz 6 (by decide)) rfl
  case h_9 hop | h_10 hop =>
    obtain ⟨hsub, -, rfl⟩ := plain_eq_ok_iff.1 h
    exact ofWords_eq (word_zero_eq hsub hop) rfl rfl rfl rfl rfl rfl rfl
  case h_11 hop =>
    obtain ⟨hz, rfl⟩ := withSub_eq_ok_iff.1 h
    exact ofWords_eq (word_zero_eq rfl hop) rfl (hz 2 (by decide)) (hz 3 (by decide)) (hz 4 (by decide)) (word_five_eq d)
      (word_six_eq d) (hz 7 (by decide))
  case h_12 hop =>
    split at h
    case h_1 hsub | h_2 hsub =>
      obtain ⟨hz, rfl⟩ := withSub_eq_ok_iff.1 h
      exact ofWords_eq (word_zero_eq (BitVec.toNat_eq_nat.1 hsub).2 hop) (word_one_eq d) (word_two_eq d)
        (hz 3 (by decide)) (hz 4 (by decide)) (word_five_eq d) (word_six_eq d) (hz 7 (by decide))
    case h_3 => cases h
  case h_13 => cases h

theorem decodeFields_eq_ok_iff {d : Desc} {i : Instr} : decodeFields d = .ok i ↔ encode i = d :=
  ⟨encode_of_decodeFields, fun h => h ▸ decodeFields_encode i⟩

/-- Checks (d) and (e) of R97 are the request's being well formed. -/
theorem checkOperands_eq_ok_iff {i j : Instr} : checkOperands i = .ok j ↔ i = j ∧ i.wellFormed = true := by
  unfold checkOperands Instr.wellFormed
  cases i.rangeOk <;> cases i.alignedOk <;> simp

theorem checkOperands_error_iff (i : Instr) : (∃ e, checkOperands i = .error e) ↔ i.wellFormed = false := by
  unfold checkOperands Instr.wellFormed
  cases i.rangeOk <;> cases i.alignedOk <;> simp

theorem decode_encode (i : Instr) : decode (encode i) = checkOperands i := by
  rw [decode, decodeFields_encode]

theorem decode_eq_ok_iff {d : Desc} {i : Instr} : decode d = .ok i ↔ encode i = d ∧ i.wellFormed = true := by
  rw [← decodeFields_eq_ok_iff, decode]
  cases hd : decodeFields d with
  | error e => simp
  | ok j =>
    simp only [checkOperands_eq_ok_iff, Except.ok.injEq]
    exact and_congr_right fun h => by rw [h]

/-- Settles O1: the fields of a request's descriptor are the request, and it passes checks (d) and (e). -/
theorem decodeOfEncode : Obligations.DecodeOfEncode := fun _ hwf => decode_eq_ok_iff.2 ⟨rfl, hwf⟩

/-- Settles O2: what decodes has passed the reserved-field checks, so its words are the encoder's. -/
theorem encodeOfDecode : Obligations.EncodeOfDecode := fun _ _ h => decode_eq_ok_iff.1 h

/-- Settles O4: each way back is the round trip. -/
theorem workedEncodings : Obligations.WorkedEncodings :=
  ⟨rfl, decodeOfEncode (.line 0 0 4 2 0xF800) rfl, rfl, decodeOfEncode (.data16 100000 0x20000000) rfl⟩

/-! ### The opcode table (R93, R96) -/

theorem selects_encode (i : Instr) : ∃ r ∈ opcodeTable, r.mnemonic = i.mnemonic ∧ r.selects (encode i) = true := by
  cases i with
  | window x0 y0 x1 y1 => exact Laws.TableRow.window x0 y0 x1 y1
  | pixel x y color => exact Laws.TableRow.pixel x y color
  | fillrect x0 y0 x1 y1 color => exact Laws.TableRow.fillrect x0 y0 x1 y1 color
  | blit x y w h src => exact Laws.TableRow.blit x y w h src
  | line x0 y0 x1 y1 color => exact Laws.TableRow.line x0 y0 x1 y1 color
  | rect x0 y0 x1 y1 color => exact Laws.TableRow.rect x0 y0 x1 y1 color
  | circle xc yc r color => exact Laws.TableRow.circle xc yc r color
  | fcircle xc yc r color => exact Laws.TableRow.fcircle xc yc r color
  | tri x1 y1 x2 y2 x3 y3 color => exact Laws.TableRow.tri x1 y1 x2 y2 x3 y3 color
  | ftri x1 y1 x2 y2 x3 y3 color => exact Laws.TableRow.ftri x1 y1 x2 y2 x3 y3 color
  | cmd opcode n src => exact Laws.TableRow.cmd opcode n src
  | data8 n src => exact Laws.TableRow.data8 n src
  | data16 n src => exact Laws.TableRow.data16 n src

/-- Selection, word by word. -/
theorem word_and_of_selects {r : Row} {d : Desc} (h : r.selects d = true) (k : Nat) :
    d.word k &&& r.mask.word k = r.pattern.word k := by
  have hand : d &&& r.mask = r.pattern := of_decide_eq_true h
  rw [← hand]
  exact BitVec.extractLsb'_and.symm

/-- Where a row's mask has a whole word, a descriptor it selects has its pattern's word. -/
theorem word_of_selects {r : Row} {d : Desc} (h : r.selects d = true) (k : Nat) {v : Word}
    (hm : r.mask.word k = 0xFFFF := by rfl) (hp : r.pattern.word k = v := by rfl) : d.word k = v := by
  have hand := word_and_of_selects h k
  rw [hm, hp] at hand
  exact BitVec.and_allOnes.symm.trans hand

/-- The first word under a row that fixes OP alone in it (CMD, whose SUB is an operand: R92). -/
theorem word_zero_of_selects {r : Row} {d : Desc} (h : r.selects d = true) {op : Byte}
    (hm : r.mask.word 0 = (0 : Byte) ++ (0xFF : Byte) := by rfl) (hp : r.pattern.word 0 = (0 : Byte) ++ op := by rfl) :
    d.word 0 = d.sub ++ op := by
  have hand := word_and_of_selects h 0
  rw [hm, hp, ← sub_append_op, BitVec.and_append] at hand
  have hop := congrArg (BitVec.extractLsb' 0 8) hand
  rw [first_byte_append, first_byte_append] at hop
  rw [← hop, ← sub_append_op]
  exact congrArg _ BitVec.and_allOnes.symm

/-- A descriptor that a row selects is the descriptor of a request. -/
theorem exists_encode_eq_of_selects {r : Row} {d : Desc} (hr : r ∈ opcodeTable) (h : r.selects d = true) :
    ∃ i, encode i = d := by
  simp only [opcodeTable, List.mem_cons, List.not_mem_nil, or_false] at hr
  obtain rfl | rfl | rfl | rfl | rfl | rfl | rfl | rfl | rfl | rfl | rfl | rfl | rfl := hr
  · exact ⟨.window (d.word 1) (d.word 2) (d.word 3) (d.word 4), ofWords_eq (word_of_selects h 0) rfl rfl rfl rfl
      (word_of_selects h 5) (word_of_selects h 6) (word_of_selects h 7)⟩
  · exact ⟨.pixel (d.word 1) (d.word 2) (d.word 7), ofWords_eq (word_of_selects h 0) rfl rfl (word_of_selects h 3)
      (word_of_selects h 4) (word_of_selects h 5) (word_of_selects h 6) rfl⟩
  · exact ⟨.fillrect (d.word 1) (d.word 2) (d.word 3) (d.word 4) (d.word 7), ofWords_eq (word_of_selects h 0) rfl rfl rfl rfl
      (word_of_selects h 5) (word_of_selects h 6) rfl⟩
  · exact ⟨.blit (d.word 1) (d.word 2) (d.word 3) (d.word 4) d.src, ofWords_eq (word_of_selects h 0) rfl rfl rfl rfl
      (word_five_eq d) (word_six_eq d) (word_of_selects h 7)⟩
  · exact ⟨.line (d.word 1) (d.word 2) (d.word 3) (d.word 4) (d.word 7), ofWords_eq (word_of_selects h 0) rfl rfl rfl rfl
      (word_of_selects h 5) (word_of_selects h 6) rfl⟩
  · exact ⟨.rect (d.word 1) (d.word 2) (d.word 3) (d.word 4) (d.word 7), ofWords_eq (word_of_selects h 0) rfl rfl rfl rfl
      (word_of_selects h 5) (word_of_selects h 6) rfl⟩
  · exact ⟨.circle (d.word 1) (d.word 2) (d.word 3) (d.word 7), ofWords_eq (word_of_selects h 0) rfl rfl rfl
      (word_of_selects h 4) (word_of_selects h 5) (word_of_selects h 6) rfl⟩
  · exact ⟨.fcircle (d.word 1) (d.word 2) (d.word 3) (d.word 7), ofWords_eq (word_of_selects h 0) rfl rfl rfl
      (word_of_selects h 4) (word_of_selects h 5) (word_of_selects h 6) rfl⟩
  · exact ⟨.tri (d.word 1) (d.word 2) (d.word 3) (d.word 4) (d.word 5) (d.word 6) (d.word 7),
      ofWords_eq (word_of_selects h 0) rfl rfl rfl rfl rfl rfl rfl⟩
  · exact ⟨.ftri (d.word 1) (d.word 2) (d.word 3) (d.word 4) (d.word 5) (d.word 6) (d.word 7),
      ofWords_eq (word_of_selects h 0) rfl rfl rfl rfl rfl rfl rfl⟩
  · exact ⟨.cmd d.sub (d.word 1) d.src, ofWords_eq (word_zero_of_selects h) rfl (word_of_selects h 2) (word_of_selects h 3)
      (word_of_selects h 4) (word_five_eq d) (word_six_eq d) (word_of_selects h 7)⟩
  · exact ⟨.data8 d.count d.src, ofWords_eq (word_of_selects h 0) (word_one_eq d) (word_two_eq d) (word_of_selects h 3)
      (word_of_selects h 4) (word_five_eq d) (word_six_eq d) (word_of_selects h 7)⟩
  · exact ⟨.data16 d.count d.src, ofWords_eq (word_of_selects h 0) (word_one_eq d) (word_two_eq d) (word_of_selects h 3)
      (word_of_selects h 4) (word_five_eq d) (word_six_eq d) (word_of_selects h 7)⟩

/-- Settles O3: fields that are read are a request's descriptor, which selects its own row; and what a row selects is a
request's descriptor, whose fields are read. -/
theorem decoderFollowsTable : Obligations.DecoderFollowsTable := by
  intro d
  cases hd : decodeFields d with
  | ok i =>
    obtain ⟨r, hr, hname, hsel⟩ := selects_encode i
    exact .inl ⟨i, rfl, r, hr, encode_of_decodeFields hd ▸ hsel, hname⟩
  | error e =>
    refine .inr ⟨⟨e, rfl⟩, fun r hr => eq_false_of_ne_true fun hsel => ?_⟩
    obtain ⟨i, rfl⟩ := exists_encode_eq_of_selects hr hsel
    rw [decodeFields_encode] at hd
    cases hd

/-! ### The five checks (R97) -/

/-- Checks (a) to (c) of R97, in its order. -/
def Desc.fieldsIllegal (d : Desc) : Prop :=
  d.op.toNat ∉ listedOps ∨
  (d.op.toNat ≠ 0x10 ∧ d.op.toNat ≠ 0x11 ∧ d.sub ≠ 0 ∨ ∃ k ∈ reservedWords d.op.toNat, d.word k ≠ 0) ∨
  (d.op.toNat = 0x11 ∧ d.sub.toNat ≠ 0x08 ∧ d.sub.toNat ≠ 0x10)

theorem decodeFields_error_iff (d : Desc) : (∃ e, decodeFields d = .error e) ↔ d.fieldsIllegal := by
  unfold decodeFields Desc.fieldsIllegal
  split
  case h_11 hop => simp [withSub_error_iff, hop, listedOps, reservedWords]
  case h_12 hop =>
    split
    case h_1 hsub => simp [withSub_error_iff, hop, hsub, listedOps, reservedWords]
    case h_2 hsub => simp [withSub_error_iff, hop, hsub, listedOps, reservedWords]
    case h_3 h8 h16 => exact iff_of_true ⟨_, rfl⟩ (.inr (.inr ⟨hop, h8, h16⟩))
  case h_13 => simp_all [listedOps]
  all_goals next hop => simp [plain_error_iff, hop, listedOps, reservedWords]

theorem reads_encode_of_none {i : Instr} (h : i.readRange = none) : (encode i).reads.1 = 0 := by
  cases i <;> simp_all [Instr.readRange, Desc.reads, encode]

theorem reads_encode_of_some {i : Instr} {src : Long} {n size : Nat} (h : i.readRange = some (src, n, size)) :
    (encode i).reads = (n, size) ∧ (encode i).source = src.toNat := by
  cases i
  case blit | cmd | data8 | data16 =>
    cases h
    simp [Desc.reads, Desc.source, encode, lo_add_hi]
  all_goals cases h

theorem readRange_size {i : Instr} {src : Long} {n size : Nat} (h : i.readRange = some (src, n, size)) :
    size = 1 ∨ size = 2 := by
  cases i <;> simp_all [Instr.readRange]

/-- Checks (d) and (e) on the words of a request's descriptor (R63, R69). -/
theorem wellFormed_eq_false_iff (i : Instr) :
    i.wellFormed = false ↔
      (0 < (encode i).reads.1 ∧ 0xFFFFFFFF < (encode i).source + (encode i).reads.1 * (encode i).reads.2 - 1) ∨
      (0 < (encode i).reads.1 ∧ (encode i).reads.2 = 2 ∧ (encode i).source % 2 = 1) := by
  cases hi : i.readRange with
  | none => simp [Instr.wellFormed, Instr.rangeOk, Instr.alignedOk, hi, reads_encode_of_none hi]
  | some range =>
    obtain ⟨src, n, size⟩ := range
    obtain ⟨hreads, hsource⟩ := reads_encode_of_some hi
    simp only [hreads, hsource, Instr.wellFormed, Instr.rangeOk, Instr.alignedOk, hi, Bool.and_eq_false_iff,
      Bool.or_eq_false_iff, decide_eq_false_iff_not]
    obtain rfl | rfl := readRange_size hi <;> omega

/-- Settles O5: (a) to (c) are the fields' checks, (d) and (e) those of the request read from them. -/
theorem illegalByFiveChecks : Obligations.IllegalByFiveChecks := by
  intro d
  have hill : d.illegal ↔ d.fieldsIllegal ∨
      (0 < d.reads.1 ∧ 0xFFFFFFFF < d.source + d.reads.1 * d.reads.2 - 1) ∨
      (0 < d.reads.1 ∧ d.reads.2 = 2 ∧ d.source % 2 = 1) := by
    simp only [Desc.illegal, Desc.fieldsIllegal, or_assoc]
  rw [hill, ← decodeFields_error_iff]
  cases hd : decodeFields d with
  | error e => simp [decode, hd]
  | ok i =>
    obtain rfl := encode_of_decodeFields hd
    rw [decode_encode, checkOperands_error_iff, wellFormed_eq_false_iff]
    exact (or_iff_right nofun).symm

end Sys2Proof

namespace Sys2Proof.Machine

/-! ### Acceptance (R90) -/

/-- Settles O7: the first clause is a step of an idle RGE; a busy one accepts nothing, and from there a step moves. -/
theorem acceptanceRunsRequest : Obligations.AcceptanceRunsRequest := by
  constructor
  · intro s d later i hcfg hreset hphase hport hd
    refine ⟨accept d later s, rfl, rfl, ?_⟩
    simp [step, cycle, hcfg, hreset, hphase, acceptNext, hport, hd]
  · intro s t hbusy hstep
    obtain h | ⟨d, later, hidle, -, -⟩ := step_moves hstep
    · exact h.port
    · simp [State.busy, hidle] at hbusy

/-! ### Requests of one sub-primitive (R101, R104, R157, R182, R185) -/

/-- A request of one sub-primitive: its elements, and the flags of its window's verdict. -/
theorem sub_primitive_leaves {k : Task} {ok : Bool} {s : State} (hcfg : s.cfg.ok = true) (hs : Ready s) (hq : Quiet s)
    (hr : taskReadable s k) (hk : taskVerdict s.cfg k = some ok) :
    ∃ t, request [k] s = .next t ∧ Leaves s t (taskElems s k) ok (!ok) := by
  obtain ⟨t, ht, hl⟩ := request_leaves [k] (Config.fillStrategy_ok hcfg) hs hq (List.forall_mem_singleton.2 hr)
  have hacc : planAcc s.cfg [k] = ok := by simp [planAcc, hk]
  have hrej : planRej s.cfg [k] = !ok := by simp [planRej, hk]
  rw [List.flatMap_singleton, hacc, hrej] at hl
  exact ⟨t, ht, hl⟩

/-- Settles O32: the sub-primitive with no samples. -/
theorem windowResult : Obligations.WindowResult := by
  intro x0 y0 x1 y1 s hcfg hs hq
  obtain ⟨t, ht, hl⟩ := sub_primitive_leaves (k := .window (zint x0) (zint y0) (zint x1) (zint y1)) hcfg hs hq trivial
    rfl
  refine ⟨_, rfl, t, ht, ?_⟩
  rwa [taskElems, subElems, List.map_nil, List.append_nil] at hl

/-- The window of a point is accepted where the point is on the panel (R181). -/
theorem accepts_point (c : Config) (x y : Int) : accepts c x y x y = inPanel c x y := by
  simp [accepts]

/-- Settles O35: the sub-primitive of one point, with one sample. -/
theorem pixelResult : Obligations.PixelResult := by
  intro x y color s hcfg hs hq
  obtain ⟨t, ht, hl⟩ := sub_primitive_leaves (k := .plot (zint x) (zint y) color) hcfg hs hq trivial rfl
  refine ⟨_, rfl, t, ht, ?_⟩
  rwa [accepts_point, taskElems, subElems, accepts_point, List.map_singleton] at hl

/-- The whole panel is accepted (R151, R152). -/
theorem accepts_panel {c : Config} (hc : c.ok = true) :
    accepts c 0 0 ((c.panelW : Int) - 1) ((c.panelH : Int) - 1) = true := by
  obtain ⟨hw, -, hh, -⟩ := (Config.ok_iff c).1 hc
  simp only [accepts, inPanel, Bool.and_eq_true, decide_eq_true_eq]
  omega

/-- A panel's last coordinate as an operand (R9, R104). -/
theorem zint_ofNat_pred {n : Nat} (h1 : 1 ≤ n) (h2 : n ≤ 65535) : zint (BitVec.ofNat 16 (n - 1)) = (n : Int) - 1 := by
  rw [zint, BitVec.toNat_ofNat]
  omega

/-- Settles O8: CLEAR is one `Fill` of the whole panel, whose window is accepted. -/
theorem clearFillsPanel : Obligations.ClearFillsPanel := by
  intro color s hcfg hs hq
  obtain ⟨hw1, hw2, hh1, hh2, -⟩ := (Config.ok_iff s.cfg).1 hcfg
  have hacc := accepts_panel hcfg
  obtain ⟨t, ht, hl⟩ := sub_primitive_leaves (k := .fill 0 0 (s.cfg.panelW - 1) (s.cfg.panelH - 1) color)
    hcfg hs hq trivial (congrArg some hacc)
  have hexec : exec (Instr.clear s.cfg color) s =
      request [.fill 0 0 (s.cfg.panelW - 1) (s.cfg.panelH - 1) color] s := by
    rw [← zint_ofNat_pred hw1 hw2, ← zint_ofNat_pred hh1 hh2]
    rfl
  have hcount : (((s.cfg.panelW : Int) - 1 - 0 + 1) * ((s.cfg.panelH : Int) - 1 - 0 + 1)).toNat =
      s.cfg.panelW * s.cfg.panelH := by
    rw [sub_zero, sub_zero, sub_add_cancel, sub_add_cancel, ← Int.natCast_mul, Int.toNat_natCast]
  rw [taskElems, fillElems, subElems, if_pos hacc, hcount, List.map_replicate] at hl
  exact ⟨t, hexec.trans ht, hl⟩

end Sys2Proof.Machine
end

section
/-! PROOFS. The atomic steps of a request by what they do with the transport (spec 40 R122 to R128): each writes registers or
has one chunk on the bus, and a chunk on the bus goes on, waits, or ends its request; and what the steps of every request have
in common. -/

namespace Sys2Proof.Machine

/-! ### A chunk on the bus -/

/-- The state after a chunk's report is taken, its elements read and none of them sent. -/
def reported (c : Chunk) (s : State) : State := (s.setReports (restReports s.reports)).setFresh (s.fresh + c.len)

/-- How a chunk that can be read leaves its request, whatever the bus reports: complete, held, aborted or reset. -/
theorem settle_cases {c : Chunk} {s : State} {vs : List Word} (hv : chunkValues c s = .ok vs) :
    settle c s = .go (settled c vs s) ∨ settle c s = .held (.await c) (reported c s) ∨
    (∃ code k, settle c s = .ended (abort code (endRequest (emit c.width (vs.take k) (reported c s))))) ∨
    ∃ k, settle c s = .ended (resetRge (landWrites (emit c.width (vs.take k) (reported c s)))) := by
  rw [settle, hv]
  dsimp only
  split
  · exact .inl rfl
  · exact .inr (.inr (.inl ⟨_, _, rfl⟩))
  · exact .inr (.inr (.inl ⟨_, _, rfl⟩))
  · exact .inr (.inl rfl)
  · exact .inr (.inr (.inr ⟨_, rfl⟩))

/-- One property for each way an atomic step leaves its request. -/
def Progress.Each (go : State → Prop) (held : Atom → State → Prop) (ended : State → Prop) : Progress → Prop
  | .go t => go t
  | .held a t => held a t
  | .ended t => ended t
  | .stuck _ => True

theorem Progress.Each.imp {go go' ended ended' : State → Prop} {held held' : Atom → State → Prop} {g : Progress}
    (h : g.Each go held ended) (hgo : ∀ t, go t → go' t) (hheld : ∀ a t, held a t → held' a t)
    (hended : ∀ t, ended t → ended' t) : g.Each go' held' ended' := by
  cases g with
  | go t => exact hgo t h
  | held a t => exact hheld a t h
  | ended t => exact hended t h
  | stuck f => trivial

/-- `run_induct` with its three cases of a step read from the one step. -/
theorem run_each {p : List Atom → State → Prop} {q : State → Prop} (hend : ∀ s, p [] s → q (complete (endRequest s)))
    (hatom : ∀ a as s, p (a :: as) s →
      (atom a s).Each (p as) (fun b t => q (t.setPhase (.running (b :: as)))) q) {as : List Atom} {s t : State}
    (hp : p as s) (h : run as s = .next t) : q t := by
  refine run_induct (p := p) hend ?_ ?_ ?_ as s t hp h
  · intro a as s t hp ha
    have := hatom a as s hp
    rwa [ha] at this
  · intro a as s b t hp ha
    have := hatom a as s hp
    rwa [ha] at this
  · intro a as s t hp ha
    have := hatom a as s hp
    rwa [ha] at this

/-- A stretch of the request that issues no chunk and sends `es` at one level of chip select. -/
structure Sends (es : List Elem) (s t : State) : Prop where
  cs : t.csOut = s.csOut
  wire : t.wire = s.wire ++ es.map WireItem.elem
  xfers : t.xfers = s.xfers
  cfg : t.cfg = s.cfg
  ww : t.ww = s.ww

/-- The end of a request that sends `es` last, and closes its transaction (R123). -/
structure Closes (es : List Elem) (s t : State) : Prop where
  busy : t.busy = false
  wire : t.wire = s.wire ++ es.map WireItem.elem ++ (if s.csOut then [.cs false] else [])
  xfers : t.xfers = s.xfers

theorem Sends.closes {es : List Elem} {s u t : State} (h : Sends es s u) (k : Closes [] u t) : Closes es s t where
  busy := k.busy
  wire := by rw [k.wire, h.wire, h.cs, List.map_nil, List.append_nil]
  xfers := k.xfers.trans h.xfers

theorem complete_closes (s : State) : Closes [] s (complete s) := by
  obtain ⟨hwire, -, -, hc⟩ := complete_fields s
  exact ⟨by rw [State.busy, hc.phase], by simp [hwire], hc.xfers⟩

theorem closeTxn_xfers (s : State) : (closeTxn s).xfers = s.xfers := by
  unfold closeTxn
  split <;> rfl

theorem abort_closes (code : OutcomeCode) (s : State) : Closes [] s (abort code s) where
  busy := rfl
  wire := by
    refine (closeTxn_fields _).1.trans ?_
    rw [List.map_nil, List.append_nil]
    rfl
  xfers := closeTxn_xfers _

theorem resetRge_closes (s : State) : Closes [] s (resetRge s) where
  busy := rfl
  wire := (closeTxn_fields s).1.trans (by rw [List.map_nil, List.append_nil])
  xfers := closeTxn_xfers s

theorem Sends.endRequest {es : List Elem} {s t : State} (h : Sends es s t) : Sends es s (endRequest t) :=
  ⟨h.cs, h.wire, h.xfers, h.cfg, h.ww⟩

theorem Sends.landWrites {es : List Elem} {s t : State} (h : Sends es s t) : Sends es s (landWrites t) :=
  ⟨h.cs, h.wire, h.xfers, h.cfg, h.ww⟩

theorem emit_sends (w : Width) (vs : List Word) (s : State) : Sends (vs.map (mkElem s.dcOut w)) s (emit w vs s) :=
  ⟨rfl, by simp [emit, Function.comp_def], rfl, rfl, rfl⟩

theorem reported_sends (c : Chunk) (vs : List Word) (s : State) :
    Sends (vs.map (mkElem s.dcOut c.width)) s (emit c.width vs (reported c s)) :=
  { emit_sends c.width vs (reported c s) with }

theorem settled_eq (c : Chunk) (vs : List Word) (s : State) :
    ∃ x, settled c vs s =
      (emit c.width vs (if c.path = .async then (reported c s).setAsync false else reported c s)).setXp x :=
  afterChunk_eq c _

theorem settled_sends (c : Chunk) (vs : List Word) (s : State) :
    Sends (vs.map (mkElem s.dcOut c.width)) s (settled c vs s) := by
  obtain ⟨x, hx⟩ := settled_eq c vs s
  rw [hx]
  split
  · exact { emit_sends c.width vs ((reported c s).setAsync false) with }
  · exact { emit_sends c.width vs (reported c s) with }

theorem settled_reports (c : Chunk) (vs : List Word) (s : State) : (settled c vs s).reports = restReports s.reports := by
  obtain ⟨x, hx⟩ := settled_eq c vs s
  rw [hx]
  split <;> rfl

/-- What a chunk on the bus does with the transport, whatever the bus reports. -/
theorem settle_each (c : Chunk) (s : State) :
    (settle c s).Each (fun t => ∃ es, Sends es s t) (fun _ t => Sends [] s t) (fun t => ∃ es, Closes es s t) := by
  cases hv : chunkValues c s with
  | error f =>
    rw [settle_stuck hv]
    trivial
  | ok vs =>
    obtain h | h | ⟨code, k, h⟩ | ⟨k, h⟩ := settle_cases hv <;> rw [h]
    · exact ⟨_, settled_sends c vs s⟩
    · exact ⟨rfl, (List.append_nil _).symm, rfl, rfl, rfl⟩
    · exact ⟨_, (reported_sends c (vs.take k) s).endRequest.closes (abort_closes code _)⟩
    · exact ⟨_, (reported_sends c (vs.take k) s).landWrites.closes (resetRge_closes _)⟩

/-! ### The two kinds of atomic steps -/

/-- The records an atomic step puts on the bus-primitive port (R125); a chunk already on the bus has its record. -/
def Atom.records (c : Config) (w : Width) : Atom → List Xfer
  | .command _ => [recordOf c .w8 1]
  | .chunk _ len => [recordOf c w len]
  | .lineRegs _ => []
  | .circleRegs _ => []
  | .triRegs _ => []
  | .loadBlock _ _ => []
  | .setWindow _ _ _ _ => []
  | .width _ => []
  | .startData _ _ => []
  | .endData => []
  | .await _ => []

/-- Nothing but the opening of a transaction reaches the wire (R122). -/
def OpensAtMost (s t : State) : Prop :=
  (t.csOut = s.csOut ∧ t.wire = s.wire) ∨ (t.csOut = true ∧ t.wire = s.wire ++ opening s.csOut)

/-- What every atomic step that does not end its request leaves alone: the configuration, host memory, and the inputs but for
the reports. -/
structure SameHost (s t : State) : Prop where
  cfg : t.cfg = s.cfg
  mem : t.mem = s.mem
  hostWrites : t.hostWrites = s.hostWrites
  resetIn : t.resetIn = s.resetIn

theorem SameHost.refl (s : State) : SameHost s s := ⟨rfl, rfl, rfl, rfl⟩

theorem SameHost.trans {s t u : State} (h : SameHost s t) (k : SameHost t u) : SameHost s u :=
  ⟨k.cfg.trans h.cfg, k.mem.trans h.mem, k.hostWrites.trans h.hostWrites, k.resetIn.trans h.resetIn⟩

theorem Keeps.sameHost {s t : State} (h : Keeps s t) : SameHost s t := { h with }

theorem settled_sameHost (c : Chunk) (vs : List Word) (s : State) : SameHost s (settled c vs s) := by
  obtain ⟨x, hx⟩ := settled_eq c vs s
  rw [hx]
  split <;> exact ⟨rfl, rfl, rfl, rfl⟩

/-- An atomic step with a chunk on the bus. -/
def Atom.issues : Atom → Bool
  | .command _ => true
  | .chunk _ _ => true
  | .await _ => true
  | .lineRegs _ => false
  | .circleRegs _ => false
  | .triRegs _ => false
  | .loadBlock _ _ => false
  | .setWindow _ _ _ _ => false
  | .width _ => false
  | .startData _ _ => false
  | .endData => false

/-- The atomic step writes registers and the request goes on. -/
structure Writes (a : Atom) (s t : State) : Prop where
  atom : atom a s = .go t
  issues : a.issues = false
  host : SameHost s t
  ww : t.ww = widthAfter [a] s.ww
  reports : t.reports = s.reports
  xfers : t.xfers = s.xfers ++ a.records s.cfg s.ww
  wire : OpensAtMost s t
  opens : ∀ as, chunksOpen (a :: as) s.csOut = chunksOpen as t.csOut

/-- The chunk an atomic step puts on the bus, or finds there, and the state in which it settles (R125, R127, R128). -/
inductive OnBus : Atom → State → Chunk → State → Prop
  | command (op : Byte) (s : State) :
    OnBus (.command op) s ⟨.command op, 1, .w8, pathFor s.cfg 1⟩ (issued 1 .w8 ((openTxn s).setDc .command))
  | chunk (src : Source) (len : Nat) (s : State) :
    OnBus (.chunk src len) s ⟨src, len, s.ww, pathFor s.cfg len⟩ (chunkIssued len s)
  | await (c : Chunk) (s : State) : OnBus (.await c) s c s

/-- What such an atomic step has done as its chunk settles. -/
structure Issues (a : Atom) (s : State) (c : Chunk) (t : State) : Prop where
  atom : atom a s = settle c t
  host : SameHost s t
  ww : t.ww = widthAfter [a] s.ww
  reports : t.reports = s.reports
  xfers : t.xfers = s.xfers ++ a.records s.cfg s.ww
  wire : OpensAtMost s t
  opens : ∀ as, chunksOpen (a :: as) s.csOut = true → t.csOut = true ∧ chunksOpen as t.csOut = true

theorem openTxn_opens (s : State) : OpensAtMost s (openTxn s) := .inr ⟨openTxn_csOut s, openTxn_wire s⟩

theorem openTxn_xfers (s : State) : (openTxn s).xfers = s.xfers := by
  unfold openTxn
  split <;> rfl

theorem startData_writes (n : Nat) (p : Option Long) (s : State) :
    Writes (.startData n p) s (((openTxn s).setDc .data).setXp
      { (openTxn s).xp with remain := BitVec.ofNat 32 n, ptr := p.getD (openTxn s).xp.ptr }) where
  atom := rfl
  issues := rfl
  host := { (openTxn_keeps s).sameHost with }
  ww := (openTxn_keeps s).ww
  reports := openTxn_reports s
  xfers := (openTxn_xfers s).trans (List.append_nil _).symm
  wire := openTxn_opens s
  opens as := by rw [State.setXp_csOut, State.setDc_csOut, openTxn_csOut]; rfl

theorem command_issues (op : Byte) (s : State) :
    Issues (.command op) s ⟨.command op, 1, .w8, pathFor s.cfg 1⟩ (issued 1 .w8 ((openTxn s).setDc .command)) := by
  obtain ⟨hk, -, -, -, -, hcs, -, hwire, -, hxf, hrep, -⟩ := issued_fields 1 .w8 ((openTxn s).setDc .command)
  have ho := openTxn_keeps s
  have hcfg : ((openTxn s).setDc .command).cfg = s.cfg := ho.cfg
  have hopen : (issued 1 .w8 ((openTxn s).setDc .command)).csOut = true := hcs.trans (openTxn_csOut s)
  exact
    { atom := by rw [← hcfg]; rfl
      host := SameHost.trans (t := (openTxn s).setDc .command) { ho.sameHost with } hk.sameHost
      ww := hk.ww.trans ho.ww
      reports := hrep.trans (openTxn_reports s)
      xfers := hxf.trans (by rw [hcfg, State.setDc_xfers, openTxn_xfers]; rfl)
      wire := .inr ⟨hopen, hwire.trans (openTxn_wire s)⟩
      opens := fun as h => ⟨hopen, by rwa [hopen]⟩ }

theorem chunk_issues (src : Source) (len : Nat) (s : State) :
    Issues (.chunk src len) s ⟨src, len, s.ww, pathFor s.cfg len⟩ (chunkIssued len s) := by
  have hk := chunkIssued_keeps len s
  obtain ⟨-, -, -, -, -, hcs, -, hwire, -, hxf, hrep, -⟩ :=
    issued_fields len s.ww (s.setXp { s.xp with chunkLen := BitVec.ofNat 16 len })
  exact
    { atom := rfl
      host := hk.sameHost
      ww := hk.ww
      reports := hrep
      xfers := hxf
      wire := .inl ⟨hcs, hwire⟩
      opens := fun as h => by
        rw [chunksOpen, Bool.and_eq_true] at h
        exact ⟨hcs.trans h.1, (congrArg (chunksOpen as) hcs).trans h.2⟩ }

theorem await_issues (c : Chunk) (s : State) : Issues (.await c) s c s where
  atom := rfl
  host := SameHost.refl s
  ww := rfl
  reports := rfl
  xfers := (List.append_nil _).symm
  wire := .inl ⟨rfl, rfl⟩
  opens as h := by
    rwa [chunksOpen, Bool.and_eq_true] at h

theorem OnBus.issues {a : Atom} {s t : State} {c : Chunk} (h : OnBus a s c t) : Issues a s c t := by
  cases h with
  | command op => exact command_issues op s
  | chunk src len => exact chunk_issues src len s
  | await => exact await_issues c s

/-- Every atomic step writes registers or has one chunk on the bus. -/
theorem atom_cases (a : Atom) (s : State) : (∃ t, Writes a s t) ∨ ∃ c t, OnBus a s c t := by
  cases a with
  | command op => exact .inr ⟨_, _, .command op s⟩
  | chunk src len => exact .inr ⟨_, _, .chunk src len s⟩
  | await c => exact .inr ⟨_, _, .await c s⟩
  | startData n p => exact .inl ⟨_, startData_writes n p s⟩
  | setWindow x0 y0 x1 y1 =>
    by_cases h : accepts s.cfg x0 y0 x1 y1 = true
    · exact .inl ⟨s.setAcc true, congrArg Progress.go (if_pos h), rfl, ⟨rfl, rfl, rfl, rfl⟩, rfl, rfl,
        (List.append_nil _).symm, .inl ⟨rfl, rfl⟩, fun _ => rfl⟩
    · exact .inl ⟨s.setRej true, congrArg Progress.go (if_neg h), rfl, ⟨rfl, rfl, rfl, rfl⟩, rfl, rfl,
        (List.append_nil _).symm, .inl ⟨rfl, rfl⟩, fun _ => rfl⟩
  | _ => exact .inl ⟨_, rfl, rfl, ⟨rfl, rfl, rfl, rfl⟩, rfl, rfl, (List.append_nil _).symm, .inl ⟨rfl, rfl⟩, fun _ => rfl⟩

/-! ### What the steps of every request have in common -/

/-- An atomic step that may stand by itself: no chunk, which stands in a `SendData`, and no edge of a width bracket. -/
def Atom.alone : Atom → Bool
  | .chunk _ _ => false
  | .await _ => false
  | .width _ => false
  | .lineRegs _ => true
  | .circleRegs _ => true
  | .triRegs _ => true
  | .loadBlock _ _ => true
  | .setWindow _ _ _ _ => true
  | .command _ => true
  | .startData _ _ => true
  | .endData => true

section induct

variable {P : List Atom → Prop} (hnil : P []) (happend : ∀ as bs, P as → P bs → P (as ++ bs))
  (halone : ∀ a, a.alone = true → P [a]) (hsend : ∀ src n p, P (sendData src n p))
  (hwith : ∀ body, P body → P (with16 body))

include hnil happend

theorem flatMap_induct {α : Type} {f : α → List Atom} {l : List α} (h : ∀ x ∈ l, P (f x)) : P (l.flatMap f) := by
  induction l with
  | nil => exact hnil
  | cons x l ih =>
    rw [List.flatMap_cons]
    exact happend _ _ (h x (by simp)) (ih fun y hy => h y (List.mem_cons_of_mem _ hy))

include halone hsend

theorem guarded_induct (c : Config) (x0 y0 x1 y1 : Int) {body : List Atom} (hbody : P body) :
    P (guarded c x0 y0 x1 y1 body) := by
  have hrest : P (if accepts c x0 y0 x1 y1 then windowGroup c x0 y0 x1 y1 ++ body else []) := by
    split
    · exact happend _ _ (happend _ _ (happend (_ :: _) _ (happend [.command c.opcCaset] _ (halone _ rfl) (hsend _ _ _))
        (happend [.command c.opcRaset] _ (halone _ rfl) (hsend _ _ _))) (halone (.command c.opcRamwr) rfl)) hbody
    · exact hnil
  exact happend [.setWindow x0 y0 x1 y1] _ (halone _ rfl) hrest

theorem fillData_induct (c : Config) (v : Word) (n : Nat) : P (fillData c v n) := by
  unfold fillData
  split
  · exact happend [_] _ (halone _ rfl) (flatMap_induct hnil happend fun _ _ => hsend _ _ _)
  · exact hsend _ _ _

include hwith

/-- What holds of the parts primitives are made of, and of one part after another, holds of every primitive. -/
theorem expand_induct (c : Config) (k : Task) : P (expand c k) := by
  have hguard := fun x0 y0 x1 y1 body => guarded_induct hnil happend halone hsend c x0 y0 x1 y1 (body := body)
  cases k with
  | lineRegs r => exact halone _ rfl
  | circleRegs r => exact halone _ rfl
  | triRegs r => exact halone _ rfl
  | window x0 y0 x1 y1 => exact hguard _ _ _ _ _ hnil
  | plot x y v => exact hguard _ _ _ _ _ (hwith _ (hsend _ _ _))
  | fill x0 y0 x1 y1 v => exact hguard _ _ _ _ _ (hwith _ (fillData_induct hnil happend halone hsend c v _))
  | blit x y w h src => exact hguard _ _ _ _ _ (hwith _ (hsend _ _ _))
  | command op => exact halone _ rfl
  | data w n src =>
    cases w with
    | w8 => exact hsend _ _ _
    | w16 => exact hwith _ (hsend _ _ _)

/-- And of the steps of every request. -/
theorem stepsOf_induct (i : Instr) (c : Config) : P (stepsOf i c) :=
  flatMap_induct hnil happend fun k _ => expand_induct hnil happend halone hsend hwith c k

end induct

/-- Chip select asserted makes no chunk less open. -/
theorem chunksOpen_mono {as : List Atom} (h : chunksOpen as false = true) (b : Bool) : chunksOpen as b = true := by
  cases b with
  | false => exact h
  | true =>
    induction as with
    | nil => rfl
    | cons a as ih => cases a <;> simp_all [chunksOpen]

theorem chunksOpen_append {as bs : List Atom} {b : Bool} (has : chunksOpen as b = true)
    (hbs : chunksOpen bs false = true) : chunksOpen (as ++ bs) b = true := by
  induction as generalizing b with
  | nil => exact chunksOpen_mono hbs b
  | cons a as ih =>
    cases a with
    | chunk src len =>
      obtain ⟨hb, hr⟩ := (Bool.and_eq_true _ _).mp has
      exact (Bool.and_eq_true _ _).mpr ⟨hb, ih hr⟩
    | await c =>
      obtain ⟨hb, hr⟩ := (Bool.and_eq_true _ _).mp has
      exact (Bool.and_eq_true _ _).mpr ⟨hb, ih hr⟩
    | _ => exact ih has

theorem chunksOpen_chunks (src : Source) (ls : List Nat) (as : List Atom) :
    chunksOpen (ls.map (Atom.chunk src) ++ as) true = chunksOpen as true := by
  induction ls with
  | nil => rfl
  | cons l ls ih => exact ih

theorem chunksOpen_sendData (src : Source) (n : Nat) (p : Option Long) : chunksOpen (sendData src n p) false = true := by
  unfold sendData
  split
  · rfl
  · exact chunksOpen_chunks src (splitBy maxChunk n) [.endData]

/-- Every request asserts chip select before each of its chunks (R122). -/
theorem chunksOpen_stepsOf (i : Instr) (c : Config) (b : Bool) : chunksOpen (stepsOf i c) b = true := by
  refine chunksOpen_mono (stepsOf_induct (P := fun as => chunksOpen as false = true) rfl
    (fun _ _ => chunksOpen_append) ?_ chunksOpen_sendData ?_ i c) b
  · intro a ha
    cases a with
    | chunk src len => cases ha
    | await c => cases ha
    | width w => cases ha
    | _ => rfl
  · exact fun body h => chunksOpen_append (as := .width .w16 :: body) h rfl

theorem capped_sendData (src : Source) (n : Nat) (p : Option Long) :
    (sendData src n p).all Atom.capped = true := by
  unfold sendData
  split
  · rfl
  · simp only [List.cons_append, List.all_cons, List.all_append, List.all_map, Bool.and_eq_true, List.all_eq_true]
    refine ⟨rfl, fun k hk => ?_, by simp [Atom.capped]⟩
    obtain ⟨h1, h2⟩ := splitBy_mem (by decide) hk
    simp [Atom.capped, h1, h2]

/-- Every request moves chunks of 1 to 65535 elements (R124). -/
theorem capped_stepsOf (i : Instr) (c : Config) : (stepsOf i c).all Atom.capped = true := by
  refine stepsOf_induct (P := fun as => as.all Atom.capped = true) rfl ?_ ?_ capped_sendData ?_ i c
  · intro as bs has hbs
    rw [List.all_append, has, hbs]
    rfl
  · intro a ha
    cases a with
    | chunk src len => cases ha
    | await c => cases ha
    | width w => cases ha
    | _ => rfl
  · intro body h
    simp [with16, h, Atom.capped]

end Sys2Proof.Machine
end

section
/-! PROOFS. The transport of one request whatever the bus reports (spec 40 R122 to R126): one transaction, chunks within the
cap, and the hang of a chunk that never completes. -/

namespace Sys2Proof.Machine

/-! ### One transaction (R122, R123) -/

/-- A stretch of a request from `s` that has sent nothing yet, or has its transaction open. -/
def InBracket (s u : State) : Prop :=
  (s.csOut = false ∧ u.csOut = false ∧ u.wire = s.wire) ∨
  (u.csOut = true ∧ ∃ es : List Elem, u.wire = s.wire ++ opening s.csOut ++ es.map WireItem.elem)

theorem InBracket.refl (s : State) : InBracket s s := by
  cases h : s.csOut with
  | false => exact .inl ⟨h, h, rfl⟩
  | true => exact .inr ⟨h, [], by simp [h, opening]⟩

theorem InBracket.opens {s u v : State} (h : InBracket s u) (k : OpensAtMost u v) : InBracket s v := by
  obtain ⟨hcs, hwire⟩ | ⟨hcs, hwire⟩ := k
  · rwa [InBracket, hcs, hwire]
  · obtain ⟨hs, hu, hw⟩ | ⟨hu, es, hw⟩ := h
    · exact .inr ⟨hcs, [], by simp [hwire, hw, hu, hs]⟩
    · exact .inr ⟨hcs, es, by simp [hwire, hw, hu, opening]⟩

theorem InBracket.sends {s u v : State} {es : List Elem} (h : InBracket s u) (hu : u.csOut = true) (k : Sends es u v) :
    InBracket s v := by
  obtain ⟨-, hu', -⟩ | ⟨-, fs, hw⟩ := h
  · simp [hu] at hu'
  · exact .inr ⟨k.cs.trans hu, fs ++ es, by simp [k.wire, hw]⟩

theorem InBracket.closes {s u t : State} {es : List Elem} (h : InBracket s u) (hes : u.csOut = true ∨ es = [])
    (k : Closes es u t) : OneBracket s t where
  going hbusy := by simp [k.busy] at hbusy
  ended _ := by
    obtain ⟨hs, hu, hw⟩ | ⟨hu, fs, hw⟩ := h
    · obtain rfl : es = [] := hes.resolve_left (by simp [hu])
      exact .inl ⟨hs, by simp [k.wire, hu, hw]⟩
    · exact .inr ⟨fs ++ es, by simp [k.wire, hu, hw]⟩

theorem InBracket.held {s u : State} (h : InBracket s u) (hu : u.csOut = true) (as : List Atom) :
    OneBracket s (u.setPhase (.running as)) where
  going _ := (h.resolve_left (by simp [hu])).2
  ended hbusy := by cases hbusy

theorem complete_bracket {s u : State} (h : InBracket s u) : OneBracket s (complete (endRequest u)) :=
  InBracket.closes (u := endRequest u) h (.inr rfl) (complete_closes _)

/-- Whatever the bus reports: steps that find chip select asserted at each of their chunks keep to one transaction. -/
theorem run_oneBracket {s u t : State} {as : List Atom} (hb : InBracket s u) (ho : chunksOpen as u.csOut = true)
    (h : run as u = .next t) : OneBracket s t := by
  refine run_each (p := fun as v => InBracket s v ∧ chunksOpen as v.csOut = true) (fun v hv => complete_bracket hv.1) ?_
    ⟨hb, ho⟩ h
  rintro a as v ⟨hv, hopen⟩
  obtain ⟨w, hw⟩ | ⟨c, w, hbus⟩ := atom_cases a v
  · rw [hw.atom]
    exact ⟨hv.opens hw.wire, hw.opens as ▸ hopen⟩
  · have hw := hbus.issues
    obtain ⟨hcs, hrest⟩ := hw.opens as hopen
    have hvw := hv.opens hw.wire
    rw [hw.atom]
    refine (settle_each c w).imp ?_ ?_ ?_
    · rintro x ⟨es, hx⟩
      exact ⟨hvw.sends hcs hx, by rwa [hx.cs]⟩
    · exact fun b x hx => (hvw.sends hcs hx).held (hx.cs.trans hcs) _
    · rintro x ⟨es, hx⟩
      exact hvw.closes (.inl hcs) hx

/-- What the reset input puts on the wire: what it lets through of a chunk in flight, and the end of the transaction (R291). -/
theorem resetStep_closes (k : Nat) (s : State) :
    ∃ es, Closes es s (resetStep k s) ∧ (es = [] ∨ ∃ c as, s.phase = .running (.await c :: as)) := by
  have hnone : Closes [] s (resetRge (landWrites s)) :=
    Sends.closes (u := landWrites s) ⟨rfl, (List.append_nil _).symm, rfl, rfl, rfl⟩ (resetRge_closes _)
  unfold resetStep
  split
  · rename_i c as hp
    split
    · rename_i vs _
      have hsent : Sends _ s (emit c.width (vs.take k) (s.setFresh (s.fresh + c.len))) :=
        { emit_sends c.width (vs.take k) (s.setFresh (s.fresh + c.len)) with }
      exact ⟨_, hsent.landWrites.closes (resetRge_closes _), .inr ⟨c, as, hp⟩⟩
    · exact ⟨[], hnone, .inl rfl⟩
  · exact ⟨[], hnone, .inl rfl⟩
  · exact ⟨[], hnone, .inl rfl⟩

/-- The invariant of a running request, as its transaction sees it (R122): a chunk on the bus has chip select asserted. -/
theorem phaseInv_opens {s : State} {todo : List Atom} (h : phaseInv s) (hp : s.phase = .running todo) :
    chunksOpen todo s.csOut = true ∧ ∀ c as, todo = .await c :: as → s.csOut = true := by
  unfold phaseInv at h
  rw [hp] at h
  split at h
  · rename_i hidle
    cases hidle
  · rename_i c as has
    cases has
    obtain ⟨-, hcs, -, -, hopen, -⟩ := h
    exact ⟨(Bool.and_eq_true _ _).mpr ⟨hcs, hopen⟩, fun _ _ _ => hcs⟩
  · rename_i bs hne hbs
    cases hbs
    exact ⟨h.2.2.1, fun c as hc => absurd hc (hne c as)⟩

/-- Settles O22: chip select is asserted at every chunk of a request, from its start and from a hold. -/
theorem oneTransaction : Obligations.OneTransaction := by
  refine ⟨fun i s t hs h => ?_, fun s t hinv hbusy h => ?_⟩
  · rw [exec_eq_request] at h
    exact run_oneBracket (u := begin s) (InBracket.refl s) (chunksOpen_stepsOf i s.cfg _) h
  · obtain ⟨-, ⟨k, -, rfl⟩ | ⟨-, todo, hp, hr⟩ | ⟨-, hp, -⟩ | ⟨-, hp, -⟩ | ⟨-, hp, -⟩⟩ := step_cases h
    · obtain ⟨es, hes, hnil | ⟨c, as, hp⟩⟩ := resetStep_closes k s
      · exact (InBracket.refl s).closes (.inr hnil) hes
      · exact (InBracket.refl s).closes (.inl ((phaseInv_opens hinv.phase hp).2 c as rfl)) hes
    · exact run_oneBracket (InBracket.refl s) (phaseInv_opens hinv.phase hp).1 hr
    all_goals simp [State.busy, hp] at hbusy

/-! ### Chunks within the cap (R124) -/

/-- The records added since `s` are within the cap. -/
def CappedSince (s t : State) : Prop := ∃ xs, t.xfers = s.xfers ++ xs ∧ ∀ x ∈ xs, 1 ≤ x.len ∧ x.len ≤ 65535

theorem CappedSince.newRecords {s t : State} (h : CappedSince s t) : ∀ x ∈ newRecords s t, 1 ≤ x.len ∧ x.len ≤ 65535 := by
  obtain ⟨xs, hxs, hcap⟩ := h
  rwa [Machine.newRecords, hxs, List.drop_left]

theorem CappedSince.of_eq {s u t : State} (h : CappedSince s u) (k : t.xfers = u.xfers) : CappedSince s t := by
  rwa [CappedSince, k]

theorem CappedSince.refl (s : State) : CappedSince s s := ⟨[], (List.append_nil _).symm, nofun⟩

/-- A chunk the atomic step issues is within the cap; one already on the bus is not issued again. -/
def Atom.issuesCapped (a : Atom) : Prop := a.capped = true ∨ ∃ c, a = .await c

theorem Atom.issuesCapped.records {a : Atom} (h : a.issuesCapped) (c : Config) (w : Width) :
    ∀ x ∈ a.records c w, 1 ≤ x.len ∧ x.len ≤ 65535 := by
  intro x hx
  cases a with
  | command op =>
    obtain rfl := List.mem_singleton.1 hx
    exact (by decide : 1 ≤ 1 ∧ 1 ≤ 65535)
  | chunk src len =>
    obtain rfl := List.mem_singleton.1 hx
    have hcap : (Atom.chunk src len).capped = true := h.resolve_right (by simp)
    simp only [Atom.capped, Bool.and_eq_true, decide_eq_true_eq] at hcap
    exact hcap
  | _ => cases hx

/-- Whatever the bus reports: steps whose chunks are within the cap put no other record on the port. -/
theorem run_cappedSince {s u t : State} {as : List Atom} (hu : CappedSince s u) (hcap : ∀ a ∈ as, a.issuesCapped)
    (h : run as u = .next t) : CappedSince s t := by
  refine run_each (p := fun as v => CappedSince s v ∧ ∀ a ∈ as, a.issuesCapped) ?_ ?_ ⟨hu, hcap⟩ h
  · exact fun v hv => hv.1.of_eq (complete_closes (endRequest v)).xfers
  rintro a as v ⟨⟨xs, hxs, hcapped⟩, has⟩
  have hrest : ∀ b ∈ as, b.issuesCapped := fun b hb => has b (List.mem_cons_of_mem _ hb)
  have hnew : ∀ w : State, w.xfers = v.xfers ++ a.records v.cfg v.ww → CappedSince s w := fun w hw =>
    ⟨xs ++ a.records v.cfg v.ww, by rw [hw, hxs, List.append_assoc], fun x hx => (List.mem_append.1 hx).elim (hcapped x)
      ((has a (List.mem_cons_self ..)).records _ _ x)⟩
  obtain ⟨w, hw⟩ | ⟨c, w, hbus⟩ := atom_cases a v
  · rw [hw.atom]
    exact ⟨hnew w hw.xfers, hrest⟩
  · have hw' := hnew w hbus.issues.xfers
    rw [hbus.issues.atom]
    refine (settle_each c w).imp ?_ ?_ ?_
    · exact fun x ⟨es, hx⟩ => ⟨hw'.of_eq hx.xfers, hrest⟩
    · exact fun b x hx => hw'.of_eq hx.xfers
    · exact fun x ⟨es, hx⟩ => hw'.of_eq hx.xfers

theorem exec_cappedSince {i : Instr} {s t : State} (h : exec i s = .next t) : CappedSince s t := by
  rw [exec_eq_request] at h
  exact run_cappedSince (u := begin s) (CappedSince.refl s)
    (fun a ha => .inl (List.all_eq_true.1 (capped_stepsOf i s.cfg) a ha)) h

/-- The invariant of a running request, as the cap sees it (R124). -/
theorem phaseInv_issuesCapped {s : State} {todo : List Atom} (h : phaseInv s) (hp : s.phase = .running todo) :
    ∀ a ∈ todo, a.issuesCapped := by
  unfold phaseInv at h
  rw [hp] at h
  split at h
  · rename_i hidle
    cases hidle
  · rename_i c as has
    cases has
    obtain ⟨-, -, -, -, -, hcap⟩ := h
    intro a ha
    obtain rfl | ha := List.mem_cons.1 ha
    · exact .inr ⟨c, rfl⟩
    · exact .inl (List.all_eq_true.1 hcap a ha)
  · rename_i bs hne hbs
    cases hbs
    exact fun a ha => .inl (List.all_eq_true.1 h.2.2.2 a ha)

/-- Settles O23: every chunk of a request is within the cap, from its start and from a hold; the other steps issue none. -/
theorem chunkCap : Obligations.ChunkCap := by
  refine ⟨fun i s t h => (exec_cappedSince h).newRecords, fun s t hinv h => CappedSince.newRecords ?_⟩
  obtain ⟨-, ⟨k, -, rfl⟩ | ⟨-, todo, hp, hr⟩ | ⟨-, -, -, rfl⟩ | ⟨-, -, d, later, i, -, -, he⟩ |
    ⟨-, -, d, later, e, -, -, rfl⟩⟩ := step_cases h
  · obtain ⟨es, hes, -⟩ := resetStep_closes k s
    exact (CappedSince.refl s).of_eq hes.xfers
  · exact run_cappedSince (CappedSince.refl s) (phaseInv_issuesCapped hinv.phase hp) hr
  · exact CappedSince.refl s
  · exact exec_cappedSince (s := accept d later s) he
  · exact (CappedSince.refl s).of_eq (abort_closes _ (landWrites (accept d later s))).xfers

/-! ### A chunk that never completes (R126, R307) -/

theorem hostElems_congr {s t : State} (hc : t.cfg.hostEndian = s.cfg.hostEndian) (hm : t.mem = s.mem)
    (hw : t.hostWrites = s.hostWrites) (w : Width) (n a k : Nat) : hostElems t w n a k = hostElems s w n a k := by
  induction n generalizing a k with
  | zero => rfl
  | succ n ih =>
    have hone : hostElem t w a k = hostElem s w a k := by
      unfold hostElem admittedElem admitted
      rw [hc, hm, hw]
    rw [hostElems, hostElems, hone, ih]

/-- Whether elements can be read does not depend on the counter of free values (log 5). -/
theorem hostElems_counter {s : State} {w : Width} {n a k : Nat} {vs : List Word} (h : hostElems s w n a k = .ok vs)
    (j : Nat) : ∃ us, hostElems s w n a j = .ok us := by
  induction n generalizing a k j vs with
  | zero => exact ⟨[], rfl⟩
  | succ n ih =>
    obtain ⟨hadm, v, hv⟩ | ⟨-, hno⟩ := hostElem_cases s w a k
    · rw [hostElems, hv] at h
      obtain ⟨u, hu⟩ := ((hostElem_cases s w a j).resolve_right fun hno => hno.1 hadm).2
      dsimp only at h
      split at h
      · cases h
      · rename_i vs hvs
        obtain ⟨us, hus⟩ := ih hvs (j + 1)
        exact ⟨u :: us, by rw [hostElems, hu]; dsimp only; rw [hus]⟩
    · rw [hostElems, hno] at h
      cases h

theorem chunkValues_counter {c : Chunk} {s : State} {vs : List Word} (h : chunkValues c s = .ok vs) (k : Nat) :
    ∃ us, chunkValues c (s.setFresh k) = .ok us := by
  obtain ⟨src, n, w, p⟩ := c
  cases src with
  | host =>
    obtain ⟨us, hus⟩ := hostElems_counter h k
    exact ⟨us, (hostElems_congr (s := s) (t := s.setFresh k) rfl rfl rfl _ _ _ _).trans hus⟩
  | _ => exact ⟨_, rfl⟩

theorem Core.run_succ {M : Host.Core} {s t : M.State} (h : M.step s = .next t) (k : Nat) : M.run (k + 1) s = M.run k t := by
  rw [Host.Core.run, h]

/-- A step of a hold whose report is never: the counter of free values alone moves (log 7). -/
theorem step_never {s : State} {c : Chunk} {todo : List Atom} {vs : List Word} {rs : List BusReport}
    (hok : s.cfg.ok = true) (hreset : s.resetIn = none) (hp : s.phase = .running (.await c :: todo))
    (hpath : c.path = .async) (hv : chunkValues c s = .ok vs) (hrs : s.reports = .never :: rs) :
    step s = .next (s.setFresh (s.fresh + c.len)) := by
  have hsettle : atom (.await c) s = .held (.await c) (reported c s) := by
    show settle c s = _
    rw [settle, hv]
    simp [nextReport, hrs, chunkEnd, hpath, reported]
  have hsame : (reported c s).setPhase (.running (.await c :: todo)) = s.setFresh (s.fresh + c.len) := by
    rw [reported, hrs, restReports, ← hrs, ← hp]
    rfl
  simp [step, cycle, hok, hreset, hp, run, hsettle, hsame]

/-- Settles O27: each step of the hold leaves a state that meets the same conditions. -/
theorem neverCompletedHangs : Obligations.NeverCompletedHangs := by
  intro s c todo vs rs hok hreset hp hpath hv hrs k
  induction k generalizing s vs with
  | zero => exact ⟨s, rfl, by rw [State.busy, hp], rfl, rfl⟩
  | succ k ih =>
    obtain ⟨us, hus⟩ := chunkValues_counter hv (s.fresh + c.len)
    obtain ⟨t, ht, hbusy, hwire, hout⟩ := ih (s.setFresh (s.fresh + c.len)) us hok hreset hp hus hrs
    refine ⟨t, ?_, hbusy, hwire, hout⟩
    exact (Core.run_succ (M := Sys2Proof.core) (step_never hok hreset hp hpath hv hrs) k).trans ht

end Sys2Proof.Machine
end

section
/-! PROOFS. The chunk records of requests whose chunks complete (spec 40 R124, R125, R127, R128; 41 R153; 42 R180 to R186): the
records of a list of atomic steps, of each primitive, and of each request. -/

namespace Sys2Proof.Machine

/-! ### The records of atomic steps -/

theorem widthAfter_append (as bs : List Atom) (w : Width) :
    widthAfter (as ++ bs) w = widthAfter bs (widthAfter as w) := by
  induction as generalizing w with
  | nil => rfl
  | cons a as ih => cases a <;> exact ih _

/-- The records of atomic steps whose chunks complete, from a width on. -/
def stepsRecords (c : Config) : List Atom → Width → List Xfer
  | [], _ => []
  | a :: as, w => a.records c w ++ stepsRecords c as (widthAfter [a] w)

theorem stepsRecords_append (c : Config) (as bs : List Atom) (w : Width) :
    stepsRecords c (as ++ bs) w = stepsRecords c as w ++ stepsRecords c bs (widthAfter as w) := by
  induction as generalizing w with
  | nil => rfl
  | cons a as ih =>
    rw [List.cons_append, stepsRecords, ih, stepsRecords, List.append_assoc, ← widthAfter_append, List.singleton_append]

/-- Where every chunk completes, a run that ends has put the records of its steps on the port. -/
theorem run_records {as : List Atom} {s t : State} (hq : Quiet s) (h : run as s = .next t) :
    t.xfers = s.xfers ++ stepsRecords s.cfg as s.ww := by
  generalize hall : s.xfers ++ stepsRecords s.cfg as s.ww = all
  refine run_each (q := fun v => v.xfers = all) (p := fun bs v => Quiet v ∧ v.cfg = s.cfg ∧
    v.xfers ++ stepsRecords s.cfg bs v.ww = all) ?_ ?_ ⟨hq, rfl, hall⟩ h
  · rintro v ⟨-, -, hv⟩
    exact (complete_closes (endRequest v)).xfers.trans ((List.append_nil _).symm.trans hv)
  · rintro a as v ⟨hqv, hcfg, hv⟩
    rw [stepsRecords, ← List.append_assoc] at hv
    obtain ⟨w, hw⟩ | ⟨c, w, hbus⟩ := atom_cases a v
    · rw [hw.atom]
      refine ⟨fun r hr => hqv r (hw.reports ▸ hr), hw.host.cfg.trans hcfg, ?_⟩
      rw [hw.xfers, hw.ww, hcfg, hv]
    · have hw := hbus.issues
      rw [hw.atom]
      have hqw : Quiet w := fun r hr => hqv r (hw.reports ▸ hr)
      cases hvs : chunkValues c w with
      | error f =>
        rw [settle_stuck hvs]
        trivial
      | ok vs =>
        rw [settle_quiet hvs hqw]
        have hs := settled_sends c vs w
        refine ⟨fun r hr => hqw r (mem_restReports (settled_reports c vs w ▸ hr)), hs.cfg.trans (hw.host.cfg.trans hcfg), ?_⟩
        rw [hs.xfers, hs.ww, hw.xfers, hw.ww, hcfg, hv]

/-! ### The records of each primitive -/

/-- The lengths of `splitBy` one by one: what is left of `n`, cut to the cap (R124, R128). -/
theorem splitBy_eq_range {cap : Nat} (hcap : 0 < cap) (n : Nat) :
    splitBy cap n = (List.range ((n + cap - 1) / cap)).map fun j => min cap (n - cap * j) := by
  have hn := Nat.div_add_mod n cap
  have hlt := Nat.mod_lt n hcap
  have hfull : ∀ j ∈ List.range (n / cap), cap = min cap (n - cap * j) := by
    intro j hj
    have := Nat.mul_le_mul_left cap (List.mem_range.1 hj)
    rw [Nat.mul_succ] at this
    omega
  have hmap : List.replicate (n / cap) cap = (List.range (n / cap)).map fun j => min cap (n - cap * j) := by
    rw [← List.map_congr_left hfull, List.map_const', List.length_range]
  rw [splitBy, hmap]
  split
  · rename_i h0
    have hdiv : (n + cap - 1) / cap = n / cap := Nat.div_eq_of_lt_le (by rw [Nat.mul_comm]; omega)
      (by rw [Nat.succ_mul, Nat.mul_comm]; omega)
    rw [hdiv, List.append_nil]
  · rename_i h0
    have hdiv : (n + cap - 1) / cap = n / cap + 1 := Nat.div_eq_of_lt_le (by rw [Nat.succ_mul, Nat.mul_comm]; omega)
      (by rw [Nat.succ_mul, Nat.succ_mul, Nat.mul_comm]; omega)
    rw [hdiv, List.range_succ, List.map_append, List.map_singleton]
    congr 2
    omega

theorem stepsRecords_chunks (c : Config) (src : Source) (ls : List Nat) (w : Width) :
    stepsRecords c (ls.map (Atom.chunk src) ++ [.endData]) w = ls.map (recordOf c w) := by
  induction ls with
  | nil => rfl
  | cons l ls ih => exact congrArg (_ :: ·) ih

theorem stepsRecords_sendData (c : Config) (src : Source) (n : Nat) (p : Option Long) (w : Width) :
    stepsRecords c (sendData src n p) w = (splitBy maxChunk n).map (recordOf c w) := by
  unfold sendData
  split
  · rename_i h0
    rw [h0, splitBy_zero]
    rfl
  · exact stepsRecords_chunks c src _ w

theorem dataRecords_eq (c : Config) (w : Width) (n : Nat) :
    dataRecords c w n = (splitBy maxChunk n).map (recordOf c w) := by
  have hceil : n + maxChunk - 1 = n + 65534 := by
    unfold maxChunk
    omega
  rw [splitBy_eq_range (by decide), List.map_map, hceil]
  rfl

theorem widthAfter_sendData (src : Source) (n : Nat) (p : Option Long) (w : Width) : widthAfter (sendData src n p) w = w := by
  have hchunks : ∀ ls : List Nat, widthAfter (ls.map (Atom.chunk src) ++ [.endData]) w = w := by
    intro ls
    induction ls with
    | nil => rfl
    | cons l ls ih => exact ih
  unfold sendData
  split
  · rfl
  · exact hchunks _

theorem stepsRecords_with16 (c : Config) (body : List Atom) :
    stepsRecords c (with16 body) .w8 = stepsRecords c body .w16 :=
  (stepsRecords_append c body [.width .w8] .w16).trans (List.append_nil _)

/-- Every primitive of every request closes its width brackets (R129). -/
theorem widthAfter_expand (c : Config) (k : Task) : widthAfter (expand c k) .w8 = .w8 := by
  refine expand_induct (P := fun as => widthAfter as .w8 = .w8) rfl ?_ ?_ (fun _ _ _ => widthAfter_sendData _ _ _ _) ?_ c k
  · intro as bs has hbs
    rw [widthAfter_append, has, hbs]
  · intro a ha
    cases a with
    | chunk src len => cases ha
    | await c => cases ha
    | width w => cases ha
    | _ => rfl
  · intro body _
    exact widthAfter_append (.width .w16 :: body) [.width .w8] .w8

theorem stepsRecords_windowGroup (c : Config) (x0 y0 x1 y1 : Int) (as : List Atom) :
    stepsRecords c (windowGroup c x0 y0 x1 y1 ++ as) .w8 = windowRecords c ++ stepsRecords c as .w8 := by
  rfl

theorem stepsRecords_guarded (c : Config) (x0 y0 x1 y1 : Int) (body : List Atom) :
    stepsRecords c (guarded c x0 y0 x1 y1 body) .w8 =
      if accepts c x0 y0 x1 y1 then windowRecords c ++ stepsRecords c body .w8 else [] := by
  unfold guarded
  split
  · exact stepsRecords_windowGroup c x0 y0 x1 y1 body
  · rfl

/-- The blocks of `Fill`: each is shorter than the cap, so it is one chunk (R183). -/
theorem stepsRecords_blocks (c : Config) {ls : List Nat} (hls : ∀ k ∈ ls, 1 ≤ k ∧ k < maxChunk) (w : Width) :
    stepsRecords c (ls.flatMap fun k => sendData .block k none) w = ls.map (recordOf c w) := by
  induction ls with
  | nil => rfl
  | cons k ls ih =>
    obtain ⟨h1, h2⟩ := hls k (by simp)
    rw [List.flatMap_cons, stepsRecords_append, stepsRecords_sendData, splitBy_small (by omega) h2, widthAfter_sendData,
      ih fun j hj => hls j (List.mem_cons_of_mem _ hj)]
    rfl

theorem stepsRecords_fillData {c : Config} (hfill : c.fillStrategy.ok = true) (v : Word) (n : Nat) :
    stepsRecords c (fillData c v n) .w16 = fillRecords c n := by
  unfold fillData fillRecords
  cases hs : c.fillStrategy with
  | block b =>
    obtain ⟨h1, h64⟩ := (FillStrategy.ok_iff _).1 hfill b hs
    have hblocks := stepsRecords_blocks c (ls := splitBy b n) (w := .w16) fun k hk => by
      obtain ⟨hk1, hkb⟩ := splitBy_mem h1 hk
      exact ⟨hk1, by unfold maxChunk; omega⟩
    rw [splitBy_eq_range h1, List.map_map] at hblocks
    dsimp only
    rw [splitBy_eq_range h1]
    exact hblocks
  | fixedSource => exact (stepsRecords_sendData c _ n none .w16).trans (dataRecords_eq c .w16 n).symm

theorem stepsRecords_data (c : Config) (w : Width) (n : Nat) (src : Long) :
    stepsRecords c (expand c (.data w n src)) .w8 = dataRecords c w n := by
  rw [dataRecords_eq]
  cases w with
  | w8 => exact stepsRecords_sendData c .host n (some src) .w8
  | w16 => exact (stepsRecords_with16 c _).trans (stepsRecords_sendData c .host n (some src) .w16)

/-- The records of a primitive are those of its steps. -/
theorem stepsRecords_expand {c : Config} (hfill : c.fillStrategy.ok = true) (k : Task) :
    stepsRecords c (expand c k) .w8 = taskRecords c k := by
  cases k with
  | lineRegs r => rfl
  | circleRegs r => rfl
  | triRegs r => rfl
  | window x0 y0 x1 y1 => exact (stepsRecords_guarded ..).trans (by rw [stepsRecords, List.append_nil]; rfl)
  | plot x y v =>
    refine (stepsRecords_guarded ..).trans ?_
    rw [accepts_point, stepsRecords_with16, stepsRecords_sendData]
    rfl
  | fill x0 y0 x1 y1 v =>
    refine (stepsRecords_guarded ..).trans ?_
    rw [stepsRecords_with16, stepsRecords_fillData hfill]
    rfl
  | blit x y w h src =>
    refine (stepsRecords_guarded ..).trans ?_
    rw [stepsRecords_with16, stepsRecords_sendData, ← dataRecords_eq]
    rfl
  | command op => rfl
  | data w n src => exact stepsRecords_data c w n src

/-! ### The records of each request -/

theorem stepsRecords_flatMap {c : Config} {ts : List Task}
    (h : ∀ k ∈ ts, stepsRecords c (expand c k) .w8 = taskRecords c k) :
    stepsRecords c (ts.flatMap (expand c)) .w8 = ts.flatMap (taskRecords c) := by
  induction ts with
  | nil => rfl
  | cons k ts ih =>
    rw [List.flatMap_cons, stepsRecords_append, widthAfter_expand, h k (by simp),
      ih fun j hj => h j (List.mem_cons_of_mem _ hj), List.flatMap_cons]

theorem newRecords_exec {i : Instr} {s t : State} (hs : Ready s) (hq : Quiet s) (h : exec i s = .next t)
    (hrec : ∀ k ∈ planOf i, stepsRecords s.cfg (expand s.cfg k) .w8 = taskRecords s.cfg k) :
    newRecords s t = (planOf i).flatMap (taskRecords s.cfg) := by
  rw [exec_eq_request] at h
  have hx := run_records (s := begin s) hq h
  have hww : (begin s).ww = .w8 := hs.ww
  rw [hww] at hx
  rw [← stepsRecords_flatMap hrec, newRecords, hx]
  exact List.drop_left

/-- Settles O24: the records of the one `SendData`, after that of the command where there is one. -/
theorem dataChunks : Obligations.DataChunks := by
  intro s t hs hq
  refine ⟨fun op n src h => ?_, fun n src h => ?_, fun n src h => ?_⟩
  · have hrec := newRecords_exec hs hq h fun k hk => by
      obtain rfl | rfl : k = .command op ∨ k = .data .w8 n.toNat src := by simpa [planOf, planCmd] using hk
      · rfl
      · exact stepsRecords_data _ _ _ _
    rw [hrec, planOf, planCmd, List.flatMap_cons, List.flatMap_singleton, taskRecords, taskRecords]
    rfl
  · have hrec := newRecords_exec hs hq h fun k hk => by
      obtain rfl : k = .data .w8 n.toNat src := by simpa [planOf, planData8] using hk
      exact stepsRecords_data _ _ _ _
    rw [hrec, planOf, planData8, List.flatMap_singleton, taskRecords]
  · have hrec := newRecords_exec hs hq h fun k hk => by
      obtain rfl : k = .data .w16 n.toNat src := by simpa [planOf, planData16] using hk
      exact stepsRecords_data _ _ _ _
    rw [hrec, planOf, planData16, List.flatMap_singleton, taskRecords]

theorem newRecords_exec_ok {i : Instr} {s t : State} (hcfg : s.cfg.ok = true) (hs : Ready s) (hq : Quiet s)
    (h : exec i s = .next t) : newRecords s t = (planOf i).flatMap (taskRecords s.cfg) :=
  newRecords_exec hs hq h fun k _ => stepsRecords_expand (Config.fillStrategy_ok hcfg) k

/-- The number of samples of an accepted FILLRECT, in its own operands (R185). -/
theorem fill_count {c : Config} {x0 y0 x1 y1 : Word} (h : accepts c (zint x0) (zint y0) (zint x1) (zint y1) = true) :
    ((zint x1 - zint x0 + 1) * (zint y1 - zint y0 + 1)).toNat =
      (x1.toNat - x0.toNat + 1) * (y1.toNat - y0.toNat + 1) := by
  obtain ⟨-, hx, -, -, hy, -⟩ := (accepts_iff ..).1 h
  have hw : zint x1 - zint x0 + 1 = ((x1.toNat - x0.toNat + 1 : Nat) : Int) := by
    unfold zint at *
    omega
  have hh : zint y1 - zint y0 + 1 = ((y1.toNat - y0.toNat + 1 : Nat) : Int) := by
    unfold zint at *
    omega
  rw [hw, hh, ← Int.natCast_mul, Int.toNat_natCast]

/-- Settles O37: the records of the plan's primitives; FILLRECT and BLIT are one primitive each. -/
theorem fillChunks : Obligations.FillChunks := by
  refine ⟨fun c w len => ?_, fun i s t hcfg hs hq h => newRecords_exec_ok hcfg hs hq h, ?_, ?_⟩
  · unfold recordOf
    dsimp only
    split <;> simp_all
  · intro x0 y0 x1 y1 color s t hcfg hs hq hacc h
    refine (newRecords_exec_ok hcfg hs hq h).trans ((List.append_nil _).trans ?_)
    rw [taskRecords, if_pos hacc, fill_count hacc]
  · intro x y w h src s t hcfg hs hq hacc hexec
    refine (newRecords_exec_ok hcfg hs hq hexec).trans ((List.append_nil _).trans ?_)
    rw [taskRecords, if_pos hacc, blit_count]

end Sys2Proof.Machine
end

section
/-! PROOFS. What of the state the wire does not depend on (spec 40 R125, R126, R131): two machines that differ only in the
asynchronous path, the records, the reports, the counter of free values and the registers left free run side by side, and put
the same elements on the wire. -/

namespace Sys2Proof.Machine

/-! ### Two machines side by side -/

/-- The parts of the state that no element depends on, where no raced element is read. -/
structure Backstage where
  available : Bool
  bulkMin : Nat
  xfers : List Xfer
  async : Bool
  reports : List BusReport
  fresh : Nat
  xp : Transport
  phase : Phase

/-- The state with other such parts. -/
def State.under (s : State) (b : Backstage) : State :=
  { s with
    cfg := { s.cfg with asyncAvailable := b.available, bulkMin := b.bulkMin }
    xfers := b.xfers
    asyncInflight := b.async
    reports := b.reports
    fresh := b.fresh
    xp := b.xp
    phase := b.phase }

/-- These parts of a state. -/
def backstage (s : State) : Backstage where
  available := s.cfg.asyncAvailable
  bulkMin := s.cfg.bulkMin
  xfers := s.xfers
  async := s.asyncInflight
  reports := s.reports
  fresh := s.fresh
  xp := s.xp
  phase := s.phase

theorem openTxn_under (s : State) (b : Backstage) : openTxn (s.under b) = (openTxn s).under b := by
  have hcs : (s.under b).csOut = s.csOut := rfl
  unfold openTxn
  rw [hcs]
  split <;> rfl

theorem closeTxn_under (s : State) (b : Backstage) : closeTxn (s.under b) = (closeTxn s).under b := by
  have hcs : (s.under b).csOut = s.csOut := rfl
  unfold closeTxn
  rw [hcs]
  split <;> rfl

/-- The steps of a primitive do not depend on the path. -/
theorem expand_under (s : State) (b : Backstage) : expand (s.under b).cfg = expand s.cfg := by
  funext k
  cases k with
  | data w n src => cases w <;> rfl
  | _ => rfl

/-! ### One atomic step, side by side -/

/-- The path of a chunk in these parts (R125). -/
def Backstage.path (b : Backstage) (len : Nat) : Path :=
  if b.available = true ∧ b.bulkMin ≤ len then .async else .sync

/-- These parts with a chunk issued. -/
def Backstage.issue (b : Backstage) (w : Width) (len : Nat) : Backstage :=
  { b with
    xfers := b.xfers ++ [⟨b.path len, w, len⟩]
    async := if b.path len = .async then true else b.async }

/-- What an atomic step writes of these parts before a chunk of it settles. -/
def Backstage.after (b : Backstage) (w : Width) : Atom → Backstage
  | .startData n p => { b with xp := { b.xp with remain := BitVec.ofNat 32 n, ptr := p.getD b.xp.ptr } }
  | .endData => { b with xp := Config.freeTransport b.fresh, fresh := b.fresh + 1 }
  | .command _ => b.issue .w8 1
  | .chunk _ len => { b with xp := { b.xp with chunkLen := BitVec.ofNat 16 len } }.issue w len
  | .await _ => b
  | .lineRegs _ => b
  | .circleRegs _ => b
  | .triRegs _ => b
  | .loadBlock _ _ => b
  | .setWindow _ _ _ _ => b
  | .width _ => b

theorem issued_under (len : Nat) (w : Width) (s : State) (b : Backstage) :
    issued len w (s.under b) = (issued len w s).under (b.issue w len) := by
  have hpath : pathFor (s.under b).cfg len = b.path len := rfl
  unfold issued Backstage.issue
  dsimp only
  rw [hpath]
  split <;> split <;> rfl

/-- A step that writes registers writes the same ones. -/
theorem Writes.under {a : Atom} {s t : State} (h : Writes a s t) (b : Backstage) :
    Machine.atom a (s.under b) = .go (t.under (b.after s.ww a)) := by
  have hatom := h.atom
  have hissues := h.issues
  cases a with
  | startData n p =>
    cases hatom
    show Progress.go _ = _
    rw [openTxn_under]
    rfl
  | setWindow x0 y0 x1 y1 =>
    obtain rfl : _ = t := Progress.go.inj hatom
    show Progress.go (if accepts s.cfg x0 y0 x1 y1 then _ else _) = _
    split <;> rfl
  | command op => cases hissues
  | chunk src len => cases hissues
  | await c => cases hissues
  | _ =>
    cases hatom
    rfl

/-- A step with a chunk on the bus has the same chunk there, on a path of its own. -/
theorem OnBus.under {a : Atom} {s t : State} {c : Chunk} (h : OnBus a s c t) (b : Backstage) :
    ∃ p, OnBus a (s.under b) { c with path := p } (t.under (b.after s.ww a)) := by
  cases h with
  | command op =>
    refine ⟨pathFor (s.under b).cfg 1, ?_⟩
    have ht : issued 1 .w8 ((openTxn (s.under b)).setDc .command) =
        (issued 1 .w8 ((openTxn s).setDc .command)).under (b.issue .w8 1) := by
      rw [openTxn_under]
      exact issued_under 1 .w8 ((openTxn s).setDc .command) b
    exact ht ▸ OnBus.command op (s.under b)
  | chunk src len =>
    refine ⟨pathFor (s.under b).cfg len, ?_⟩
    have ht : chunkIssued len (s.under b) = (chunkIssued len s).under (b.after s.ww (.chunk src len)) :=
      issued_under len s.ww (s.setXp { s.xp with chunkLen := BitVec.ofNat 16 len })
        { b with xp := { b.xp with chunkLen := BitVec.ofNat 16 len } }
    exact ht ▸ OnBus.chunk src len (s.under b)
  | await => exact ⟨c.path, OnBus.await c (s.under b)⟩

/-- The transport registers after a chunk (R128). -/
def Chunk.advance (c : Chunk) (x : Transport) : Transport :=
  match c.src with
  | .command _ => x
  | .host => { x with ptr := x.ptr + BitVec.ofNat 32 (c.len * c.width.bytes), remain := x.remain - BitVec.ofNat 32 c.len }
  | .bytes _ => { x with remain := x.remain - BitVec.ofNat 32 c.len }
  | .cell _ => { x with remain := x.remain - BitVec.ofNat 32 c.len }
  | .block => { x with remain := x.remain - BitVec.ofNat 32 c.len }

theorem afterChunk_advance (c : Chunk) (s : State) : afterChunk c s = s.setXp (c.advance s.xp) := by
  obtain ⟨src, n, w, p⟩ := c
  cases src <;> rfl

theorem settled_xp (c : Chunk) (vs : List Word) (s : State) : (settled c vs s).xp = c.advance s.xp := by
  unfold settled
  rw [afterChunk_advance]
  split <;> rfl

/-- What a chunk's completion writes of these parts. -/
def Backstage.settle (b : Backstage) (c : Chunk) : Backstage :=
  { b with
    async := if c.path = .async then false else b.async
    reports := restReports b.reports
    fresh := b.fresh + c.len
    xp := c.advance b.xp }

/-- A chunk that completes with the same values leaves the same elements, whatever its path. -/
theorem settled_under (c : Chunk) (p : Path) (vs : List Word) (s : State) (b : Backstage) :
    settled { c with path := p } vs (s.under b) = (settled c vs s).under (b.settle { c with path := p }) := by
  unfold settled Backstage.settle
  dsimp only
  rw [afterChunk_advance, afterChunk_advance]
  split <;> split <;> rfl

/-- A chunk reads the same values where the registers and the counter it reads them by are the same. -/
theorem chunkValues_under (c : Chunk) (p : Path) {s : State} {b : Backstage} (hfresh : b.fresh = s.fresh)
    (hxp : b.xp = s.xp) : chunkValues { c with path := p } (s.under b) = chunkValues c s := by
  obtain ⟨src, n, w, q⟩ := c
  cases src with
  | host =>
    show hostElems (s.under b) w n b.xp.ptr.toNat b.fresh = hostElems s w n s.xp.ptr.toNat s.fresh
    rw [hfresh, hxp]
    exact hostElems_congr (s := s) (t := s.under b) rfl rfl rfl w n _ _
  | _ => rfl

theorem complete_endRequest_under (s : State) (b : Backstage) (hfresh : b.fresh = s.fresh) :
    complete (endRequest (s.under b)) = (complete (endRequest s)).under
      { b with xp := Config.freeTransport b.fresh, fresh := b.fresh + 1, phase := .idle } := by
  have hend : endRequest (s.under b) =
      (endRequest s).under { b with xp := Config.freeTransport b.fresh, fresh := b.fresh + 1 } := by
    unfold endRequest releaseDatapath landWrites
    rw [show (s.under b).fresh = s.fresh from hfresh, hfresh]
    rfl
  rw [hend, complete, closeTxn_under]
  rfl

/-! ### The asynchronous path (R131) -/

/-- These parts differ from a state's in the path alone: its records and `ASYNC_INFLIGHT`. -/
structure Synced (b : Backstage) (s : State) : Prop where
  reports : b.reports = s.reports
  fresh : b.fresh = s.fresh
  xp : b.xp = s.xp
  phase : b.phase = s.phase

theorem Synced.quiet {b : Backstage} {s : State} (h : Synced b s) (hq : Quiet s) : Quiet (s.under b) :=
  fun r hr => hq r (h.reports ▸ hr)

theorem Synced.openTxn {b : Backstage} {s : State} (h : Synced b s) : Synced b (openTxn s) := by
  unfold Machine.openTxn
  split
  · exact h
  · exact { h with }

theorem Synced.closeTxn {b : Backstage} {s : State} (h : Synced b s) : Synced b (closeTxn s) := by
  unfold Machine.closeTxn
  split
  · exact { h with }
  · exact h

theorem Synced.issued {b : Backstage} {s : State} (h : Synced b s) (len : Nat) (w : Width) :
    Synced (b.issue w len) (issued len w s) := by
  obtain ⟨hk, -, hxp, -, -, -, -, -, -, -, hreports, hfresh⟩ := issued_fields len w s
  exact ⟨h.reports.trans hreports.symm, h.fresh.trans hfresh.symm, h.xp.trans hxp.symm, h.phase.trans hk.phase.symm⟩

theorem Synced.writes {b : Backstage} {a : Atom} {s t : State} (h : Synced b s) (k : Writes a s t) :
    Synced (b.after s.ww a) t := by
  have hatom := k.atom
  have hissues := k.issues
  cases a with
  | startData n p =>
    cases hatom
    have ho := h.openTxn
    exact ⟨ho.reports, ho.fresh, by rw [Backstage.after, ho.xp]; rfl, ho.phase⟩
  | setWindow x0 y0 x1 y1 =>
    obtain rfl : _ = t := Progress.go.inj hatom
    split <;> exact { h with }
  | endData =>
    cases hatom
    exact ⟨h.reports, by rw [Backstage.after, h.fresh]; rfl, by rw [Backstage.after, h.fresh]; rfl, h.phase⟩
  | command op => cases hissues
  | chunk src len => cases hissues
  | await c => cases hissues
  | _ =>
    cases hatom
    exact { h with }

theorem Synced.onBus {b : Backstage} {a : Atom} {s t : State} {c : Chunk} (h : Synced b s) (k : OnBus a s c t) :
    Synced (b.after s.ww a) t := by
  cases k with
  | command op => exact Synced.issued (s := (Machine.openTxn s).setDc .command) { h.openTxn with } 1 .w8
  | chunk src len =>
    refine Synced.issued (s := s.setXp { s.xp with chunkLen := BitVec.ofNat 16 len }) ?_ len s.ww
    exact ⟨h.reports, h.fresh, by rw [h.xp]; rfl, h.phase⟩
  | await => exact h

theorem Synced.settled {b : Backstage} {s : State} (h : Synced b s) (c : Chunk) (p : Path) (vs : List Word) :
    Synced (b.settle { c with path := p }) (settled c vs s) := by
  unfold Machine.settled
  rw [afterChunk_advance]
  split <;> exact ⟨congrArg restReports h.reports, congrArg (· + c.len) h.fresh, congrArg c.advance h.xp, h.phase⟩

theorem Synced.complete {b : Backstage} {s : State} (h : Synced b s) :
    Synced { b with xp := Config.freeTransport b.fresh, fresh := b.fresh + 1, phase := .idle }
      (complete (endRequest s)) := by
  have hend : Synced { b with xp := Config.freeTransport b.fresh, fresh := b.fresh + 1 } (endRequest s) :=
    ⟨h.reports, congrArg (· + 1) h.fresh, congrArg Config.freeTransport h.fresh, h.phase⟩
  have hclose := hend.closeTxn
  exact ⟨hclose.reports, hclose.fresh, hclose.xp, rfl⟩

theorem run_go {a : Atom} {s t : State} (h : atom a s = .go t) (as : List Atom) : run (a :: as) s = run as t :=
  GoesTo.one h as

/-- Where every chunk completes, two such machines run alike: to such ends, or to the same fault. -/
theorem run_under {as : List Atom} {s : State} {b : Backstage} (hq : Quiet s) (hb : Synced b s) :
    (∃ t b', run as s = .next t ∧ run as (s.under b) = .next (t.under b') ∧ Synced b' t) ∨
    ∃ f, run as s = .fault f ∧ run as (s.under b) = .fault f := by
  induction as generalizing s b with
  | nil =>
    exact .inl ⟨_, _, rfl, congrArg _ (complete_endRequest_under s b hb.fresh), hb.complete⟩
  | cons a as ih =>
    obtain ⟨t, hw⟩ | ⟨c, t, hbus⟩ := atom_cases a s
    · have hqt : Quiet t := fun r hr => hq r (hw.reports ▸ hr)
      rw [run_go hw.atom, run_go (hw.under b)]
      exact ih hqt (hb.writes hw)
    · obtain ⟨p, hbus'⟩ := hbus.under b
      have hbt := hb.onBus hbus
      have hqt : Quiet t := fun r hr => hq r (hbus.issues.reports ▸ hr)
      have hsame := chunkValues_under c p hbt.fresh hbt.xp
      cases hv : chunkValues c t with
      | error f =>
        refine .inr ⟨f, Sticks.one (hbus.issues.atom.trans (settle_stuck hv)) as, ?_⟩
        exact Sticks.one (hbus'.issues.atom.trans (settle_stuck (hsame.trans hv))) as
      | ok vs =>
        rw [run_go (hbus.issues.atom.trans (settle_quiet hv hqt)),
          run_go (hbus'.issues.atom.trans (settle_quiet (hsame.trans hv) (hbt.quiet hqt))), settled_under]
        exact ih (fun r hr => hqt r (mem_restReports (settled_reports c vs t ▸ hr))) (hbt.settled c p vs)

theorem exec_under {i : Instr} {s : State} {b : Backstage} (hq : Quiet s) (hb : Synced b s) :
    (∃ t b', exec i s = .next t ∧ exec i (s.under b) = .next (t.under b') ∧ Synced b' t) ∨
    ∃ f, exec i s = .fault f ∧ exec i (s.under b) = .fault f := by
  rw [exec_eq_request, exec_eq_request, request, request, expand_under]
  exact run_under (s := begin s) hq { hb with }

/-- Settles O25: the two machines differ at their ends as at their starts, in the parts of the path alone. -/
theorem pathInvisible : Obligations.PathInvisible := by
  intro i s available bulkMin hq
  have hpath : repath available bulkMin s = s.under { backstage s with available := available, bulkMin := bulkMin } := rfl
  rw [hpath]
  obtain ⟨t, b, ht, hu, hb⟩ | ⟨f, hf, hg⟩ := exec_under (i := i) (s := s)
    (b := { backstage s with available := available, bulkMin := bulkMin }) hq ⟨rfl, rfl, rfl, rfl⟩
  · refine ⟨fun t' ht' => ?_, fun f hf => nomatch ht.symm.trans hf⟩
    obtain rfl : t = t' := Host.Outcome.next.inj (ht.symm.trans ht')
    refine ⟨_, hu, ?_⟩
    rw [State.under, hb.reports, hb.fresh, hb.xp, hb.phase]
  · refine ⟨fun t ht => (nomatch hf.symm.trans ht), fun f' hf' => ?_⟩
    rw [hg, ← hf, hf']

end Sys2Proof.Machine
end

section
/-! PROOFS. Requests whose chunks complete late (spec 40 R126; 70 R307): such a request runs beside one whose chunks all
complete at once, behind it by its holds, and ends as that one does. -/

namespace Sys2Proof.Machine

/-! ### What the steps of a request read (R61, R62, R76, R128) -/

/-- `PTR` after an atomic step and its chunk, where it is known: in a `SendData` from host memory. -/
def Atom.ptrAfter (w : Width) (p : Option Long) : Atom → Option Long
  | .startData _ q => q
  | .chunk .host len => p.map (· + BitVec.ofNat 32 (len * w.bytes))
  | .chunk (.command _) _ => p
  | .chunk (.bytes _) _ => p
  | .chunk (.cell _) _ => p
  | .chunk .block _ => p
  | .endData => none
  | .lineRegs _ => p
  | .circleRegs _ => p
  | .triRegs _ => p
  | .loadBlock _ _ => p
  | .setWindow _ _ _ _ => p
  | .width _ => p
  | .command _ => p
  | .await _ => p

/-- The chunk of an atomic step reads no host memory, and none is on the bus already. -/
def Atom.readsNone : Atom → Bool
  | .chunk .host _ => false
  | .await _ => false
  | .chunk (.command _) _ => true
  | .chunk (.bytes _) _ => true
  | .chunk (.cell _) _ => true
  | .chunk .block _ => true
  | .startData _ _ => true
  | .endData => true
  | .lineRegs _ => true
  | .circleRegs _ => true
  | .triRegs _ => true
  | .loadBlock _ _ => true
  | .setWindow _ _ _ _ => true
  | .width _ => true
  | .command _ => true

/-- The chunk of an atomic step reads no host memory, or reads elements from the known `PTR` that are there and not raced. -/
def Atom.readable (s : State) (w : Width) (p : Option Long) (a : Atom) : Prop :=
  a.readsNone = true ∨ ∃ len q, a = .chunk .host len ∧ p = some q ∧ Readable s w len q.toNat

/-- So do all atomic steps of a list, from a width and a `PTR` on. -/
def stepsReadable (s : State) : List Atom → Width → Option Long → Prop
  | [], _, _ => True
  | a :: as, w, p => a.readable s w p ∧ stepsReadable s as (widthAfter [a] w) (a.ptrAfter w p)

theorem Atom.readable_mono {s : State} {w : Width} {p q : Option Long} (hpq : ∀ x, p = some x → q = some x) {a : Atom}
    (h : a.readable s w p) : a.readable s w q := by
  obtain h | ⟨len, x, ha, hx, hr⟩ := h
  · exact .inl h
  · exact .inr ⟨len, x, ha, hpq x hx, hr⟩

theorem Atom.ptrAfter_mono {w : Width} {p q : Option Long} (hpq : ∀ x, p = some x → q = some x) (a : Atom) :
    ∀ x, a.ptrAfter w p = some x → a.ptrAfter w q = some x := by
  cases a with
  | startData n r => exact fun _ => id
  | endData => exact fun _ => id
  | chunk src len =>
    cases src with
    | host =>
      intro x hx
      obtain ⟨y, hy, rfl⟩ := Option.map_eq_some_iff.1 hx
      exact Option.map_eq_some_iff.2 ⟨y, hpq y hy, rfl⟩
    | _ => exact hpq
  | _ => exact hpq

/-- Knowing more of `PTR` leaves readable what is. -/
theorem stepsReadable_mono {s : State} {as : List Atom} {w : Width} {p q : Option Long}
    (hpq : ∀ x, p = some x → q = some x) (h : stepsReadable s as w p) : stepsReadable s as w q := by
  induction as generalizing w p q with
  | nil => trivial
  | cons a as ih => exact ⟨Atom.readable_mono hpq h.1, ih (Atom.ptrAfter_mono hpq a) h.2⟩

theorem stepsReadable_append {s : State} {as bs : List Atom} {w : Width} {p : Option Long} (has : stepsReadable s as w p)
    (hbs : stepsReadable s bs (widthAfter as w) none) : stepsReadable s (as ++ bs) w p := by
  induction as generalizing w p with
  | nil => exact stepsReadable_mono (p := none) nofun hbs
  | cons a as ih => exact ⟨has.1, ih has.2 (widthAfter_append [a] as w ▸ hbs)⟩

theorem stepsReadable_of_none {s : State} {as : List Atom} (h : as.all Atom.readsNone = true) (w : Width)
    (p : Option Long) : stepsReadable s as w p := by
  induction as generalizing w p with
  | nil => trivial
  | cons a as ih =>
    obtain ⟨ha, has⟩ := (Bool.and_eq_true _ _).mp (List.all_cons ▸ h)
    exact ⟨.inl ha, ih has _ _⟩

theorem readsNone_sendData {src : Source} (hsrc : src ≠ .host) (n : Nat) (p : Option Long) :
    (sendData src n p).all Atom.readsNone = true := by
  unfold sendData
  split
  · rfl
  · rw [List.cons_append, List.all_cons, List.all_append, List.all_map]
    have hchunk : ∀ k ∈ splitBy maxChunk n, (Atom.readsNone ∘ Atom.chunk src) k = true := by
      intro k _
      cases src with
      | host => exact absurd rfl hsrc
      | _ => rfl
    rw [List.all_eq_true.2 hchunk]
    rfl

theorem readsNone_fillData (c : Config) (v : Word) (n : Nat) : (fillData c v n).all Atom.readsNone = true := by
  unfold fillData
  split
  · rw [List.all_cons, List.all_flatMap]
    exact List.all_eq_true.2 fun k _ => readsNone_sendData (src := .block) nofun k none
  · exact readsNone_sendData (src := .cell v) nofun n none

theorem stepsReadable_with16 {s : State} {body : List Atom} (h : stepsReadable s body .w16 none) :
    stepsReadable s (with16 body) .w8 none :=
  ⟨.inl rfl, stepsReadable_append (as := body) h (stepsReadable_of_none rfl _ _)⟩

theorem stepsReadable_guarded {s : State} {c : Config} {x0 y0 x1 y1 : Int} {body : List Atom}
    (h : accepts c x0 y0 x1 y1 = true → stepsReadable s body .w8 none) :
    stepsReadable s (guarded c x0 y0 x1 y1 body) .w8 none := by
  unfold guarded
  split
  · rename_i hacc
    exact ⟨.inl rfl, stepsReadable_append (stepsReadable_of_none rfl _ _) (h hacc)⟩
  · exact ⟨.inl rfl, trivial⟩

theorem stepsReadable_hostChunks {s : State} {ls : List Nat} {w : Width} {q : Long} (hr : Readable s w ls.sum q.toNat)
    (hb : q.toNat + ls.sum * w.bytes ≤ 2 ^ 32) :
    stepsReadable s (ls.map (Atom.chunk .host) ++ [.endData]) w (some q) := by
  induction ls generalizing q with
  | nil => exact ⟨.inl rfl, trivial⟩
  | cons l ls ih =>
    rw [List.sum_cons] at hr hb
    obtain ⟨hl, hls⟩ := readable_append hr
    refine ⟨.inr ⟨l, q, rfl, rfl, hl⟩, ?_⟩
    obtain h0 | hpos := Nat.eq_zero_or_pos ls.sum
    · have hlt := (q + BitVec.ofNat 32 (l * w.bytes)).isLt
      exact ih (by rw [h0]; exact fun k hk => absurd hk (by omega)) (by rw [h0]; omega)
    · have hbytes : 0 < w.bytes := by cases w <;> decide
      have htail := Nat.mul_pos hpos hbytes
      rw [Nat.add_mul] at hb
      have hq : (q + BitVec.ofNat 32 (l * w.bytes)).toNat = q.toNat + l * w.bytes := by
        rw [BitVec.toNat_add, BitVec.toNat_ofNat, Nat.add_mod_mod]
        exact Nat.mod_eq_of_lt (by omega)
      exact ih (by rwa [hq]) (by rw [hq]; omega)

theorem stepsReadable_sendHost {s : State} {n : Nat} {w : Width} {src : Long} (hr : Readable s w n src.toNat)
    (hb : src.toNat + n * w.bytes ≤ 2 ^ 32) : stepsReadable s (sendData .host n (some src)) w none := by
  unfold sendData
  split
  · trivial
  · exact ⟨.inl rfl, stepsReadable_hostChunks (by rwa [splitBy_sum]) (by rwa [splitBy_sum])⟩

/-- What a primitive can read, its steps can. -/
theorem stepsReadable_expand {s : State} {k : Task} (h : taskReadable s k) : stepsReadable s (expand s.cfg k) .w8 none := by
  cases k with
  | window x0 y0 x1 y1 => exact stepsReadable_guarded fun _ => trivial
  | plot x y v =>
    exact stepsReadable_guarded fun _ =>
      stepsReadable_with16 (stepsReadable_of_none (readsNone_sendData (src := .cell v) nofun _ _) _ _)
  | fill x0 y0 x1 y1 v =>
    exact stepsReadable_guarded fun _ => stepsReadable_with16 (stepsReadable_of_none (readsNone_fillData _ _ _) _ _)
  | blit x y w h' src =>
    exact stepsReadable_guarded fun hacc => stepsReadable_with16 (stepsReadable_sendHost (h hacc).1 (h hacc).2)
  | data w n src =>
    cases w with
    | w8 => exact stepsReadable_sendHost h.1 h.2
    | w16 => exact stepsReadable_with16 (stepsReadable_sendHost h.1 h.2)
  | _ => exact ⟨.inl rfl, trivial⟩

theorem stepsReadable_plan {s : State} {ts : List Task} (h : ∀ k ∈ ts, taskReadable s k) :
    stepsReadable s (ts.flatMap (expand s.cfg)) .w8 none := by
  induction ts with
  | nil => trivial
  | cons k ts ih =>
    rw [List.flatMap_cons]
    refine stepsReadable_append (stepsReadable_expand (h k (by simp))) ?_
    rw [widthAfter_expand]
    exact ih fun j hj => h j (List.mem_cons_of_mem _ hj)

theorem stepsReadable_congr {s t : State} (h : SameHost s t) {as : List Atom} {w : Width} {p : Option Long}
    (hr : stepsReadable s as w p) : stepsReadable t as w p := by
  induction as generalizing w p with
  | nil => trivial
  | cons a as ih =>
    refine ⟨?_, ih hr.2⟩
    obtain ha | ⟨len, q, ha, hp, hq⟩ := hr.1
    · exact .inl ha
    · exact .inr ⟨len, q, ha, hp, readable_congr h.cfg h.mem h.hostWrites hq⟩

/-! ### `PTR` of two machines side by side -/

/-- `PTR` is as known. -/
def PtrAt (p : Option Long) (x : Transport) : Prop := ∀ q, p = some q → x.ptr = q

theorem PtrAt.after {p : Option Long} {b : Backstage} (h : PtrAt p b.xp) (w : Width) {a : Atom} (ha : a.issues = false) :
    PtrAt (a.ptrAfter w p) (b.after w a).xp := by
  cases a with
  | startData n r =>
    intro q hq
    obtain rfl : r = some q := hq
    rfl
  | endData => exact nofun
  | command op => cases ha
  | chunk src len => cases ha
  | await c => cases ha
  | _ => exact h

theorem PtrAt.issue {p : Option Long} {b : Backstage} (h : PtrAt p b.xp) (w : Width) {a : Atom} (ha : a.issues = true) :
    PtrAt p (b.after w a).xp := by
  cases a with
  | command op => exact h
  | chunk src len => exact h
  | await c => exact h
  | _ => cases ha

theorem PtrAt.advance {p : Option Long} {x : Transport} (h : PtrAt p x) {a : Atom} {s t : State} {c : Chunk}
    (hbus : OnBus a s c t) (ha : a.readsNone = true ∨ ∃ len, a = .chunk .host len) :
    PtrAt (a.ptrAfter s.ww p) (c.advance x) := by
  cases hbus with
  | command op => exact h
  | await => simp [Atom.readsNone] at ha
  | chunk src len =>
    cases src with
    | host =>
      intro q hq
      obtain ⟨y, hy, rfl⟩ := Option.map_eq_some_iff.1 hq
      exact congrArg (· + _) (h y hy)
    | _ => exact h

theorem Writes.xp {a : Atom} {s t : State} (h : Writes a s t) : t.xp = ((backstage s).after s.ww a).xp := by
  have ht : t = t.under ((backstage s).after s.ww a) := Progress.go.inj (h.atom.symm.trans (h.under (backstage s)))
  exact congrArg State.xp ht

theorem openTxn_xp (s : State) : (openTxn s).xp = s.xp := by
  unfold openTxn
  split <;> rfl

theorem OnBus.xp {a : Atom} {s t : State} {c : Chunk} (h : OnBus a s c t) : t.xp = ((backstage s).after s.ww a).xp := by
  cases h with
  | command op => exact (issued_fields _ _ _).2.2.1.trans (openTxn_xp s)
  | chunk src len => exact (issued_fields _ _ _).2.2.1
  | await => rfl

theorem OnBus.issues_eq {a : Atom} {s t : State} {c : Chunk} (h : OnBus a s c t) : a.issues = true := by
  cases h <;> rfl

/-- A chunk that can be read reads the same values in both, whatever the counter. -/
theorem OnBus.values {a : Atom} {s t : State} {c : Chunk} {p : Option Long} {b : Backstage} {vs : List Word}
    (h : OnBus a s c t) (hr : a.readable s s.ww p) (hs : PtrAt p s.xp) (hb : PtrAt p b.xp) (hv : chunkValues c t = .ok vs)
    (q : Path) (k : Nat) : chunkValues { c with path := q } ((t.under (b.after s.ww a)).setFresh k) = .ok vs := by
  cases h with
  | command op => exact hv
  | await => simp [Atom.readable, Atom.readsNone] at hr
  | chunk src len =>
    cases src with
    | host =>
      obtain hr | ⟨n, x, hn, hp, hread⟩ := hr
      · cases hr
      · cases hn
        have hhost := (OnBus.chunk .host len s).issues.host
        have hlist := fun (u : State) (hu : SameHost s u) k =>
          (hostElems_congr (congrArg Config.hostEndian hu.cfg) hu.mem hu.hostWrites s.ww len x.toNat k).trans
            (hostElems_readable k hread)
        have hptr : (chunkIssued len s).xp.ptr = x := by
          rw [(OnBus.chunk .host len s).xp]
          exact hs x hp
        have hvs : vs = hostList s s.ww len x.toNat := by
          rw [chunkValues, hptr, hlist _ hhost] at hv
          exact (Except.ok.inj hv).symm
        have hbptr : b.xp.ptr = x := hb x hp
        show hostElems _ s.ww len b.xp.ptr.toNat k = _
        rw [hbptr, hvs]
        exact (hostElems_congr (s := chunkIssued len s)
          (t := ((chunkIssued len s).under (b.after s.ww (.chunk .host len))).setFresh k) rfl rfl rfl s.ww len x.toNat k).trans
          (hlist _ hhost k)
    | _ => exact hv

/-! ### Requests that run late -/

/-- Every report is a completion, or one that is still to come. -/
def Delayed (rs : List BusReport) : Prop := ∀ r ∈ rs, r = .done ∨ r = .pending

theorem Delayed.rest {rs : List BusReport} (h : Delayed rs) : Delayed (restReports rs) :=
  fun r hr => h r (mem_restReports hr)

theorem restReports_length_le (rs : List BusReport) : (restReports rs).length ≤ rs.length := by
  cases rs with
  | nil => exact le_refl 0
  | cons r rs => cases r <;> simp [restReports]

/-- Before the steps `as`, `s` runs beside a state whose chunks all complete at once, and which ends in `v`. -/
def Beside (as : List Atom) (s v : State) : Prop :=
  ∃ (u : State) (b : Backstage) (p : Option Long), s = u.under b ∧ Quiet u ∧ u.resetIn = none ∧ PtrAt p u.xp ∧ PtrAt p b.xp ∧
    stepsReadable u as u.ww p ∧ run as u = .next v

/-- So it does, before the steps `as`, once the chunk on the bus has completed. -/
def BesideAfter (c : Chunk) (as : List Atom) (s v : State) : Prop :=
  ∃ vs, (∀ k, chunkValues c (s.setFresh k) = .ok vs) ∧ Beside as (settled c vs s) v

theorem Beside.resetIn {as : List Atom} {s v : State} (h : Beside as s v) : s.resetIn = none := by
  obtain ⟨u, b, p, rfl, -, hreset, -⟩ := h
  exact hreset

theorem BesideAfter.resetIn {c : Chunk} {as : List Atom} {s v : State} (h : BesideAfter c as s v) : s.resetIn = none := by
  obtain ⟨vs, -, hs⟩ := h
  exact (settled_sameHost c vs s).resetIn.symm.trans hs.resetIn

/-- Such a state stays beside the other whatever its parts are that no element depends on. -/
theorem Beside.under {as : List Atom} {s v : State} (h : Beside as s v) {b : Backstage} (hb : b.xp = s.xp) :
    Beside as (s.under b) v := by
  obtain ⟨u, b', p, rfl, hq, hreset, hpu, hpb, hr, hrun⟩ := h
  have hb' : b.xp = b'.xp := hb
  exact ⟨u, b, p, rfl, hq, hreset, hpu, hb' ▸ hpb, hr, hrun⟩

theorem BesideAfter.under {c : Chunk} {as : List Atom} {s v : State} (h : BesideAfter c as s v) {b : Backstage}
    (hb : b.xp = s.xp) : BesideAfter c as (s.under b) v := by
  obtain ⟨vs, hvs, hs⟩ := h
  refine ⟨vs, fun k => ?_, ?_⟩
  · exact (chunkValues_under c c.path (s := s.setFresh k) (b := { b with fresh := k }) rfl hb).trans (hvs k)
  · have hxp : (b.settle c).xp = (settled c vs s).xp := (congrArg c.advance hb).trans (settled_xp c vs s).symm
    exact settled_under c c.path vs s b ▸ hs.under hxp

theorem after_reports (b : Backstage) (w : Width) (a : Atom) : (b.after w a).reports = b.reports := by
  cases a <;> rfl

/-- An atomic step of such a state: its own writes, or its chunk on the bus. -/
theorem Beside.step {a : Atom} {as : List Atom} {s v : State} (h : Beside (a :: as) s v) :
    (∃ t, atom a s = .go t ∧ t.reports = s.reports ∧ Beside as t v) ∨
    ∃ c t, atom a s = settle c t ∧ t.reports = s.reports ∧ BesideAfter c as t v := by
  obtain ⟨u, b, p, rfl, hq, hreset, hpu, hpb, ⟨ha, has⟩, hrun⟩ := h
  obtain ⟨t, hw⟩ | ⟨c, t, hbus⟩ := atom_cases a u
  · refine .inl ⟨_, hw.under b, after_reports b _ a, t, _, a.ptrAfter u.ww p, rfl, ?_, ?_, ?_, ?_, ?_, ?_⟩
    · exact fun r hr => hq r (hw.reports ▸ hr)
    · exact hw.host.resetIn.trans hreset
    · exact hw.xp ▸ PtrAt.after (b := backstage u) hpu u.ww hw.issues
    · exact hpb.after u.ww hw.issues
    · exact stepsReadable_congr hw.host (hw.ww ▸ has)
    · rwa [run_go hw.atom] at hrun
  · have hi := hbus.issues
    have hqt : Quiet t := fun r hr => hq r (hi.reports ▸ hr)
    have hsrc : a.readsNone = true ∨ ∃ len, a = .chunk .host len := ha.imp id fun ⟨len, _, hlen, _⟩ => ⟨len, hlen⟩
    cases hv : chunkValues c t with
    | error f =>
      have hstuck : run (a :: as) u = .fault f := Sticks.one (hi.atom.trans (settle_stuck hv)) as
      cases hstuck.symm.trans hrun
    | ok vs =>
      obtain ⟨q, hbus'⟩ := hbus.under b
      have hsettled := settled_sameHost c vs t
      refine .inr ⟨_, _, hbus'.issues.atom, after_reports b _ a, vs, hbus.values ha hpu hpb hv q, ?_⟩
      refine ⟨settled c vs t, _, a.ptrAfter u.ww p, settled_under c q vs t _, ?_, ?_, ?_, ?_, ?_, ?_⟩
      · exact fun r hr => hqt r (mem_restReports (settled_reports c vs t ▸ hr))
      · exact hsettled.resetIn.trans (hi.host.resetIn.trans hreset)
      · rw [settled_xp, hbus.xp]
        exact (PtrAt.issue (b := backstage u) hpu u.ww hbus.issues_eq).advance hbus hsrc
      · exact PtrAt.advance (c := c) (hpb.issue u.ww hbus.issues_eq) hbus hsrc
      · rw [(settled_sends c vs t).ww, hi.ww]
        exact stepsReadable_congr (hi.host.trans hsettled) has
      · rwa [run_go (hi.atom.trans (settle_quiet hv hqt))] at hrun

/-- A chunk on the bus of such a state completes, or is held and is the same as before but for its report (R126). -/
theorem BesideAfter.settles {c : Chunk} {as : List Atom} {s v : State} (h : BesideAfter c as s v) (hd : Delayed s.reports) :
    (∃ t, settle c s = .go t ∧ t.reports = restReports s.reports ∧ Beside as t v) ∨
    ∃ t, settle c s = .held (.await c) t ∧ s.reports = .pending :: t.reports ∧
      ∀ x, BesideAfter c as (t.setPhase x) v := by
  have ⟨vs, hvals, hs⟩ := h
  have hv : chunkValues c s = .ok vs := hvals s.fresh
  have hdone : chunkEnd s.cfg c.path c.len (nextReport s) = .whole → settle c s = .go (settled c vs s) := by
    intro hend
    simp only [settle, hv, hend]
    rfl
  cases hrs : s.reports with
  | nil =>
    refine .inl ⟨_, hdone ?_, hrs ▸ settled_reports c vs s, hs⟩
    rw [nextReport, hrs]
    rfl
  | cons r rs =>
    obtain rfl | rfl := hd r (hrs ▸ List.mem_cons_self ..)
    · refine .inl ⟨_, hdone ?_, hrs ▸ settled_reports c vs s, hs⟩
      rw [nextReport, hrs]
      rfl
    · have hnext : nextReport s = .pending := by rw [nextReport, hrs]
      by_cases hpath : c.path = .async
      · have hheld : settle c s = .held (.await c) (reported c s) := by
          simp only [settle, hv, hnext, chunkEnd, if_pos hpath]
          rfl
        refine .inr ⟨_, hheld, ?_, fun x => ?_⟩
        · show _ = .pending :: restReports s.reports
          rw [hrs]
          rfl
        · exact h.under (b := { backstage s with reports := restReports s.reports, fresh := s.fresh + c.len, phase := x }) rfl
      · refine .inl ⟨_, hdone ?_, hrs ▸ settled_reports c vs s, hs⟩
        simp only [hnext, chunkEnd, if_neg hpath]

/-- Where a run of such a state stops: ended as the other, or in a hold with fewer than `n` reports left. -/
def Stops (v : State) (n : Nat) (t : State) : Prop :=
  (t.busy = false ∧ t.wire = v.wire ∧ t.outcome = v.outcome) ∨
  ∃ c as, t.phase = .running (.await c :: as) ∧ BesideAfter c as t v ∧ Delayed t.reports ∧ t.reports.length < n

theorem Stops.mono {v t : State} {m n : Nat} (h : Stops v m t) (hmn : m ≤ n) : Stops v n t :=
  h.imp id fun ⟨c, as, hp, hb, hd, hlt⟩ => ⟨c, as, hp, hb, hd, lt_of_lt_of_le hlt hmn⟩

/-- A run whose first step has a chunk on the bus stops, if the runs after that chunk do. -/
theorem BesideAfter.run_stops {a : Atom} {c : Chunk} {as : List Atom} {r s v : State} (h : BesideAfter c as s v)
    (hd : Delayed s.reports) (hatom : atom a r = settle c s)
    (hrest : ∀ t, Beside as t v → Delayed t.reports → ∃ t', run as t = .next t' ∧ Stops v t.reports.length t') :
    ∃ t, run (a :: as) r = .next t ∧ Stops v s.reports.length t := by
  obtain ⟨t, hgo, hreports, hb⟩ | ⟨t, hheld, hreports, hb⟩ := h.settles hd
  · rw [run_go (hatom.trans hgo)]
    obtain ⟨t', ht', hstop⟩ := hrest t hb (hreports ▸ hd.rest)
    exact ⟨t', ht', hstop.mono (hreports ▸ restReports_length_le _)⟩
  · refine ⟨t.setPhase (.running (.await c :: as)), by rw [run, hatom, hheld], .inr ⟨c, as, rfl, hb _, ?_, ?_⟩⟩
    · exact fun q hq => hd q (hreports ▸ List.mem_cons_of_mem _ hq)
    · rw [hreports]
      exact Nat.lt_succ_self _

theorem Beside.run_stops {as : List Atom} {s v : State} (h : Beside as s v) (hd : Delayed s.reports) :
    ∃ t, run as s = .next t ∧ Stops v s.reports.length t := by
  induction as generalizing s with
  | nil =>
    obtain ⟨u, b, p, rfl, -, -, -, -, -, hrun⟩ := h
    obtain rfl : complete (endRequest u) = v := Host.Outcome.next.inj hrun
    obtain ⟨hwire, -, -, hc⟩ := complete_fields (endRequest u)
    obtain ⟨hwire', -, -, hc'⟩ := complete_fields (endRequest (u.under b))
    exact ⟨_, rfl, .inl ⟨by rw [State.busy, hc'.phase], hwire'.trans hwire.symm, hc'.outcome.trans hc.outcome.symm⟩⟩
  | cons a as ih =>
    obtain ⟨t, hgo, hreports, hb⟩ | ⟨c, t, hatom, hreports, hb⟩ := h.step
    · rw [run_go hgo, ← hreports]
      exact ih hb (hreports ▸ hd)
    · rw [← hreports]
      exact hb.run_stops (hreports ▸ hd) hatom fun x hx hdx => ih hx hdx

/-- A request that stops in a hold ends in as many steps as there are reports left, at most. -/
theorem Stops.ends {v t : State} {n : Nat} (hok : t.cfg.ok = true) (h : Stops v n t) :
    ∃ (k : Nat) (t' : State), k ≤ n ∧ Sys2Proof.core.run k t = .next t' ∧ t'.busy = false ∧ t'.wire = v.wire ∧
      t'.outcome = v.outcome := by
  induction n generalizing t with
  | zero =>
    obtain ⟨hbusy, hend⟩ | ⟨c, as, -, -, -, hlt⟩ := h
    · exact ⟨0, t, le_refl 0, rfl, hbusy, hend⟩
    · exact absurd hlt (Nat.not_lt_zero _)
  | succ n ih =>
    obtain ⟨hbusy, hend⟩ | ⟨c, as, hp, hb, hd, hlt⟩ := h
    · exact ⟨0, t, Nat.zero_le _, rfl, hbusy, hend⟩
    · obtain ⟨u, hu, hstop⟩ := hb.run_stops (a := .await c) hd rfl fun x hx hdx => hx.run_stops hdx
      have hstep : step t = .next u := by
        simp [step, cycle, hok, hb.resetIn, hp, hu]
      obtain ⟨k, t', hk, hrun, hend⟩ := ih (by rw [(run_moves hu).cfg, hok]) (hstop.mono (by omega))
      exact ⟨k + 1, t', Nat.succ_le_succ hk, (Core.run_succ (M := Sys2Proof.core) hstep k).trans hrun, hend⟩

/-- A request runs beside itself, as it would with every chunk completing at once. -/
theorem exec_beside (i : Instr) {s : State} (hcfg : s.cfg.ok = true) (hs : Ready s) (hreset : s.resetIn = none)
    (hr : ∀ k ∈ planOf i, taskReadable s k) :
    ∃ v, Beside (stepsOf i s.cfg) (begin s) v ∧ v.wire = s.wire ++ transaction ((planOf i).flatMap (taskElems s)) ∧
      v.outcome = outcomeOf (planAcc s.cfg (planOf i)) (planRej s.cfg (planOf i)) := by
  have hquiet : Quiet (s.setReports []) := nofun
  obtain ⟨v, hv, hl⟩ := request_leaves (planOf i) (s := s.setReports []) (Config.fillStrategy_ok hcfg)
    ⟨hs.ww, hs.cs, hs.async⟩ hquiet fun k hk => taskReadable_congr rfl rfl rfl (hr k hk)
  have helems : taskElems (s.setReports []) = taskElems s := funext fun k => taskElems_congr rfl rfl k
  have hread : stepsReadable (begin (s.setReports [])) (stepsOf i s.cfg) (begin (s.setReports [])).ww none := by
    have hww : (begin (s.setReports [])).ww = .w8 := hs.ww
    rw [hww]
    exact stepsReadable_congr (s := s) (t := begin (s.setReports [])) ⟨rfl, rfl, rfl, rfl⟩ (stepsReadable_plan hr)
  refine ⟨v, ⟨begin (s.setReports []), backstage (begin s), none, rfl, hquiet, hreset, nofun, nofun, hread, hv⟩, ?_, hl.outcome⟩
  rw [hl.wire, helems]
  rfl

/-- Settles O59: the step that accepts the request stops beside the request that is never late, and holds use up reports. -/
theorem delayedRequestEnds : Obligations.DelayedRequestEnds := by
  intro i s later hok hreset hp hwf hport hs hr hd
  have haccept : step s = exec i (accept (encode i) later s) := by
    simp [step, cycle, acceptNext, hok, hreset, hp, hport, decode_eq_ok_iff.2 ⟨rfl, hwf⟩]
  obtain ⟨v, hb, hwire, hout⟩ := exec_beside i (s := accept (encode i) later s) hok ⟨hs.ww, hs.cs, hs.async⟩ hreset
    fun k hk => taskReadable_congr rfl rfl rfl (hr k hk)
  obtain ⟨t, ht, hstop⟩ := hb.run_stops hd
  have hstep : step s = .next t := by
    rw [haccept, exec_eq_request]
    exact ht
  have helems : taskElems (accept (encode i) later s) = taskElems s := funext fun k => taskElems_congr rfl rfl k
  obtain ⟨k, t', hk, hrun, hbusy, hw, ho⟩ := hstop.ends (by rw [(run_moves ht).cfg]; exact hok)
  refine ⟨k, t', hk, (Core.run_succ (M := Sys2Proof.core) hstep k).trans hrun, hbusy, ?_, ho.trans hout⟩
  rw [hw, hwire, helems]
  rfl

end Sys2Proof.Machine
end

section
/-! PROOFS. The pixels a request writes (spec 41 R151, R152, R163 to R169; 42 R185): acceptance, the pixel write sequence of
elements as the reference receiver takes them, and that of every primitive a rasterizer request draws with. -/

namespace Sys2Proof.Machine

/-! ### Acceptance (R151, R152) -/

/-- Settles O31: both checks are conjunctions of their conditions. -/
theorem windowAcceptance : Obligations.WindowAcceptance := by
  intro c x0 y0 x1 y1
  constructor
  · simp only [inPanel, Bool.and_eq_true, decide_eq_true_eq, and_assoc]
  · simp only [accepts, Bool.and_eq_true, decide_eq_true_eq, and_assoc]

/-! ### FILLRECT (R185) -/

/-- Settles O39: the window group puts the receiver at the rectangle's corner, and as many samples as fit it are the color. -/
theorem fillrectPaints : Obligations.FillrectPaints := by
  intro x0 y0 x1 y1 color s hcfg hs hq hmark hacc
  obtain ⟨t, ht, hl⟩ := sub_primitive_leaves (k := .fill (zint x0) (zint y0) (zint x1) (zint y1) color) hcfg hs hq
    trivial (congrArg some hacc)
  obtain ⟨-, hx, hxw, -, hy, -⟩ := (accepts_iff ..).1 hacc
  obtain ⟨-, -, -, -, hxo, -⟩ := (Config.ok_iff s.cfg).1 hcfg
  simp only [zint] at hx hxw hy
  have hlen := List.length_replicate (n := (x1.toNat - x0.toNat + 1) * (y1.toNat - y0.toNat + 1)) (a := color)
  have hrx := hl.rx
  rw [Receiver.items_transaction, taskElems, fillElems, subElems, if_pos hacc, fill_count hacc] at hrx
  obtain ⟨hrxf, hfm⟩ := Receiver.items_window_pixels hcfg s.rx hacc hlen.le
  rw [← hrx] at hrxf hfm
  refine ⟨t, ht, hrxf.trans hmark, fun px py hpx => ?_⟩
  rw [Receiver.pixelAt, hfm]
  have hright : x0.toNat + (x1.toNat - x0.toNat + 1) + s.cfg.xOffset ≤ 65536 := by omega
  split
  · rename_i hin
    have hdx : px - x0.toNat < x1.toNat - x0.toNat + 1 := by omega
    have hdy : py - y0.toNat < y1.toNat - y0.toNat + 1 := by omega
    have h := lookup_paint_rect_inside s.cfg (y0 := y0.toNat) hright hlen s.rx.fm hdx hdy
    rwa [Nat.add_sub_cancel' hin.1, Nat.add_sub_cancel' hin.2.2.1,
      List.getElem?_replicate_of_lt (row_index_lt hdx hdy)] at h
  · rename_i hout
    exact lookup_paint_rect_outside s.cfg hright hpx (Nat.succ_pos _) hlen _ (by omega)

/-! ### The pixel write sequence of elements (R168) -/

/-- The writes of R163 that elements make from a receiver. -/
def Receiver.pixels (c : Config) (r : Receiver) (es : List Elem) : List Pixel := r.writesOf c (es.flatMap Elem.bytes)

theorem Receiver.writesOf_append (c : Config) (r : Receiver) (as bs : List (DC × Byte)) :
    r.writesOf c (as ++ bs) = r.writesOf c as ++ (as.foldl (Receiver.byte c) r).writesOf c bs := by
  induction as generalizing r with
  | nil => rfl
  | cons a as ih => rw [List.cons_append, Receiver.writesOf, Receiver.writesOf, ih, List.append_assoc, List.foldl_cons]

/-- The receiver over elements, byte after byte (R100). -/
theorem Receiver.items_elems (c : Config) (r : Receiver) (es : List Elem) :
    r.items c (es.map .elem) = (es.flatMap Elem.bytes).foldl (Receiver.byte c) r := by
  rw [Receiver.items, List.foldl_map, List.foldl_flatMap]
  rfl

theorem Receiver.pixels_append (c : Config) (r : Receiver) (es fs : List Elem) :
    r.pixels c (es ++ fs) = r.pixels c es ++ (r.items c (es.map .elem)).pixels c fs := by
  rw [Receiver.pixels, List.flatMap_append, Receiver.writesOf_append, ← Receiver.items_elems]
  rfl

theorem byteView_elems (es : List Elem) (is : List WireItem) :
    byteView (es.map .elem ++ is) = es.flatMap Elem.bytes ++ byteView is := by
  induction es with
  | nil => rfl
  | cons e es ih => rw [List.map_cons, List.cons_append, byteView, ih, List.flatMap_cons, List.append_assoc]

/-- The pixel write sequence of a transaction is that of its elements (R167, R168). -/
theorem pixelWrites_transaction (c : Config) (r : Receiver) (es : List Elem) :
    pixelWrites c r (transaction es) = r.pixels c es := by
  cases es with
  | nil => rfl
  | cons e es =>
    have h := byteView_elems (e :: es) [.cs false]
    rw [byteView, byteView, List.append_nil] at h
    rw [pixelWrites, Receiver.pixels, ← h]
    rfl

/-- The pixel observation of a request that leaves one transaction. -/
theorem Leaves.pixelObservation {s t : State} {es : List Elem} {acc rej : Bool} (h : Leaves s t es acc rej) :
    pixelObservation s t = if t.rx.rxf = none then some (s.rx.pixels s.cfg es) else none := by
  rw [Machine.pixelObservation, pixelsOf, newItems_eq h.wire, pixelWrites_transaction]

/-! ### Samples and windows -/

/-- A command writes no pixel. -/
theorem Receiver.pixels_command (c : Config) (r : Receiver) (b : Byte) : r.pixels c [cmdElem b] = [] := rfl

/-- Parameters of an address command write no pixel, however many (R162). -/
theorem Receiver.pixels_params (c : Config) {r : Receiver} (hm : (∃ ps, r.mode = .caset ps) ∨ ∃ ps, r.mode = .raset ps)
    (bs : List Byte) : r.pixels c (bs.map paramElem) = [] := by
  induction bs generalizing r with
  | nil => rfl
  | cons b bs ih =>
    have hhead : r.writeOf c (.data, b) = [] := by
      obtain ⟨ps, hps⟩ | ⟨ps, hps⟩ := hm <;> simp [Receiver.writeOf, hps]
    have hnext : (∃ ps, (r.data b).mode = .caset ps) ∨ ∃ ps, (r.data b).mode = .raset ps := by
      obtain ⟨ps, hps⟩ | ⟨ps, hps⟩ := hm <;> simp only [Receiver.data, hps] <;> split <;>
        simp [Receiver.mark, hps]
    have htail : r.pixels c ((b :: bs).map paramElem) =
        r.writeOf c (.data, b) ++ (r.data b).pixels c (bs.map paramElem) := rfl
    rw [htail, hhead, ih hnext, List.nil_append]

/-- An address command with its parameters writes no pixel (R161, R162). -/
theorem Receiver.pixels_address (c : Config) (r : Receiver) {op : Byte} (hop : op = c.opcCaset ∨ op = c.opcRaset)
    (bs : List Byte) : r.pixels c (cmdElem op :: bs.map paramElem) = [] := by
  have hmode : (∃ ps, (r.command c op).mode = .caset ps) ∨ ∃ ps, (r.command c op).mode = .raset ps := by
    by_cases hx : op = c.opcCaset
    · exact .inl ⟨[], by simp [Receiver.command, hx]⟩
    · obtain rfl := hop.resolve_left hx
      exact .inr ⟨[], by simp [Receiver.command, hx]⟩
  exact Receiver.pixels_params c hmode bs

/-- A window group writes no pixel. -/
theorem Receiver.pixels_windowElems (c : Config) (r : Receiver) (x0 y0 x1 y1 : Int) :
    r.pixels c (windowElems c x0 y0 x1 y1) = [] := by
  rw [windowElems_eq, Receiver.pixels_append, Receiver.pixels_append, Receiver.pixels_address c _ (.inl rfl),
    Receiver.pixels_address c _ (.inr rfl), Receiver.pixels_command]
  rfl

/-- A pixel element in a window that is not full writes its value at the cursor (R163, R168). -/
theorem Receiver.pixels_sample (c : Config) (r : Receiver) {xs xe ys ye : Word} (fm : List (Nat × Word)) {cx cy : Nat}
    (hrow : cy ≤ ye.toNat) (v : Word) :
    (r.writing xs xe ys ye fm (cx, cy)).pixels c [pixelElem v] =
      [⟨(cx : Int) - c.xOffset, (cy : Int) - c.yOffset, v⟩] := by
  have hv : (v.extractLsb' 8 8 ++ v.extractLsb' 0 8 : Word) = v :=
    (BitVec.extractLsb'_append_extractLsb'_eq_extractLsb' (by omega)).trans BitVec.extractLsb'_eq_self
  have hfull : ¬ ye.toNat < cy := by omega
  simp [Receiver.pixels, Elem.bytes, pixelElem, Receiver.writesOf, Receiver.writeOf, Receiver.writing, Receiver.byte,
    Receiver.data, hv, hfull]

/-- Samples that fit a window, from the k-th on, are the pixels of it in row-major order (R163, R164). -/
theorem Receiver.pixels_samples (c : Config) (r : Receiver) {xs xe ys ye : Word} {x0 y0 width height k : Nat}
    (hxs : xs.toNat = x0 + c.xOffset) (hys : ys.toNat = y0 + c.yOffset) (hxe : xe.toNat + 1 = xs.toNat + width)
    (hye : ye.toNat + 1 = ys.toNat + height) (vs : List Word) (fm : List (Nat × Word))
    (hfit : k + vs.length ≤ width * height) :
    (r.writing xs xe ys ye fm (xs.toNat + k % width, ys.toNat + k / width)).pixels c (vs.map pixelElem) =
      rowMajor x0 y0 width k vs := by
  induction vs generalizing k fm with
  | nil => rfl
  | cons v vs ih =>
    rw [List.length_cons] at hfit
    have hpos : 0 < width := Nat.pos_of_ne_zero fun h => by simp [h] at hfit
    have hrow : k / width < height := (Nat.div_lt_iff_lt_mul hpos).2 (by rw [Nat.mul_comm]; omega)
    have hone := Receiver.items_pixels c r hxs hys hxe hye [v] fm (k := k) (by rw [List.length_singleton]; omega)
    rw [List.map_singleton] at hone
    rw [List.map_cons, ← List.singleton_append, Receiver.pixels_append, hone,
      Receiver.pixels_sample c r fm (by omega), ih _ (by rw [List.length_singleton]; omega), rowMajor, List.singleton_append]
    congr 2 <;> omega

/-- What a window's corners are as the receiver's axes: its left and top edge with the panel offset, and its extent. -/
theorem window_axes {c : Config} (hc : c.ok = true) {x0 y0 x1 y1 : Nat} (hacc : accepts c x0 y0 x1 y1 = true) :
    (BitVec.ofNat 16 (x0 + c.xOffset)).toNat = x0 + c.xOffset ∧
    (BitVec.ofNat 16 (y0 + c.yOffset)).toNat = y0 + c.yOffset ∧
    (BitVec.ofNat 16 (x1 + c.xOffset)).toNat + 1 = (BitVec.ofNat 16 (x0 + c.xOffset)).toNat + (x1 - x0 + 1) ∧
    (BitVec.ofNat 16 (y1 + c.yOffset)).toNat + 1 = (BitVec.ofNat 16 (y0 + c.yOffset)).toNat + (y1 - y0 + 1) := by
  obtain ⟨-, hx, hxp, -, hy, hyp⟩ := (accepts_iff c _ _ _ _).1 hacc
  obtain ⟨-, -, -, -, hxo, hyo, -⟩ := (Config.ok_iff c).1 hc
  simp only [BitVec.toNat_ofNat]
  omega

/-- The receiver after a window group whose window is accepted: at the window's first pixel, whatever it did before. -/
def Receiver.opened (c : Config) (r : Receiver) (x0 y0 x1 y1 : Nat) : Receiver :=
  r.writing (.ofNat 16 (x0 + c.xOffset)) (.ofNat 16 (x1 + c.xOffset)) (.ofNat 16 (y0 + c.yOffset))
    (.ofNat 16 (y1 + c.yOffset)) r.fm (x0 + c.xOffset, y0 + c.yOffset)

/-- Samples that fit a window just opened are its pixels in row-major order. -/
theorem Receiver.pixels_opened {c : Config} (hc : c.ok = true) (r : Receiver) {x0 y0 x1 y1 : Nat}
    (hacc : accepts c x0 y0 x1 y1 = true) {vs : List Word} (hfit : vs.length ≤ (x1 - x0 + 1) * (y1 - y0 + 1)) :
    (r.opened c x0 y0 x1 y1).pixels c (vs.map pixelElem) = rowMajor x0 y0 (x1 - x0 + 1) 0 vs := by
  obtain ⟨hxs, hys, hxe, hye⟩ := window_axes hc hacc
  have h := Receiver.pixels_samples c r (k := 0) hxs hys hxe hye vs r.fm (by omega)
  rwa [Nat.zero_mod, Nat.zero_div, Nat.add_zero, Nat.add_zero, hxs, hys] at h

/-! ### Primitives (R169) -/

/-- Whatever the receiver did before, the elements write these pixels, in their order, and set no fault mark. -/
structure Paints (c : Config) (es : List Elem) (ps : List Pixel) : Prop where
  pixels : ∀ r : Receiver, r.pixels c es = ps
  rxf : ∀ r : Receiver, (r.items c (es.map .elem)).rxf = r.rxf
  fm : ∀ r : Receiver, (r.items c (es.map .elem)).fm = paint c r.fm ps

theorem Paints.nil (c : Config) : Paints c [] [] := ⟨fun _ => rfl, fun _ => rfl, fun _ => rfl⟩

theorem Paints.append {c : Config} {es fs : List Elem} {ps qs : List Pixel} (h : Paints c es ps) (k : Paints c fs qs) :
    Paints c (es ++ fs) (ps ++ qs) where
  pixels r := by rw [Receiver.pixels_append, h.pixels, k.pixels]
  rxf r := by rw [Receiver.items_append_elems, k.rxf, h.rxf]
  fm r := by rw [Receiver.items_append_elems, k.fm, h.fm, paint, paint, paint, List.foldl_append]

theorem Paints.flatMap {c : Config} {α : Type} {f : α → List Elem} {g : α → List Pixel} {l : List α}
    (h : ∀ a ∈ l, Paints c (f a) (g a)) : Paints c (l.flatMap f) (l.flatMap g) := by
  induction l with
  | nil => exact Paints.nil c
  | cons a l ih =>
    rw [List.flatMap_cons, List.flatMap_cons]
    exact (h a (List.mem_cons_self ..)).append (ih fun b hb => h b (List.mem_cons_of_mem _ hb))

/-- A sub-primitive whose samples fit its window writes them there in row-major order, or nothing at all (R180). -/
theorem subElems_paints {c : Config} (hc : c.ok = true) {x0 y0 x1 y1 : Int} {vs : List Word}
    (hfit : accepts c x0 y0 x1 y1 = true → vs.length ≤ ((x1 - x0 + 1) * (y1 - y0 + 1)).toNat) :
    Paints c (subElems c x0 y0 x1 y1 vs) (subPixels c x0 y0 x1 y1 vs) := by
  unfold subElems subPixels
  split
  · rename_i hacc
    have hle := hfit hacc
    obtain ⟨hx0, hx, -, hy0, hy, -⟩ := (accepts_iff ..).1 hacc
    obtain ⟨a0, rfl⟩ := Int.eq_ofNat_of_zero_le hx0
    obtain ⟨b0, rfl⟩ := Int.eq_ofNat_of_zero_le hy0
    obtain ⟨a1, rfl⟩ := Int.eq_ofNat_of_zero_le (hx0.trans hx)
    obtain ⟨b1, rfl⟩ := Int.eq_ofNat_of_zero_le (hy0.trans hy)
    have hwidth : (a1 : Int) - a0 + 1 = ((a1 - a0 + 1 : Nat) : Int) := by omega
    have hheight : (b1 : Int) - b0 + 1 = ((b1 - b0 + 1 : Nat) : Int) := by omega
    rw [hwidth, hheight, ← Int.natCast_mul, Int.toNat_natCast] at hle
    rw [hwidth, Int.toNat_natCast, Int.toNat_natCast, Int.toNat_natCast]
    exact
      { pixels := fun r => by
          rw [Receiver.pixels_append, Receiver.pixels_windowElems, List.nil_append, Receiver.items_windowElems hc r hacc]
          exact Receiver.pixels_opened hc r hacc hle
        rxf := fun r => (Receiver.items_window_pixels hc r hacc hle).1
        fm := fun r => (Receiver.items_window_pixels hc r hacc hle).2 }
  · exact Paints.nil c

/-- A primitive that draws, or writes datapath registers: one of those rasterizer rules are made of (R169, R180). -/
def Task.draws : Task → Bool
  | .lineRegs _ => true
  | .circleRegs _ => true
  | .triRegs _ => true
  | .plot _ _ _ => true
  | .fill _ _ _ _ _ => true
  | .blit _ _ _ _ _ => true
  | .window _ _ _ _ => false
  | .command _ => false
  | .data _ _ _ => false

/-- Each such primitive writes its samples, each window in row-major order (R181, R183, R186). -/
theorem taskElems_paints {s : State} (hc : s.cfg.ok = true) {k : Task} (hk : k.draws = true) :
    Paints s.cfg (taskElems s k) (taskPixels s k) := by
  cases k with
  | lineRegs r => exact Paints.nil _
  | circleRegs r => exact Paints.nil _
  | triRegs r => exact Paints.nil _
  | plot x y v =>
    have h := subElems_paints hc (x0 := x) (y0 := y) (x1 := x) (y1 := y) (vs := [v]) fun _ => by simp
    have hpixels : taskPixels s (.plot x y v) = subPixels s.cfg x y x y [v] := by
      rw [taskPixels, subPixels, accepts_point]
      split
      · rename_i hin
        obtain ⟨hx, -, -, hy, -⟩ := (accepts_iff s.cfg x y x y).1 ((accepts_point _ _ _).trans hin)
        simp [rowMajor, hx, hy]
      · rfl
    rw [hpixels]
    exact h
  | fill x0 y0 x1 y1 v => exact subElems_paints hc fun _ => List.length_replicate.le
  | blit x y w h src =>
    refine subElems_paints hc fun _ => ?_
    rw [hostList_length, show x + w - 1 - x + 1 = w by omega, show y + h - 1 - y + 1 = h by omega]
  | window x0 y0 x1 y1 => cases hk
  | command op => cases hk
  | data w n src => cases hk

/-! ### The rasterizer rules -/

theorem line_draws (x0 y0 x1 y1 : Int) (v : Word) : (line x0 y0 x1 y1 v).all Task.draws = true := by
  have hwalk : ∀ n r, (lineWalk v n r).all Task.draws = true := by
    intro n
    induction n with
    | zero => exact fun _ => rfl
    | succ n ih =>
      intro r
      have hplot : (linePlot r v).draws = true := by
        unfold linePlot
        split <;> rfl
      rw [lineWalk, List.all_cons, List.all_cons, hplot, ih]
      rfl
  unfold line
  split
  · rfl
  · split
    · rfl
    · exact hwalk _ _

theorem circleLoop_draws {em : CircleRegs → List Task} (he : ∀ c, (em c).all Task.draws = true) (n : Nat)
    (c : CircleRegs) : (circleLoop em n c).all Task.draws = true := by
  induction n generalizing c with
  | zero => rfl
  | succ n ih =>
    unfold circleLoop
    split
    · rw [List.cons_append, List.all_cons, List.all_append, he, ih]
      rfl
    · rfl

theorem triWalk_draws (x3 y3 : Int) (v : Word) (n : Nat) (r : TriRegs) :
    (triWalk x3 y3 v n r).all Task.draws = true := by
  induction n generalizing r with
  | zero => rfl
  | succ n ih =>
    rw [triWalk, List.all_append, line_draws, List.all_cons, ih]
    rfl

/-- Every rasterizer request's rule is made of primitives that draw, and register writes. -/
theorem planOf_draws {i : Instr} (hi : isRaster i = true) : (planOf i).all Task.draws = true := by
  cases i with
  | pixel x y color => rfl
  | fillrect x0 y0 x1 y1 color => rfl
  | blit x y w h src => rfl
  | line x0 y0 x1 y1 color => exact line_draws _ _ _ _ _
  | rect x0 y0 x1 y1 color => simp only [planOf, planRect, List.all_append, line_draws, Bool.and_self]
  | tri x1 y1 x2 y2 x3 y3 color => simp only [planOf, planTri, List.all_append, line_draws, Bool.and_self]
  | circle xc yc r color => exact circleLoop_draws (fun _ => rfl) _ _
  | fcircle xc yc r color => exact circleLoop_draws (fun _ => rfl) _ _
  | ftri x1 y1 x2 y2 x3 y3 color => exact triWalk_draws _ _ _ _ _
  | window x0 y0 x1 y1 => cases hi
  | cmd op n src => cases hi
  | data8 n src => cases hi
  | data16 n src => cases hi

/-- Settles O34: the request's elements are its primitives', and each of them paints its own pixels. -/
theorem rasterPixelSequence : Obligations.RasterPixelSequence := by
  intro i s t hi hcfg hs hq hr hexec
  obtain ⟨u, hu, hl⟩ := request_leaves (planOf i) (Config.fillStrategy_ok hcfg) hs hq hr
  rw [exec_eq_request, hu] at hexec
  obtain rfl := Host.Outcome.next.inj hexec
  have hp : Paints s.cfg ((planOf i).flatMap (taskElems s)) ((planOf i).flatMap (taskPixels s)) :=
    Paints.flatMap fun k hk => taskElems_paints hcfg (List.all_eq_true.1 (planOf_draws hi) k hk)
  have hrx := hl.rx
  rw [Receiver.items_transaction] at hrx
  have hrxf : u.rx.rxf = s.rx.rxf := by rw [hrx, hp.rxf]
  exact ⟨by rw [hl.pixelObservation, hp.pixels, hrxf], hrxf, fun _ => by rw [hrx, hp.fm]; rfl⟩

end Sys2Proof.Machine
end

section
/-! PROOFS. The host's own windows, commands and data as the reference receiver takes them (spec 41 R161 to R166, R168, R294,
R304, R305): samples that fit a window or overrun it, samples with no window, data that no command waits for, and the
parameters of an address command. -/

namespace Sys2Proof.Machine

/-! ### Samples (R163, R165) -/

/-- A sample changes the cursor, the frame memory and the fault mark alone. -/
theorem Receiver.sample_mode_high (r : Receiver) (v : Word) : (r.sample v).mode = r.mode ∧ (r.sample v).high = r.high := by
  unfold Receiver.sample
  split
  · split <;> exact ⟨rfl, rfl⟩
  · exact ⟨rfl, rfl⟩

/-- Pixel elements in WRITE, no byte pending, are samples one after another. -/
theorem Receiver.items_samples (c : Config) {r : Receiver} (hm : r.mode = .write) (hh : r.high = none) (vs : List Word) :
    r.items c ((vs.map pixelElem).map .elem) = vs.foldl Receiver.sample r := by
  induction vs generalizing r with
  | nil => rfl
  | cons v vs ih =>
    obtain ⟨hmode, hhigh⟩ := r.sample_mode_high v
    rw [List.map_cons, ← List.singleton_append, Receiver.items_append_elems, List.map_singleton,
      Receiver.items_pixelElem c hm hh, ih (hmode.trans hm) (hhigh.trans hh), List.foldl_cons]

/-- A step that leads to a state it stays in leads there in any number of steps but none. -/
theorem foldl_eq_of_absorbed {α β : Type} {f : α → β → α} {a b : α} (ha : ∀ x, f a x = b) (hb : ∀ x, f b x = b)
    {l : List β} (hl : l ≠ []) : l.foldl f a = b := by
  cases l with
  | nil => exact absurd rfl hl
  | cons x l => rw [List.foldl_cons, ha, List.foldl_fixed' hb]

/-- Samples in a window that is full write nothing and set RX_OVERRUN. -/
theorem Receiver.foldl_sample_full {r : Receiver} {xs xe ys ye : Word} {fm : List (Nat × Word)} {cur : Nat × Nat}
    (hfull : cur.2 > ye.toNat) {vs : List Word} (hvs : vs ≠ []) :
    vs.foldl Receiver.sample (r.writing xs xe ys ye fm cur) =
      { r.writing xs xe ys ye fm cur with rxf := some .overrun } := by
  refine foldl_eq_of_absorbed (fun v => ?_) (fun v => ?_) hvs
  · exact if_pos hfull
  · exact if_pos hfull

/-- A sample with no window defined is discarded with its mark. -/
theorem Receiver.sample_noWindow {r : Receiver} (h : r.xAxis = none ∨ r.yAxis = none) (v : Word) :
    r.sample v = r.mark .noWindow := by
  unfold Receiver.sample
  split
  · rename_i hx hy _
    simp [hx, hy] at h
  · rfl

/-- Samples with no window defined write nothing and set RX_NO_WINDOW. -/
theorem Receiver.foldl_sample_noWindow {r : Receiver} (hmark : r.rxf = none) (h : r.xAxis = none ∨ r.yAxis = none)
    {vs : List Word} (hvs : vs ≠ []) : vs.foldl Receiver.sample r = { r with rxf := some .noWindow } := by
  refine foldl_eq_of_absorbed (fun v => ?_) (fun v => ?_) hvs
  · rw [Receiver.sample_noWindow h, Receiver.mark, hmark]
  · rw [Receiver.sample_noWindow (r := { r with rxf := some .noWindow }) h]
    rfl

/-- Samples that fit a window just opened set no mark. -/
theorem Receiver.rxf_opened {c : Config} (hc : c.ok = true) (r : Receiver) {x0 y0 x1 y1 : Nat}
    (hacc : accepts c x0 y0 x1 y1 = true) {vs : List Word} (hfit : vs.length ≤ (x1 - x0 + 1) * (y1 - y0 + 1)) :
    ((r.opened c x0 y0 x1 y1).items c ((vs.map pixelElem).map .elem)).rxf = r.rxf := by
  have h := (Receiver.items_window_pixels hc r hacc hfit).1
  rwa [Receiver.items_append_elems, Receiver.items_windowElems hc r hacc] at h

/-- More samples than a window has overrun it: those that fit leave the cursor below its last row. -/
theorem Receiver.rxf_opened_overrun {c : Config} (hc : c.ok = true) (r : Receiver) {x0 y0 x1 y1 : Nat}
    (hacc : accepts c x0 y0 x1 y1 = true) {vs : List Word} (hmore : (x1 - x0 + 1) * (y1 - y0 + 1) < vs.length) :
    ((r.opened c x0 y0 x1 y1).items c ((vs.map pixelElem).map .elem)).rxf = some .overrun := by
  obtain ⟨hxs, hys, hxe, hye⟩ := window_axes hc hacc
  have hlen : (vs.take ((x1 - x0 + 1) * (y1 - y0 + 1))).length = (x1 - x0 + 1) * (y1 - y0 + 1) :=
    List.length_take_of_le hmore.le
  have hfit := Receiver.items_pixels c r (k := 0) hxs hys hxe hye (vs.take ((x1 - x0 + 1) * (y1 - y0 + 1))) r.fm
    (by omega)
  rw [hlen, Nat.zero_mod, Nat.zero_div, Nat.add_zero, Nat.add_zero, Nat.zero_add,
    Nat.mul_div_cancel_left _ (Nat.succ_pos _)] at hfit
  rw [hxs, hys] at hfit
  rw [← vs.take_append_drop ((x1 - x0 + 1) * (y1 - y0 + 1)), List.map_append, Receiver.items_append_elems, Receiver.opened,
    hfit, Receiver.items_samples c rfl rfl, Receiver.foldl_sample_full]
  · show y0 + c.yOffset + (y1 - y0 + 1) > _
    omega
  · exact List.ne_nil_of_length_pos (by rw [List.length_drop]; omega)

/-! ### Commands (R161) -/

/-- A command makes no axis defined. -/
theorem Receiver.dropAxis_noWindow {r : Receiver} (h : r.xAxis = none ∨ r.yAxis = none) :
    r.dropAxis.xAxis = none ∨ r.dropAxis.yAxis = none := by
  unfold Receiver.dropAxis
  split
  · split
    · exact .inl rfl
    · exact h
  · split
    · exact .inr rfl
    · exact h
  all_goals exact h

/-- A command sets the mode, and may set the cursor; it leaves the axes but for what it ends. -/
theorem Receiver.command_eq (c : Config) (r : Receiver) (op : Byte) :
    ∃ mode cursor, r.command c op = { r.dropAxis with mode := mode, high := none, cursor := cursor } := by
  unfold Receiver.command
  dsimp only
  split
  · exact ⟨_, _, rfl⟩
  · split
    · exact ⟨_, _, rfl⟩
    · split <;> exact ⟨_, _, rfl⟩

/-- OPC_RAMWR starts a write, also with no window defined. -/
theorem Receiver.items_ramwr_starts {c : Config} (hc : c.ok = true) (r : Receiver) :
    r.items c ([cmdElem c.opcRamwr].map .elem) =
      { r.dropAxis with mode := .write, high := none, cursor := r.dropAxis.topLeft } := by
  obtain ⟨-, -, -, -, -, -, -, hxw, hyw, -⟩ := (Config.ok_iff c).1 hc
  show r.command c c.opcRamwr = _
  simp [Receiver.command, hxw.symm, hyw.symm, Receiver.topLeft]

/-! ### The parameters of an address command (R162) -/

/-- The mode of an address command after its parameters, OPC_CASET's for the x axis and OPC_RASET's for the y axis. -/
def axisMode (isX : Bool) (ps : List Byte) : RxMode := if isX then .caset ps else .raset ps

/-- The axis an address command sets. -/
def Receiver.axis (isX : Bool) (r : Receiver) : Option (Word × Word) := if isX then r.xAxis else r.yAxis

/-- The opcode of an axis. -/
def axisOpcode (c : Config) (isX : Bool) : Byte := if isX then c.opcCaset else c.opcRaset

/-- The receiver after an address command with the parameters `ps`, from no fault mark: it keeps the first four, which set the
axis, and marks a fifth. -/
structure Receiver.HasParams (isX : Bool) (fm : List (Nat × Word)) (ps : List Byte) (r : Receiver) : Prop where
  mode : r.mode = axisMode isX (ps.take 4)
  fm : r.fm = fm
  rxf : r.rxf = if 4 < ps.length then some .extraParam else none
  axis : ∀ p0 p1 p2 p3 rest, ps = p0 :: p1 :: p2 :: p3 :: rest → r.axis isX = axisOf p0 p1 p2 p3

/-- One of the first four parameters. -/
theorem Receiver.data_param {isX : Bool} {r : Receiver} {ps : List Byte} (hm : r.mode = axisMode isX ps)
    (hps : ps.length < 4) (b : Byte) :
    (r.data b).mode = axisMode isX (ps ++ [b]) ∧ (r.data b).fm = r.fm ∧ (r.data b).rxf = r.rxf ∧
      (r.data b).axis isX = axisStep (r.axis isX) ps b := by
  cases isX <;> simp only [axisMode, Bool.false_eq_true, if_false, if_true] at hm <;>
    simp [Receiver.data, hm, hps, axisMode, Receiver.axis]

/-- A parameter past the fourth. -/
theorem Receiver.data_extraParam {isX : Bool} {r : Receiver} {ps : List Byte} (hm : r.mode = axisMode isX ps)
    (hps : ¬ ps.length < 4) (b : Byte) : r.data b = r.mark .extraParam := by
  cases isX <;> simp only [axisMode, Bool.false_eq_true, if_false, if_true] at hm <;> simp [Receiver.data, hm, hps]

theorem Receiver.HasParams.data {isX : Bool} {fm : List (Nat × Word)} {ps : List Byte} {r : Receiver}
    (h : r.HasParams isX fm ps) (b : Byte) : (r.data b).HasParams isX fm (ps ++ [b]) := by
  have hlen : (ps ++ [b]).length = ps.length + 1 := List.length_append
  by_cases hps : ps.length < 4
  · have htake : ps.take 4 = ps := List.take_of_length_le hps.le
    have htake' : (ps ++ [b]).take 4 = ps ++ [b] := List.take_of_length_le (by omega)
    obtain ⟨hmode, hfm, hrxf, haxis⟩ := Receiver.data_param (h.mode.trans (congrArg _ htake)) hps b
    refine ⟨by rw [htake', hmode], hfm.trans h.fm, ?_, fun p0 p1 p2 p3 rest hrest => ?_⟩
    · rw [hrxf, h.rxf, if_neg (by omega), if_neg (by omega)]
    · have hfour : rest = [] := List.length_eq_zero_iff.1 (by
        rw [hrest] at hlen
        simp only [List.length_cons] at hlen
        omega)
      rw [hfour] at hrest
      obtain ⟨rfl, hb⟩ := List.append_inj' (s₂ := [p0, p1, p2]) (t₂ := [p3]) hrest rfl
      obtain rfl := List.singleton_inj.1 hb
      exact haxis
  · have htake : (ps ++ [b]).take 4 = ps.take 4 := List.take_append_of_le_length (by omega)
    have hdata := Receiver.data_extraParam h.mode (by rw [List.length_take]; omega) b
    rw [hdata]
    refine ⟨by rw [htake]; exact h.mode, h.fm, ?_, fun p0 p1 p2 p3 rest hrest => ?_⟩
    · rw [Receiver.mark, h.rxf, hlen]
      by_cases hfive : 4 < ps.length
      · rw [if_pos hfive, if_pos (by omega)]
      · rw [if_neg hfive, if_pos (by omega)]
    · match ps, hps with
      | q0 :: q1 :: q2 :: q3 :: qs, _ =>
        simp only [List.cons_append, List.cons.injEq] at hrest
        obtain ⟨rfl, rfl, rfl, rfl, -⟩ := hrest
        exact h.axis _ _ _ _ _ rfl

/-- An address command has no parameter yet. -/
theorem Receiver.command_hasParams {c : Config} (hc : c.ok = true) (isX : Bool) {r : Receiver} (hmark : r.rxf = none) :
    (r.command c (axisOpcode c isX)).HasParams isX r.fm [] := by
  obtain ⟨-, -, -, -, -, -, hxy, -⟩ := (Config.ok_iff c).1 hc
  obtain ⟨mode, cursor, hcommand⟩ := r.command_eq c (axisOpcode c isX)
  obtain ⟨xa, ya, hdrop⟩ := r.dropAxis_eq
  refine ⟨?_, by rw [hcommand, hdrop], by rw [hcommand, hdrop]; exact hmark, nofun⟩
  cases isX <;> simp [Receiver.command, axisOpcode, axisMode, hxy.symm]

theorem Receiver.HasParams.foldl_data {isX : Bool} {fm : List (Nat × Word)} {ps : List Byte} {r : Receiver}
    (h : r.HasParams isX fm ps) (bs : List Byte) : (bs.foldl Receiver.data r).HasParams isX fm (ps ++ bs) := by
  induction bs generalizing r ps with
  | nil => rwa [List.append_nil]
  | cons b bs ih =>
    rw [List.append_cons]
    exact ih (h.data b)

/-- An address command and its parameters, as the receiver takes them. -/
theorem Receiver.items_address {c : Config} (hc : c.ok = true) (isX : Bool) {r : Receiver} (hmark : r.rxf = none)
    (bs : List Byte) :
    (r.items c ((cmdElem (axisOpcode c isX) :: bs.map paramElem).map .elem)).HasParams isX r.fm bs := by
  have h := (Receiver.command_hasParams hc isX hmark).foldl_data bs
  have hitems : r.items c ((cmdElem (axisOpcode c isX) :: bs.map paramElem).map .elem) =
      bs.foldl Receiver.data (r.command c (axisOpcode c isX)) := by
    rw [Receiver.items_elems, List.flatMap_cons, List.flatMap_map, List.foldl_append, List.foldl_flatMap]
    rfl
  rwa [hitems]

/-- The next command keeps the axis of four parameters or more, and leaves that of fewer undefined (R161, R305). -/
theorem Receiver.HasParams.command {isX : Bool} {fm : List (Nat × Word)} {ps : List Byte} {r : Receiver}
    (h : r.HasParams isX fm ps) (c : Config) (op : Byte) :
    (r.command c op).axis isX = if ps.length < 4 then none else r.axis isX := by
  obtain ⟨mode, cursor, hcommand⟩ := r.command_eq c op
  have haxis : (r.command c op).axis isX = r.dropAxis.axis isX := by
    rw [hcommand]
    rfl
  have hmode := h.mode
  have hlen : (ps.take 4).length < 4 ↔ ps.length < 4 := by
    rw [List.length_take]
    omega
  rw [haxis]
  unfold Receiver.dropAxis
  cases isX <;> simp only [axisMode, Bool.false_eq_true, if_false, if_true] at hmode <;> rw [hmode] <;>
    simp only [hlen] <;> split <;> rfl

/-! ### The bytes of an axis (R65, R162) -/

theorem toNat_append_bytes (a b : Byte) : (a ++ b : Word).toNat = 256 * a.toNat + b.toNat := by
  rw [BitVec.toNat_append, ← Nat.shiftLeft_add_eq_or_of_lt b.isLt, Nat.shiftLeft_eq, Nat.mul_comm]

/-- Bytes of host memory, as elements of width 8 have them (R61). -/
theorem hostList_bytes (s : State) (n a : Nat) :
    ∃ bs : List Byte, bs.length = n ∧ hostList s .w8 n a = bs.map (BitVec.setWidth 16) := by
  refine ⟨(List.range n).map fun k => (s.mem.read (a + k * 1)).getD 0, by simp, ?_⟩
  rw [hostList, List.map_map]
  refine List.map_congr_left fun k _ => ?_
  simp only [memRead, Width.bytes, Function.comp_apply]
  cases s.mem.read (a + k * 1) <;> rfl

/-- The axis the statement gives for byte elements is the receiver's. -/
theorem groupAxis_bytes (p0 p1 p2 p3 : Byte) (rest : List Byte) :
    groupAxis ((p0 :: p1 :: p2 :: p3 :: rest).map (BitVec.setWidth 16)) = axisOf p0 p1 p2 p3 := by
  have hbyte : ∀ b : Byte, (BitVec.setWidth 16 b).toNat = b.toNat := fun b => BitVec.toNat_setWidth_of_le (by decide)
  simp only [groupAxis, axisOf, List.map_cons, List.getElem?_cons_zero, List.getElem?_cons_succ, Option.getD_some, hbyte,
    BitVec.le_def, ← toNat_append_bytes, BitVec.ofNat_toNat, BitVec.setWidth_eq]

/-! ### The host's requests -/

/-- A result of a request is one of its only next state. -/
theorem of_exec {i : Instr} {s t : State} {P : State → Prop} (h : ∃ u, exec i s = .next u ∧ P u)
    (ht : exec i s = .next t) : P t := by
  obtain ⟨u, hu, hp⟩ := h
  obtain rfl := Host.Outcome.next.inj (hu.symm.trans ht)
  exact hp

theorem Leaves.ready {s t : State} {es : List Elem} {acc rej : Bool} (h : Leaves s t es acc rej) : Ready t :=
  ⟨h.ww, h.cs, h.async⟩

/-- The receiver after a request is the receiver over its elements. -/
theorem Leaves.rx_elems {s t : State} {es : List Elem} {acc rej : Bool} (h : Leaves s t es acc rej) :
    t.rx = s.rx.items s.cfg (es.map .elem) := h.rx.trans (Receiver.items_transaction ..)

/-- A command with no parameters is its one element, and reads nothing. -/
theorem cmd_zero_leaves {op : Byte} {src : Long} {s t : State} (hcfg : s.cfg.ok = true) (hs : Ready s) (hq : Quiet s)
    (h : exec (.cmd op 0 src) s = .next t) : Leaves s t [cmdElem op] false false :=
  of_exec (cmdResult op 0 src s rfl hcfg hs hq fun _ hk => absurd hk (Nat.not_lt_zero _)) h

/-- A command with the parameters it reads, which are bytes. -/
theorem cmd_leaves {op : Byte} {n : Word} {src : Long} {s t : State} (hcfg : s.cfg.ok = true) (hs : Ready s) (hq : Quiet s)
    (hwf : (Instr.cmd op n src).wellFormed = true) (hr : Readable s .w8 n.toNat src.toNat)
    (h : exec (.cmd op n src) s = .next t) :
    ∃ bs : List Byte, bs.length = n.toNat ∧ hostList s .w8 n.toNat src.toNat = bs.map (BitVec.setWidth 16) ∧
      Leaves s t (cmdElem op :: bs.map paramElem) false false := by
  obtain ⟨bs, hlen, hbs⟩ := hostList_bytes s n.toNat src.toNat
  refine ⟨bs, hlen, hbs, ?_⟩
  have hl := of_exec (cmdResult op n src s hwf hcfg hs hq hr) h
  have helems : ((bs.map (BitVec.setWidth 16)).map fun v : Word => paramElem (v.setWidth 8)) = bs.map paramElem := by
    rw [List.map_map]
    refine List.map_congr_left fun b _ => ?_
    rw [Function.comp_apply, BitVec.setWidth_setWidth_of_le b (by decide), BitVec.setWidth_eq]
  rwa [hbs, helems] at hl

/-- DATA.16 after WINDOW: samples that fit are the window's pixels, and one more overruns it. -/
theorem data16_after_window {x0 y0 x1 y1 : Word} {n src : Long} {s t u : State} (hcfg : s.cfg.ok = true) (hs : Ready s)
    (hq : Quiet s) (hmark : s.rx.rxf = none) (hacc : accepts s.cfg (zint x0) (zint y0) (zint x1) (zint y1) = true)
    (ht : exec (.window x0 y0 x1 y1) s = .next t) (hwf : (Instr.data16 n src).wellFormed = true)
    (hr : Readable t .w16 n.toNat src.toNat) (hu : exec (.data16 n src) t = .next u) :
    (n.toNat ≤ (x1.toNat - x0.toNat + 1) * (y1.toNat - y0.toNat + 1) →
      pixelObservation t u =
        some (rowMajor x0.toNat y0.toNat (x1.toNat - x0.toNat + 1) 0 (hostList t .w16 n.toNat src.toNat))) ∧
    ((x1.toNat - x0.toNat + 1) * (y1.toNat - y0.toNat + 1) < n.toNat →
      u.rx.rxf = some .overrun ∧ pixelObservation t u = none) := by
  obtain ⟨ok, hok, hwindow⟩ := windowResult x0 y0 x1 y1 s hcfg hs hq
  obtain rfl : ok = true := hok.trans hacc
  have hlt := of_exec hwindow ht
  have hopened : t.rx = s.rx.opened t.cfg x0.toNat y0.toNat x1.toNat y1.toNat := by
    rw [hlt.rx_elems, hlt.cfg]
    exact Receiver.items_windowElems hcfg s.rx hacc
  rw [← hlt.cfg] at hcfg hacc
  have hlu := of_exec (data16Result n src t hwf hcfg hlt.ready (hlt.quiet hq) hr) hu
  have hlen := hostList_length t .w16 n.toNat src.toNat
  have hrx := hlu.rx_elems
  rw [hopened] at hrx
  constructor
  · intro hfit
    rw [← hlen] at hfit
    rw [hlu.pixelObservation, if_pos (by rw [hrx, Receiver.rxf_opened hcfg s.rx hacc hfit, hmark]), hopened,
      Receiver.pixels_opened hcfg s.rx hacc hfit]
  · intro hmore
    rw [← hlen] at hmore
    have hover : u.rx.rxf = some .overrun := by rw [hrx, Receiver.rxf_opened_overrun hcfg s.rx hacc hmore]
    exact ⟨hover, by rw [hlu.pixelObservation, hover]; exact if_neg nofun⟩

/-- A write begun with no window defined, and samples. -/
theorem data16_without_window {n src src' : Long} {s t u : State} (hcfg : s.cfg.ok = true) (hs : Ready s) (hq : Quiet s)
    (hmark : s.rx.rxf = none) (hundef : s.rx.xAxis = none ∨ s.rx.yAxis = none)
    (ht : exec (.cmd s.cfg.opcRamwr 0 src') s = .next t) (hn : 0 < n.toNat)
    (hwf : (Instr.data16 n src).wellFormed = true)
    (hr : Readable t .w16 n.toNat src.toNat) (hu : exec (.data16 n src) t = .next u) :
    t.rx.mode = .write ∧ t.rx.rxf = none ∧ u.rx.rxf = some .noWindow ∧ u.rx.fm = s.rx.fm := by
  have hlt := cmd_zero_leaves hcfg hs hq ht
  obtain ⟨xa, ya, hdrop⟩ := s.rx.dropAxis_eq
  have htrx : t.rx = { s.rx.dropAxis with mode := .write, high := none, cursor := s.rx.dropAxis.topLeft } :=
    hlt.rx_elems.trans (Receiver.items_ramwr_starts hcfg s.rx)
  have hmarkt : t.rx.rxf = none := by rw [htrx, hdrop]; exact hmark
  have hundeft : t.rx.xAxis = none ∨ t.rx.yAxis = none := by
    rw [htrx]
    exact Receiver.dropAxis_noWindow hundef
  rw [← hlt.cfg] at hcfg
  have hlu := of_exec (data16Result n src t hwf hcfg hlt.ready (hlt.quiet hq) hr) hu
  have hurx : u.rx = { t.rx with rxf := some .noWindow } := by
    rw [hlu.rx_elems, Receiver.items_samples _ (by rw [htrx]) (by rw [htrx])]
    exact Receiver.foldl_sample_noWindow hmarkt hundeft (List.ne_nil_of_length_pos (by rw [hostList_length]; exact hn))
  refine ⟨by rw [htrx], hmarkt, by rw [hurx], ?_⟩
  rw [hurx, htrx, hdrop]

/-- An address command with its parameters, then another command. -/
theorem cmd_sets_axis (isX : Bool) {n : Word} {op : Byte} {src src' : Long} {s t u : State} (hcfg : s.cfg.ok = true)
    (hs : Ready s) (hq : Quiet s) (hmark : s.rx.rxf = none)
    (hwf : (Instr.cmd (axisOpcode s.cfg isX) n src).wellFormed = true)
    (hr : Readable s .w8 n.toNat src.toNat) (ht : exec (.cmd (axisOpcode s.cfg isX) n src) s = .next t)
    (hu : exec (.cmd op 0 src') t = .next u) :
    t.rx.fm = s.rx.fm ∧ t.rx.rxf = (if 4 < n.toNat then some .extraParam else none) ∧
    (4 ≤ n.toNat → t.rx.axis isX = groupAxis (hostList s .w8 n.toNat src.toNat) ∧ u.rx.axis isX = t.rx.axis isX) ∧
    (n.toNat < 4 → u.rx.axis isX = none) := by
  obtain ⟨bs, hlen, hbs, hlt⟩ := cmd_leaves hcfg hs hq hwf hr ht
  have hp : t.rx.HasParams isX s.rx.fm bs := by
    rw [hlt.rx_elems]
    exact Receiver.items_address hcfg isX hmark bs
  have hlu := cmd_zero_leaves (by rw [hlt.cfg]; exact hcfg) hlt.ready (hlt.quiet hq) hu
  have hurx : u.rx = t.rx.command t.cfg op := hlu.rx_elems
  rw [hurx, hp.command, hbs, ← hlen]
  refine ⟨hp.fm, hp.rxf, fun hfour => ⟨?_, if_neg (by omega)⟩, fun hfew => if_pos hfew⟩
  match bs, hfour with
  | p0 :: p1 :: p2 :: p3 :: rest, _ => exact (hp.axis _ _ _ _ _ rfl).trans (groupAxis_bytes p0 p1 p2 p3 rest).symm

/-! ### Data that no command waits for (R166) -/

/-- The receiver takes no data: no command has begun, or an opaque one has. -/
def Receiver.ignoresData (r : Receiver) : Prop := r.mode = .idle ∨ r.mode = .other

theorem Receiver.ignoresData.data {r : Receiver} (h : r.ignoresData) (b : Byte) : r.data b = r := by
  obtain h | h := h <;> simp only [Receiver.data, h]

/-- Data elements change nothing of such a receiver. -/
theorem Receiver.ignoresData.items {r : Receiver} (h : r.ignoresData) (c : Config) (w : Width) (vs : List Word) :
    r.items c ((vs.map (mkElem .data w)).map .elem) = r := by
  have hone : ∀ v, r.item c (.elem (mkElem .data w v)) = r := fun v => by
    cases w
    · exact h.data _
    · show (r.data _).data _ = r
      rw [h.data, h.data]
  rw [Receiver.items, List.map_map, List.foldl_map, List.foldl_fixed' hone]

theorem emit_ignored {s : State} (h : s.rx.ignoresData) (hd : s.dcOut = .data) (w : Width) (vs : List Word) :
    (emit w vs s).rx = s.rx := by
  have hitems := h.items s.cfg w vs
  rw [List.map_map] at hitems
  rw [emit, hd]
  exact hitems

/-- The end of a request does not reach the receiver but by chip select, which changes nothing. -/
theorem complete_rx (s : State) : (complete (endRequest s)).rx = s.rx :=
  (complete_fields (endRequest s)).2.1.trans (by simp [endRequest, landWrites, releaseDatapath])

theorem abort_rx (code : OutcomeCode) (s : State) : (abort code (endRequest s)).rx = s.rx :=
  (closeTxn_fields (((endRequest s).setWw .w8).setAsync false)).2.1.trans
    (by simp [endRequest, landWrites, releaseDatapath])

theorem resetRge_rx (s : State) : (resetRge (landWrites s)).rx = s.rx := (closeTxn_fields (landWrites s)).2.1

/-- A chunk at the data level, whatever the bus reports. -/
theorem settle_ignored (c : Chunk) {s : State} (h : s.rx.ignoresData) (hd : s.dcOut = .data) :
    (settle c s).Each (fun t => t.rx = s.rx ∧ t.dcOut = .data) (fun _ t => t.rx = s.rx) (fun t => t.rx = s.rx) := by
  cases hv : chunkValues c s with
  | error f =>
    rw [settle_stuck hv]
    trivial
  | ok vs =>
    have hsent : ∀ k, (emit c.width (vs.take k) (reported c s)).rx = s.rx := fun k =>
      emit_ignored (s := reported c s) h hd c.width _
    obtain hset | hset | ⟨code, k, hset⟩ | ⟨k, hset⟩ := settle_cases hv <;> rw [hset, Progress.Each]
    · obtain ⟨x, hx⟩ := settled_eq c vs s
      rw [hx]
      split
      · rw [State.setXp_rx, emit_ignored (s := (reported c s).setAsync false) h hd]
        exact ⟨rfl, by simp [emit, reported, hd]⟩
      · rw [State.setXp_rx, emit_ignored (s := reported c s) h hd]
        exact ⟨rfl, by simp [emit, reported, hd]⟩
    · rfl
    · exact (abort_rx code _).trans (hsent k)
    · exact (resetRge_rx _).trans (hsent k)

/-- The steps of a `SendData` after its start, and of a width bracket. -/
def Atom.inData : Atom → Bool
  | .chunk _ _ => true
  | .endData => true
  | .width _ => true
  | .lineRegs _ => false
  | .circleRegs _ => false
  | .triRegs _ => false
  | .loadBlock _ _ => false
  | .setWindow _ _ _ _ => false
  | .command _ => false
  | .startData _ _ => false
  | .await _ => false

/-- Such steps are still to come, the receiver is the given one, and the level is data or no chunk is among them. -/
structure DataToCome (r : Receiver) (as : List Atom) (s : State) : Prop where
  inData : as.all Atom.inData = true
  rx : s.rx = r
  level : s.dcOut = .data ∨ ∀ a ∈ as, a.issues = false

/-- Such steps change nothing of a receiver that takes no data. -/
theorem run_ignored {r : Receiver} {as : List Atom} {s t : State} (h : DataToCome r as s) (hr : r.ignoresData)
    (hrun : run as s = .next t) : t.rx = r := by
  refine run_each (p := DataToCome r) (q := fun v => v.rx = r) (fun v hv => (complete_rx v).trans hv.rx) ?_ h hrun
  rintro a as v ⟨hall, hrx, hlevel⟩
  obtain ⟨ha, hrest⟩ := (Bool.and_eq_true _ _).mp hall
  have hlevel' : v.dcOut = .data ∨ ∀ b ∈ as, b.issues = false :=
    hlevel.imp_right fun h b hb => h b (List.mem_cons_of_mem _ hb)
  cases a with
  | endData => exact ⟨hrest, hrx, hlevel'⟩
  | width w => exact ⟨hrest, hrx, hlevel'⟩
  | chunk src len =>
    have hdata : v.dcOut = .data := hlevel.resolve_right fun h => Bool.noConfusion (h _ (List.mem_cons_self ..))
    obtain ⟨-, -, -, -, -, -, hdc, -, hsame, -⟩ :=
      issued_fields len v.ww (v.setXp { v.xp with chunkLen := BitVec.ofNat 16 len })
    have hissued : (chunkIssued len v).rx = r := hsame.trans hrx
    rw [(chunk_issues src len v).atom]
    refine (settle_ignored _ (s := chunkIssued len v) (by rw [hissued]; exact hr) (hdc.trans hdata)).imp ?_ ?_ ?_
    · exact fun t ht => ⟨hrest, ht.1.trans hissued, .inl ht.2⟩
    · exact fun _ t ht => ht.trans hissued
    · exact fun t ht => ht.trans hissued
  | _ => cases ha

/-- The same of a whole `SendData` from host memory, which has no chunk or starts at the data level; also in its bracket. -/
theorem run_sendData_ignored {n : Nat} {src : Long} {as : List Atom} {s t : State} (has : as = [] ∨ as = [.width .w8])
    (h : s.rx.ignoresData) (hrun : run (sendData .host n (some src) ++ as) s = .next t) : t.rx = s.rx := by
  have hin : as.all Atom.inData = true ∧ ∀ a ∈ as, a.issues = false := by
    obtain rfl | rfl := has <;> exact ⟨rfl, by simp [Atom.issues]⟩
  by_cases hn : n = 0
  · rw [hn] at hrun
    exact run_ignored ⟨hin.1, rfl, .inr hin.2⟩ h hrun
  · rw [sendData_host n src hn, List.append_assoc, dataBegun_goes] at hrun
    refine run_ignored (s := dataBegun n src s) ⟨?_, openTxn_rx s, .inl rfl⟩ h hrun
    rw [List.all_append, List.all_append, List.all_map, hin.1]
    simp [Atom.inData, Function.comp_def]

/-- DATA.8 and DATA.16 that no command waits for. -/
theorem data_ignored {w : Width} {n src : Long} {s t : State} {i : Instr}
    (hi : i = (match w with | .w8 => Instr.data8 n src | .w16 => Instr.data16 n src)) (h : s.rx.ignoresData)
    (hexec : exec i s = .next t) : t.rx = s.rx := by
  rw [exec_eq_request, hi] at hexec
  cases w with
  | w8 => exact run_sendData_ignored (s := begin s) (.inl rfl) h hexec
  | w16 =>
    have hrun : run (sendData .host n.toNat (some src) ++ [.width .w8] ++ []) ((begin s).setWw .w16) = .next t := hexec
    rw [List.append_nil] at hrun
    exact run_sendData_ignored (s := (begin s).setWw .w16) (.inr rfl) h hrun

/-- Settles O33: each clause is what the receiver does with that stream of elements. -/
theorem hostStreamFitsWindow : Obligations.HostStreamFitsWindow := by
  refine ⟨?_, fun w n src s t i hi h hexec => data_ignored hi h hexec, ?_, ?_⟩
  · intro x0 y0 x1 y1 n src s t u area hcfg hs hq hmark hacc harea ht hwf hr hu
    rw [harea]
    exact data16_after_window hcfg hs hq hmark hacc ht hwf hr hu
  · intro n src src' s t u hcfg hs hq hmark hundef ht hn hwf hr hu
    exact data16_without_window hcfg hs hq hmark hundef ht hn hwf hr hu
  · intro isX n op src src' s t u axis haxis hcfg hs hq hmark hwf hr ht hu
    have hread : axis = Receiver.axis isX := by
      rw [haxis]
      cases isX <;> rfl
    rw [hread]
    exact cmd_sets_axis isX hcfg hs hq hmark hwf hr ht hu

end Sys2Proof.Machine
end

section
/-! PROOFS. Where outcomes come from (spec 41 R156; 60 R260 to R265): the end of a run, whatever the bus reports, and the window
decisions of each request's rule. -/

namespace Sys2Proof.Machine

/-! ### How a chunk ends its request (R264, R265, R291) -/

theorem chunkEnd_failed {c : Config} {p : Path} {len k : Nat} {r : BusReport} (h : chunkEnd c p len r = .failed k) :
    c.transportMayFail = true := by
  cases r <;> grind [chunkEnd]

theorem chunkEnd_timedOut {c : Config} {p : Path} {len k : Nat} {r : BusReport} (h : chunkEnd c p len r = .timedOut k) :
    p = .async ∧ c.asyncTimeout = true := by
  cases r <;> grind [chunkEnd]

/-- The end of a request with no window decision in its cause: a transport code that the configuration allows, or reset. -/
def EndsEarly (c : Config) (t : State) : Prop :=
  (t.outcome = .xferFail ∧ c.transportMayFail = true) ∨
  (t.outcome = .timeout ∧ c.asyncTimeout = true ∧ c.asyncAvailable = true) ∨
  (t.outcome = .ok ∧ t.rej = false)

theorem abort_endsEarly {c : Config} {code : OutcomeCode} (s : State)
    (h : (code = .xferFail ∧ c.transportMayFail = true) ∨
      (code = .timeout ∧ c.asyncTimeout = true ∧ c.asyncAvailable = true)) : EndsEarly c (abort code s) :=
  h.imp id .inl

theorem resetRge_endsEarly (c : Config) (s : State) : EndsEarly c (resetRge s) := .inr (.inr ⟨rfl, rfl⟩)

theorem resetStep_endsEarly (k : Nat) (s : State) : EndsEarly s.cfg (resetStep k s) := by
  unfold resetStep
  split
  · split <;> exact resetRge_endsEarly ..
  · exact resetRge_endsEarly ..
  · exact resetRge_endsEarly ..

/-- What a step that does not end its request leaves of the flags and the configuration. -/
structure SameFlags (s t : State) : Prop where
  cfg : t.cfg = s.cfg
  acc : t.acc = s.acc
  rej : t.rej = s.rej

theorem settled_sameFlags (c : Chunk) (vs : List Word) (s : State) : SameFlags s (settled c vs s) := by
  obtain ⟨x, hx⟩ := settled_eq c vs s
  rw [hx]
  split <;> constructor <;> simp [emit, reported]

/-- A chunk on the bus leaves the flags, or ends its request early; one that may time out is on the asynchronous path. -/
theorem settle_outcome (c : Chunk) {s : State} (hpath : c.path = .async → s.cfg.asyncAvailable = true) :
    (settle c s).Each (SameFlags s) (fun _ t => SameFlags s t) (EndsEarly s.cfg) := by
  cases hv : chunkValues c s with
  | error f =>
    rw [settle_stuck hv]
    trivial
  | ok vs =>
    cases hend : chunkEnd s.cfg c.path c.len (nextReport s) with
    | whole =>
      have hset : settle c s = .go (settled c vs s) := by simp only [settle, hv, hend, settled]
      rw [hset]
      exact settled_sameFlags c vs s
    | failed k =>
      simp only [settle, hv, hend, Progress.Each]
      exact abort_endsEarly _ (.inl ⟨rfl, chunkEnd_failed hend⟩)
    | timedOut k =>
      obtain ⟨hp, ht⟩ := chunkEnd_timedOut hend
      simp only [settle, hv, hend, Progress.Each]
      exact abort_endsEarly _ (.inr ⟨rfl, ht, hpath hp⟩)
    | held =>
      simp only [settle, hv, hend, Progress.Each]
      exact ⟨rfl, rfl, rfl⟩
    | reset k =>
      simp only [settle, hv, hend, Progress.Each]
      exact resetRge_endsEarly ..

/-! ### The flags through a run (R156) -/

/-- Some decision among the steps had this verdict. -/
def anyVerdict (c : Config) (v : Bool) (as : List Atom) : Bool := as.any fun a => decide (a.verdict c = some v)

/-- A chunk found on the bus is on a path its configuration has. -/
def awaitsPath (c : Config) (as : List Atom) : Prop :=
  ∀ k, Atom.await k ∈ as → k.path = .async → c.asyncAvailable = true

/-- The state after an atomic step that does not end its request: the flags with the step's own verdict, if it has one. -/
structure Decides (a : Atom) (s t : State) : Prop where
  cfg : t.cfg = s.cfg
  acc : t.acc = (s.acc || decide (a.verdict s.cfg = some true))
  rej : t.rej = (s.rej || decide (a.verdict s.cfg = some false))

theorem SameFlags.decides {a : Atom} {s t : State} (h : SameFlags s t) (ha : a.verdict s.cfg = none) : Decides a s t :=
  ⟨h.cfg, by simp [h.acc, ha], by simp [h.rej, ha]⟩

theorem SameFlags.trans {s t u : State} (h : SameFlags s t) (k : SameFlags t u) : SameFlags s u :=
  ⟨k.cfg.trans h.cfg, k.acc.trans h.acc, k.rej.trans h.rej⟩

theorem openTxn_sameFlags (s : State) : SameFlags s (openTxn s) := by
  unfold openTxn
  split <;> exact ⟨rfl, rfl, rfl⟩

theorem pathFor_available {c : Config} {len : Nat} (h : pathFor c len = .async) : c.asyncAvailable = true := by
  unfold pathFor at h
  split at h
  · rename_i hc
    exact hc.1
  · cases h

/-- The chunk an atomic step has on the bus: it is on a path the configuration has, and the step makes no decision. -/
theorem OnBus.outcome {a : Atom} {s t : State} {c : Chunk} (h : OnBus a s c t) (ha : awaitsPath s.cfg [a]) :
    SameFlags s t ∧ a.verdict s.cfg = none ∧ (c.path = .async → t.cfg.asyncAvailable = true) := by
  have hcfg := h.issues.host.cfg
  cases h with
  | command op =>
    obtain ⟨hk, -, -, hacc, hrej, -⟩ := issued_fields 1 .w8 ((openTxn s).setDc .command)
    exact ⟨(openTxn_sameFlags s).trans ⟨hk.cfg, hacc, hrej⟩, rfl, fun hp => by rw [hcfg]; exact pathFor_available hp⟩
  | chunk src len =>
    obtain ⟨hk, -, -, hacc, hrej, -⟩ := issued_fields len s.ww (s.setXp { s.xp with chunkLen := BitVec.ofNat 16 len })
    exact ⟨⟨hk.cfg, hacc, hrej⟩, rfl, fun hp => by rw [hcfg]; exact pathFor_available hp⟩
  | await => exact ⟨⟨rfl, rfl, rfl⟩, rfl, ha c (List.mem_singleton_self _)⟩

/-- What an atomic step does with the flags, whatever the bus reports. -/
theorem atom_outcome (a : Atom) {s : State} (ha : awaitsPath s.cfg [a]) :
    (atom a s).Each (Decides a s) (fun _ t => t.cfg = s.cfg) (EndsEarly s.cfg) := by
  have hbus : ∀ {c u}, OnBus a s c u → (atom a s).Each (Decides a s) (fun _ t => t.cfg = s.cfg) (EndsEarly s.cfg) := by
    intro c u h
    obtain ⟨hflags, hverdict, hpath⟩ := h.outcome ha
    rw [h.issues.atom, ← hflags.cfg]
    exact (settle_outcome c hpath).imp (fun t ht => (hflags.trans ht).decides hverdict)
      (fun _ t ht => ht.cfg) (fun t ht => ht)
  cases a with
  | command op => exact hbus (.command op s)
  | chunk src len => exact hbus (.chunk src len s)
  | await c => exact hbus (.await c s)
  | setWindow x0 y0 x1 y1 =>
    show Decides _ s (if _ then _ else _)
    by_cases hacc : accepts s.cfg x0 y0 x1 y1 = true
    · rw [if_pos hacc]
      exact ⟨rfl, by simp [Atom.verdict, hacc], by simp [Atom.verdict, hacc]⟩
    · rw [if_neg hacc]
      exact ⟨rfl, by simp [Atom.verdict, hacc], by simp [Atom.verdict, hacc]⟩
  | startData n ptr => exact SameFlags.decides ((openTxn_sameFlags s).trans ⟨rfl, rfl, rfl⟩) rfl
  | _ => exact SameFlags.decides ⟨rfl, rfl, rfl⟩ rfl

/-- With the steps still to come, the flags will be these. -/
structure FlagsToBe (c : Config) (acc rej : Bool) (as : List Atom) (s : State) : Prop where
  cfg : s.cfg = c
  path : awaitsPath c as
  acc : (s.acc || anyVerdict c true as) = acc
  rej : (s.rej || anyVerdict c false as) = rej

/-- How a request ends: early, or with these flags and the outcome they give (R262). -/
def EndsWith (c : Config) (acc rej : Bool) (t : State) : Prop :=
  EndsEarly c t ∨ (t.outcome = outcomeOf acc rej ∧ t.acc = acc ∧ t.rej = rej)

/-- Whatever the bus reports, a run that ends its request does so with the flags of all its decisions, or early. -/
theorem run_outcome {c : Config} {acc rej : Bool} {as : List Atom} {s t : State} (h : FlagsToBe c acc rej as s)
    (hrun : run as s = .next t) (hidle : t.busy = false) : EndsWith c acc rej t := by
  refine run_each (p := FlagsToBe c acc rej) (q := fun v => v.busy = false → EndsWith c acc rej v) ?_ ?_ h hrun hidle
  · rintro v hv -
    obtain ⟨-, -, -, hc⟩ := complete_fields (endRequest v)
    have hacc : (endRequest v).acc = acc := (Bool.or_false _).symm.trans hv.acc
    have hrej : (endRequest v).rej = rej := (Bool.or_false _).symm.trans hv.rej
    rw [← hacc, ← hrej]
    exact .inr ⟨hc.outcome, hc.acc, hc.rej⟩
  · rintro a bs v ⟨rfl, hpath, hacc, hrej⟩
    have ha : awaitsPath v.cfg [a] := fun k hk => hpath k (List.mem_singleton.1 hk ▸ List.mem_cons_self ..)
    refine (atom_outcome a ha).imp (fun u hu => ⟨hu.cfg, fun k hk => hpath k (List.mem_cons_of_mem _ hk), ?_, ?_⟩)
      (fun _ u _ hu => by cases hu) (fun u hu _ => .inl hu)
    · rw [hu.acc, Bool.or_assoc]
      exact hacc
    · rw [hu.rej, Bool.or_assoc]
      exact hrej

/-! ### The decisions of each request's rule -/

theorem anyVerdict_append (c : Config) (v : Bool) (as bs : List Atom) :
    anyVerdict c v (as ++ bs) = (anyVerdict c v as || anyVerdict c v bs) := List.any_append

/-- A `SendData` makes no decision. -/
theorem anyVerdict_sendData (c : Config) (v : Bool) (src : Source) (n : Nat) (p : Option Long) :
    anyVerdict c v (sendData src n p) = false := by
  unfold sendData
  split
  · rfl
  · simp [anyVerdict, Atom.verdict, Function.comp_def]

theorem anyVerdict_flatMap (c : Config) (v : Bool) {α : Type} (f : α → List Atom) (l : List α) :
    anyVerdict c v (l.flatMap f) = l.any fun x => anyVerdict c v (f x) := List.any_flatMap

theorem anyVerdict_fillData (c : Config) (v : Bool) (color : Word) (n : Nat) :
    anyVerdict c v (fillData c color n) = false := by
  unfold fillData
  split
  · have hload : ∀ b as, anyVerdict c v (.loadBlock b color :: as) = anyVerdict c v as := fun _ _ => rfl
    rw [hload, anyVerdict_flatMap]
    simp only [anyVerdict_sendData, List.any_eq_false, Bool.false_eq_true, not_false_eq_true, implies_true]
  · exact anyVerdict_sendData ..

/-- The width bracket makes no decision of its own. -/
theorem anyVerdict_with16 (c : Config) (v : Bool) (body : List Atom) :
    anyVerdict c v (with16 body) = anyVerdict c v body := by
  have h : anyVerdict c v (with16 body) = anyVerdict c v (body ++ [.width .w8]) := rfl
  rw [h, anyVerdict_append]
  exact Bool.or_false _

/-- The one decision of a sub-primitive is its window's. -/
theorem anyVerdict_guarded {c : Config} {v : Bool} {body : List Atom} (hbody : anyVerdict c v body = false)
    (x0 y0 x1 y1 : Int) :
    anyVerdict c v (guarded c x0 y0 x1 y1 body) = decide (some (accepts c x0 y0 x1 y1) = some v) := by
  have hgroup : anyVerdict c v (windowGroup c x0 y0 x1 y1) = false := by
    have h : ∀ ps qs, anyVerdict c v (.command c.opcCaset :: ps ++ .command c.opcRaset :: qs ++ [.command c.opcRamwr]) =
        (anyVerdict c v ps || anyVerdict c v qs) := fun ps qs => by simp [anyVerdict, Atom.verdict]
    rw [windowGroup, h, anyVerdict_sendData, anyVerdict_sendData]
    rfl
  have hrest : anyVerdict c v (if accepts c x0 y0 x1 y1 then windowGroup c x0 y0 x1 y1 ++ body else []) = false := by
    split
    · rw [anyVerdict_append, hgroup, hbody]
      rfl
    · rfl
  have h : anyVerdict c v (guarded c x0 y0 x1 y1 body) = (decide (some (accepts c x0 y0 x1 y1) = some v) ||
      anyVerdict c v (if accepts c x0 y0 x1 y1 then windowGroup c x0 y0 x1 y1 ++ body else [])) := rfl
  rw [h, hrest, Bool.or_false]

/-- The decision of a primitive, if it makes one. -/
theorem anyVerdict_expand (c : Config) (v : Bool) (k : Task) :
    anyVerdict c v (expand c k) = decide (taskVerdict c k = some v) := by
  cases k with
  | window x0 y0 x1 y1 => exact anyVerdict_guarded rfl ..
  | plot x y color => exact anyVerdict_guarded ((anyVerdict_with16 ..).trans (anyVerdict_sendData ..)) ..
  | fill x0 y0 x1 y1 color => exact anyVerdict_guarded ((anyVerdict_with16 ..).trans (anyVerdict_fillData ..)) ..
  | blit x y w h src => exact anyVerdict_guarded ((anyVerdict_with16 ..).trans (anyVerdict_sendData ..)) ..
  | data w n src =>
    cases w with
    | w8 => exact anyVerdict_sendData ..
    | w16 => exact (anyVerdict_with16 ..).trans (anyVerdict_sendData ..)
  | _ => rfl

/-- The decisions of a request's steps are those of its primitives. -/
theorem anyVerdict_stepsOf (c : Config) (v : Bool) (i : Instr) :
    anyVerdict c v (stepsOf i c) = (planOf i).any fun k => decide (taskVerdict c k = some v) := by
  rw [stepsOf, anyVerdict_flatMap]
  exact congrArg (List.any _) (funext fun k => anyVerdict_expand c v k)

/-- A request that is not composite makes one decision at most. -/
theorem planAcc_planRej_composite {c : Config} {i : Instr} (hacc : planAcc c (planOf i) = true)
    (hrej : planRej c (planOf i) = true) : isComposite i = true := by
  have hone : ∀ k, planAcc c [k] = true → planRej c [k] = true → False := fun k ha hr => by
    simp only [planAcc, planRej, List.any_cons, List.any_nil, Bool.or_false, decide_eq_true_eq] at ha hr
    rw [ha] at hr
    cases hr
  cases i with
  | window x0 y0 x1 y1 => exact (hone _ hacc hrej).elim
  | pixel x y color => exact (hone _ hacc hrej).elim
  | fillrect x0 y0 x1 y1 color => exact (hone _ hacc hrej).elim
  | blit x y w h src => exact (hone _ hacc hrej).elim
  | cmd op n src => cases hacc
  | data8 n src => cases hacc
  | data16 n src => cases hacc
  | _ => rfl

/-- A request with a rejected window is one that opens windows. -/
theorem planRej_opens {c : Config} {i : Instr} (hrej : planRej c (planOf i) = true) :
    isRaster i = true ∨ ∃ x0 y0 x1 y1, i = .window x0 y0 x1 y1 := by
  cases i with
  | window x0 y0 x1 y1 => exact .inr ⟨x0, y0, x1, y1, rfl⟩
  | cmd op n src => cases hrej
  | data8 n src => cases hrej
  | data16 n src => cases hrej
  | _ => exact .inl rfl

/-! ### The causes (R260, R262) -/

/-- The outcome of a request that reached its end, by its flags (R262). -/
theorem outcomeOf_cases (acc rej : Bool) :
    (rej = false ∧ outcomeOf acc rej = .ok) ∨ (acc = true ∧ rej = true ∧ outcomeOf acc rej = .partialBounds) ∨
    (acc = false ∧ rej = true ∧ outcomeOf acc rej = .noop) := by
  cases acc <;> cases rej <;> decide

/-- An early end is its own cause. -/
theorem EndsEarly.caused {i : Instr} {s t : State} (h : EndsEarly s.cfg t) : Caused i s t := by
  obtain ⟨ho, hmay⟩ | ⟨ho, htimeout⟩ | ⟨ho, hrej⟩ := h
  · exact ⟨by simp [ho], fun _ => hmay, by simp [ho], by simp [ho], by simp [ho], by simp [ho]⟩
  · exact ⟨by simp [ho], by simp [ho], fun _ => htimeout, by simp [ho], by simp [ho], by simp [ho]⟩
  · exact ⟨by simp [ho], by simp [ho], by simp [ho], by simp [ho], by simp [ho], fun _ => hrej⟩

/-- A request that ends early, or with the flags of its whole rule, has the outcome they cause. -/
theorem EndsWith.caused {i : Instr} {s t : State}
    (h : EndsWith s.cfg (planAcc s.cfg (planOf i)) (planRej s.cfg (planOf i)) t) : Caused i s t := by
  obtain hearly | ⟨ho, hacc, hrej⟩ := h
  · exact hearly.caused
  obtain ⟨hr, hcode⟩ | ⟨ha, hr, hcode⟩ | ⟨ha, hr, hcode⟩ :=
    outcomeOf_cases (planAcc s.cfg (planOf i)) (planRej s.cfg (planOf i)) <;> rw [hcode] at ho
  · exact ⟨by simp [ho], by simp [ho], by simp [ho], by simp [ho], by simp [ho], fun _ => hrej.trans hr⟩
  · have hcomposite := planAcc_planRej_composite ha hr
    exact ⟨by simp [ho], by simp [ho], by simp [ho], fun _ => ⟨hcomposite, hacc.trans ha, hrej.trans hr⟩, by simp [ho],
      by simp [ho]⟩
  · have hopens := planRej_opens hr
    exact ⟨by simp [ho], by simp [ho], by simp [ho], by simp [ho], fun _ => ⟨hopens, hacc.trans ha, hrej.trans hr⟩,
      by simp [ho]⟩

/-- No step still to be issued waits on the bus. -/
theorem awaitsPath_of_capped {as : List Atom} (h : as.all Atom.capped = true) (c : Config) : awaitsPath c as :=
  fun _ hk => Bool.noConfusion (List.all_eq_true.1 h _ hk)

/-- The invariant of a running request, as a chunk that may time out sees it (R125). -/
theorem phaseInv_awaitsPath {s : State} {todo : List Atom} (h : phaseInv s) (hp : s.phase = .running todo) :
    awaitsPath s.cfg todo := by
  unfold phaseInv at h
  rw [hp] at h
  split at h
  · rename_i hidle
    cases hidle
  · rename_i c as has
    cases has
    obtain ⟨-, -, hheld, -, -, hcap⟩ := h
    intro k hk
    obtain hk | hk := List.mem_cons.1 hk
    · cases hk
      exact fun _ => hheld.available
    · exact awaitsPath_of_capped hcap s.cfg k hk
  · rename_i bs hne hbs
    cases hbs
    exact awaitsPath_of_capped h.2.2.2 s.cfg

/-- A chunk on the bus decides as the step that issued it: not at all. -/
theorem anyVerdict_resumes (c : Config) (v : Bool) (as : List Atom) : anyVerdict c v (resumes as) = anyVerdict c v as := by
  cases as with
  | nil => rfl
  | cons a as =>
    cases a with
    | await k =>
      have hstep : k.step.verdict c = none := by
        unfold Chunk.step
        split <;> rfl
      have hcons : ∀ a, anyVerdict c v (a :: as) = (decide (a.verdict c = some v) || anyVerdict c v as) := fun _ => rfl
      have hawait : (Atom.await k).verdict c = none := rfl
      rw [resumes, hcons, hcons, hstep, hawait]
    | _ => rfl

/-- A request that runs has the flags of its steps so far, and will have those of its whole rule. -/
theorem Inv.flagsToBe {s : State} {todo : List Atom} (h : Inv s) (hp : s.phase = .running todo) :
    ∃ i, decode s.req = .ok i ∧ FlagsToBe s.cfg (planAcc s.cfg (planOf i)) (planRej s.cfg (planOf i)) todo s := by
  have hreq := h.request
  unfold onRequest at hreq
  rw [hp] at hreq
  obtain ⟨i, before, dp, hdecode, hsteps, -, hacc, hrej⟩ := hreq
  have hflags : ∀ v, (anyVerdict s.cfg v before || anyVerdict s.cfg v todo) = anyVerdict s.cfg v (stepsOf i s.cfg) :=
    fun v => by rw [hsteps, anyVerdict_append, anyVerdict_resumes]
  exact ⟨i, hdecode, rfl, phaseInv_awaitsPath h.phase hp,
    by rw [hacc]; exact (hflags true).trans (anyVerdict_stepsOf ..),
    by rw [hrej]; exact (hflags false).trans (anyVerdict_stepsOf ..)⟩

/-- Settles O53: a run's flags are those of its request's decisions, from its start and from a hold; what ends it early is its
cause. -/
theorem outcomesHaveCauses : Obligations.OutcomesHaveCauses := by
  refine ⟨fun i s t h hidle => ?_, fun s t hinv hbusy h hidle => ?_⟩
  · rw [exec_eq_request] at h
    have hflags : FlagsToBe s.cfg (planAcc s.cfg (planOf i)) (planRej s.cfg (planOf i)) (stepsOf i s.cfg) (begin s) :=
      ⟨rfl, awaitsPath_of_capped (capped_stepsOf i s.cfg) _, (Bool.false_or _).trans (anyVerdict_stepsOf ..),
        (Bool.false_or _).trans (anyVerdict_stepsOf ..)⟩
    exact (run_outcome hflags h hidle).caused
  · obtain ⟨todo, hp⟩ : ∃ todo, s.phase = .running todo := by
      cases hph : s.phase with
      | idle => simp [State.busy, hph] at hbusy
      | running todo => exact ⟨todo, rfl⟩
    obtain ⟨i, hdecode, hflags⟩ := hinv.flagsToBe hp
    refine ⟨i, hdecode, ?_⟩
    obtain ⟨-, ⟨k, -, rfl⟩ | ⟨-, todo', hp', hr⟩ | ⟨-, hp', -⟩ | ⟨-, hp', -⟩ | ⟨-, hp', -⟩⟩ := step_cases h
    · exact (resetStep_endsEarly k s).caused
    · obtain rfl : todo' = todo := Phase.running.inj (hp'.symm.trans hp)
      exact (run_outcome hflags hr hidle).caused
    all_goals simp [hp] at hp'

end Sys2Proof.Machine
end

section
/-! PROOFS. What FILLRECT puts on the wire (spec 42 R183, R185). -/

namespace Sys2Proof.Machine

/-- The elements of a FILLRECT in its own operands (R185): an accepted rectangle has x0 ≤ x1 and y0 ≤ y1, so that its count of
samples is that of natural numbers; a rejected one has no samples. -/
theorem fillElems_operands (c : Config) (x0 y0 x1 y1 color : Word) :
    fillElems c (zint x0) (zint y0) (zint x1) (zint y1) color =
      if accepts c (zint x0) (zint y0) (zint x1) (zint y1) then
        windowElems c (zint x0) (zint y0) (zint x1) (zint y1) ++
          List.replicate ((x1.toNat - x0.toNat + 1) * (y1.toNat - y0.toNat + 1)) (pixelElem color)
      else [] := by
  unfold fillElems subElems
  split
  · rename_i hacc
    rw [fill_count hacc, List.map_replicate]
  · rfl

/-- Settles O36: the sub-primitive of one `Fill`, whose elements and flags are those of its window's verdict. -/
theorem fillrectResult : Obligations.FillrectResult := by
  intro x0 y0 x1 y1 color s hcfg hs hq
  obtain ⟨t, ht, hl⟩ := sub_primitive_leaves (k := .fill (zint x0) (zint y0) (zint x1) (zint y1) color) hcfg hs hq
    trivial rfl
  refine ⟨_, rfl, t, ht, ?_⟩
  rwa [taskElems, fillElems_operands] at hl

end Sys2Proof.Machine
end

section
/-! PROOFS. Lines (spec 43 R200 to R206): what a list of primitives renders, the walk of R201 in closed form, and the requests
LINE, RECT and TRI. -/

namespace Sys2Proof.Machine

/-! ### What primitives render (R180, R262) -/

/-- Primitives that can read what they read, by their elements and the flags of their window decisions. -/
structure Renders (s : State) (ts : List Task) (es : List Elem) (acc rej : Bool) : Prop where
  readable : ∀ t ∈ ts, taskReadable s t
  elems : ts.flatMap (taskElems s) = es
  acc : planAcc s.cfg ts = acc
  rej : planRej s.cfg ts = rej

theorem Renders.append {s : State} {ts us : List Task} {es fs : List Elem} {a b q r : Bool} (h : Renders s ts es a q)
    (k : Renders s us fs b r) : Renders s (ts ++ us) (es ++ fs) (a || b) (q || r) where
  readable := List.forall_mem_append.2 ⟨h.readable, k.readable⟩
  elems := by rw [List.flatMap_append, h.elems, k.elems]
  acc := by rw [← h.acc, ← k.acc]; exact List.any_append
  rej := by rw [← h.rej, ← k.rej]; exact List.any_append

/-- A request whose chunks complete leaves what its primitives render. -/
theorem Renders.leaves {s : State} {ts : List Task} {es : List Elem} {acc rej : Bool} (h : Renders s ts es acc rej)
    (hcfg : s.cfg.ok = true) (hs : Ready s) (hq : Quiet s) : ∃ t, request ts s = .next t ∧ Leaves s t es acc rej := by
  obtain ⟨t, ht, hl⟩ := request_leaves ts (Config.fillStrategy_ok hcfg) hs hq h.readable
  rw [h.elems, h.acc, h.rej] at hl
  exact ⟨t, ht, hl⟩

theorem Renders.fill (s : State) (b : Box) (v : Word) :
    Renders s [.fill b.x0 b.y0 b.x1 b.y1 v] (b.elems s.cfg v) (b.accepted s.cfg) (!b.accepted s.cfg) where
  readable := List.forall_mem_singleton.2 trivial
  elems := List.flatMap_singleton ..
  acc := by simp [planAcc, taskVerdict, Box.accepted]
  rej := by simp [planRej, taskVerdict, Box.accepted]

/-- A primitive that plots in the given color, or writes datapath registers. -/
def Task.plots (v : Word) : Task → Bool
  | .lineRegs _ => true
  | .circleRegs _ => true
  | .triRegs _ => true
  | .plot _ _ color => decide (color = v)
  | .window _ _ _ _ => false
  | .fill _ _ _ _ _ => false
  | .blit _ _ _ _ _ => false
  | .command _ => false
  | .data _ _ _ => false

theorem Task.plots_renders {v : Word} {t : Task} (h : t.plots v = true) (s : State) :
    Renders s [t] ((plottedPoints [t]).flatMap (plotElems s.cfg v)) (anyIn s.cfg (plottedPoints [t]))
      (anyOut s.cfg (plottedPoints [t])) := by
  cases t with
  | lineRegs _ | circleRegs _ | triRegs _ => exact ⟨List.forall_mem_singleton.2 trivial, rfl, rfl, rfl⟩
  | plot x y color =>
    obtain rfl := of_decide_eq_true h
    have hp : plottedPoints [.plot x y color] = [(x, y)] := rfl
    rw [hp]
    refine ⟨List.forall_mem_singleton.2 trivial, ?_, ?_, ?_⟩
    · rw [List.flatMap_singleton, List.flatMap_singleton, taskElems, subElems, accepts_point]
      rfl
    · simp [planAcc, taskVerdict, accepts_point, anyIn]
    · simp [planRej, taskVerdict, accepts_point, anyOut]
  | window _ _ _ _ | fill _ _ _ _ _ | blit _ _ _ _ _ | command _ | data _ _ _ => cases h

/-- Plots render their points, each clipped by itself (R181). -/
theorem Renders.plots {v : Word} {ts : List Task} (h : ts.all (Task.plots v) = true) (s : State) :
    Renders s ts ((plottedPoints ts).flatMap (plotElems s.cfg v)) (anyIn s.cfg (plottedPoints ts))
      (anyOut s.cfg (plottedPoints ts)) := by
  induction ts with
  | nil => exact ⟨List.forall_mem_nil _, rfl, rfl, rfl⟩
  | cons t ts ih =>
    rw [List.all_cons, Bool.and_eq_true] at h
    have hr := (Task.plots_renders h.1 s).append (ih h.2)
    rwa [← List.flatMap_append, anyIn, anyIn, ← List.any_append, anyOut, anyOut, ← List.any_append,
      ← plottedPoints_append] at hr

/-! ### The walk in closed form (R201) -/

theorem absInt_nonneg (v : Int) : 0 ≤ absInt v := by
  unfold absInt
  split <;> omega

theorem absInt_sub_comm (a b : Int) : absInt (a - b) = absInt (b - a) := by
  unfold absInt
  split <;> split <;> omega

theorem absInt_of_nonneg {v : Int} (h : 0 ≤ v) : absInt v = v := if_neg (Int.not_lt.2 h)

/-- How often the error term has crossed zero by k passes (R201). -/
def lineRise (dx dy : Int) (k : Nat) : Int := ((k : Int) * dy + dx - 1 - dx / 2) / dx

/-- The error term after k passes, from the number of times it has crossed zero. -/
def lineErr (dx dy : Int) (k : Nat) : Int := dx / 2 - k * dy + lineRise dx dy k * dx

theorem lineRise_zero {dx : Int} (hdx : 0 < dx) (dy : Int) : lineRise dx dy 0 = 0 :=
  Int.ediv_eq_zero_of_lt (by omega) (by omega)

theorem lineErr_bounds {dx : Int} (hdx : 0 < dx) (dy : Int) (k : Nat) : 0 ≤ lineErr dx dy k ∧ lineErr dx dy k < dx := by
  have hdiv := Int.emod_add_ediv_mul ((k : Int) * dy + dx - 1 - dx / 2) dx
  have hpos := Int.emod_nonneg ((k : Int) * dy + dx - 1 - dx / 2) hdx.ne'
  have hlt := Int.emod_lt_of_pos ((k : Int) * dy + dx - 1 - dx / 2) hdx
  unfold lineErr lineRise
  omega

/-- The error term crosses zero in a pass exactly where R201 tests it to be below zero. -/
theorem lineRise_succ {dx dy : Int} (hdx : 0 < dx) (hdy : 0 ≤ dy) (hle : dy ≤ dx) (k : Nat) :
    lineRise dx dy (k + 1) = if lineErr dx dy k - dy < 0 then lineRise dx dy k + 1 else lineRise dx dy k := by
  obtain ⟨hpos, hlt⟩ := lineErr_bounds hdx dy k
  have hmul : ((k + 1 : Nat) : Int) * dy = k * dy + dy := by push_cast; ring
  have herr : lineErr dx dy k = dx / 2 - k * dy + lineRise dx dy k * dx := rfl
  rw [Int.mul_comm (lineRise dx dy k)] at herr
  rw [lineRise, hmul]
  split
  · have hone : dx * (lineRise dx dy k + 1) = dx * lineRise dx dy k + dx := by ring
    exact ((Int.ediv_emod_unique (r := dy - 1 - lineErr dx dy k) hdx).2 ⟨by omega, by omega, by omega⟩).1
  · exact ((Int.ediv_emod_unique (r := dx - 1 - lineErr dx dy k + dy) hdx).2 ⟨by omega, by omega, by omega⟩).1

theorem lineErr_succ {dx dy : Int} (hdx : 0 < dx) (hdy : 0 ≤ dy) (hle : dy ≤ dx) (k : Nat) :
    lineErr dx dy (k + 1) =
      if lineErr dx dy k - dy < 0 then lineErr dx dy k - dy + dx else lineErr dx dy k - dy := by
  rw [lineErr, lineRise_succ hdx hdy hle]
  split <;> (rw [lineErr]; push_cast; ring)

/-- The line registers at the left end of a walk whose ends are ordered (R201, R202). -/
def walkStart (steep : Bool) (x0 y0 x1 y1 : Int) : LineRegs where
  steep := steep
  lx0 := x0
  ly0 := y0
  lx1 := x1
  ly1 := y1
  dx := x1 - x0
  dy := absInt (y1 - y0)
  err := (x1 - x0) / 2
  ystep := if y0 < y1 then 1 else -1
  x := x0
  y := y0

/-- The line registers after k passes from `walkStart`. -/
def walkRegs (steep : Bool) (x0 y0 x1 y1 : Int) (k : Nat) : LineRegs :=
  { walkStart steep x0 y0 x1 y1 with
    err := lineErr (x1 - x0) (absInt (y1 - y0)) k
    x := x0 + k
    y := if y0 < y1 then y0 + lineRise (x1 - x0) (absInt (y1 - y0)) k
      else y0 - lineRise (x1 - x0) (absInt (y1 - y0)) k }

/-- The points of the closed form are the walk's: its range of integers is one of natural numbers, cast. -/
theorem shallowPoints_eq (x0 y0 x1 y1 : Int) :
    shallowPoints x0 y0 x1 y1 = (List.range (x1 - x0 + 1).toNat).map fun k =>
      ((walkRegs false x0 y0 x1 y1 k).x, (walkRegs false x0 y0 x1 y1 k).y) := by
  rw [shallowPoints, List.bind_eq_flatMap]
  simp only [List.pure_def]
  rw [← List.map_eq_flatMap, List.map_map]
  rfl

section walk

variable {x0 y0 x1 y1 : Int} (steep : Bool) (hx : x0 < x1) (hle : absInt (y1 - y0) ≤ x1 - x0)

include hx in
theorem walkRegs_zero : walkRegs steep x0 y0 x1 y1 0 = walkStart steep x0 y0 x1 y1 := by
  simp [walkRegs, walkStart, lineErr, lineRise_zero (Int.sub_pos.2 hx)]

include hx hle

/-- A pass before the right end. -/
theorem lineNext_walkRegs {k : Nat} (hk : x0 + k < x1) :
    lineNext (walkRegs steep x0 y0 x1 y1 k) = walkRegs steep x0 y0 x1 y1 (k + 1) := by
  have hdx : 0 < x1 - x0 := Int.sub_pos.2 hx
  have hdy := absInt_nonneg (y1 - y0)
  rw [lineNext_eq]
  simp only [walkRegs, walkStart, lineRise_succ hdx hdy hle, lineErr_succ hdx hdy hle, LineRegs.mk.injEq, true_and]
  refine ⟨rfl, (if_pos hk).trans (by omega), ?_⟩
  split_ifs <;> omega

theorem iterate_lineNext_walkStart {k : Nat} (hk : x0 + k ≤ x1) :
    Nat.iterate lineNext k (walkStart steep x0 y0 x1 y1) = walkRegs steep x0 y0 x1 y1 k := by
  induction k with
  | zero => exact (walkRegs_zero steep hx).symm
  | succ k ih =>
    rw [Function.iterate_succ_apply', ih (by omega), lineNext_walkRegs steep hx hle (by omega)]

/-- The passes from the left end plot the points of the closed form, axes exchanged back when steep. -/
theorem plottedPoints_walkStart (v : Word) :
    plottedPoints (lineWalk v (x1 - x0 + 1).toNat (walkStart steep x0 y0 x1 y1)) =
      (shallowPoints x0 y0 x1 y1).map fun p => if steep then (p.2, p.1) else p := by
  rw [plottedPoints_lineWalk, shallowPoints_eq, List.map_map, List.map_map]
  refine List.map_congr_left fun k hk => ?_
  rw [List.mem_range] at hk
  rw [Function.comp_apply, iterate_lineNext_walkStart steep hx hle (by omega)]
  rfl

end walk

/-! ### Ends ordered left to right (R201) -/

/-- A function of two points given the one with the lesser first coordinate first. -/
def leftToRight {α : Type} (f : Int → Int → Int → Int → α) (x0 y0 x1 y1 : Int) : α :=
  if x0 > x1 then f x1 y1 x0 y0 else f x0 y0 x1 y1

theorem leftToRight_comm {α : Type} (f : Int → Int → Int → Int → α) {x0 x1 : Int} (hx : x0 ≠ x1) (y0 y1 : Int) :
    leftToRight f x0 y0 x1 y1 = leftToRight f x1 y1 x0 y0 := by
  obtain h | h := lt_or_gt_of_ne hx
  · rw [leftToRight, leftToRight, if_neg h.asymm, if_pos h]
  · rw [leftToRight, leftToRight, if_pos h, if_neg h.asymm]

/-- The registers before the first pass: axes exchanged when steep, then ends ordered. -/
theorem lineStart_eq (x0 y0 x1 y1 : Int) :
    lineStart x0 y0 x1 y1 =
      if absInt (y1 - y0) > absInt (x1 - x0) then leftToRight (walkStart true) y0 x0 y1 x1
      else leftToRight (walkStart false) x0 y0 x1 y1 := by
  unfold lineStart leftToRight
  by_cases hsteep : absInt (y1 - y0) > absInt (x1 - x0)
  · simp only [hsteep, decide_true, if_true]
    split <;> rfl
  · simp only [hsteep, decide_false, Bool.false_eq_true, if_false]
    split <;> rfl

theorem generalPoints_eq (x0 y0 x1 y1 : Int) :
    generalPoints x0 y0 x1 y1 =
      if absInt (y1 - y0) > absInt (x1 - x0) then (leftToRight shallowPoints y0 x0 y1 x1).map fun p => (p.2, p.1)
      else leftToRight shallowPoints x0 y0 x1 y1 := rfl

/-- From ordered ends the passes plot the points of the closed form between them. -/
theorem plottedPoints_leftToRight {x0 y0 x1 y1 : Int} (hx : x0 ≠ x1) (hle : absInt (y1 - y0) ≤ absInt (x1 - x0))
    (steep : Bool) (v : Word) :
    plottedPoints (lineWalk v ((leftToRight (walkStart steep) x0 y0 x1 y1).dx + 1).toNat
        (leftToRight (walkStart steep) x0 y0 x1 y1)) =
      (leftToRight shallowPoints x0 y0 x1 y1).map fun p => if steep then (p.2, p.1) else p := by
  unfold leftToRight
  split
  · rw [absInt_sub_comm y1, absInt_sub_comm x1, absInt_of_nonneg (v := x0 - x1) (by omega)] at hle
    exact plottedPoints_walkStart steep (by omega) hle v
  · rw [absInt_of_nonneg (v := x1 - x0) (by omega)] at hle
    exact plottedPoints_walkStart steep (by omega) hle v

/-- The general line plots the points of the closed form (R201, R203). -/
theorem plottedPoints_lineGeneral {x0 y0 x1 y1 : Int} (hx : x0 ≠ x1) (hy : y0 ≠ y1) (v : Word) :
    plottedPoints (lineGeneral x0 y0 x1 y1 v) = generalPoints x0 y0 x1 y1 := by
  have hwalk : plottedPoints (lineGeneral x0 y0 x1 y1 v) = plottedPoints
      (lineWalk v ((lineStart x0 y0 x1 y1).dx + 1).toNat (lineStart x0 y0 x1 y1)) := rfl
  rw [hwalk, lineStart_eq, generalPoints_eq]
  split
  · rename_i hsteep
    exact plottedPoints_leftToRight hy hsteep.le true v
  · rename_i hflat
    rw [plottedPoints_leftToRight hx (Int.not_lt.1 hflat) false v]
    exact List.map_id _

/-! ### What a line renders (R200) -/

theorem lineWalk_plots (v : Word) (n : Nat) (r : LineRegs) : (lineWalk v n r).all (Task.plots v) = true := by
  induction n generalizing r with
  | zero => rfl
  | succ n ih =>
    have hplot : (linePlot r v).plots v = true := by
      unfold linePlot
      split <;> exact decide_eq_true rfl
    rw [lineWalk, List.all_cons, List.all_cons, hplot, ih]
    rfl

/-- A straight line is the one `Fill` of its edge. -/
theorem line_straight {x0 y0 x1 y1 : Int} (h : straight x0 y0 x1 y1 = true) (v : Word) :
    line x0 y0 x1 y1 v = [.fill (min x0 x1) (min y0 y1) (max x0 x1) (max y0 y1) v] := by
  unfold line
  split
  · rename_i hy
    rw [hy, min_self, max_self]
    rfl
  · rename_i hy
    obtain rfl : x0 = x1 := by simpa [straight, hy] using h
    rw [if_pos rfl, min_self, max_self]

/-- A line that is not straight is the general one. -/
theorem line_general {x0 y0 x1 y1 : Int} (h : straight x0 y0 x1 y1 = false) (v : Word) :
    x0 ≠ x1 ∧ y0 ≠ y1 ∧ line x0 y0 x1 y1 v = lineGeneral x0 y0 x1 y1 v := by
  simp only [straight, Bool.or_eq_false_iff, decide_eq_false_iff_not] at h
  exact ⟨h.2, h.1, (if_neg h.1).trans (if_neg h.2)⟩

theorem Renders.edge (s : State) {x0 y0 x1 y1 : Int} (h : straight x0 y0 x1 y1 = true) (v : Word) :
    Renders s (line x0 y0 x1 y1 v) ((edge x0 y0 x1 y1).elems s.cfg v) ((edge x0 y0 x1 y1).accepted s.cfg)
      (!(edge x0 y0 x1 y1).accepted s.cfg) := by
  rw [line_straight h]
  exact Renders.fill s (Machine.edge x0 y0 x1 y1) v

theorem Renders.line (s : State) (x0 y0 x1 y1 : Int) (v : Word) :
    Renders s (line x0 y0 x1 y1 v) (lineElems s.cfg v x0 y0 x1 y1) (lineAcc s.cfg x0 y0 x1 y1)
      (lineRej s.cfg x0 y0 x1 y1) := by
  unfold lineElems lineAcc lineRej
  cases h : straight x0 y0 x1 y1 with
  | true => exact Renders.edge s h v
  | false =>
    obtain ⟨hx, hy, hline⟩ := line_general h v
    rw [hline, ← plottedPoints_lineGeneral hx hy v]
    have hplots : (lineGeneral x0 y0 x1 y1 v).all (Task.plots v) = true := lineWalk_plots ..
    exact Renders.plots hplots s

/-! ### LINE, RECT and TRI (R204 to R206) -/

/-- Settles O41: a straight line is one `Fill`, another plots the closed form's points. -/
theorem lineResult : Obligations.LineResult := by
  intro x0 y0 x1 y1 color s hcfg hs hq
  exact (Renders.line s (zint x0) (zint y0) (zint x1) (zint y1) color).leaves hcfg hs hq

/-- Both orders of two ends start the walk at the same end, with the same registers. -/
theorem lineStart_comm {x0 y0 x1 y1 : Int} (hx : x0 ≠ x1) (hy : y0 ≠ y1) :
    lineStart x0 y0 x1 y1 = lineStart x1 y1 x0 y0 := by
  rw [lineStart_eq, lineStart_eq, absInt_sub_comm y1, absInt_sub_comm x1, leftToRight_comm _ hx, leftToRight_comm _ hy]

theorem straight_comm (x0 y0 x1 y1 : Int) : straight x0 y0 x1 y1 = straight x1 y1 x0 y0 :=
  congrArg₂ or (decide_eq_decide.2 eq_comm) (decide_eq_decide.2 eq_comm)

theorem line_comm (x0 y0 x1 y1 : Int) (v : Word) : line x0 y0 x1 y1 v = line x1 y1 x0 y0 v := by
  cases h : straight x0 y0 x1 y1 with
  | true =>
    rw [line_straight h, line_straight ((straight_comm ..).trans h), min_comm x0, min_comm y0, max_comm x0, max_comm y0]
  | false =>
    obtain ⟨hx, hy, hline⟩ := line_general h v
    obtain ⟨-, -, hback⟩ := line_general ((straight_comm x1 y1 x0 y0).trans h) v
    rw [hline, hback, lineGeneral, lineGeneral, lineStart_comm hx hy]

/-- Settles O42: the rules of the two requests are the same primitives. -/
theorem lineEndsExchange : Obligations.LineEndsExchange := by
  intro x0 y0 x1 y1 color s
  rw [exec_eq_request, exec_eq_request]
  exact congrArg (request · s) (line_comm ..)

/-- Settles O44: each of the four lines of the rule is straight, so it is the one `Fill` of its edge. -/
theorem rectResult : Obligations.RectResult := by
  rintro x0 y0 x1 y1 color s bs hcfg hs hq rfl
  have hrow : ∀ a b y : Int, straight a y b y = true := by simp [straight]
  have hcolumn : ∀ x a b : Int, straight x a x b = true := by simp [straight]
  have hplan := (((Renders.edge s (hrow (zint x0) (zint x1) (zint y0)) color).append
    (Renders.edge s (hcolumn (zint x0) (zint y0) (zint y1)) color)).append
    (Renders.edge s (hrow (zint x0) (zint x1) (zint y1)) color)).append
    (Renders.edge s (hcolumn (zint x1) (zint y0) (zint y1)) color)
  obtain ⟨t, ht, hl⟩ := hplan.leaves hcfg hs hq
  refine ⟨t, ht, ?_⟩
  simpa [Bool.or_assoc] using hl

/-- Settles O45: the rule's three lines one after another. -/
theorem triResult : Obligations.TriResult := by
  intro x1 y1 x2 y2 x3 y3 color s hcfg hs hq
  exact (((Renders.line s (zint x1) (zint y1) (zint x2) (zint y2) color).append
    (Renders.line s (zint x2) (zint y2) (zint x3) (zint y3) color)).append
    (Renders.line s (zint x3) (zint y3) (zint x1) (zint y1) color)).leaves hcfg hs hq

end Sys2Proof.Machine
end

section
/-! PROOFS. Circles (spec 44 R220 to R225): the loop of R221 as the list of its steps, and what CIRCLE and FCIRCLE draw at
each. -/

namespace Sys2Proof.Machine

/-! ### The loop as its steps (R220, R221) -/

@[simp] theorem circleNext_x (c : CircleRegs) : (circleNext c).x = c.x + 1 := by
  unfold circleNext
  split <;> rfl

@[simp] theorem circleNext_y (c : CircleRegs) : (circleNext c).y = if 0 ≤ c.f then c.y - 1 else c.y := by
  unfold circleNext
  split <;> rfl

/-- The registers after each step of the loop from `c`, of which n passes are allowed. -/
def circleStepsFrom (n : Nat) (c : CircleRegs) : List CircleRegs :=
  (((List.range n).map fun k => Nat.iterate circleNext k c).takeWhile fun d => decide (d.x < d.y)).map circleNext

theorem circleSteps_eq (r : Int) : circleSteps r = circleStepsFrom r.toNat (circleStart r) := rfl

theorem circleStepsFrom_succ (n : Nat) (c : CircleRegs) :
    circleStepsFrom (n + 1) c = if c.x < c.y then circleNext c :: circleStepsFrom n (circleNext c) else [] := by
  rw [circleStepsFrom, iterates_succ, List.takeWhile_cons]
  simp only [decide_eq_true_eq]
  split <;> rfl

/-- The loop writes the registers and draws, step by step. -/
theorem circleLoop_eq (em : CircleRegs → List Task) (n : Nat) (c : CircleRegs) :
    circleLoop em n c = (circleStepsFrom n c).flatMap fun d => .circleRegs d :: em d := by
  induction n generalizing c with
  | zero => rfl
  | succ n ih =>
    rw [circleLoop, circleStepsFrom_succ, ih]
    split <;> rfl

/-- From a distance of at most n the loop stops at the first registers with x ≥ y (R221): a step raises x by 1 and never y. -/
theorem circleStepsFrom_iterates {n : Nat} {c : CircleRegs} (hn : c.y - c.x ≤ n) :
    ∃ m ≤ n, c :: circleStepsFrom n c = (List.range (m + 1)).map (fun k => Nat.iterate circleNext k c) ∧
      (∀ k < m, (Nat.iterate circleNext k c).x < (Nat.iterate circleNext k c).y) ∧
      (Nat.iterate circleNext m c).y ≤ (Nat.iterate circleNext m c).x := by
  induction n generalizing c with
  | zero => exact ⟨0, le_rfl, rfl, by simp, by simpa using hn⟩
  | succ n ih =>
    rw [circleStepsFrom_succ]
    by_cases hxy : c.x < c.y
    · have hnext : (circleNext c).y - (circleNext c).x ≤ n := by
        rw [circleNext_x, circleNext_y]
        split <;> omega
      obtain ⟨m, hm, hlist, hbelow, hstop⟩ := ih hnext
      refine ⟨m + 1, by omega, ?_, fun k hk => ?_, hstop⟩
      · rw [if_pos hxy, hlist, iterates_succ _ (m + 1)]
      · cases k with
        | zero => exact hxy
        | succ k => exact hbelow k (by omega)
    · exact ⟨0, by omega, by rw [if_neg hxy]; rfl, by simp, by simpa using hxy⟩

/-- At every step of a loop that starts right of the centre, x and y are not negative (R40). -/
theorem circleStepsFrom_nonneg {n : Nat} {c d : CircleRegs} (hc : 0 ≤ c.x) (hd : d ∈ circleStepsFrom n c) :
    0 ≤ d.x ∧ 0 ≤ d.y := by
  induction n generalizing c with
  | zero => cases hd
  | succ n ih =>
    rw [circleStepsFrom_succ] at hd
    split at hd
    · rename_i hxy
      obtain rfl | hd := List.mem_cons.1 hd
      · rw [circleNext_x, circleNext_y]
        split <;> omega
      · exact ih (by rw [circleNext_x]; omega) hd
    · cases hd

/-- The registers of a circle are its start and those after each step. -/
theorem circleValues_planCircle (xc yc r color : Word) :
    circleValues (planCircle xc yc r color) = circleStart (zint r) :: circleSteps (zint r) := by
  have hsteps : circleValues (circleLoop (circlePoints (zint xc) (zint yc) color) (zint r).toNat (circleStart (zint r))) =
      circleSteps (zint r) := by
    rw [circleLoop_eq, circleValues, List.filterMap_flatMap, circleSteps_eq]
    exact List.flatMap_singleton' _
  rw [planCircle, circle, circleValues_append, hsteps]
  rfl

/-- Settles O47: at the start y is r above x, so the distance the loop has to close is r. -/
theorem circleLoopBound : Obligations.CircleLoopBound := by
  intro xc yc r color
  rw [circleValues_planCircle]
  refine circleStepsFrom_iterates (n := r.toNat) ?_
  simp [circleStart, zint]

/-! ### CIRCLE (R222, R223) -/

theorem circle_plots (xc yc r : Int) (v : Word) : (circle xc yc r v).all (Task.plots v) = true := by
  have hloop : (circleLoop (circlePoints xc yc v) r.toNat (circleStart r)).all (Task.plots v) = true := by
    rw [circleLoop_eq, List.all_flatMap]
    simp [circlePoints, Task.plots]
  rw [circle, List.all_append, hloop]
  simp [Task.plots]

/-- A circle plots the seeds, then the points of each step, in the order of R222. -/
theorem plottedPoints_circle (xc yc r : Int) (v : Word) : plottedPoints (circle xc yc r v) = circleOutline xc yc r := by
  rw [circle, plottedPoints_append, circleLoop_eq, circleOutline, circleSteps_eq, plottedPoints, plottedPoints,
    List.filterMap_flatMap]
  rfl

/-- Settles O48: every primitive of the rule is a plot or a register write, and the plots are the outline's. -/
theorem circleResult : Obligations.CircleResult := by
  rintro xc yc r color s ps hcfg hs hq rfl
  rw [← plottedPoints_circle (zint xc) (zint yc) (zint r) color]
  exact (Renders.plots (circle_plots (zint xc) (zint yc) (zint r) color) s).leaves hcfg hs hq

/-! ### Symmetry (R223) -/

/-- The offset from the centre is one of the eight that the registers stand for: theirs up to the signs and the order. -/
def Covers (c : CircleRegs) (dx dy : Int) : Prop :=
  (dx.natAbs = c.x.natAbs ∧ dy.natAbs = c.y.natAbs) ∨ (dx.natAbs = c.y.natAbs ∧ dy.natAbs = c.x.natAbs)

theorem Covers.neg_left {c : CircleRegs} {dx dy : Int} (h : Covers c dx dy) : Covers c (-dx) dy := by
  rwa [Covers, Int.natAbs_neg]

theorem Covers.neg_right {c : CircleRegs} {dx dy : Int} (h : Covers c dx dy) : Covers c dx (-dy) := by
  rwa [Covers, Int.natAbs_neg]

theorem Covers.swap {c : CircleRegs} {dx dy : Int} (h : Covers c dx dy) : Covers c dy dx :=
  (h.imp And.symm And.symm).symm

/-- The outline is what the registers cover, the start included: its eight points are the four seeds, each twice. -/
theorem mem_circleOutline {xc yc r dx dy : Int} :
    (xc + dx, yc + dy) ∈ circleOutline xc yc r ↔ ∃ c ∈ circleStart r :: circleSteps r, Covers c dx dy := by
  rw [circleOutline, List.mem_append, List.mem_flatMap, List.exists_mem_cons_iff]
  refine or_congr ?_ (exists_congr fun c => and_congr_right fun _ => ?_)
  · simp only [List.mem_cons, List.not_mem_nil, Prod.mk.injEq, Covers, circleStart, Int.sub_eq_add_neg, add_right_inj,
      add_eq_left, Int.natAbs_eq_natAbs_iff]
    grind
  · simp only [List.mem_cons, List.not_mem_nil, Prod.mk.injEq, Covers, Int.sub_eq_add_neg, add_right_inj,
      Int.natAbs_eq_natAbs_iff]
    grind

/-- Settles O49: what the registers cover does not depend on the signs of an offset's coordinates, nor on their order. -/
theorem circleSymmetry : Obligations.CircleSymmetry := by
  rintro xc yc r color dx dy ps rfl hp
  rw [planCircle, plottedPoints_circle] at hp ⊢
  obtain ⟨c, hc, hcov⟩ := mem_circleOutline.1 hp
  rw [Int.sub_eq_add_neg, Int.sub_eq_add_neg]
  exact ⟨mem_circleOutline.2 ⟨c, hc, hcov.neg_left⟩, mem_circleOutline.2 ⟨c, hc, hcov.neg_right⟩,
    mem_circleOutline.2 ⟨c, hc, hcov.swap⟩⟩

/-! ### FCIRCLE (R224, R225) -/

/-- Primitives that render the rectangles of a list in one color, each whole or not at all (R183). -/
def RendersBoxes (s : State) (v : Word) (ts : List Task) (bs : List Box) : Prop :=
  Renders s ts (bs.flatMap (Box.elems s.cfg v)) (bs.any (Box.accepted s.cfg)) (bs.any fun b => !b.accepted s.cfg)

theorem RendersBoxes.append {s : State} {v : Word} {ts us : List Task} {bs cs : List Box} (h : RendersBoxes s v ts bs)
    (k : RendersBoxes s v us cs) : RendersBoxes s v (ts ++ us) (bs ++ cs) := by
  rw [RendersBoxes, List.flatMap_append, List.any_append, List.any_append]
  exact Renders.append h k

theorem RendersBoxes.flatMap {s : State} {v : Word} {α : Type} {f : α → List Task} {g : α → List Box} {l : List α}
    (h : ∀ a ∈ l, RendersBoxes s v (f a) (g a)) : RendersBoxes s v (l.flatMap f) (l.flatMap g) := by
  induction l with
  | nil => exact ⟨List.forall_mem_nil _, rfl, rfl, rfl⟩
  | cons a l ih =>
    obtain ⟨ha, hl⟩ := List.forall_mem_cons.1 h
    exact ha.append (ih hl)

/-- A write of the circle registers renders nothing. -/
theorem RendersBoxes.circleRegs (s : State) (v : Word) (c : CircleRegs) : RendersBoxes s v [.circleRegs c] [] :=
  ⟨List.forall_mem_singleton.2 trivial, rfl, rfl, rfl⟩

/-- A span whose half width is not negative is the row about its centre (R184). -/
theorem RendersBoxes.span (s : State) (v : Word) {d : Int} (hd : 0 ≤ d) (x y : Int) :
    RendersBoxes s v [span (x - d) (x + d) y v] [⟨x - d, y, x + d, y⟩] := by
  have hends : x - d ≤ x + d := by omega
  rw [Machine.span, min_eq_left hends, max_eq_right hends]
  simpa [RendersBoxes] using Renders.fill s ⟨x - d, y, x + d, y⟩ v

/-- The filled circle renders the rows of R224. -/
theorem RendersBoxes.filledCircle (s : State) (xc yc : Int) {r : Int} (hr : 0 ≤ r) (v : Word) :
    RendersBoxes s v (filledCircle xc yc r v) (circleRows xc yc r) := by
  rw [Machine.filledCircle, circleLoop_eq]
  refine (RendersBoxes.circleRegs s v _).append ((RendersBoxes.span s v hr xc yc).append (.flatMap fun c hc => ?_))
  obtain ⟨hx, hy⟩ := circleStepsFrom_nonneg le_rfl hc
  have hspans := ((RendersBoxes.span s v hx xc (yc + c.y)).append (.span s v hx xc (yc - c.y))).append
    ((RendersBoxes.span s v hy xc (yc + c.x)).append (.span s v hy xc (yc - c.x)))
  exact (RendersBoxes.circleRegs s v c).append hspans

/-- Settles O50: each span of the rule is one row, since x and y are not negative. -/
theorem fcircleResult : Obligations.FcircleResult := by
  rintro xc yc r color s bs hcfg hs hq rfl
  exact Renders.leaves (RendersBoxes.filledCircle s (zint xc) (zint yc) (Int.natCast_nonneg _) color) hcfg hs hq

end Sys2Proof.Machine
end

section
/-! PROOFS. The filled triangle (spec 45 R240 to R242): the walk of R240 in closed form, and what FTRI draws at each pass. -/

namespace Sys2Proof.Machine

/-! ### One pass (R240) -/

/-- One pass in all its registers: the accumulator overflows where it reaches `den`, which moves the point by the first
increments; the second are added in every pass. -/
theorem triNext_eq (r : TriRegs) :
    triNext r = { r with
      num := if r.den ≤ r.num + r.numadd then r.num + r.numadd - r.den else r.num + r.numadd
      x := (if r.den ≤ r.num + r.numadd then r.x + r.xinc1 else r.x) + r.xinc2
      y := (if r.den ≤ r.num + r.numadd then r.y + r.yinc1 else r.y) + r.yinc2
      curpixel := r.curpixel + 1 } := by
  unfold triNext
  by_cases h : r.den ≤ r.num + r.numadd <;> simp only [ge_iff_le, if_pos, if_neg, h, not_false_eq_true]

/-- The passes draw and write the registers, one after another. -/
theorem triWalk_eq (x3 y3 : Int) (v : Word) (n : Nat) (r : TriRegs) :
    triWalk x3 y3 v n r =
      ((List.range n).map fun k => Nat.iterate triNext k r).flatMap fun q =>
        line q.x q.y x3 y3 v ++ [.triRegs (triNext q)] := by
  induction n generalizing r with
  | zero => rfl
  | succ n ih =>
    rw [triWalk, ih, iterates_succ, List.flatMap_cons, List.append_assoc]
    rfl

/-! ### The walk in closed form (R241) -/

theorem ediv_emod_add_of_overflow {d n a : Int} (hd : 0 < d) (hle : n ≤ d) (h : d ≤ a % d + n) :
    (a + n) / d = a / d + 1 ∧ (a + n) % d = a % d + n - d := by
  have hdiv := Int.emod_add_mul_ediv a d
  have hlt := Int.emod_lt_of_pos a hd
  have hone : d * (a / d + 1) = d * (a / d) + d := by ring
  exact (Int.ediv_emod_unique hd).2 ⟨by omega, by omega, by omega⟩

theorem ediv_emod_add_of_no_overflow {d n a : Int} (hd : 0 < d) (hn : 0 ≤ n) (h : ¬ d ≤ a % d + n) :
    (a + n) / d = a / d ∧ (a + n) % d = a % d + n := by
  have hdiv := Int.emod_add_mul_ediv a d
  have hpos := Int.emod_nonneg a hd.ne'
  exact (Int.ediv_emod_unique hd).2 ⟨by omega, by omega, by omega⟩

/-- The registers k passes after `r`: the accumulator's quotient by `den` counts its overflows, the remainder is what it
holds. -/
def triAfter (r : TriRegs) (k : Nat) : TriRegs :=
  { r with
    num := (r.num + k * r.numadd) % r.den
    x := r.x + r.xinc1 * ((r.num + k * r.numadd) / r.den) + r.xinc2 * k
    y := r.y + r.yinc1 * ((r.num + k * r.numadd) / r.den) + r.yinc2 * k
    curpixel := r.curpixel + k }

theorem triNext_triAfter {r : TriRegs} (hden : 0 < r.den) (hpos : 0 ≤ r.numadd) (hle : r.numadd ≤ r.den) (k : Nat) :
    triNext (triAfter r k) = triAfter r (k + 1) := by
  have hmul : r.num + ((k + 1 : Nat) : Int) * r.numadd = r.num + k * r.numadd + r.numadd := by push_cast; ring
  rw [triNext_eq]
  split_ifs with hover
  · obtain ⟨hquot, hrem⟩ := ediv_emod_add_of_overflow hden hle hover
    simp only [triAfter, hmul, hquot, hrem, TriRegs.mk.injEq, true_and]
    push_cast
    exact ⟨by ring, by ring, by ring⟩
  · obtain ⟨hquot, hrem⟩ := ediv_emod_add_of_no_overflow hden hpos hover
    simp only [triAfter, hmul, hquot, hrem, TriRegs.mk.injEq, true_and]
    push_cast
    exact ⟨by ring, by ring, by ring⟩

/-- An accumulator that starts at `den div 2` has not overflowed yet, also where `den` is 0. -/
theorem triAfter_zero {r : TriRegs} (hnum : r.num = r.den / 2) (hden : 0 ≤ r.den) : triAfter r 0 = r := by
  have hfresh : r.num / r.den = 0 ∧ r.num % r.den = r.num := by
    obtain hzero | hpos := hden.eq_or_lt
    · rw [← hzero]
      exact ⟨Int.ediv_zero _, Int.emod_zero _⟩
    · exact ⟨Int.ediv_eq_zero_of_lt (by omega) (by omega), Int.emod_eq_of_lt (by omega) (by omega)⟩
  obtain ⟨hquot, hrem⟩ := hfresh
  simp [triAfter, hquot, hrem]

/-- Where `den` is 0 the closed form holds at the start only, and that is the only pass (R241). -/
theorem iterate_triNext {r : TriRegs} (hnum : r.num = r.den / 2) (hpos : 0 ≤ r.numadd) (hle : r.numadd ≤ r.den) {k : Nat}
    (hk : (k : Int) ≤ r.den) : Nat.iterate triNext k r = triAfter r k := by
  induction k with
  | zero => exact (triAfter_zero hnum (hpos.trans hle)).symm
  | succ k ih => rw [Function.iterate_succ_apply', ih (by omega), triNext_triAfter (by omega) hpos hle]

/-- The walk starts with its accumulator at half of the longer axis, and what a pass adds is the shorter one: so a pass
overflows at most once. -/
theorem triStart_accumulator (x1 y1 x2 y2 : Int) :
    (triStart x1 y1 x2 y2).num = (triStart x1 y1 x2 y2).den / 2 ∧ 0 ≤ (triStart x1 y1 x2 y2).numadd ∧
      (triStart x1 y1 x2 y2).numadd ≤ (triStart x1 y1 x2 y2).den ∧
      (triStart x1 y1 x2 y2).numpixels = (triStart x1 y1 x2 y2).den := by
  by_cases hlong : absInt (x2 - x1) ≥ absInt (y2 - y1)
  · simpa [triStart, hlong] using absInt_nonneg (y2 - y1)
  · simpa [triStart, hlong] using ⟨absInt_nonneg (x2 - x1), (Int.not_le.1 hlong).le⟩

/-- The registers at the start of each pass. -/
def triPasses (x1 y1 x2 y2 : Int) : List TriRegs :=
  (List.range ((triStart x1 y1 x2 y2).numpixels + 1).toNat).map fun k => Nat.iterate triNext k (triStart x1 y1 x2 y2)

theorem filledTriangle_eq (x1 y1 x2 y2 x3 y3 : Int) (v : Word) :
    filledTriangle x1 y1 x2 y2 x3 y3 v =
      [.triRegs (triStart x1 y1 x2 y2)] ++ (triPasses x1 y1 x2 y2).flatMap fun q =>
        line q.x q.y x3 y3 v ++ [.triRegs (triNext q)] := by
  rw [filledTriangle, triWalk_eq]
  rfl

/-- At the start of each pass the registers are those of the closed form: of a walk with `den` 0 there is the first only. -/
theorem triPasses_eq (x1 y1 x2 y2 : Int) :
    triPasses x1 y1 x2 y2 = (List.range ((triStart x1 y1 x2 y2).numpixels + 1).toNat).map
      (triAfter (triStart x1 y1 x2 y2)) := by
  obtain ⟨hnum, hpos, hle, hden⟩ := triStart_accumulator x1 y1 x2 y2
  refine List.map_congr_left fun k hk => ?_
  rw [List.mem_range] at hk
  exact iterate_triNext hnum hpos hle (by omega)

/-- The walking points are where the passes of R240 stand as they draw: on the axis that is walked by one each pass the first
increment is 0, on the other the second. -/
theorem walkPoints_eq (x1 y1 x2 y2 : Int) :
    walkPoints x1 y1 x2 y2 = (triPasses x1 y1 x2 y2).map fun r => (r.x, r.y) := by
  rw [triPasses_eq, List.map_map]
  by_cases hlong : absInt (x2 - x1) ≥ absInt (y2 - y1)
  · simp [walkPoints, triStart, hlong, triAfter, ← List.map_eq_flatMap, Function.comp_def]
  · simp [walkPoints, triStart, hlong, triAfter, ← List.map_eq_flatMap, Function.comp_def]

/-! ### FTRI (R242) -/

/-- What a list's items render each by itself, they render one after another. -/
theorem Renders.flatMap {s : State} {α : Type} {f : α → List Task} {es : α → List Elem} {acc rej : α → Bool} {l : List α}
    (h : ∀ a ∈ l, Renders s (f a) (es a) (acc a) (rej a)) :
    Renders s (l.flatMap f) (l.flatMap es) (l.any acc) (l.any rej) := by
  induction l with
  | nil => exact ⟨List.forall_mem_nil _, rfl, rfl, rfl⟩
  | cons a l ih =>
    obtain ⟨ha, hl⟩ := List.forall_mem_cons.1 h
    exact ha.append (ih hl)

/-- A write of the filled-triangle registers renders nothing. -/
theorem Renders.triRegs (s : State) (r : TriRegs) : Renders s [.triRegs r] [] false false :=
  ⟨List.forall_mem_singleton.2 trivial, rfl, rfl, rfl⟩

/-- A pass renders its line to vertex 3. -/
theorem Renders.triPass (s : State) (x3 y3 : Int) (v : Word) (r : TriRegs) :
    Renders s (Machine.line r.x r.y x3 y3 v ++ [.triRegs (triNext r)]) (lineElems s.cfg v r.x r.y x3 y3)
      (lineAcc s.cfg r.x r.y x3 y3) (lineRej s.cfg r.x r.y x3 y3) := by
  simpa using (Renders.line s r.x r.y x3 y3 v).append (Renders.triRegs s (triNext r))

/-- The filled triangle renders the lines to vertex 3 from the walking points. -/
theorem Renders.filledTriangle (s : State) (x1 y1 x2 y2 x3 y3 : Int) (v : Word) :
    Renders s (filledTriangle x1 y1 x2 y2 x3 y3 v)
      ((walkPoints x1 y1 x2 y2).flatMap fun p => lineElems s.cfg v p.1 p.2 x3 y3)
      ((walkPoints x1 y1 x2 y2).any fun p => lineAcc s.cfg p.1 p.2 x3 y3)
      ((walkPoints x1 y1 x2 y2).any fun p => lineRej s.cfg p.1 p.2 x3 y3) := by
  rw [filledTriangle_eq, walkPoints_eq, List.flatMap_map, List.any_map, List.any_map]
  exact (Renders.triRegs s _).append (Renders.flatMap fun r _ => Renders.triPass s x3 y3 v r)

/-- Settles O51: each pass draws one line, and the passes stand at the walking points of the closed form. -/
theorem ftriResult : Obligations.FtriResult := by
  rintro x1 y1 x2 y2 x3 y3 color s ps hcfg hs hq rfl
  exact (Renders.filledTriangle s (zint x1) (zint y1) (zint x2) (zint y2) (zint x3) (zint y3) color).leaves hcfg hs hq

end Sys2Proof.Machine
end

section
/-! PROOFS. Where an idle RGE stays idle (spec 30 R90, R97; 60 R261; 70 R277): waiting with nothing presented, and ending an
ILLEGAL request. -/

namespace Sys2Proof.Machine

/-- Past the configuration check, with no reset input, a step of an idle RGE looks at the request port alone. -/
theorem step_of_idle {s : State} (hcfg : s.cfg.ok = true) (hreset : s.resetIn = none) (hidle : s.phase = .idle) :
    step s = acceptNext s := by
  simp [step, cycle, hcfg, hreset, hidle]

theorem acceptNext_of_nil {s : State} (hport : s.port = []) : acceptNext s = .next (landWrites s) := by
  simp [acceptNext, hport]

theorem acceptNext_of_error {s : State} {d : Desc} {later : List Desc} {e : Reject} (hport : s.port = d :: later)
    (hd : decode d = .error e) : acceptNext s = .next (illegal (accept d later s)) := by
  simp [acceptNext, hport, hd]

theorem closeTxn_of_released {s : State} (hcs : s.csOut = false) : closeTxn s = s := by
  simp [closeTxn, hcs]

/-- With chip select released, `abort` writes registers alone: no event reaches the wire (R123, R266). -/
theorem abort_of_released {s : State} (hcs : s.csOut = false) (code : OutcomeCode) :
    abort code s = { s with ww := .w8, asyncInflight := false, outcome := code, phase := .idle } := by
  rw [abort, closeTxn_of_released (s := (s.setWw .w8).setAsync false) hcs]
  rfl

/-- At rest, the registers that `abort` restores have those values already. -/
theorem abort_of_ready {s : State} (hs : Ready s) (code : OutcomeCode) :
    abort code s = { s with outcome := code, phase := .idle } := by
  rw [abort_of_released hs.cs, ← hs.ww, ← hs.async]

/-- Settles O6: acceptance and the landing of the host's writes keep the transport at rest, so `abort` has the outcome alone to
change, and the RGE is as idle as before. -/
theorem illegalChangesOnlyOutcome : Obligations.IllegalChangesOnlyOutcome := by
  intro s d later e hcfg hreset hidle hs hport hd
  have hrest : Ready (landWrites (accept d later s)) := ⟨hs.ww, hs.cs, hs.async⟩
  rw [step_of_idle hcfg hreset hidle, acceptNext_of_error hport hd, illegal, abort_of_ready hrest, ← hidle]
  rfl

/-- Settles O58: with an empty port the host's writes land and nothing else happens. -/
theorem idleWaits : Obligations.IdleWaits := by
  intro s hcfg hreset hidle hport
  rw [step_of_idle hcfg hreset hidle, acceptNext_of_nil hport, landWrites]

end Sys2Proof.Machine
end

section
/-! PROOFS. A step as a run of atomic steps (spec 70 R307): no atomic step reads `PHASE`, so a request that stops after each of
them, with `PHASE` written, goes where it goes when they are run together. -/

namespace Sys2Proof.Machine

/-! ### `PHASE` is read by no atomic step (R42) -/

@[simp] theorem State.setPhase_setPhase (s : State) (p q : Phase) : (s.setPhase p).setPhase q = s.setPhase q := rfl

theorem openTxn_setPhase (s : State) (p : Phase) : openTxn (s.setPhase p) = (openTxn s).setPhase p := by
  unfold openTxn
  rw [State.setPhase_csOut]
  split <;> rfl

theorem closeTxn_setPhase (s : State) (p : Phase) : closeTxn (s.setPhase p) = (closeTxn s).setPhase p := by
  unfold closeTxn
  rw [State.setPhase_csOut]
  split <;> rfl

theorem issued_setPhase (len : Nat) (w : Width) (s : State) (p : Phase) :
    issued len w (s.setPhase p) = (issued len w s).setPhase p := by
  unfold issued
  dsimp only
  rw [State.setPhase_cfg]
  split <;> rfl

theorem settled_setPhase (c : Chunk) (vs : List Word) (s : State) (p : Phase) :
    settled c vs (s.setPhase p) = (settled c vs s).setPhase p := by
  unfold settled
  rw [afterChunk_advance, afterChunk_advance]
  split <;> rfl

theorem chunkValues_setPhase (c : Chunk) (s : State) (p : Phase) : chunkValues c (s.setPhase p) = chunkValues c s :=
  chunkValues_under c c.path (b := { backstage s with phase := p }) rfl rfl

/-- Completion writes `PHASE` itself, as every end of a request does. -/
theorem complete_setPhase (s : State) (p : Phase) : complete (s.setPhase p) = complete s := by
  rw [complete, closeTxn_setPhase]
  rfl

theorem abort_setPhase (code : OutcomeCode) (s : State) (p : Phase) : abort code (s.setPhase p) = abort code s := by
  have hclose := closeTxn_setPhase ((s.setWw .w8).setAsync false) p
  exact congrArg (fun t => (t.setOutcome code).setPhase .idle) hclose

theorem resetRge_setPhase (s : State) (p : Phase) : resetRge (s.setPhase p) = resetRge s := by
  rw [resetRge, closeTxn_setPhase]
  rfl

/-- The same progress with `PHASE` written in the state in which the request goes on or waits. -/
def Progress.setPhase (p : Phase) : Progress → Progress
  | .go t => .go (t.setPhase p)
  | .held b t => .held b (t.setPhase p)
  | .ended t => .ended t
  | .stuck f => .stuck f

theorem settle_setPhase (c : Chunk) (s : State) (p : Phase) : settle c (s.setPhase p) = (settle c s).setPhase p := by
  have hnext : nextReport (s.setPhase p) = nextReport s := rfl
  cases hv : chunkValues c s with
  | error f => rw [settle_stuck hv, settle_stuck ((chunkValues_setPhase c s p).trans hv), Progress.setPhase]
  | ok vs =>
    rw [settle, settle, chunkValues_setPhase, hv, hnext, State.setPhase_cfg]
    cases chunkEnd s.cfg c.path c.len (nextReport s) with
    | whole => exact congrArg Progress.go (settled_setPhase c vs s p)
    | failed k =>
      exact congrArg Progress.ended (abort_setPhase .xferFail (endRequest (emit c.width (vs.take k) (reported c s))) p)
    | timedOut k =>
      exact congrArg Progress.ended (abort_setPhase .timeout (endRequest (emit c.width (vs.take k) (reported c s))) p)
    | held => rfl
    | reset k =>
      exact congrArg Progress.ended (resetRge_setPhase (landWrites (emit c.width (vs.take k) (reported c s))) p)

theorem issueChunk_setPhase (src : Source) (len : Nat) (w : Width) (s : State) (p : Phase) :
    issueChunk src len w (s.setPhase p) = (issueChunk src len w s).setPhase p := by
  rw [issueChunk_eq, issueChunk_eq, issued_setPhase, State.setPhase_cfg, settle_setPhase]

/-- An atomic step does the same whatever `PHASE` is, and keeps it where the request goes on. -/
theorem atom_setPhase (a : Atom) (s : State) (p : Phase) : atom a (s.setPhase p) = (atom a s).setPhase p := by
  cases a with
  | command op =>
    rw [atom, atom, openTxn_setPhase]
    exact issueChunk_setPhase (.command op) 1 .w8 ((openTxn s).setDc .command) p
  | chunk src len => exact issueChunk_setPhase src len s.ww (s.setXp { s.xp with chunkLen := BitVec.ofNat 16 len }) p
  | await c => exact settle_setPhase c s p
  | startData n ptr =>
    rw [atom, atom, openTxn_setPhase]
    rfl
  | setWindow x0 y0 x1 y1 =>
    rw [atom, atom, State.setPhase_cfg]
    split <;> rfl
  | _ => rfl

/-! ### Atomic steps (R307) -/

/-- An atomic step after which the request goes on leaves host memory and the inputs but the reports as they are. -/
theorem atom_go_sameHost {a : Atom} {s t : State} (h : atom a s = .go t) : SameHost s t := by
  obtain ⟨u, hw⟩ | ⟨c, u, hbus⟩ := atom_cases a s
  · obtain rfl : u = t := Progress.go.inj (hw.atom.symm.trans h)
    exact hw.host
  · have hi := hbus.issues
    have hsettle : settle c u = .go t := hi.atom.symm.trans h
    cases hv : chunkValues c u with
    | error f => cases (settle_stuck hv).symm.trans hsettle
    | ok vs =>
      obtain hs | hs | ⟨code, k, hs⟩ | ⟨k, hs⟩ := settle_cases hv
      · obtain rfl : settled c vs u = t := Progress.go.inj (hs.symm.trans hsettle)
        exact hi.host.trans (settled_sameHost c vs u)
      all_goals cases hs.symm.trans hsettle

theorem ticks_succ_eq (k : Nat) (s : State) : ticks (k + 1) s =
    match tick s with
    | .next t => ticks k t
    | .fault f => .fault f
    | .refused r => .refused r := (rfl)

theorem ticks_one (s : State) : ticks 1 s = tick s := by
  rw [ticks_succ_eq]
  cases tick s <;> rfl

theorem ticks_succ {s t : State} (h : tick s = .next t) (k : Nat) : ticks (k + 1) s = ticks k t := by
  rw [ticks_succ_eq, h]

section running

variable {s : State} (hcfg : s.cfg.ok = true) (hreset : s.resetIn = none)

include hcfg hreset

/-- With no steps left, the next atomic step is the completion. -/
theorem tick_complete : tick (s.setPhase (.running [])) = .next (complete (endRequest s)) := by
  have hend : complete (endRequest (s.setPhase (.running []))) = complete (endRequest s) :=
    complete_setPhase (endRequest s) (.running [])
  simp [tick, hcfg, hreset, hend]

/-- The next atomic step of a running request stands before the rest of its steps, where the request goes on. -/
theorem tick_go {a : Atom} {t : State} (h : atom a s = .go t) (as : List Atom) :
    tick (s.setPhase (.running (a :: as))) = .next (t.setPhase (.running as)) := by
  simp [tick, hcfg, hreset, atom_setPhase, h, Progress.setPhase]

/-- Where the request does not go on, an atomic step leaves it as running all of its steps does: held, ended, or with no step. -/
theorem tick_of_not_go {a : Atom} (h : ∀ t, atom a s ≠ .go t) (as : List Atom) :
    tick (s.setPhase (.running (a :: as))) = run (a :: as) s := by
  cases ha : atom a s with
  | go t => exact absurd ha (h t)
  | _ => simp [tick, run, hcfg, hreset, atom_setPhase, ha, Progress.setPhase]

end running

/-- Running the remaining steps of a request together is a run of atomic steps, `PHASE` standing before them. -/
theorem ticks_eq_run {s : State} (hcfg : s.cfg.ok = true) (hreset : s.resetIn = none) (as : List Atom) :
    ∃ k, 1 ≤ k ∧ ticks k (s.setPhase (.running as)) = run as s := by
  induction as generalizing s with
  | nil => exact ⟨1, le_refl 1, by rw [ticks_one, tick_complete hcfg hreset, run]⟩
  | cons a as ih =>
    by_cases h : ∃ t, atom a s = .go t
    · obtain ⟨t, ht⟩ := h
      have hhost := atom_go_sameHost ht
      obtain ⟨k, -, hk⟩ := ih (hhost.cfg ▸ hcfg) (hhost.resetIn.trans hreset)
      exact ⟨k + 1, by omega, by rw [ticks_succ (tick_go hcfg hreset ht as), hk, run_go ht]⟩
    · exact ⟨1, le_refl 1, by rw [ticks_one, tick_of_not_go hcfg hreset (not_exists.mp h)]⟩

/-- Acceptance is one atomic step, the request's own are the others (R90). -/
theorem ticks_eq_exec {s : State} {d : Desc} {later : List Desc} {i : Instr} (hcfg : s.cfg.ok = true)
    (hreset : s.resetIn = none) (hidle : s.phase = .idle) (hport : s.port = d :: later) (hd : decode d = .ok i) :
    ∃ k, 1 ≤ k ∧ ticks k s = exec i (accept d later s) := by
  have hstart : tick s = .next (startRequest i (accept d later s)) := by
    simp [tick, hcfg, hreset, hidle, hport, hd]
  obtain ⟨k, -, hk⟩ := ticks_eq_run (s := begin (accept d later s)) hcfg hreset (stepsOf i s.cfg)
  refine ⟨k + 1, by omega, ?_⟩
  rw [ticks_succ hstart, exec_eq_request]
  exact hk

/-- Settles O60: a running request by its remaining steps, an accepted one by its decode and its steps; every other step is one
atomic step. -/
theorem stepIsAtomicSteps : Obligations.StepIsAtomicSteps := by
  intro s
  have hone (h : tick s = step s) : ∃ k, 1 ≤ k ∧ ticks k s = step s := ⟨1, le_refl 1, (ticks_one s).trans h⟩
  by_cases hbad : s.cfg.ok = false
  · exact hone (by simp [tick, step, cycle, hbad])
  have hcfg : s.cfg.ok = true := by simpa using hbad
  cases hreset : s.resetIn with
  | some sent => exact hone (by simp [tick, step, cycle, hcfg, hreset])
  | none =>
    cases hphase : s.phase with
    | running todo =>
      have hs : s.setPhase (.running todo) = s := by rw [← hphase]; rfl
      have hstep : step s = run todo s := by simp [step, cycle, hcfg, hreset, hphase]
      rw [hstep]
      exact hs ▸ ticks_eq_run hcfg hreset todo
    | idle =>
      have hstep := step_of_idle hcfg hreset hphase
      cases hport : s.port with
      | nil => exact hone (by simp [tick, hcfg, hreset, hphase, hport, hstep, acceptNext_of_nil])
      | cons d later =>
        cases hd : decode d with
        | error e => exact hone (by simp [tick, hcfg, hreset, hphase, hport, hd, hstep, acceptNext_of_error hport hd])
        | ok i =>
          have hexec : step s = exec i (accept d later s) := by rw [hstep, acceptNext, hport]; simp [hd]
          rw [hexec]
          exact ticks_eq_exec hcfg hreset hphase hport hd

end Sys2Proof.Machine
end

section
/-! PROOFS. The configuration, `STATUS` and the reset values (spec 10 R34, R37, R43; 60 R260). -/

namespace Sys2Proof.Machine

/-- Settles O10: acceptance does not touch the configuration, and from there a step moves. -/
theorem stepKeepsConfig : Obligations.StepKeepsConfig := by
  intro s t hstep
  obtain h | ⟨d, later, -, -, h⟩ := step_moves hstep
  · exact h.cfg
  · exact h.cfg

/-- Settles O13: each value is a field of the reset state. -/
theorem resetValues : Obligations.ResetValues := ⟨rfl, by decide, rfl, rfl, rfl⟩

/-- The fields of a word laid out as R34 lays out `STATUS`. -/
theorem statusWord_fields (dc cs async ww16 busy : Bool) (code : BitVec 3) (w : BitVec 16)
    (hw : w = (0 : BitVec 8) ++ BitVec.ofBool dc ++ BitVec.ofBool cs ++ BitVec.ofBool async ++ BitVec.ofBool ww16 ++ code ++
      BitVec.ofBool busy) :
    w.getLsbD 0 = busy ∧ w.extractLsb' 1 3 = code ∧ w.getLsbD 4 = ww16 ∧ w.getLsbD 5 = async ∧ w.getLsbD 6 = cs ∧
      w.getLsbD 7 = dc ∧ w.extractLsb' 8 8 = 0 := by
  subst hw
  revert dc cs async ww16 busy code
  decide

/-- Settles O11: the fields of `STATUS` are views of the registers they show. -/
theorem statusFields : Obligations.StatusFields := by
  intro s
  obtain ⟨hbusy, hcode, hww, hasync, hcs, hdc, hzero⟩ := statusWord_fields _ _ _ _ _ _ s.status rfl
  refine ⟨hbusy.trans ?_, hcode.trans ?_, hcode ▸ ?_, hww.trans ?_, hasync, hcs, hdc.trans ?_, hzero, by decide⟩
  · unfold State.busy
    cases s.phase <;> simp
  · cases s.outcome <;> rfl
  · cases s.outcome <;> decide
  · cases s.ww <;> rfl
  · cases s.dcOut <;> rfl

/-- Settles O15: nothing runs, nothing is on the wire, and memory and receiver are empty. -/
theorem invAtReset : Obligations.InvAtReset :=
  ⟨⟨rfl, rfl, rfl⟩, trivial, rfl, rfl, rfl, rfl⟩

end Sys2Proof.Machine
end

section
/-! PROOFS. What an atomic step leaves of the rest of the machine, whatever the bus reports (spec 10 R34, R39, R40, R42; 40 R122
to R126; 60 R266; 70 R291): the end of a chunk by its report, the inputs and `REQ`, the datapath, and the transport. -/

namespace Sys2Proof.Machine

/-! ### A chunk by its report (R126, R264, R265, R291) -/

theorem chunkEnd_held {c : Config} {p : Path} {len : Nat} {r : BusReport} (h : chunkEnd c p len r = .held) : p = .async := by
  cases r <;> grind [chunkEnd]

section reports

variable {c : Chunk} {s : State} {vs : List Word} (hv : chunkValues c s = .ok vs)

include hv

theorem settle_whole (h : chunkEnd s.cfg c.path c.len (nextReport s) = .whole) : settle c s = .go (settled c vs s) := by
  simp only [settle, hv, h, settled]

theorem settle_held (h : chunkEnd s.cfg c.path c.len (nextReport s) = .held) :
    settle c s = .held (.await c) (reported c s) := by
  simp only [settle, hv, h, reported]

theorem settle_failed {k : Nat} (h : chunkEnd s.cfg c.path c.len (nextReport s) = .failed k) :
    settle c s = .ended (abort .xferFail (endRequest (emit c.width (vs.take k) (reported c s)))) := by
  simp only [settle, hv, h, reported]

theorem settle_timedOut {k : Nat} (h : chunkEnd s.cfg c.path c.len (nextReport s) = .timedOut k) :
    settle c s = .ended (abort .timeout (endRequest (emit c.width (vs.take k) (reported c s)))) := by
  simp only [settle, hv, h, reported]

theorem settle_reset {k : Nat} (h : chunkEnd s.cfg c.path c.len (nextReport s) = .reset k) :
    settle c s = .ended (resetRge (landWrites (emit c.width (vs.take k) (reported c s)))) := by
  simp only [settle, hv, h, reported]

end reports

theorem closeTxn_ww (s : State) : (closeTxn s).ww = s.ww := by
  unfold closeTxn
  split <;> rfl

theorem closeTxn_async (s : State) : (closeTxn s).asyncInflight = s.asyncInflight := by
  unfold closeTxn
  split <;> rfl

/-- An abort leaves the transport at rest (R266). -/
theorem abort_ready (code : OutcomeCode) (s : State) : Ready (abort code s) :=
  ⟨closeTxn_ww _, closeTxn_csOut _, closeTxn_async _⟩

theorem resetRge_ready (s : State) : Ready (resetRge s) := ⟨rfl, rfl, rfl⟩

theorem resetStep_eq (k : Nat) (s : State) : ∃ t, resetStep k s = resetRge t := by
  unfold resetStep
  split
  · split <;> exact ⟨_, rfl⟩
  · exact ⟨_, rfl⟩
  · exact ⟨_, rfl⟩

/-- A chunk on the bus completes, or is held on the asynchronous path, or its request ends with the transport at rest. -/
theorem settle_forms (c : Chunk) (s : State) :
    (settle c s).Each (fun t => ∃ vs, t = settled c vs s)
      (fun b t => b = .await c ∧ t = reported c s ∧ c.path = .async) (fun t => Ready t ∧ t.phase = .idle) := by
  cases hv : chunkValues c s with
  | error f =>
    rw [settle_stuck hv]
    trivial
  | ok vs =>
    cases hend : chunkEnd s.cfg c.path c.len (nextReport s) with
    | whole =>
      rw [settle_whole hv hend]
      exact ⟨vs, rfl⟩
    | failed k =>
      rw [settle_failed hv hend]
      exact ⟨abort_ready _ _, rfl⟩
    | timedOut k =>
      rw [settle_timedOut hv hend]
      exact ⟨abort_ready _ _, rfl⟩
    | held =>
      rw [settle_held hv hend]
      exact ⟨rfl, rfl, chunkEnd_held hend⟩
    | reset k =>
      rw [settle_reset hv hend]
      exact ⟨resetRge_ready _, rfl⟩

/-! ### What a running request leaves alone (R34, R37, R42) -/

/-- What no step of a running request changes, but for the one that ends it: the configuration, the previous outcome, `REQ`,
host memory, and the inputs but for the reports. -/
structure InRequest (s t : State) : Prop where
  host : SameHost s t
  outcome : t.outcome = s.outcome
  req : t.req = s.req
  port : t.port = s.port

theorem InRequest.refl (s : State) : InRequest s s := ⟨SameHost.refl s, rfl, rfl, rfl⟩

theorem InRequest.trans {s t u : State} (h : InRequest s t) (k : InRequest t u) : InRequest s u :=
  ⟨h.host.trans k.host, k.outcome.trans h.outcome, k.req.trans h.req, k.port.trans h.port⟩

theorem Keeps.inRequest {s t : State} (h : Keeps s t) : InRequest s t := ⟨h.sameHost, h.outcome, h.req, h.port⟩

theorem emit_keeps (w : Width) (vs : List Word) (s : State) : Keeps s (emit w vs s) :=
  ⟨rfl, rfl, rfl, rfl, rfl, rfl, rfl, rfl, rfl⟩

theorem settled_keeps (c : Chunk) (vs : List Word) (s : State) : Keeps s (settled c vs s) := by
  obtain ⟨x, hx⟩ := settled_eq c vs s
  rw [hx]
  split
  · exact { emit_keeps c.width vs ((reported c s).setAsync false) with }
  · exact { emit_keeps c.width vs (reported c s) with }

theorem reported_keeps (c : Chunk) (s : State) : Keeps s (reported c s) := ⟨rfl, rfl, rfl, rfl, rfl, rfl, rfl, rfl, rfl⟩

theorem OnBus.inRequest {a : Atom} {s t : State} {c : Chunk} (h : OnBus a s c t) : InRequest s t := by
  cases h with
  | command op =>
    have hopen := (openTxn_keeps s).inRequest
    exact InRequest.trans (t := (openTxn s).setDc .command) { hopen with host := { hopen.host with } }
      (issued_fields ..).1.inRequest
  | chunk src len => exact (chunkIssued_keeps len s).inRequest
  | await => exact InRequest.refl s

theorem Writes.inRequest {a : Atom} {s t : State} (h : Writes a s t) : InRequest s t := by
  have hatom := h.atom
  have hissues := h.issues
  cases a with
  | startData n p =>
    cases hatom
    have hopen := (openTxn_keeps s).inRequest
    exact { hopen with host := { hopen.host with } }
  | setWindow x0 y0 x1 y1 =>
    obtain rfl : _ = t := Progress.go.inj hatom
    split <;> exact ⟨⟨rfl, rfl, rfl, rfl⟩, rfl, rfl, rfl⟩
  | command op => cases hissues
  | chunk src len => cases hissues
  | await c => cases hissues
  | _ =>
    cases hatom
    exact ⟨⟨rfl, rfl, rfl, rfl⟩, rfl, rfl, rfl⟩

/-- An atomic step after which its request is not over leaves what a running request leaves. -/
theorem atom_inRequest (a : Atom) (s : State) :
    (atom a s).Each (InRequest s) (fun _ t => InRequest s t) (fun t => t.phase = .idle) := by
  obtain ⟨t, hw⟩ | ⟨c, t, hbus⟩ := atom_cases a s
  · rw [hw.atom]
    exact hw.inRequest
  · rw [hbus.issues.atom]
    refine (settle_forms c t).imp ?_ ?_ fun u hu => hu.2
    · rintro u ⟨vs, rfl⟩
      exact hbus.inRequest.trans (settled_keeps c vs t).inRequest
    · rintro b u ⟨-, rfl, -⟩
      exact hbus.inRequest.trans (reported_keeps c t).inRequest

theorem complete_phase (s : State) : (complete s).phase = .idle := rfl

theorem not_busy_of_idle {s : State} (h : s.phase = .idle) : s.busy ≠ true := by simp [State.busy, h]

/-- The cases of an atomic step of the machine that answers a next state: the reset input, a request's completion, a step of a
running one, waiting, an acceptance, and an ILLEGAL request. -/
theorem tick_cases {s t : State} (h : tick s = .next t) :
    s.cfg.ok = true ∧
    ((∃ k, s.resetIn = some k ∧ t = resetStep k s) ∨
      (s.phase = .running [] ∧ t = complete (endRequest s)) ∨
      (∃ a todo, s.phase = .running (a :: todo) ∧
        ((∃ u, atom a s = .go u ∧ t = u.setPhase (.running todo)) ∨
          (∃ b u, atom a s = .held b u ∧ t = u.setPhase (.running (b :: todo))) ∨ atom a s = .ended t)) ∨
      (s.phase = .idle ∧ t = landWrites s) ∨
      (s.phase = .idle ∧ ∃ d later i, decode d = .ok i ∧ t = startRequest i (accept d later s)) ∨
      (s.phase = .idle ∧ ∃ d later, t = illegal (accept d later s))) := by
  unfold tick at h
  split at h
  · cases h
  · rename_i hok
    refine ⟨by simpa using hok, ?_⟩
    split at h
    · rename_i k hk
      cases h
      exact .inl ⟨k, hk, rfl⟩
    · rename_i hp
      cases h
      exact .inr (.inl ⟨hp, rfl⟩)
    · rename_i a todo _ hp
      refine .inr (.inr (.inl ⟨a, todo, hp, ?_⟩))
      split at h
      · rename_i u hu
        cases h
        exact .inl ⟨u, hu, rfl⟩
      · rename_i b u hu
        cases h
        exact .inr (.inl ⟨b, u, hu, rfl⟩)
      · rename_i u hu
        cases h
        exact .inr (.inr hu)
      · cases h
    · rename_i hp
      refine .inr (.inr (.inr ?_))
      split at h
      · cases h
        exact .inl ⟨hp, rfl⟩
      · rename_i d later _
        split at h
        · rename_i i hi
          cases h
          exact .inr (.inl ⟨hp, d, later, i, hi, rfl⟩)
        · cases h
          exact .inr (.inr ⟨hp, d, later, rfl⟩)

/-- Settles O12: the atomic steps after which `BUSY` is 1 are the acceptance and those of a running request. -/
theorem outcomeAndReqHeldWhileBusy : Obligations.OutcomeAndReqHeldWhileBusy := by
  intro s t htick hbusy
  have hidle (h : t.phase = .idle) : t.outcome = s.outcome ∧ (s.busy = true → t.req = s.req) :=
    absurd hbusy (not_busy_of_idle h)
  obtain ⟨-, ⟨k, -, rfl⟩ | ⟨-, rfl⟩ | ⟨a, todo, hp, hatom⟩ | ⟨hp, rfl⟩ | ⟨hp, d, later, i, -, rfl⟩ | ⟨-, d, later, rfl⟩⟩ :=
    tick_cases htick
  · obtain ⟨u, hu⟩ := resetStep_eq k s
    exact hidle (hu ▸ rfl)
  · exact hidle (complete_phase _)
  · have hstep := atom_inRequest a s
    obtain ⟨u, hu, rfl⟩ | ⟨b, u, hu, rfl⟩ | hu := hatom <;> rw [hu] at hstep
    · exact ⟨hstep.outcome, fun _ => hstep.req⟩
    · exact ⟨hstep.outcome, fun _ => hstep.req⟩
    · exact hidle hstep
  · exact hidle hp
  · exact ⟨rfl, fun h => absurd h (not_busy_of_idle hp)⟩
  · exact hidle rfl

end Sys2Proof.Machine
end

section
/-! PROOFS. The invariant of the machine, part by part, through every atomic step (spec 10 R32, R39, R40, R42, R45; 40 R122 to
R125, R129; 41 R156, R160). A step of the machine is a run of atomic steps, so it keeps what they keep. -/

namespace Sys2Proof.Machine

/-! ### The transport of a running request (R32, R39, R122 to R125, R129) -/

/-- A running request: a chunk waits on the bus, or nothing is in flight and no step to come waits. -/
theorem phaseInv_running {s : State} {todo : List Atom} (h : phaseInv (s.setPhase (.running todo))) :
    (∃ c as, todo = .await c :: as ∧ s.asyncInflight = true ∧ s.csOut = true ∧ c.Held s.cfg ∧ stepsInv as s.ww s.csOut) ∨
    (s.asyncInflight = false ∧ stepsInv todo s.ww s.csOut) := by
  unfold phaseInv at h
  rw [State.setPhase_phase] at h
  split at h
  · rename_i hidle
    cases hidle
  · rename_i c as has
    cases has
    exact .inl ⟨c, as, rfl, h⟩
  · rename_i as _ has
    cases has
    exact .inr h

/-- Where the steps to come meet the invariant and nothing is in flight, so does the request that stands before them. -/
theorem phaseInv_of_steps {s : State} {as : List Atom} (ha : s.asyncInflight = false) (h : stepsInv as s.ww s.csOut) :
    phaseInv (s.setPhase (.running as)) := by
  unfold phaseInv
  rw [State.setPhase_phase]
  split
  · rename_i hidle
    cases hidle
  · rename_i c bs has
    cases has
    exact absurd h.2.2 (by simp [Atom.capped])
  · rename_i bs _ has
    cases has
    exact ⟨ha, h⟩

theorem settled_async {c : Chunk} {s : State} (vs : List Word) (h : c.path = .async ∨ s.asyncInflight = false) :
    (settled c vs s).asyncInflight = false := by
  obtain ⟨x, hx⟩ := settled_eq c vs s
  rw [hx]
  split
  · rfl
  · rename_i hpath
    exact h.resolve_left hpath

theorem Writes.async {a : Atom} {s t : State} (h : Writes a s t) : t.asyncInflight = s.asyncInflight := by
  have ht : t = t.under ((backstage s).after s.ww a) := Progress.go.inj (h.atom.symm.trans (h.under (backstage s)))
  have hkept : ((backstage s).after s.ww a).async = s.asyncInflight := by
    have hissues := h.issues
    cases a with
    | command op => cases hissues
    | chunk src len => cases hissues
    | _ => rfl
  exact (congrArg State.asyncInflight ht).trans hkept

theorem issued_inflight (len : Nat) (w : Width) {s : State} (h : pathFor s.cfg len = .async) :
    (issued len w s).asyncInflight = true := by
  unfold issued
  simp only [if_pos h]
  rfl

theorem pathFor_async {c : Config} {len : Nat} (h : pathFor c len = .async) : c.asyncAvailable = true ∧ c.bulkMin ≤ len := by
  unfold pathFor at h
  split at h
  · assumption
  · cases h

/-- A chunk just issued is on the asynchronous path, in flight and such as may be held, or nothing is in flight (R39, R125). -/
theorem OnBus.inflight {a : Atom} {s t : State} {c : Chunk} (h : OnBus a s c t) (hcap : a.capped = true)
    (ha : s.asyncInflight = false) :
    (c.path = .async ∧ t.asyncInflight = true ∧ c.Held t.cfg) ∨ (c.path = .sync ∧ t.asyncInflight = false) := by
  have hcfg := h.issues.host.cfg
  have hissued : ∀ (u : State) (src : Source) (len : Nat) (w : Width), u.cfg = s.cfg → u.asyncInflight = false →
      1 ≤ len ∧ len ≤ maxChunk → t = issued len w u → c = ⟨src, len, w, pathFor s.cfg len⟩ →
      (c.path = .async ∧ t.asyncInflight = true ∧ c.Held t.cfg) ∨ (c.path = .sync ∧ t.asyncInflight = false) := by
    rintro u src len w hu hau hlen rfl rfl
    cases hpath : pathFor s.cfg len with
    | async =>
      obtain ⟨havail, hlong⟩ := pathFor_async hpath
      exact .inl ⟨rfl, issued_inflight len w (hu ▸ hpath), hcfg ▸ ⟨rfl, havail, hlong, hlen⟩⟩
    | sync => exact .inr ⟨rfl, (issued_async len w hau).resolve_left (by simp [hu, hpath])⟩
  cases h with
  | command op =>
    exact hissued ((openTxn s).setDc .command) (.command op) 1 .w8 (openTxn_keeps s).cfg ((openTxn_async s).trans ha)
      (by decide) rfl rfl
  | chunk src len =>
    have hlen : 1 ≤ len ∧ len ≤ maxChunk := by simpa [Atom.capped] using hcap
    exact hissued (s.setXp { s.xp with chunkLen := BitVec.ofNat 16 len }) src len s.ww rfl ha hlen rfl rfl
  | await => cases hcap

/-- A request that waits on its chunk meets the invariant where the steps after the chunk do. -/
theorem phaseInv_held {c : Chunk} {as : List Atom} {s : State} (ha : s.asyncInflight = true) (hcs : s.csOut = true)
    (hheld : c.Held s.cfg) (h : stepsInv as s.ww s.csOut) : phaseInv (s.setPhase (.running (.await c :: as))) :=
  ⟨ha, hcs, hheld, h⟩

/-- The rest of a request's steps, once the first has written its registers. -/
theorem Writes.stepsInv {a : Atom} {as : List Atom} {s t : State} (hw : Writes a s t)
    (h : Machine.stepsInv (a :: as) s.ww s.csOut) : Machine.stepsInv as t.ww t.csOut := by
  obtain ⟨hww, hopen, hcap⟩ := h
  refine ⟨?_, hw.opens as ▸ hopen, ((Bool.and_eq_true _ _).mp (List.all_cons ▸ hcap)).2⟩
  rw [hw.ww, ← widthAfter_append]
  exact hww

/-- The rest of a request's steps, with the chunk of the first on the bus. -/
theorem Issues.stepsInv {a : Atom} {as : List Atom} {s t : State} {c : Chunk} (hi : Issues a s c t)
    (h : Machine.stepsInv (a :: as) s.ww s.csOut) : t.csOut = true ∧ Machine.stepsInv as t.ww t.csOut := by
  obtain ⟨hww, hopen, hcap⟩ := h
  obtain ⟨hcs, hopen'⟩ := hi.opens as hopen
  refine ⟨hcs, ?_, hopen', ((Bool.and_eq_true _ _).mp (List.all_cons ▸ hcap)).2⟩
  rw [hi.ww, ← widthAfter_append]
  exact hww

/-- An atomic step keeps the transport's invariant, and ends a request with the transport at rest. -/
theorem atom_phaseInv {a : Atom} {as : List Atom} {s : State} (h : phaseInv (s.setPhase (.running (a :: as)))) :
    (atom a s).Each (fun t => phaseInv (t.setPhase (.running as)))
      (fun b t => phaseInv (t.setPhase (.running (b :: as)))) Ready := by
  obtain ⟨c, bs, hc, ha, hcs, hheld, hsteps⟩ | ⟨ha, h⟩ := phaseInv_running h
  · cases hc
    refine (settle_forms c s).imp ?_ ?_ fun t ht => ht.1
    · rintro t ⟨vs, rfl⟩
      have hsent := settled_sends c vs s
      exact phaseInv_of_steps (settled_async vs (.inl hheld.path)) (by rwa [hsent.ww, hsent.cs])
    · rintro b t ⟨rfl, rfl, -⟩
      exact phaseInv_held ha hcs hheld hsteps
  · obtain ⟨t, hw⟩ | ⟨c, t, hbus⟩ := atom_cases a s
    · rw [hw.atom]
      exact phaseInv_of_steps (hw.async.trans ha) (hw.stepsInv h)
    · have hi := hbus.issues
      obtain ⟨hcs, hsteps⟩ := hi.stepsInv h
      obtain ⟨-, -, hcap⟩ := h
      have hcapa : a.capped = true := ((Bool.and_eq_true _ _).mp (List.all_cons ▸ hcap)).1
      have hflight := hbus.inflight hcapa ha
      rw [hi.atom]
      refine (settle_forms c t).imp ?_ ?_ fun u hu => hu.1
      · rintro u ⟨vs, rfl⟩
        have hsent := settled_sends c vs t
        exact phaseInv_of_steps (settled_async vs (hflight.imp And.left And.right)) (by rwa [hsent.ww, hsent.cs])
      · rintro b u ⟨rfl, rfl, hpath⟩
        obtain ⟨-, hinflight, hheld⟩ | ⟨hsync, -⟩ := hflight
        · exact phaseInv_held hinflight hcs hheld hsteps
        · cases hpath.symm.trans hsync

theorem widthAfter_stepsOf (i : Instr) (c : Config) : widthAfter (stepsOf i c) .w8 = .w8 := by
  refine flatMap_induct (P := fun as => widthAfter as .w8 = .w8) rfl ?_ fun k _ => widthAfter_expand c k
  intro as bs has hbs
  rw [widthAfter_append, has, hbs]

/-- A request that begins with the transport at rest meets the transport's invariant. -/
theorem stepsOf_phaseInv (i : Instr) {s : State} (hs : Ready s) : phaseInv (s.setPhase (.running (stepsOf i s.cfg))) :=
  phaseInv_of_steps hs.async ⟨hs.ww ▸ widthAfter_stepsOf i s.cfg, chunksOpen_stepsOf i s.cfg _, capped_stepsOf i s.cfg⟩

/-- A request with no step left is completed at rest (R262). -/
theorem complete_ready {s : State} (h : phaseInv (s.setPhase (.running []))) : Ready (complete (endRequest s)) := by
  obtain ⟨c, as, hc, -⟩ | ⟨ha, hww, -⟩ := phaseInv_running h
  · cases hc
  · obtain ⟨-, -, hcs, hc⟩ := complete_fields (endRequest s)
    exact ⟨hc.ww.trans hww, hcs, hc.async.trans ha⟩

/-- Whatever the bus reports, a run that ends its request leaves the transport at rest. -/
theorem run_ready {as : List Atom} {s t : State} (h : phaseInv (s.setPhase (.running as))) (hrun : run as s = .next t)
    (hidle : t.busy = false) : Ready t := by
  refine run_each (p := fun bs u => phaseInv (u.setPhase (.running bs))) (q := fun u => u.busy = false → Ready u)
    (fun u hu _ => complete_ready hu) (fun a bs u hu => ?_) h hrun hidle
  exact (atom_phaseInv hu).imp (fun _ hv => hv) (fun b v _ hbusy => by cases hbusy) (fun v hv _ => hv)

theorem State.setPhase_self {s : State} {p : Phase} (h : s.phase = p) : s.setPhase p = s := by
  rw [← h]
  rfl

/-- Settles O14: a request keeps the transport's invariant from its start and from a hold, and a reset rests at once. -/
theorem everyEndRests : Obligations.EveryEndRests := by
  refine ⟨fun i s t hs h hidle => ?_, fun s t hinv hbusy h hidle => ?_⟩
  · rw [exec_eq_request] at h
    exact run_ready (stepsOf_phaseInv i (s := begin s) ⟨hs.ww, hs.cs, hs.async⟩) h hidle
  · obtain ⟨-, ⟨k, -, rfl⟩ | ⟨-, todo, hp, hr⟩ | ⟨-, hp, -⟩ | ⟨-, hp, -⟩ | ⟨-, hp, -⟩⟩ := step_cases h
    · obtain ⟨u, hu⟩ := resetStep_eq k s
      exact hu ▸ resetRge_ready u
    · exact run_ready (State.setPhase_self hp ▸ hinv.phase) hr hidle
    all_goals exact absurd hbusy (not_busy_of_idle hp)

end Sys2Proof.Machine
end

section
/-! PROOFS. The wire, the receiver, the datapath and the place in the request, as every atomic step keeps them (spec 10 R40, R42,
R45; 40 R121 to R124, R127, R128; 41 R156, R160 to R166), and with them the invariant of the machine. -/

namespace Sys2Proof.Machine

/-! ### The wire and the records (R122 to R124) -/

theorem csLevel_append (b : Bool) (is js : List WireItem) :
    csLevel b (is ++ js) = (csLevel b is).bind fun d => csLevel d js := by
  induction is generalizing b with
  | nil => rfl
  | cons i is ih =>
    cases i with
    | cs a =>
      simp only [List.cons_append, csLevel]
      split
      · rfl
      · exact ih a
    | elem e =>
      simp only [List.cons_append, csLevel]
      split
      · exact ih b
      · rfl

theorem csLevel_elems (es : List Elem) : csLevel true (es.map WireItem.elem) = some true := by
  induction es with
  | nil => rfl
  | cons e es ih => exact ih

/-- The chip-select events so far alternate, and leave the level chip select has (R122, R123). -/
def WireInv (s : State) : Prop := csLevel false s.wire = some s.csOut

theorem WireInv.append {s t : State} (h : WireInv s) {is : List WireItem} (hw : t.wire = s.wire ++ is)
    (his : csLevel s.csOut is = some t.csOut) : WireInv t := by
  rw [WireInv, hw, csLevel_append, h]
  exact his

theorem WireInv.opens {s t : State} (h : WireInv s) (k : OpensAtMost s t) : WireInv t := by
  obtain ⟨hcs, hw⟩ | ⟨hcs, hw⟩ := k
  · rwa [WireInv, hw, hcs]
  · refine h.append hw ?_
    rw [hcs]
    cases s.csOut <;> rfl

theorem WireInv.sends {s t : State} {es : List Elem} (h : WireInv s) (hcs : s.csOut = true) (k : Sends es s t) :
    WireInv t :=
  h.append k.wire (by rw [k.cs, hcs, csLevel_elems])

theorem WireInv.closes {s t : State} {es : List Elem} (h : WireInv s) (hes : s.csOut = true ∨ es = [])
    (k : Closes es s t) (ht : t.csOut = false) : WireInv t := by
  refine h.append (k.wire.trans (List.append_assoc ..)) ?_
  rw [ht]
  obtain hcs | rfl := hes
  · rw [hcs, csLevel_append, csLevel_elems]
    rfl
  · cases s.csOut <;> rfl

theorem Progress.Each.and {go go' ended ended' : State → Prop} {held held' : Atom → State → Prop} {g : Progress}
    (h : g.Each go held ended) (k : g.Each go' held' ended') :
    g.Each (fun t => go t ∧ go' t) (fun a t => held a t ∧ held' a t) (fun t => ended t ∧ ended' t) := by
  cases g with
  | go t => exact ⟨h, k⟩
  | held a t => exact ⟨h, k⟩
  | ended t => exact ⟨h, k⟩
  | stuck f => trivial

theorem Progress.All.each {p : State → Prop} {g : Progress} (h : g.All p) : g.Each p (fun _ => p) p := by
  cases g <;> exact h

/-- Every record so far is within the cap (R124). -/
def RecordsInv (s : State) : Prop := s.xfers.all Xfer.capped = true

theorem RecordsInv.append {a : Atom} {s t : State} (h : RecordsInv s) (ha : a.issuesCapped)
    (hx : t.xfers = s.xfers ++ a.records s.cfg s.ww) : RecordsInv t := by
  rw [RecordsInv, hx, List.all_append, Bool.and_eq_true]
  refine ⟨h, List.all_eq_true.2 fun x hmem => ?_⟩
  obtain ⟨hlow, hhigh⟩ := ha.records _ _ x hmem
  exact Bool.and_eq_true_iff.2 ⟨decide_eq_true hlow, decide_eq_true hhigh⟩

/-- What an atomic step puts out keeps chip select alternating and the records within the cap. -/
theorem atom_output {a : Atom} {as : List Atom} {s : State} (hphase : phaseInv (s.setPhase (.running (a :: as))))
    (hwire : WireInv s) (hrec : RecordsInv s) :
    (atom a s).Each (fun t => WireInv t ∧ RecordsInv t) (fun _ t => WireInv t ∧ RecordsInv t)
      (fun t => WireInv t ∧ RecordsInv t) := by
  obtain ⟨hopen, -⟩ := phaseInv_opens hphase rfl
  have hcap := phaseInv_issuesCapped hphase rfl a (List.mem_cons_self ..)
  obtain ⟨t, hw⟩ | ⟨c, t, hbus⟩ := atom_cases a s
  · rw [hw.atom]
    exact ⟨hwire.opens hw.wire, hrec.append hcap hw.xfers⟩
  · have hi := hbus.issues
    have hcs := (hi.opens as hopen).1
    have hwire := hwire.opens hi.wire
    have hrec := hrec.append hcap hi.xfers
    have hsame : ∀ u : State, u.xfers = t.xfers → RecordsInv u := fun u hu => by rwa [RecordsInv, hu]
    rw [hi.atom]
    refine ((settle_each c t).and (settle_forms c t)).imp ?_ ?_ ?_
    · rintro u ⟨⟨es, hu⟩, -⟩
      exact ⟨hwire.sends hcs hu, hsame u hu.xfers⟩
    · rintro b u ⟨hu, -⟩
      exact ⟨hwire.sends hcs hu, hsame u hu.xfers⟩
    · rintro u ⟨⟨es, hu⟩, hready, -⟩
      exact ⟨hwire.closes (.inl hcs) hu hready.cs, hsame u hu.xfers⟩

/-! ### The receiver's own form (R160 to R166) -/

/-- At most four parameter bytes are taken (R162). -/
def RxMode.taken (m : RxMode) : Bool :=
  match m with
  | .caset ps => decide (ps.length ≤ 4)
  | .raset ps => decide (ps.length ≤ 4)
  | .idle => true
  | .write => true
  | .other => true

/-- An axis that is defined has its start at or before its end (R162). -/
def axisOrdered (axis : Option (Word × Word)) : Bool :=
  match axis with
  | none => true
  | some (a, b) => decide (a ≤ b)

theorem Receiver.wf_iff (r : Receiver) :
    r.wf = true ↔ r.mode.taken = true ∧ axisOrdered r.xAxis = true ∧ axisOrdered r.yAxis = true ∧ rising r.fm = true := by
  have h : r.wf = (r.mode.taken && axisOrdered r.xAxis && axisOrdered r.yAxis && rising r.fm) := (rfl)
  rw [h]
  simp only [Bool.and_eq_true, and_assoc]

theorem axisOrdered_axisOf (p0 p1 p2 p3 : Byte) : axisOrdered (axisOf p0 p1 p2 p3) = true := by
  unfold axisOf
  dsimp only
  split
  · rename_i h
    exact decide_eq_true h
  · rfl

theorem axisOrdered_axisStep {axis : Option (Word × Word)} (h : axisOrdered axis = true) (ps : List Byte) (b : Byte) :
    axisOrdered (axisStep axis ps b) = true := by
  unfold axisStep
  split
  · exact axisOrdered_axisOf ..
  · exact h

theorem Receiver.wf_mark {r : Receiver} (h : r.wf = true) (f : RxFault) : (r.mark f).wf = true := h

theorem Receiver.wf_dropAxis {r : Receiver} (h : r.wf = true) : r.dropAxis.wf = true := by
  obtain ⟨hmode, hx, hy, hfm⟩ := r.wf_iff.1 h
  unfold Receiver.dropAxis
  split
  · split
    · exact (Receiver.wf_iff _).2 ⟨hmode, rfl, hy, hfm⟩
    · exact h
  · split
    · exact (Receiver.wf_iff _).2 ⟨hmode, hx, rfl, hfm⟩
    · exact h
  all_goals exact h

theorem Receiver.wf_command {r : Receiver} (h : r.wf = true) (c : Config) (b : Byte) : (r.command c b).wf = true := by
  obtain ⟨-, hx, hy, hfm⟩ := (Receiver.wf_iff _).1 (Receiver.wf_dropAxis h)
  unfold Receiver.command
  dsimp only
  split
  · exact (Receiver.wf_iff _).2 ⟨rfl, hx, hy, hfm⟩
  · split
    · exact (Receiver.wf_iff _).2 ⟨rfl, hx, hy, hfm⟩
    · split <;> exact (Receiver.wf_iff _).2 ⟨rfl, hx, hy, hfm⟩

theorem Receiver.wf_sample {r : Receiver} (h : r.wf = true) (v : Word) : (r.sample v).wf = true := by
  obtain ⟨hmode, hx, hy, hfm⟩ := r.wf_iff.1 h
  unfold Receiver.sample
  split
  · split
    · exact (Receiver.wf_iff _).2 ⟨hmode, hx, hy, hfm⟩
    · exact (Receiver.wf_iff _).2 ⟨hmode, hx, hy, rising_store _ _ _ hfm⟩
  · exact Receiver.wf_mark h _

theorem Receiver.wf_data {r : Receiver} (h : r.wf = true) (b : Byte) : (r.data b).wf = true := by
  obtain ⟨hmode, hx, hy, hfm⟩ := r.wf_iff.1 h
  have hparams : ∀ ps : List Byte, ps.length < 4 → decide ((ps ++ [b]).length ≤ 4) = true := fun ps hps => by
    rw [List.length_append]
    exact decide_eq_true (Nat.succ_le_of_lt hps)
  unfold Receiver.data
  split
  · split
    · rename_i ps _ hps
      exact (Receiver.wf_iff _).2 ⟨hparams ps hps, axisOrdered_axisStep hx ps b, hy, hfm⟩
    · exact Receiver.wf_mark h _
  · split
    · rename_i ps _ hps
      exact (Receiver.wf_iff _).2 ⟨hparams ps hps, hx, axisOrdered_axisStep hy ps b, hfm⟩
    · exact Receiver.wf_mark h _
  · split
    · exact (Receiver.wf_iff _).2 ⟨hmode, hx, hy, hfm⟩
    · exact Receiver.wf_sample (r := { r with high := none }) h _
  · exact h
  · exact h

theorem Receiver.wf_byte {r : Receiver} (h : r.wf = true) (c : Config) (b : DC × Byte) : (r.byte c b).wf = true := by
  unfold Receiver.byte
  split
  · exact Receiver.wf_command h c _
  · exact Receiver.wf_data h _

theorem Receiver.wf_item {r : Receiver} (h : r.wf = true) (c : Config) (i : WireItem) : (r.item c i).wf = true := by
  cases i with
  | cs b => exact h
  | elem e =>
    exact List.foldlRecOn (motive := fun q => q.wf = true) e.bytes (Receiver.byte c) h fun _ hq b _ =>
      Receiver.wf_byte hq c b

/-- The receiver keeps its own form whatever it consumes. -/
theorem Receiver.wf_items {r : Receiver} (h : r.wf = true) (c : Config) (is : List WireItem) : (r.items c is).wf = true :=
  List.foldlRecOn (motive := fun q => q.wf = true) is (Receiver.item c) h fun _ hq i _ => Receiver.wf_item hq c i

theorem Moves.rx_wf {s t : State} (h : Moves s t) (hs : s.rx.wf = true) : t.rx.wf = true := by
  obtain ⟨is, -, hrx⟩ := h.out
  rw [hrx]
  exact Receiver.wf_items hs s.cfg is

theorem Moves.mem_wf {s t : State} (h : Moves s t) (hs : s.mem.wf = true) : t.mem.wf = true := by
  obtain ⟨hm, -⟩ | ⟨hm, -⟩ := h.mem <;> rw [hm]
  · exact hs
  · exact Memory.wf_writes hs _

end Sys2Proof.Machine
end

section
/-! PROOFS. The datapath and the place in the request (spec 10 R40, R42, R45; 40 R127, R128; 41 R156), and the invariant of the
machine put together. -/

namespace Sys2Proof.Machine

/-! ### What the source of a chunk holds (R127, R128, R153, R183) -/

/-- The source of an atomic step's chunk holds as many elements as the chunk has; a command byte is sent by its own step, and no
step to come waits on the bus. -/
def Atom.supplied (d : Datapath) : Atom → Prop
  | .chunk (.command _) _ => False
  | .chunk (.bytes l) len => l.length = len
  | .chunk (.cell _) _ => True
  | .chunk .block len => len ≤ d.block.length
  | .chunk .host _ => True
  | .await _ => False
  | .lineRegs _ => True
  | .circleRegs _ => True
  | .triRegs _ => True
  | .loadBlock _ _ => True
  | .setWindow _ _ _ _ => True
  | .width _ => True
  | .command _ => True
  | .startData _ _ => True
  | .endData => True

/-- So it is for all steps of a list, from a datapath on. -/
def stepsSupplied : Datapath → List Atom → Prop
  | _, [] => True
  | d, a :: as => a.supplied d ∧ stepsSupplied (dpWrite d a) as

theorem stepsSupplied_append (d : Datapath) (as bs : List Atom) :
    stepsSupplied d (as ++ bs) ↔ stepsSupplied d as ∧ stepsSupplied (as.foldl dpWrite d) bs := by
  induction as generalizing d with
  | nil => exact ⟨fun h => ⟨trivial, h⟩, And.right⟩
  | cons a as ih => exact (and_congr_right fun _ => ih _).trans and_assoc.symm

/-- Steps that leave the datapath alone, each supplied. -/
theorem stepsSupplied_of_forall {d : Datapath} {as : List Atom} (h : ∀ a ∈ as, dpWrite d a = d ∧ a.supplied d) :
    stepsSupplied d as := by
  induction as with
  | nil => trivial
  | cons a as ih =>
    obtain ⟨⟨hd, ha⟩, has⟩ := List.forall_mem_cons.1 h
    exact ⟨ha, hd.symm ▸ ih has⟩

theorem mem_sendData {src : Source} {n : Nat} {p : Option Long} {a : Atom} (h : a ∈ sendData src n p) :
    a = .startData n p ∨ a = .endData ∨ ∃ k ∈ splitBy maxChunk n, a = .chunk src k := by
  unfold sendData at h
  split at h
  · cases h
  · rw [List.cons_append, List.mem_cons, List.mem_append, List.mem_map, List.mem_singleton] at h
    obtain h | ⟨k, hk, rfl⟩ | h := h
    · exact .inl h
    · exact .inr (.inr ⟨k, hk, rfl⟩)
    · exact .inr (.inl h)

/-- The steps of a `SendData` leave the datapath alone, and are supplied where its chunks are. -/
theorem forall_mem_sendData {d : Datapath} {src : Source} {n : Nat} (p : Option Long)
    (h : ∀ k ∈ splitBy maxChunk n, (Atom.chunk src k).supplied d) :
    ∀ a ∈ sendData src n p, dpWrite d a = d ∧ a.supplied d := by
  intro a ha
  obtain rfl | rfl | ⟨k, hk, rfl⟩ := mem_sendData ha
  · exact ⟨rfl, trivial⟩
  · exact ⟨rfl, trivial⟩
  · exact ⟨rfl, h k hk⟩

/-- Steps that are supplied whatever the datapath was before them. -/
def Supplies (as : List Atom) : Prop := ∀ d, stepsSupplied d as

theorem Supplies.append {as bs : List Atom} (h : Supplies as) (k : Supplies bs) : Supplies (as ++ bs) :=
  fun d => (stepsSupplied_append d as bs).2 ⟨h d, k _⟩

theorem Supplies.one {a : Atom} (h : ∀ d, a.supplied d) : Supplies [a] := fun d => ⟨h d, trivial⟩

theorem Supplies.with16 {body : List Atom} (h : Supplies body) : Supplies (with16 body) :=
  Supplies.append (as := [.width .w16]) (.one fun _ => trivial) (h.append (.one fun _ => trivial))

theorem sendData_supplies {src : Source} {n : Nat} (p : Option Long)
    (h : ∀ d, ∀ k ∈ splitBy maxChunk n, (Atom.chunk src k).supplied d) : Supplies (sendData src n p) :=
  fun d => stepsSupplied_of_forall (forall_mem_sendData p (h d))

theorem windowGroup_supplies (c : Config) (x0 y0 x1 y1 : Int) : Supplies (windowGroup c x0 y0 x1 y1) := by
  have hbytes : ∀ v w : Word, Supplies (sendData (.bytes (bigEndian v ++ bigEndian w)) 4 none) := fun v w =>
    sendData_supplies none fun d k hk => by
      obtain rfl : k = 4 := by simpa [splitBy, maxChunk] using hk
      rfl
  have hcommand : ∀ op, Supplies [.command op] := fun op => .one fun _ => trivial
  exact ((((hcommand _).append (hbytes _ _)).append ((hcommand c.opcRaset).append (hbytes _ _)))).append (hcommand _)

theorem guarded_supplies (c : Config) (x0 y0 x1 y1 : Int) {body : List Atom} (h : Supplies body) :
    Supplies (guarded c x0 y0 x1 y1 body) := by
  have hrest : Supplies (if accepts c x0 y0 x1 y1 then windowGroup c x0 y0 x1 y1 ++ body else []) := by
    split
    · exact (windowGroup_supplies c x0 y0 x1 y1).append h
    · exact fun _ => trivial
  exact Supplies.append (as := [.setWindow x0 y0 x1 y1]) (.one fun _ => trivial) hrest

theorem le_of_mem_splitBy {cap n k : Nat} (h : k ∈ splitBy cap n) : k ≤ n :=
  splitBy_sum cap n ▸ List.le_sum_of_mem h

/-- The blocks of `Fill` are no longer than the block that is loaded (R183). -/
theorem fillData_supplies {c : Config} (hfill : c.fillStrategy.ok = true) (v : Word) (n : Nat) :
    Supplies (fillData c v n) := by
  unfold fillData
  split
  · rename_i b hb
    have hpos := ((FillStrategy.ok_iff _).1 hfill b hb).1
    refine fun d => ⟨trivial, stepsSupplied_of_forall fun a ha => ?_⟩
    obtain ⟨k, hk, ha⟩ := List.mem_flatMap.1 ha
    refine forall_mem_sendData none (fun j hj => ?_) a ha
    have hblock : (dpWrite d (.loadBlock b v)).block.length = b := List.length_replicate
    exact (le_of_mem_splitBy hj).trans ((splitBy_mem hpos hk).2.trans hblock.ge)
  · exact sendData_supplies none fun _ _ _ => trivial

theorem expand_supplies {c : Config} (hfill : c.fillStrategy.ok = true) (k : Task) : Supplies (expand c k) := by
  have hhost : ∀ n p, Supplies (sendData .host n p) := fun n p => sendData_supplies p fun _ _ _ => trivial
  cases k with
  | window x0 y0 x1 y1 => exact guarded_supplies _ _ _ _ _ fun _ => trivial
  | plot x y v => exact guarded_supplies _ _ _ _ _ (sendData_supplies (src := .cell v) none fun _ _ _ => trivial).with16
  | fill x0 y0 x1 y1 v => exact guarded_supplies _ _ _ _ _ (fillData_supplies hfill v _).with16
  | blit x y w h src => exact guarded_supplies _ _ _ _ _ (hhost _ _).with16
  | data w n src =>
    cases w with
    | w8 => exact hhost _ _
    | w16 => exact (hhost _ _).with16
  | _ => exact .one fun _ => trivial

/-- Every chunk of every request has a source that holds as many elements as it has. -/
theorem stepsOf_supplies (i : Instr) {c : Config} (hcfg : c.ok = true) : Supplies (stepsOf i c) :=
  flatMap_induct (P := Supplies) (fun _ => trivial) (fun _ _ => Supplies.append) fun k _ =>
    expand_supplies (Config.fillStrategy_ok hcfg) k

/-! ### The datapath (R40, R45) -/

theorem settled_dp (c : Chunk) (vs : List Word) (s : State) : (settled c vs s).dp = s.dp := by
  obtain ⟨x, hx⟩ := settled_eq c vs s
  rw [hx]
  split <;> rfl

theorem OnBus.dp {a : Atom} {s t : State} {c : Chunk} (h : OnBus a s c t) : t.dp = s.dp ∧ dpWrite s.dp a = s.dp := by
  cases h with
  | command op => exact ⟨(issued_dp _ _ _).trans (openTxn_dp s), rfl⟩
  | chunk src len => exact ⟨issued_dp _ _ _, rfl⟩
  | await => exact ⟨rfl, rfl⟩

theorem Writes.dp {a : Atom} {s t : State} (h : Writes a s t) : t.dp = dpWrite s.dp a := by
  have hatom := h.atom
  have hissues := h.issues
  cases a with
  | startData n p =>
    cases hatom
    exact openTxn_dp s
  | setWindow x0 y0 x1 y1 =>
    obtain rfl : _ = t := Progress.go.inj hatom
    split <;> rfl
  | command op => cases hissues
  | chunk src len => cases hissues
  | await c => cases hissues
  | _ =>
    cases hatom
    rfl

/-- An atomic step after which its request goes on has written its own part of the datapath. -/
theorem atom_dp {a : Atom} {s t : State} (h : atom a s = .go t) : t.dp = dpWrite s.dp a := by
  obtain ⟨u, hw⟩ | ⟨c, u, hbus⟩ := atom_cases a s
  · obtain rfl : u = t := Progress.go.inj (hw.atom.symm.trans h)
    exact hw.dp
  · have hforms := settle_forms c u
    rw [← hbus.issues.atom, h] at hforms
    obtain ⟨vs, rfl⟩ := hforms
    exact (settled_dp c vs u).trans (hbus.dp.1.trans hbus.dp.2.symm)

/-- An atomic step that is held has its chunk on the bus, and waits for it first when it goes on. -/
theorem atom_held {a b : Atom} {s t : State} (h : atom a s = .held b t) :
    ∃ c u, OnBus a s c u ∧ b = .await c ∧ t = reported c u := by
  obtain ⟨u, hw⟩ | ⟨c, u, hbus⟩ := atom_cases a s
  · cases hw.atom.symm.trans h
  · have hforms := settle_forms c u
    rw [← hbus.issues.atom, h] at hforms
    exact ⟨c, u, hbus, hforms.1, hforms.2.1⟩

/-! ### The place in the request (R42, R156) -/

/-- The step that a step goes on with: a chunk on the bus stands for the step that issued it. -/
def Atom.issuer : Atom → Atom
  | .await c => c.step
  | a => a

theorem resumes_cons (a : Atom) (as : List Atom) : resumes (a :: as) = a.issuer :: as := by
  cases a <;> rfl

theorem resumes_of_capped {as : List Atom} (h : as.all Atom.capped = true) : resumes as = as := by
  cases as with
  | nil => rfl
  | cons a as =>
    cases a with
    | await c => simp [Atom.capped] at h
    | _ => rfl

theorem Chunk.step_writes (c : Chunk) (cfg : Config) (d : Datapath) : dpWrite d c.step = d ∧ c.step.verdict cfg = none := by
  unfold Chunk.step
  split <;> exact ⟨rfl, rfl⟩

theorem dpWrite_issuer (d : Datapath) (a : Atom) : dpWrite d a.issuer = dpWrite d a := by
  cases a with
  | await c => exact (c.step_writes Config.vectors d).1
  | _ => rfl

theorem verdict_issuer (cfg : Config) (a : Atom) : a.issuer.verdict cfg = a.verdict cfg := by
  cases a with
  | await c => exact (c.step_writes cfg Datapath.reset).2
  | _ => rfl

/-- The chunk of a supplied step stands for that step. -/
theorem OnBus.step {a : Atom} {s t : State} {c : Chunk} {d : Datapath} (h : OnBus a s c t) (ha : a.issuer.supplied d) :
    c.step = a.issuer := by
  cases h with
  | command op => rfl
  | chunk src len =>
    cases src with
    | command op => cases ha
    | _ => rfl
  | await => rfl

/-- The steps to come of a request that runs are supplied, from the datapath as it is. -/
theorem onRequest_supplied {s : State} {as : List Atom} (hcfg : s.cfg.ok = true)
    (h : onRequest (s.setPhase (.running as))) : stepsSupplied s.dp (resumes as) := by
  obtain ⟨i, before, dp, -, hsteps, hdp, -, -⟩ := h
  have hall := stepsOf_supplies i hcfg dp
  rw [show stepsOf i s.cfg = before ++ resumes as from hsteps, stepsSupplied_append] at hall
  exact (show s.dp = before.foldl dpWrite dp from hdp) ▸ hall.2

/-- The place in the request after a step that goes on. -/
theorem onRequest_go {a : Atom} {as : List Atom} {s t : State} (h : onRequest (s.setPhase (.running (a :: as))))
    (hcap : as.all Atom.capped = true) (hreq : InRequest s t) (hflags : Decides a s t) (hdp : t.dp = dpWrite s.dp a) :
    onRequest (t.setPhase (.running as)) := by
  obtain ⟨i, before, dp, hdecode, hsteps, hdps, hacc, hrej⟩ := h
  rw [resumes_cons] at hsteps
  refine ⟨i, before ++ [a.issuer], dp, ?_, ?_, ?_, ?_, ?_⟩
  · exact hreq.req ▸ hdecode
  · rw [resumes_of_capped hcap, List.append_assoc]
    exact hflags.cfg ▸ hsteps
  · rw [List.foldl_append, List.foldl_cons, List.foldl_nil, dpWrite_issuer]
    exact hdp.trans (congrArg (dpWrite · a) hdps)
  · have hsame : s.acc = before.any fun b => decide (b.verdict s.cfg = some true) := hacc
    simp only [State.setPhase_acc, State.setPhase_cfg, List.any_append, List.any_cons, List.any_nil, Bool.or_false,
      verdict_issuer, hflags.acc, hflags.cfg, hsame]
  · have hsame : s.rej = before.any fun b => decide (b.verdict s.cfg = some false) := hrej
    simp only [State.setPhase_rej, State.setPhase_cfg, List.any_append, List.any_cons, List.any_nil, Bool.or_false,
      verdict_issuer, hflags.rej, hflags.cfg, hsame]

/-- The place in the request while a step's chunk is held on the bus. -/
theorem onRequest_held {a : Atom} {as : List Atom} {c : Chunk} {s t : State}
    (h : onRequest (s.setPhase (.running (a :: as)))) (hstep : c.step = a.issuer) (hreq : InRequest s t)
    (hflags : SameFlags s t) (hdp : t.dp = s.dp) : onRequest (t.setPhase (.running (.await c :: as))) := by
  obtain ⟨i, before, dp, hdecode, hsteps, hdps, hacc, hrej⟩ := h
  rw [resumes_cons, ← hstep] at hsteps
  exact ⟨i, before, dp, hreq.req ▸ hdecode, hflags.cfg ▸ hsteps, hdp.trans hdps,
    hflags.acc.trans (hflags.cfg ▸ hacc), hflags.rej.trans (hflags.cfg ▸ hrej)⟩

/-! ### The invariant (R32, R39, R40, R42, R122 to R125, R129, R156, R160) -/

/-- What moves keeps memory's and the receiver's own form; with the outputs and the rest, an idle state meets the invariant. -/
theorem Inv.of_idle {s t : State} (h : Inv s) (hmoves : Moves s t) (hout : WireInv t ∧ RecordsInv t) (hp : t.phase = .idle)
    (hready : Ready t) : Inv t where
  phase := by rwa [phaseInv, hp]
  request := by rw [onRequest, hp]; trivial
  mem := hmoves.mem_wf h.mem
  wire := hout.1
  xfers := hout.2
  rx := hmoves.rx_wf h.rx

/-- With nothing running, what `REQ` and the port hold does not matter. -/
theorem Inv.capture {s : State} (h : Inv s) (hp : s.phase = .idle) (d : Desc) (later : List Desc) :
    Inv { s with req := d, port := later } where
  phase := by
    have hphase := h.phase
    rw [phaseInv, hp] at hphase
    rw [phaseInv, hp]
    exact ⟨hphase.ww, hphase.cs, hphase.async⟩
  request := by rw [onRequest, hp]; trivial
  mem := h.mem
  wire := h.wire
  xfers := h.xfers
  rx := h.rx

/-- An end of the request that sends nothing more, or does so with chip select asserted. -/
theorem Inv.of_closes {s t : State} {es : List Elem} (h : Inv s) (hmoves : Moves s t) (hes : s.csOut = true ∨ es = [])
    (hclose : Closes es s t) (hp : t.phase = .idle) (hready : Ready t) : Inv t := by
  have hrec : RecordsInv t := by
    rw [RecordsInv, hclose.xfers]
    exact h.xfers
  exact h.of_idle hmoves ⟨WireInv.closes h.wire hes hclose hready.cs, hrec⟩ hp hready

/-- Every atomic step of a running request keeps the invariant, whatever the bus reports. -/
theorem atom_inv {a : Atom} {as : List Atom} {s : State} (hcfg : s.cfg.ok = true)
    (h : Inv (s.setPhase (.running (a :: as)))) :
    (atom a s).Each (fun t => Inv (t.setPhase (.running as))) (fun b t => Inv (t.setPhase (.running (b :: as)))) Inv := by
  have hphase := atom_phaseInv h.phase
  have hout := atom_output h.phase h.wire h.xfers
  have hmoves := (atom_moves a s).each
  have hreq := atom_inRequest a s
  have hpaths := phaseInv_awaitsPath h.phase rfl
  have hpath : awaitsPath s.cfg [a] := fun k hk => hpaths k (List.mem_singleton.1 hk ▸ List.mem_cons_self ..)
  have hflags := atom_outcome a hpath
  cases ha : atom a s with
  | go t =>
    rw [ha] at hphase hout hmoves hreq hflags
    have hcap : as.all Atom.capped = true := by
      obtain ⟨c, bs, hc, -, -, -, -, -, hcap⟩ | ⟨-, -, -, hcap⟩ := phaseInv_running h.phase
      · cases hc
        exact hcap
      · exact ((Bool.and_eq_true _ _).mp (List.all_cons ▸ hcap)).2
    exact ⟨hphase, onRequest_go h.request hcap hreq hflags (atom_dp ha), hmoves.mem_wf h.mem, hout.1, hout.2,
      hmoves.rx_wf h.rx⟩
  | held b t =>
    rw [ha] at hphase hout hmoves hreq
    obtain ⟨c, u, hbus, rfl, rfl⟩ := atom_held ha
    have hsupplied := onRequest_supplied hcfg h.request
    rw [resumes_cons] at hsupplied
    have hsame := (hbus.outcome hpath).1
    exact ⟨hphase, onRequest_held h.request (hbus.step hsupplied.1) hreq { hsame with } hbus.dp.1, hmoves.mem_wf h.mem,
      hout.1, hout.2, hmoves.rx_wf h.rx⟩
  | ended t =>
    rw [ha] at hphase hout hmoves hreq
    exact h.of_idle { hmoves with } hout hreq hphase
  | stuck f => trivial

theorem Inv.resetStep {s : State} (h : Inv s) (k : Nat) : Inv (resetStep k s) := by
  obtain ⟨es, hclose, hes⟩ := resetStep_closes k s
  obtain ⟨u, hu⟩ := resetStep_eq k s
  have hcs : s.csOut = true ∨ es = [] := by
    obtain hnil | ⟨c, as, hp⟩ := hes
    · exact .inr hnil
    · exact .inl ((phaseInv_opens h.phase hp).2 c as rfl)
  exact h.of_closes (resetStep_moves k s) hcs hclose (hu ▸ rfl) (hu ▸ resetRge_ready u)

theorem Inv.complete {s : State} (h : Inv s) (hp : s.phase = .running []) : Inv (complete (endRequest s)) :=
  h.of_closes ((endRequest_moves s).trans (complete_moves _)) (.inr rfl)
    (Sends.closes (u := endRequest s) ⟨rfl, (List.append_nil _).symm, rfl, rfl, rfl⟩ (complete_closes _)) rfl
    (complete_ready (State.setPhase_self hp ▸ h.phase))

theorem Inv.ready {s : State} (h : Inv s) (hp : s.phase = .idle) : Ready s := by
  have hphase := h.phase
  rwa [phaseInv, hp] at hphase

theorem Inv.startRequest {s : State} (h : Inv s) (hp : s.phase = .idle) {d : Desc} (later : List Desc) {i : Instr}
    (hd : decode d = .ok i) : Inv (startRequest i (accept d later s)) where
  phase :=
    have hs := h.ready hp
    stepsOf_phaseInv i (s := begin (accept d later s)) ⟨hs.ww, hs.cs, hs.async⟩
  request := by
    have hcap := resumes_of_capped (capped_stepsOf i s.cfg)
    exact ⟨i, [], s.dp, hd, hcap.symm, rfl, rfl, rfl⟩
  mem := h.mem
  wire := h.wire
  xfers := h.xfers
  rx := h.rx

theorem illegal_closes (s : State) : Closes [] s (Machine.illegal s) :=
  Sends.closes (u := landWrites s) ⟨rfl, (List.append_nil _).symm, rfl, rfl, rfl⟩ (abort_closes _ _)

theorem Inv.illegal {s : State} (h : Inv s) (hp : s.phase = .idle) (d : Desc) (later : List Desc) :
    Inv (Machine.illegal (accept d later s)) := by
  have hsame : Machine.illegal (accept d later s) = Machine.illegal { s with req := d, port := later } :=
    abort_setPhase .illegal (landWrites { s with req := d, port := later }) (.running [])
  have hcaptured := h.capture hp d later
  rw [hsame]
  exact hcaptured.of_closes (illegal_moves _) (.inr rfl) (illegal_closes _) rfl (abort_ready _ _)

/-- Every atomic step of the machine keeps the invariant. -/
theorem tick_inv {s t : State} (h : Inv s) (htick : tick s = .next t) : Inv t := by
  obtain ⟨hcfg, ⟨k, -, rfl⟩ | ⟨hp, rfl⟩ | ⟨a, todo, hp, hatom⟩ | ⟨hp, rfl⟩ | ⟨hp, d, later, i, hd, rfl⟩ |
    ⟨hp, d, later, rfl⟩⟩ :=
    tick_cases htick
  · exact h.resetStep k
  · exact h.complete hp
  · have hstep := atom_inv hcfg (State.setPhase_self hp ▸ h)
    obtain ⟨u, hu, rfl⟩ | ⟨b, u, hu, rfl⟩ | hu := hatom <;> rw [hu] at hstep <;> exact hstep
  · have hs := h.ready hp
    exact h.of_idle (landWrites_moves s) ⟨h.wire, h.xfers⟩ hp ⟨hs.ww, hs.cs, hs.async⟩
  · exact h.startRequest hp later hd
  · exact h.illegal hp d later

theorem ticks_inv {k : Nat} {s t : State} (h : Inv s) (hticks : ticks k s = .next t) : Inv t := by
  induction k generalizing s with
  | zero =>
    obtain rfl : s = t := Host.Outcome.next.inj hticks
    exact h
  | succ k ih =>
    cases htick : tick s with
    | next u => exact ih (tick_inv h htick) ((ticks_succ htick k).symm.trans hticks)
    | fault f => simp [ticks_succ_eq, htick] at hticks
    | refused r => simp [ticks_succ_eq, htick] at hticks

/-- Settles O16: each part of the invariant is kept by every atomic step, and a step is a run of those. -/
theorem stepKeepsInv : Obligations.StepKeepsInv := by
  intro s t h
  obtain ⟨k, -, hk⟩ := stepIsAtomicSteps s
  exact ⟨fun hstep => ticks_inv h (hk.trans hstep), tick_inv h⟩

end Sys2Proof.Machine
end

section
/-! PROOFS. The registers of the walks pass by pass (spec 10 R40; 43 R201 to R204; 44 R220; 45 R240, R241): lists of iterates, each
with its closed form. -/

namespace Sys2Proof.Machine

/-! ### Lists of iterates -/

section iterates

variable {α : Type} {f : α → α} {n k : Nat} {a : α}

theorem eq_of_iterates_getElem? {r : α} (h : ((List.range n).map fun j => Nat.iterate f j a)[k]? = some r) :
    k < n ∧ r = Nat.iterate f k a := by
  obtain ⟨hk, rfl⟩ := List.getElem?_eq_some_iff.1 h
  rw [List.length_map, List.length_range] at hk
  exact ⟨hk, by rw [List.getElem_map, List.getElem_range]⟩

/-- Each iterate is the step applied to the one before. -/
theorem eq_of_iterates_succ {r q : α} (hr : ((List.range n).map fun j => Nat.iterate f j a)[k]? = some r)
    (hq : ((List.range n).map fun j => Nat.iterate f j a)[k + 1]? = some q) : k + 1 < n ∧ q = f r := by
  obtain ⟨-, rfl⟩ := eq_of_iterates_getElem? hr
  obtain ⟨hk, rfl⟩ := eq_of_iterates_getElem? hq
  exact ⟨hk, Function.iterate_succ_apply' ..⟩

theorem iterates_dropLast : ((List.range (n + 1)).map fun j => Nat.iterate f j a).dropLast =
    (List.range n).map fun j => Nat.iterate f j a := by
  rw [List.range_succ, List.map_append, List.map_singleton, List.dropLast_concat]

end iterates

/-! ### The filled triangle (R240, R241) -/

/-- `curpixel` counts the passes, and `numpixels` stands still. -/
theorem iterate_triNext_counts (r : TriRegs) (k : Nat) :
    (Nat.iterate triNext k r).curpixel = r.curpixel + k ∧ (Nat.iterate triNext k r).numpixels = r.numpixels := by
  induction k with
  | zero => exact ⟨(Int.add_zero _).symm, rfl⟩
  | succ k ih =>
    rw [Function.iterate_succ_apply', triNext_eq]
    exact ⟨by rw [ih.1]; push_cast; ring, ih.2⟩

theorem triStart_counts (x1 y1 x2 y2 : Int) :
    (triStart x1 y1 x2 y2).curpixel = 0 ∧
      (triStart x1 y1 x2 y2).numpixels = max (absInt (x2 - x1)) (absInt (y2 - y1)) := by
  by_cases hlong : absInt (x2 - x1) ≥ absInt (y2 - y1)
  · simp [triStart, hlong]
  · simpa [triStart, hlong] using (Int.not_le.1 hlong).le

/-- Over a whole walk of `d` passes the accumulator overflows once for each step of the shorter axis. -/
theorem walk_overflows {d a : Int} (hd : 0 ≤ d) (ha : 0 ≤ a) (hle : a ≤ d) : (d / 2 + d * a) / d = a := by
  obtain hzero | hpos := hd.eq_or_lt
  · rw [← hzero, Int.ediv_zero]
    omega
  · rw [Int.add_mul_ediv_left _ _ hpos.ne', Int.ediv_eq_zero_of_lt (by omega) (by omega), Int.zero_add]

/-- A coordinate moved by its whole distance, in its direction, is the other one. -/
theorem add_direction_mul_absInt (a b : Int) : a + (if b ≥ a then 1 else -1) * absInt (b - a) = b := by
  unfold absInt
  split <;> split <;> omega

/-- After as many passes as the longer axis is long, the walk stands on vertex 2 (R241). -/
theorem triAfter_vertex (x1 y1 x2 y2 : Int) {m : Nat} (hm : (m : Int) = (triStart x1 y1 x2 y2).den) :
    (triAfter (triStart x1 y1 x2 y2) m).x = x2 ∧ (triAfter (triStart x1 y1 x2 y2) m).y = y2 := by
  obtain ⟨hnum, hpos, hle, -⟩ := triStart_accumulator x1 y1 x2 y2
  have hover : ((triStart x1 y1 x2 y2).num + m * (triStart x1 y1 x2 y2).numadd) / (triStart x1 y1 x2 y2).den =
      (triStart x1 y1 x2 y2).numadd := by
    rw [hnum, hm]
    exact walk_overflows (hpos.trans hle) hpos hle
  simp only [triAfter, hover]
  simp only [hm]
  have hx := add_direction_mul_absInt x1 x2
  have hy := add_direction_mul_absInt y1 y2
  by_cases hlong : absInt (x2 - x1) ≥ absInt (y2 - y1)
  · simp only [triStart, hlong, if_true]
    exact ⟨by rw [Int.zero_mul, Int.add_zero, hx], by rw [Int.zero_mul, Int.add_zero, hy]⟩
  · simp only [triStart, hlong, if_false]
    exact ⟨by rw [Int.zero_mul, Int.add_zero, hx], by rw [Int.zero_mul, Int.add_zero, hy]⟩

/-- Settles O52: the registers are iterates of one pass, and the longer axis is `numpixels` passes long. -/
theorem ftriWalkEndsOnVertex : Obligations.FtriWalkEndsOnVertex := by
  rintro x1 y1 x2 y2 x3 y3 color rs rfl
  obtain ⟨hcur, hnum⟩ := triStart_counts (zint x1) (zint y1) (zint x2) (zint y2)
  obtain ⟨hhalf, hpos, hle, hden⟩ := triStart_accumulator (zint x1) (zint y1) (zint x2) (zint y2)
  obtain ⟨m, hm⟩ := Int.eq_ofNat_of_zero_le (hpos.trans hle)
  have hvalues := triValues_filledTriangle (zint x1) (zint y1) (zint x2) (zint y2) (zint x3) (zint y3) color
  rw [hden, hm] at hvalues
  rw [planFtri, hvalues]
  refine ⟨m, by rw [← hm, ← hden, hnum], by simp, fun k r hr => ?_,
    ⟨triAfter (triStart (zint x1) (zint y1) (zint x2) (zint y2)) m, ?_, ?_⟩, fun k r q hr hq => ?_⟩
  · obtain ⟨-, rfl⟩ := eq_of_iterates_getElem? hr
    obtain ⟨hc, hn⟩ := iterate_triNext_counts (triStart (zint x1) (zint y1) (zint x2) (zint y2)) k
    exact ⟨by rw [hc, hcur, Int.zero_add], by rw [hn, hden, hm]⟩
  · rw [← iterate_triNext hhalf hpos hle hm.ge, List.getElem?_map, List.getElem?_range (by omega)]
    rfl
  · exact triAfter_vertex _ _ _ _ hm.symm
  · obtain ⟨-, rfl⟩ := eq_of_iterates_succ hr hq
    exact triNext_eq r

/-! ### The circle (R220) -/

/-- What the registers mean after k steps from the top of a circle of radius r. -/
structure CircleAt (r : Int) (k : Nat) (c : CircleRegs) : Prop where
  x : c.x = k
  top : c.y ≤ r
  f : c.f = (c.x + 1) * (c.x + 1) + c.y * c.y - c.y - r * r
  ddFx : c.ddFx = 2 * c.x + 1
  ddFy : c.ddFy = -2 * c.y

theorem circleStart_at (r : Int) : CircleAt r 0 (circleStart r) :=
  ⟨rfl, le_rfl, by simp only [circleStart]; ring, rfl, rfl⟩

theorem CircleAt.next {r : Int} {k : Nat} {c : CircleRegs} (h : CircleAt r k c) : CircleAt r (k + 1) (circleNext c) := by
  have hx : (circleNext c).x = ((k + 1 : Nat) : Int) := by
    rw [circleNext_x, h.x]
    push_cast
    rfl
  have htop := h.top
  by_cases hf : c.f ≥ 0
  · refine ⟨hx, ?_, ?_, ?_, ?_⟩ <;> simp only [circleNext, if_pos hf]
    · omega
    · rw [h.f, h.ddFx, h.ddFy]
      ring
    · rw [h.ddFx]
      ring
    · rw [h.ddFy]
      ring
  · refine ⟨hx, ?_, ?_, ?_, ?_⟩ <;> simp only [circleNext, if_neg hf]
    · omega
    · rw [h.f, h.ddFx]
      ring
    · rw [h.ddFx]
      ring
    · exact h.ddFy

theorem iterate_circleNext_at (r : Int) (k : Nat) : CircleAt r k (Nat.iterate circleNext k (circleStart r)) := by
  induction k with
  | zero => exact circleStart_at r
  | succ k ih =>
    rw [Function.iterate_succ_apply']
    exact ih.next

/-- CIRCLE and FCIRCLE write the same circle registers. -/
theorem circleValues_planFcircle (xc yc r color : Word) :
    circleValues (planFcircle xc yc r color) = circleValues (planCircle xc yc r color) := by
  have hloop := circleValues_circleLoop (em := circleSpans (zint xc) (zint yc) color)
    (fm := circlePoints (zint xc) (zint yc) color) (fun _ => rfl) (fun _ => rfl) (zint r).toNat (circleStart (zint r))
  exact congrArg (circleStart (zint r) :: ·) hloop

/-- While the loop goes on, y is above x, so no step takes it below 0. -/
theorem iterate_circleNext_nonneg {r : Int} (hr : 0 ≤ r) {n k : Nat} (hk : k ≤ n)
    (hbelow : ∀ j < n, (Nat.iterate circleNext j (circleStart r)).x < (Nat.iterate circleNext j (circleStart r)).y) :
    0 ≤ (Nat.iterate circleNext k (circleStart r)).y := by
  cases k with
  | zero => exact hr
  | succ k =>
    have hxy := hbelow k hk
    have hx := (iterate_circleNext_at r k).x
    rw [Function.iterate_succ_apply', circleNext_y]
    split <;> omega

/-- Settles O46: the registers are iterates of one step, which keeps what they mean. -/
theorem circleDecisionVariable : Obligations.CircleDecisionVariable := by
  rintro xc yc r color cs rfl
  obtain ⟨n, hn, hvalues, hbelow, -⟩ := circleLoopBound xc yc r color
  refine ⟨circleValues_planFcircle xc yc r color, fun c hc => ?_, fun k c d hc hd => ?_, fun c hc => ?_⟩
  · rw [circleValues_planCircle, List.head?_cons, Option.some_inj] at hc
    exact hc ▸ ⟨rfl, rfl⟩
  · rw [hvalues] at hc hd
    obtain ⟨-, rfl⟩ := eq_of_iterates_succ hc hd
    exact ⟨circleNext_x c, circleNext_y c⟩
  · rw [hvalues, List.mem_map] at hc
    obtain ⟨k, hk, rfl⟩ := hc
    have hkn : k ≤ n := Nat.le_of_lt_succ (List.mem_range.1 hk)
    have hat := iterate_circleNext_at (zint r) k
    have hy := iterate_circleNext_nonneg (Int.natCast_nonneg r.toNat) hkn hbelow
    have hr := r.isLt
    have hx := hat.x
    have htop := hat.top
    unfold zint at htop hy
    exact ⟨hat.f, hat.ddFx, hat.ddFy, by omega, by omega, hy, by unfold zint; omega⟩

/-! ### The line (R201 to R204) -/

theorem absInt_eq_max (v : Int) : absInt v = max v (-v) := by
  unfold absInt
  split <;> omega

/-- The point the registers stand at, axes exchanged back when steep (R201). -/
def exchanged (steep : Bool) (x y : Int) : Int × Int := if steep then (y, x) else (x, y)

/-- The walk of a general line from its left end (a, b) to its right end (c, d), axes exchanged when steep. -/
structure WalksFrom (x0 y0 x1 y1 : Int) (steep : Bool) (a b c d : Int) : Prop where
  start : lineStart x0 y0 x1 y1 = walkStart steep a b c d
  isSteep : steep = decide (absInt (y1 - y0) > absInt (x1 - x0))
  lt : a < c
  ne : b ≠ d
  le : absInt (d - b) ≤ c - a
  long : max (absInt (x1 - x0)) (absInt (y1 - y0)) = c - a
  ends : (exchanged steep a b = (x0, y0) ∧ exchanged steep c d = (x1, y1)) ∨
    (exchanged steep a b = (x1, y1) ∧ exchanged steep c d = (x0, y0))

theorem exists_walksFrom {x0 y0 x1 y1 : Int} (hx : x0 ≠ x1) (hy : y0 ≠ y1) :
    ∃ steep a b c d, WalksFrom x0 y0 x1 y1 steep a b c d := by
  have hstart := lineStart_eq x0 y0 x1 y1
  by_cases hsteep : absInt (y1 - y0) > absInt (x1 - x0)
  · rw [if_pos hsteep, leftToRight] at hstart
    have hs := (decide_eq_true hsteep).symm
    rw [absInt_eq_max, absInt_eq_max] at hsteep
    by_cases hord : y0 > y1
    · rw [if_pos hord] at hstart
      exact ⟨true, y1, x1, y0, x0, hstart, hs, hord, hx.symm, by rw [absInt_eq_max]; omega,
        by rw [absInt_eq_max, absInt_eq_max]; omega, .inr ⟨rfl, rfl⟩⟩
    · rw [if_neg hord] at hstart
      exact ⟨true, y0, x0, y1, x1, hstart, hs, by omega, hx, by rw [absInt_eq_max]; omega,
        by rw [absInt_eq_max, absInt_eq_max]; omega, .inl ⟨rfl, rfl⟩⟩
  · rw [if_neg hsteep, leftToRight] at hstart
    have hs := (decide_eq_false hsteep).symm
    rw [absInt_eq_max, absInt_eq_max] at hsteep
    by_cases hord : x0 > x1
    · rw [if_pos hord] at hstart
      exact ⟨false, x1, y1, x0, y0, hstart, hs, hord, hy.symm, by rw [absInt_eq_max]; omega,
        by rw [absInt_eq_max, absInt_eq_max]; omega, .inr ⟨rfl, rfl⟩⟩
    · rw [if_neg hord] at hstart
      exact ⟨false, x0, y0, x1, y1, hstart, hs, by omega, hy, by rw [absInt_eq_max]; omega,
        by rw [absInt_eq_max, absInt_eq_max]; omega, .inl ⟨rfl, rfl⟩⟩

/-- Over the whole walk the error term crosses zero once for each step of the shorter axis. -/
theorem lineRise_last {dx : Int} (hdx : 0 < dx) (dy : Int) {n : Nat} (hn : (n : Int) = dx) : lineRise dx dy n = dy := by
  have hsum : (n : Int) * dy + dx - 1 - dx / 2 = (dx - 1 - dx / 2) + dx * dy := by
    rw [hn]
    ring
  rw [lineRise, hsum, Int.add_mul_ediv_left _ _ hdx.ne', Int.ediv_eq_zero_of_lt (by omega) (by omega), Int.zero_add]

/-- Within the walk the crossings are at most the steps of the shorter axis. -/
theorem lineRise_bounds {dx dy : Int} (hdx : 0 < dx) (hdy : 0 ≤ dy) {k : Nat} (hk : (k : Int) ≤ dx) :
    0 ≤ lineRise dx dy k ∧ lineRise dx dy k ≤ dy := by
  have hpos : 0 ≤ (k : Int) * dy := Int.mul_nonneg (Int.natCast_nonneg k) hdy
  have hle : (k : Int) * dy ≤ dx * dy := Int.mul_le_mul_of_nonneg_right hk hdy
  have hlast := lineRise_last hdx dy (Int.toNat_of_nonneg hdx.le)
  refine ⟨Int.ediv_nonneg (by omega) hdx.le, ?_⟩
  calc lineRise dx dy k ≤ lineRise dx dy dx.toNat := by
        rw [lineRise, lineRise, Int.toNat_of_nonneg hdx.le]
        exact Int.ediv_le_ediv hdx (by omega)
    _ = dy := hlast

section line

variable {x0 y0 x1 y1 : Int} {steep : Bool} {a b c d : Int} {m : Nat}

/-- The registers at the right end of the walk. -/
theorem walkRegs_last (steep : Bool) (hm : (m : Int) = c - a) (hlt : a < c) :
    (walkRegs steep a b c d m).x = c ∧ (walkRegs steep a b c d m).y = d := by
  have hrise := lineRise_last (Int.sub_pos.2 hlt) (absInt (d - b)) hm
  simp only [walkRegs, hrise]
  refine ⟨by omega, ?_⟩
  rw [absInt_eq_max]
  split <;> omega

/-- R40's ranges of the walk: `err` below `dx`, x and y between the ends. -/
theorem walkRegs_ranges (steep : Bool) (hlt : a < c) {k : Nat} (hk : (k : Int) ≤ c - a) :
    0 ≤ (walkRegs steep a b c d k).err ∧ (walkRegs steep a b c d k).err < c - a ∧
      a ≤ (walkRegs steep a b c d k).x ∧ (walkRegs steep a b c d k).x ≤ c ∧
      min b d ≤ (walkRegs steep a b c d k).y ∧ (walkRegs steep a b c d k).y ≤ max b d := by
  obtain ⟨herr, herr'⟩ := lineErr_bounds (Int.sub_pos.2 hlt) (absInt (d - b)) k
  obtain ⟨hrise, hrise'⟩ := lineRise_bounds (Int.sub_pos.2 hlt) (absInt_nonneg (d - b)) hk
  rw [absInt_eq_max] at hrise'
  have hy : min b d ≤ (walkRegs steep a b c d k).y ∧ (walkRegs steep a b c d k).y ≤ max b d := by
    simp only [walkRegs, absInt_eq_max] at hrise hrise' ⊢
    split <;> omega
  exact ⟨herr, herr', by simp [walkRegs], by simp only [walkRegs]; omega, hy⟩

variable (h : WalksFrom x0 y0 x1 y1 steep a b c d) (hm : (m : Int) = c - a)

include h hm

/-- The line registers of the walk, from the start to after the last pass. -/
theorem WalksFrom.values (v : Word) :
    lineValues (lineGeneral x0 y0 x1 y1 v) = (List.range (m + 2)).map fun k =>
      Nat.iterate lineNext k (walkStart steep a b c d) := by
  have hcount : ((walkStart steep a b c d).dx + 1).toNat = m + 1 := by
    simp only [walkStart]
    omega
  rw [lineValues_lineGeneral, h.start, hcount]

/-- Before each pass they are those of the closed form. -/
theorem WalksFrom.values_dropLast (v : Word) :
    (lineValues (lineGeneral x0 y0 x1 y1 v)).dropLast = (List.range (m + 1)).map (walkRegs steep a b c d) := by
  rw [h.values hm, iterates_dropLast]
  refine List.map_congr_left fun k hk => ?_
  rw [List.mem_range] at hk
  exact iterate_lineNext_walkStart steep h.lt h.le (by omega)

/-- Each pass plots the point its registers stand at. -/
theorem WalksFrom.points (v : Word) :
    plottedPoints (lineGeneral x0 y0 x1 y1 v) =
      (lineValues (lineGeneral x0 y0 x1 y1 v)).dropLast.map fun r => if r.steep then (r.y, r.x) else (r.x, r.y) := by
  have hwalk : plottedPoints (lineGeneral x0 y0 x1 y1 v) = plottedPoints
      (lineWalk v ((lineStart x0 y0 x1 y1).dx + 1).toNat (lineStart x0 y0 x1 y1)) := rfl
  have hcount : ((walkStart steep a b c d).dx + 1).toNat = m + 1 := by
    simp only [walkStart]
    omega
  rw [hwalk, h.start, plottedPoints_lineWalk, h.values hm, iterates_dropLast, hcount]

/-- The first point is one end of the line, the last the other. -/
theorem WalksFrom.points_ends (v : Word) :
    (plottedPoints (lineGeneral x0 y0 x1 y1 v)).head? = some (exchanged steep a b) ∧
      (plottedPoints (lineGeneral x0 y0 x1 y1 v)).getLast? = some (exchanged steep c d) := by
  obtain ⟨hx, hy⟩ := walkRegs_last (b := b) (d := d) steep hm h.lt
  rw [h.points hm, h.values_dropLast hm]
  constructor
  · rw [List.range_succ_eq_map, List.map_cons, List.map_cons, walkRegs_zero steep h.lt, List.head?_cons]
    rfl
  · rw [List.range_succ, List.map_append, List.map_append, List.map_singleton, List.map_singleton, List.getLast?_concat, hx,
      hy]
    rfl

/-- One pass, the last too: x stops at the right end (log 23). -/
theorem WalksFrom.pass {k : Nat} {r q : LineRegs} (v : Word) (hr : (lineValues (lineGeneral x0 y0 x1 y1 v))[k]? = some r)
    (hq : (lineValues (lineGeneral x0 y0 x1 y1 v))[k + 1]? = some q) :
    q = { r with
      x := if k + 1 < m + 1 then r.x + 1 else r.x
      y := if r.err - r.dy < 0 then r.y + r.ystep else r.y
      err := if r.err - r.dy < 0 then r.err - r.dy + r.dx else r.err - r.dy } := by
  rw [h.values hm] at hr hq
  obtain ⟨hk, rfl⟩ := eq_of_iterates_succ hr hq
  obtain ⟨-, hregs⟩ := eq_of_iterates_getElem? hr
  rw [iterate_lineNext_walkStart steep h.lt h.le (by omega)] at hregs
  have hx : (r.x < r.lx1) = (k + 1 < m + 1) := by
    simp only [hregs, walkRegs, walkStart, eq_iff_iff]
    omega
  simp only [lineNext_eq, hx]

end line

/-- Settles O43: the plan is the general line, which walks from one of its ends to the other. -/
theorem linePlotCount : Obligations.LinePlotCount := by
  rintro x0 y0 x1 y1 color ps rs hx hy rfl rfl
  have hx' : zint x0 ≠ zint x1 := fun heq => hx (BitVec.eq_of_toNat_eq (Int.ofNat_inj.1 heq))
  have hy' : zint y0 ≠ zint y1 := fun heq => hy (BitVec.eq_of_toNat_eq (Int.ofNat_inj.1 heq))
  have hplan : planLine x0 y0 x1 y1 color = lineGeneral (zint x0) (zint y0) (zint x1) (zint y1) color :=
    (if_neg hy').trans (if_neg hx')
  obtain ⟨steep, a, b, c, d, h⟩ := exists_walksFrom hx' hy'
  have hlt := h.lt
  obtain ⟨m, hm⟩ : ∃ m : Nat, (m : Int) = c - a := ⟨(c - a).toNat, Int.toNat_of_nonneg (by omega)⟩
  have hlen : (plottedPoints (lineGeneral (zint x0) (zint y0) (zint x1) (zint y1) color)).length = m + 1 := by
    rw [h.points hm, h.values_dropLast hm, List.length_map, List.length_map, List.length_range]
  rw [hplan]
  refine ⟨by rw [hlen, h.long, ← hm]; rfl, ?_, ?_, h.points hm color, fun r hr => ?_, fun k r q hr hq => ?_, fun r hr => ?_⟩
  · obtain ⟨hhead, hlast⟩ := h.points_ends hm color
    rw [hhead, hlast]
    exact h.ends.imp (And.imp (congrArg some) (congrArg some)) (And.imp (congrArg some) (congrArg some))
  · rw [hlen, h.values hm, List.length_map, List.length_range]
  · rw [h.values hm, List.range_succ_eq_map, List.map_cons, List.head?_cons, Option.some_inj] at hr
    exact hr ▸ ⟨rfl, rfl, rfl⟩
  · rw [hlen]
    exact h.pass hm color hr hq
  · rw [h.values_dropLast hm, List.mem_map] at hr
    obtain ⟨k, hk, rfl⟩ := hr
    rw [List.mem_range] at hk
    obtain ⟨herr, herr', hxl, hxr, hyl, hyr⟩ := walkRegs_ranges (b := b) (d := d) steep hlt (k := k) (by omega)
    have hends := h.ends
    have hle := h.le
    have hne := h.ne
    have hb := x0.isLt
    have hb' := x1.isLt
    have hc := y0.isLt
    have hc' := y1.isLt
    have hcorners : (0 ≤ a ∧ c ≤ 65535) ∧ (0 ≤ b ∧ b ≤ 65535) ∧ 0 ≤ d ∧ d ≤ 65535 := by
      cases steep <;>
      · simp only [exchanged, Prod.mk.injEq, if_true, if_false, zint, Bool.false_eq_true] at hends
        omega
    have hdy : 1 ≤ absInt (d - b) := by
      rw [absInt_eq_max]
      omega
    exact ⟨h.isSteep, rfl, rfl, rfl, hcorners.1.1, hcorners.1.2, hcorners.2.1.1, hcorners.2.1.2, hcorners.2.2.1,
      hcorners.2.2.2, by simp only [walkRegs, walkStart]; omega, by simp only [walkRegs, walkStart]; omega, hdy,
      by simp only [walkRegs, walkStart]; omega, herr, herr', hxl, hxr, hyl, hyr⟩

end Sys2Proof.Machine
end

section
/-! PROOFS. What a request with its transaction open leaves where it aborts, waits or is reset, and how a chunk ends by the report of
it (spec 40 R122, R126; 60 R264 to R266; 70 R290, R291). -/

namespace Sys2Proof.Machine

/-! ### A request with its transaction open -/

/-- From `s` on, a request has sent `es` and has its transaction open (R122). -/
structure Sending (s x : State) (es : List Elem) : Prop where
  request : InRequest s x
  cs : x.csOut = true
  wire : x.wire = s.wire ++ opening s.csOut ++ es.map WireItem.elem

theorem Sending.refl {s : State} (hcs : s.csOut = true) : Sending s s [] :=
  ⟨InRequest.refl s, hcs, by simp [hcs, opening]⟩

theorem Sending.sends {s x y : State} {es fs : List Elem} (h : Sending s x es) (hreq : InRequest x y) (k : Sends fs x y) :
    Sending s y (es ++ fs) :=
  ⟨h.request.trans hreq, k.cs.trans h.cs, by rw [k.wire, h.wire, List.map_append, List.append_assoc]⟩

/-- Some elements of the chunk on the bus reach the wire. -/
theorem Sending.emits {s x : State} {es : List Elem} (h : Sending s x es) (c : Chunk) (vs : List Word) :
    Sending s (emit c.width vs (reported c x)) (es ++ vs.map (mkElem x.dcOut c.width)) :=
  h.sends ((reported_keeps c x).trans (emit_keeps c.width vs _)).inRequest (reported_sends c vs x)

/-- What an abort changes of what an end may change: chip select, its event, and the registers it writes (R266). -/
theorem abort_fields (code : OutcomeCode) (s : State) :
    (abort code s).cfg = s.cfg ∧ (abort code s).req = s.req ∧ (abort code s).port = s.port ∧
      (abort code s).resetIn = s.resetIn ∧ (abort code s).mem = s.mem ∧ (abort code s).dcOut = s.dcOut := by
  unfold abort closeTxn
  split <;> exact ⟨rfl, rfl, rfl, rfl, rfl, rfl⟩

/-- What an abort leaves (R266). -/
theorem Sending.aborts {s x : State} {es : List Elem} (h : Sending s x es) (code : OutcomeCode) :
    (abort code (endRequest x)).dcOut = x.dcOut ∧ Aborts s (abort code (endRequest x)) es code := by
  obtain ⟨hcfg, hreq, hport, hreset, hmem, hdc⟩ := abort_fields code (endRequest x)
  have hready := abort_ready code (endRequest x)
  have hlanded : (endRequest x).mem = x.mem.writes x.hostWrites := rfl
  refine ⟨hdc, ?_⟩
  exact
    { wire := by
        rw [(abort_closes code (endRequest x)).wire, show (endRequest x).csOut = x.csOut from rfl, h.cs,
          show (endRequest x).wire = x.wire from rfl, h.wire, if_pos rfl, List.map_nil, List.append_nil]
      outcome := rfl
      phase := rfl
      ww := hready.ww
      cs := hready.cs
      async := hready.async
      cfg := hcfg.trans h.request.host.cfg
      req := hreq.trans h.request.req
      port := hport.trans h.request.port
      resetIn := hreset.trans h.request.host.resetIn
      mem := by rw [hmem, hlanded, h.request.host.mem, h.request.host.hostWrites] }

/-- The request waits on its chunk, whose report is taken (R126). -/
theorem Sending.waits {s x : State} {es : List Elem} (h : Sending s x es) (c : Chunk) (p : Phase) :
    Sending s ((reported c x).setPhase p) es :=
  ⟨{ h.request with host := { h.request.host with } }, h.cs, h.wire⟩

/-- What a hold on a chunk leaves (R126). -/
theorem Sending.holds {s x : State} {es : List Elem} (h : Sending s x es) (hbusy : x.busy = true)
    (hasync : x.asyncInflight = true) : Holds s x es where
  wire := h.wire
  busy := hbusy
  async := hasync
  cs := h.cs
  outcome := h.request.outcome
  cfg := h.request.host.cfg
  req := h.request.req
  port := h.request.port
  resetIn := h.request.host.resetIn
  mem := h.request.host.mem
  hostWrites := h.request.host.hostWrites

theorem closeTxn_mem (s : State) : (closeTxn s).mem = s.mem := by
  unfold closeTxn
  split <;> rfl

/-- A reset leaves the reset values, whatever the state it finds, and of that the configuration, the port and host memory. -/
theorem resetRge_resets {s x : State} (hcfg : x.cfg = s.cfg) (hport : x.port = s.port)
    (hmem : x.mem = s.mem.writes s.hostWrites) : Resets s (resetRge x) where
  ww := rfl
  status := resetValues.2.1
  cs := rfl
  async := rfl
  phase := rfl
  resetIn := rfl
  cfg := (closeTxn_moves x).cfg.trans hcfg
  port := (closeTxn_moves x).port.trans hport
  mem := (closeTxn_mem x).trans hmem

/-- What a reset leaves that finds the transaction open (R291). -/
theorem Sending.resets {s x : State} {es : List Elem} (h : Sending s x es) :
    Resets s (resetRge (landWrites x)) ∧
      (resetRge (landWrites x)).wire = s.wire ++ opening s.csOut ++ es.map WireItem.elem ++ [.cs false] := by
  have hlanded : (landWrites x).mem = x.mem.writes x.hostWrites := rfl
  refine ⟨resetRge_resets h.request.host.cfg h.request.port ?_, ?_⟩
  · rw [hlanded, h.request.host.mem, h.request.host.hostWrites]
  · rw [(resetRge_closes (landWrites x)).wire, show (landWrites x).csOut = x.csOut from rfl, h.cs,
      show (landWrites x).wire = x.wire from rfl, h.wire, if_pos rfl, List.map_nil, List.append_nil]

/-! ### A chunk by the report of it (R126, R264, R265, R291) -/

theorem chunkEnd_failed_report {c : Config} (hfail : c.transportMayFail = true) (p : Path) (len : Nat) {k : Nat}
    {rest : List BusReport} {s : State} (h : s.reports = .failed k :: rest ∨ s.reports = .failedAndTimedOut k :: rest) :
    chunkEnd c p len (nextReport s) = .failed (cut k len) := by
  obtain h | h := h <;> simp [nextReport, h, chunkEnd, hfail]

theorem chunkEnd_timedOut_report {c : Config} (htimeout : c.asyncTimeout = true) (len : Nat) {k : Nat}
    {rest : List BusReport} {s : State} (h : s.reports = .timedOut k :: rest) :
    chunkEnd c .async len (nextReport s) = .timedOut (cut k len) := by
  simp [nextReport, h, chunkEnd, htimeout]

theorem chunkEnd_pending_report (c : Config) (len : Nat) {rest : List BusReport} {s : State}
    (h : s.reports = .pending :: rest) : chunkEnd c .async len (nextReport s) = .held := by
  simp [nextReport, h, chunkEnd]

theorem chunkEnd_reset_report (c : Config) (p : Path) (len : Nat) {k : Nat} {rest : List BusReport} {s : State}
    (h : s.reports = .reset k :: rest) : chunkEnd c p len (nextReport s) = .reset (min k len) := by
  simp [nextReport, h, chunkEnd]

theorem chunkEnd_done_report (c : Config) (p : Path) (len : Nat) {rest : List BusReport} {s : State}
    (h : s.reports = .done :: rest) : chunkEnd c p len (nextReport s) = .whole := by
  simp [nextReport, h, chunkEnd]

/-! ### A held chunk (R126, R264, R265, R290, R291) -/

section held

variable {s : State} {c : Chunk} {todo : List Atom} (hcfg : s.cfg.ok = true) (hreset : s.resetIn = none)
  (hp : s.phase = .running (.await c :: todo))

include hcfg hreset hp

/-- A step of a hold is the chunk's report, and what comes after the chunk where it completes. -/
theorem step_of_hold : step s = run (.await c :: todo) s := by
  simp [step, cycle, hcfg, hreset, hp]

theorem step_of_ended {t : State} (h : settle c s = .ended t) : step s = .next t := by
  have hatom : atom (.await c) s = .ended t := h
  rw [step_of_hold hcfg hreset hp, run, hatom]

theorem step_of_held {t : State} (h : settle c s = .held (.await c) t) :
    step s = .next (t.setPhase (.running (.await c :: todo))) := by
  have hatom : atom (.await c) s = .held (.await c) t := h
  rw [step_of_hold hcfg hreset hp, run, hatom]

end held

end Sys2Proof.Machine
end

section
/-! PROOFS. Chunk j of DATA.8 and DATA.16 as the bus reports it: it fails, times out, is held or is reset (spec 40 R124 to R128; 60
R263 to R266; 70 R290, R291), after j chunks that complete. -/

namespace Sys2Proof.Machine

/-! ### The chunks of a `SendData` from host memory (R124, R128) -/

/-- Before chunk j there are j full ones (R124). -/
theorem splitBy_at {n j : Nat} (h : 65535 * j < n) :
    ∃ rest, splitBy maxChunk n = List.replicate j 65535 ++ min 65535 (n - 65535 * j) :: rest := by
  have hcap : maxChunk = 65535 := rfl
  rw [hcap, splitBy_eq_range (by decide)]
  obtain ⟨r, hr⟩ : ∃ r, (n + 65535 - 1) / 65535 = j + (r + 1) := ⟨(n + 65535 - 1) / 65535 - (j + 1), by omega⟩
  have hfull : (List.range j).map (fun i => min 65535 (n - 65535 * i)) = List.replicate j 65535 := by
    refine List.eq_replicate_iff.2 ⟨by simp, fun b hb => ?_⟩
    obtain ⟨i, hi, rfl⟩ := List.mem_map.1 hb
    rw [List.mem_range] at hi
    omega
  rw [hr, List.range_add, List.map_append, hfull, List.range_succ_eq_map]
  exact ⟨_, rfl⟩

theorem hostList_take (s : State) (w : Width) {n k : Nat} (h : k ≤ n) (a : Nat) :
    (hostList s w n a).take k = hostList s w k a := by
  rw [hostList, ← List.map_take, List.take_range, Nat.min_eq_left h, hostList]

/-- Some of the elements after the first m. -/
theorem hostList_append_take (s : State) (w : Width) {n m len k : Nat} (hm : m + len ≤ n) (hk : k ≤ len) (a : Nat) :
    hostList s w m a ++ (hostList s w len (a + m * w.bytes)).take k = (hostList s w n a).take (m + k) := by
  rw [hostList_take s w hk, ← hostList_append, hostList_take s w (by omega)]

/-- Within a `SendData` of n elements from address a, of a request that `s` begins: the chunks of lengths `ls` are sent. -/
structure DataAt (s x : State) (w : Width) (n a : Nat) (ls : List Nat) : Prop where
  sending : Sending s x ((hostList s w ls.sum a).map (mkElem .data w))
  ww : x.ww = w
  dc : x.dcOut = .data
  async : x.asyncInflight = false
  ptr : x.xp.ptr = BitVec.ofNat 32 (a + ls.sum * w.bytes)
  remain : x.xp.remain = BitVec.ofNat 32 n - BitVec.ofNat 32 ls.sum
  xfers : x.xfers = s.xfers ++ ls.map (recordOf s.cfg w)

/-- And the next chunk, of length `len`, is on the bus (R125, R128). -/
structure DataChunk (s y : State) (w : Width) (n a : Nat) (ls : List Nat) (len : Nat) : Prop where
  sending : Sending s y ((hostList s w ls.sum a).map (mkElem .data w))
  values : chunkValues ⟨.host, len, w, pathFor s.cfg len⟩ y = .ok (hostList s w len (a + ls.sum * w.bytes))
  ww : y.ww = w
  dc : y.dcOut = .data
  inflight : pathFor s.cfg len = .async → y.asyncInflight = true
  sync : pathFor s.cfg len = .async ∨ y.asyncInflight = false
  ptr : y.xp.ptr = BitVec.ofNat 32 (a + ls.sum * w.bytes)
  remain : y.xp.remain = BitVec.ofNat 32 n - BitVec.ofNat 32 ls.sum
  chunkLen : y.xp.chunkLen = BitVec.ofNat 16 len
  xfers : y.xfers = s.xfers ++ (ls ++ [len]).map (recordOf s.cfg w)

section data

variable {s x : State} {w : Width} {n a len : Nat} {ls : List Nat}

theorem DataAt.issues (h : DataAt s x w n a ls) (hpos : 0 < len) (hlen : ls.sum + len ≤ n) (hr : Readable s w n a)
    (hb : a + n * w.bytes ≤ 2 ^ 32) : DataChunk s (chunkIssued len x) w n a ls len := by
  obtain ⟨m, rfl⟩ := Nat.exists_eq_add_of_le hlen
  have hhost := h.sending.request.host
  have hcfg := hhost.cfg
  have hww := h.ww
  subst hww
  have hk := chunkIssued_keeps len x
  obtain ⟨-, -, hxp, -, -, hcs, hdc, hwire, -, hxf, -⟩ :=
    issued_fields len x.ww (x.setXp { x.xp with chunkLen := BitVec.ofNat 16 len })
  have hsame := hhost.trans hk.sameHost
  rw [Nat.add_assoc] at hr hb
  have hread : Readable (chunkIssued len x) x.ww len (a + ls.sum * x.ww.bytes) :=
    readable_congr hsame.cfg hsame.mem hsame.hostWrites (readable_append (readable_append hr).2).1
  have hstart : a + ls.sum * x.ww.bytes < 2 ^ 32 := by
    rw [Nat.add_mul, ← Nat.add_assoc] at hb
    exact chunks_start_lt hpos hb
  exact
    { sending := ⟨h.sending.request.trans hk.inRequest, hcs.trans h.sending.cs, hwire.trans h.sending.wire⟩
      values := by
        rw [chunkIssued_values h.ptr hstart, hostElems_readable _ hread, hostList_congr hsame.cfg hsame.mem]
      ww := hk.ww
      dc := hdc.trans h.dc
      inflight := fun hp =>
        issued_inflight len x.ww (s := x.setXp { x.xp with chunkLen := BitVec.ofNat 16 len }) (hcfg.symm ▸ hp)
      sync := by
        rw [← hcfg]
        exact issued_async len x.ww (s := x.setXp { x.xp with chunkLen := BitVec.ofNat 16 len }) h.async
      ptr := (congrArg Transport.ptr hxp).trans h.ptr
      remain := (congrArg Transport.remain hxp).trans h.remain
      chunkLen := congrArg Transport.chunkLen hxp
      xfers := by
        refine hxf.trans ?_
        rw [State.setXp_xfers, State.setXp_cfg, h.xfers, hcfg, List.map_append, List.append_assoc]
        rfl }

theorem settled_dcOut (c : Chunk) (vs : List Word) (s : State) : (settled c vs s).dcOut = s.dcOut := by
  obtain ⟨x, hx⟩ := settled_eq c vs s
  rw [hx]
  split <;> rfl

/-- A chunk that completes is sent (R125, R128). -/
theorem DataChunk.completes {y : State} (h : DataChunk s y w n a ls len) :
    DataAt s (settled ⟨.host, len, w, pathFor s.cfg len⟩ (hostList s w len (a + ls.sum * w.bytes)) y) w n a
      (ls ++ [len]) := by
  have hsent := settled_sends ⟨.host, len, w, pathFor s.cfg len⟩ (hostList s w len (a + ls.sum * w.bytes)) y
  have hsum : (ls ++ [len]).sum = ls.sum + len := by simp
  have hsending := h.sending.sends (settled_keeps _ _ y).inRequest hsent
  rw [h.dc, ← List.map_append, ← hostList_append] at hsending
  exact
    { sending := hsum ▸ hsending
      ww := hsent.ww.trans h.ww
      dc := (settled_dcOut _ _ y).trans h.dc
      async := settled_async _ h.sync
      ptr := by
        rw [settled_xp, Chunk.advance]
        dsimp only
        rw [h.ptr, ← BitVec.ofNat_add, hsum, Nat.add_mul, Nat.add_assoc]
      remain := by
        rw [settled_xp, Chunk.advance]
        dsimp only
        rw [h.remain, hsum, BitVec.ofNat_add]
        ring
      xfers := hsent.xfers.trans h.xfers }

/-- Chunks that complete are sent, and the next report is the next chunk's. -/
theorem DataAt.goes (h : DataAt s x w n a ls) {ms : List Nat} (hpos : ∀ m ∈ ms, 0 < m) (hms : (ls ++ ms).sum ≤ n)
    (hr : Readable s w n a) (hb : a + n * w.bytes ≤ 2 ^ 32) {rest : List BusReport}
    (hreports : x.reports = List.replicate ms.length .done ++ rest) :
    ∃ y, GoesTo (ms.map (Atom.chunk .host)) x y ∧ DataAt s y w n a (ls ++ ms) ∧ y.reports = rest := by
  induction ms generalizing x ls with
  | nil => exact ⟨x, GoesTo.nil x, by rwa [List.append_nil], hreports⟩
  | cons m ms ih =>
    obtain ⟨hm, hms'⟩ := List.forall_mem_cons.1 hpos
    have hlen : ls.sum + m ≤ n := by
      rw [List.sum_append, List.sum_cons] at hms
      omega
    have hchunk := h.issues hm hlen hr hb
    have hissue := chunk_issues .host m x
    rw [h.ww, h.sending.request.host.cfg] at hissue
    have hdone : (chunkIssued m x).reports = .done :: (List.replicate ms.length .done ++ rest) :=
      hissue.reports.trans hreports
    have hgo := hissue.atom.trans (settle_whole hchunk.values (chunkEnd_done_report _ _ _ hdone))
    have hrest := settled_reports ⟨.host, m, w, pathFor s.cfg m⟩ (hostList s w m (a + ls.sum * w.bytes)) (chunkIssued m x)
    rw [hdone, restReports] at hrest
    obtain ⟨y, hy, hat, hry⟩ := ih hchunk.completes hms' (by rwa [List.append_assoc]) hrest
    exact ⟨y, GoesTo.cons hgo hy, by rwa [List.append_assoc] at hat, hry⟩

end data

/-! ### DATA.8 and DATA.16 up to their chunk j (R134, R135) -/

/-- The request of one `SendData` from host memory in a width. -/
def dataInstr (w : Width) (n src : Long) : Instr :=
  match w with
  | .w8 => .data8 n src
  | .w16 => .data16 n src

theorem dataInstr_wellFormed {w : Width} {n src : Long} (h : (dataInstr w n src).wellFormed = true) :
    src.toNat + n.toNat * w.bytes ≤ 2 ^ 32 := by
  cases w with
  | w8 => exact readRange_le_of_wellFormed h rfl
  | w16 => exact readRange_le_of_wellFormed h rfl

theorem exec_dataInstr (w : Width) (n src : Long) (s : State) :
    exec (dataInstr w n src) s = run (expand s.cfg (.data w n.toNat src)) (begin s) := by
  have hone : stepsOf (dataInstr w n src) s.cfg = expand s.cfg (.data w n.toNat src) := by
    cases w <;> exact List.flatMap_singleton ..
  rw [exec_eq_request, request, ← hone]
  rfl

/-- Such a request begins with its transaction open and nothing sent. -/
theorem exec_dataInstr_begun (w : Width) {n src : Long} {s : State} (hs : Ready s) (hn : n.toNat ≠ 0) :
    ∃ x todo, exec (dataInstr w n src) s = run ((splitBy maxChunk n.toNat).map (Atom.chunk .host) ++ todo) x ∧
      DataAt s x w n.toNat src.toNat [] ∧ x.reports = s.reports := by
  have hdata : ∀ u : State, InRequest s u → u.ww = w → u.csOut = s.csOut → u.asyncInflight = s.asyncInflight →
      u.wire = s.wire → u.xfers = s.xfers → DataAt s (dataBegun n.toNat src u) w n.toNat src.toNat [] := by
    intro u hreq hww hcs hasync hwire hxfers
    exact
      { sending := ⟨hreq.trans (dataBegun_keeps n.toNat src u).inRequest, openTxn_csOut u,
          (openTxn_wire u).trans (by rw [hwire, hcs]; simp [hostList])⟩
        ww := (dataBegun_keeps n.toNat src u).ww.trans hww
        dc := rfl
        async := (dataBegun_async n.toNat src u).trans (hasync.trans hs.async)
        ptr := by simp [dataBegun]
        remain := by simp [dataBegun]
        xfers := (openTxn_xfers u).trans (by rw [hxfers]; simp) }
  have hbegin := (begin_keeps s).inRequest
  rw [exec_dataInstr]
  cases w with
  | w8 =>
    refine ⟨dataBegun n.toNat src (begin s), [.endData], ?_, hdata (begin s) hbegin hs.ww rfl rfl rfl rfl,
      openTxn_reports (begin s)⟩
    rw [expand, sendData_host _ _ hn]
    exact dataBegun_goes n.toNat src (begin s) _
  | w16 =>
    refine ⟨dataBegun n.toNat src ((begin s).setWw .w16), [.endData, .width .w8], ?_,
      hdata ((begin s).setWw .w16) ⟨⟨rfl, rfl, rfl, rfl⟩, rfl, rfl, rfl⟩ rfl rfl rfl rfl rfl,
      openTxn_reports ((begin s).setWw .w16)⟩
    have hwidth : GoesTo [.width .w16] (begin s) ((begin s).setWw .w16) := GoesTo.one rfl
    have hsteps : expand s.cfg (.data .w16 n.toNat src) = [.width .w16] ++ [.startData n.toNat (some src)] ++
        ((splitBy maxChunk n.toNat).map (Atom.chunk .host) ++ [.endData, .width .w8]) := by
      simp [expand, with16, sendData_host _ _ hn]
    rw [hsteps]
    exact (hwidth.append (dataBegun_goes n.toNat src _)) _

/-- The full chunks before chunk j, and how many elements they have. -/
theorem sum_replicate_full (j : Nat) : (List.replicate j 65535).sum = 65535 * j := by
  rw [List.sum_replicate, smul_eq_mul, Nat.mul_comm]

/-- With j chunks complete, such a request has its chunk j on the bus, and the next report is of that chunk. -/
theorem exec_dataInstr_at {w : Width} {n src : Long} {s : State} {j len : Nat} {rest : List BusReport}
    (hwf : (dataInstr w n src).wellFormed = true) (hs : Ready s) (hr : Readable s w n.toNat src.toNat)
    (hj : 65535 * j < n.toNat) (hlen : len = min 65535 (n.toNat - 65535 * j))
    (hreports : s.reports = List.replicate j .done ++ rest) :
    ∃ (x y : State) (a : Atom) (todo : List Atom), exec (dataInstr w n src) s = run (a :: todo) x ∧
      atom a x = settle ⟨.host, len, w, pathFor s.cfg len⟩ y ∧
      DataChunk s y w n.toNat src.toNat (List.replicate j 65535) len ∧ y.reports = rest := by
  subst hlen
  have hb := dataInstr_wellFormed hwf
  obtain ⟨ms, hms⟩ := splitBy_at hj
  obtain ⟨x, todo, hexec, hat, hrx⟩ := exec_dataInstr_begun w (src := src) hs (by omega : n.toNat ≠ 0)
  obtain ⟨y, hy, hat, hry⟩ := hat.goes (ms := List.replicate j 65535) (rest := rest)
    (fun m hm => by rw [(List.mem_replicate.1 hm).2]; decide)
    (by rw [List.nil_append, sum_replicate_full]; omega) hr hb (by rw [hrx, hreports, List.length_replicate])
  have hissue := chunk_issues .host (min 65535 (n.toNat - 65535 * j)) y
  rw [hat.ww, hat.sending.request.host.cfg] at hissue
  refine ⟨y, _, .chunk .host (min 65535 (n.toNat - 65535 * j)), ms.map (Atom.chunk .host) ++ todo, ?_, hissue.atom,
    hat.issues (by omega) (by rw [List.nil_append, sum_replicate_full]; omega) hr hb, hissue.reports.trans hry⟩
  rw [hexec, hms, List.map_append, List.map_cons, List.append_assoc, hy]
  rfl

end Sys2Proof.Machine
end

section
/-! PROOFS. A chunk that fails, times out, is held or is reset, with the request it belongs to (spec 40 R126, R128; 60 R263 to R266;
70 R290, R291). -/

namespace Sys2Proof.Machine

/-! ### How a chunk on the bus ends its request (R264, R265, R291) -/

section settles

variable {s y : State} {es : List Elem} {c : Chunk} {vs : List Word} {k : Nat} (h : Sending s y es)
  (hv : chunkValues c y = .ok vs)

include h hv

theorem Sending.settle_failed (hend : chunkEnd y.cfg c.path c.len (nextReport y) = .failed k) :
    ∃ t, settle c y = .ended t ∧ t.dcOut = y.dcOut ∧
      Aborts s t (es ++ (vs.take k).map (mkElem y.dcOut c.width)) .xferFail :=
  ⟨_, Machine.settle_failed hv hend, (h.emits c (vs.take k)).aborts .xferFail⟩

theorem Sending.settle_timedOut (hend : chunkEnd y.cfg c.path c.len (nextReport y) = .timedOut k) :
    ∃ t, settle c y = .ended t ∧ t.dcOut = y.dcOut ∧
      Aborts s t (es ++ (vs.take k).map (mkElem y.dcOut c.width)) .timeout :=
  ⟨_, Machine.settle_timedOut hv hend, (h.emits c (vs.take k)).aborts .timeout⟩

theorem Sending.settle_reset (hend : chunkEnd y.cfg c.path c.len (nextReport y) = .reset k) :
    ∃ t, settle c y = .ended t ∧ Resets s t ∧ t.wire = s.wire ++ opening s.csOut ++
      (es ++ (vs.take k).map (mkElem y.dcOut c.width)).map WireItem.elem ++ [.cs false] :=
  ⟨_, Machine.settle_reset hv hend, (h.emits c (vs.take k)).resets⟩

end settles

theorem run_ended {a : Atom} {s t : State} (h : atom a s = .ended t) (as : List Atom) : run (a :: as) s = .next t := by
  rw [run, h]

/-- The elements of DATA.8 or DATA.16 on the wire where k elements of its chunk j are sent. -/
theorem dataElems_at (s : State) (w : Width) {n j len k : Nat} (a : Nat) (hj : 65535 * j < n)
    (hlen : len = min 65535 (n - 65535 * j)) (hk : k ≤ len) :
    (hostList s w (List.replicate j 65535).sum a).map (mkElem .data w) ++
        ((hostList s w len (a + (List.replicate j 65535).sum * w.bytes)).take k).map (mkElem .data w) =
      ((hostList s w n a).take (65535 * j + k)).map (mkElem .data w) := by
  rw [sum_replicate_full, ← List.map_append, hostList_append_take s w (n := n) (by omega) hk]

/-- Settles O54: the elements before chunk j and some of it reach the wire; a held chunk has its own alone. -/
theorem failedChunkAborts : Obligations.FailedChunkAborts := by
  refine ⟨fun w n src s i j k rest hi hwf hfail hs hr hj hreports => ?_,
    fun s c todo vs k rest hcfg hreset hp hcs hv hfail hreports => ?_⟩
  · obtain rfl : i = dataInstr w n src := hi
    obtain ⟨r, hr1, hr2⟩ : ∃ r, s.reports = List.replicate j .done ++ r ∧
        (r = .failed k :: rest ∨ r = .failedAndTimedOut k :: rest) :=
      hreports.elim (fun h => ⟨_, h, .inl rfl⟩) fun h => ⟨_, h, .inr rfl⟩
    obtain ⟨len, hlen⟩ : ∃ len, len = min 65535 (n.toNat - 65535 * j) := ⟨_, rfl⟩
    rw [← hlen]
    obtain ⟨x, y, a, todo, hexec, hatom, hchunk, hrep⟩ := exec_dataInstr_at hwf hs hr hj hlen hr1
    have hfail' : y.cfg.transportMayFail = true := by rwa [hchunk.sending.request.host.cfg]
    have hend := chunkEnd_failed_report hfail' (pathFor s.cfg len) len (hrep ▸ hr2)
    obtain ⟨t, ht, hdc, habort⟩ := hchunk.sending.settle_failed hchunk.values hend
    refine ⟨t, hexec.trans (run_ended (hatom.trans ht) todo), hdc.trans hchunk.dc, ?_⟩
    rw [hchunk.dc, dataElems_at s w _ hj hlen (by unfold cut; omega)] at habort
    exact habort
  · obtain ⟨t, ht, hdc, habort⟩ :=
      (Sending.refl hcs).settle_failed hv (chunkEnd_failed_report hfail c.path c.len hreports)
    exact ⟨t, step_of_ended hcfg hreset hp ht, hdc, habort⟩

/-- Settles O55: as a failure, on the asynchronous path. -/
theorem timedOutChunkAborts : Obligations.TimedOutChunkAborts := by
  refine ⟨fun w n src s i j k len rest hi hwf hlen htimeout havail hbulk hs hr hj hreports => ?_,
    fun s c todo vs k rest hcfg hreset hp hpath hcs hv htimeout hreports => ?_⟩
  · obtain rfl : i = dataInstr w n src := hi
    obtain ⟨x, y, a, todo, hexec, hatom, hchunk, hrep⟩ := exec_dataInstr_at hwf hs hr hj hlen hreports
    have hpath : pathFor s.cfg len = .async := if_pos ⟨havail, hbulk⟩
    have hcfg := hchunk.sending.request.host.cfg
    have hend : chunkEnd y.cfg (pathFor s.cfg len) len (nextReport y) =
        .timedOut (cut k len) := by
      rw [hpath, hcfg]
      exact chunkEnd_timedOut_report htimeout len hrep
    obtain ⟨t, ht, hdc, habort⟩ := hchunk.sending.settle_timedOut hchunk.values hend
    refine ⟨t, hexec.trans (run_ended (hatom.trans ht) todo), hdc.trans hchunk.dc, ?_⟩
    rw [hchunk.dc, dataElems_at s w _ hj hlen (by unfold cut; omega)] at habort
    exact habort
  · have hend := chunkEnd_timedOut_report htimeout c.len hreports
    obtain ⟨t, ht, hdc, habort⟩ := (Sending.refl hcs).settle_timedOut hv (hpath ▸ hend)
    exact ⟨t, step_of_ended hcfg hreset hp ht, hdc, habort⟩

/-- Settles O26: the hold stands at chunk j, and each further report of it but the last changes nothing else. -/
theorem asyncChunkHolds : Obligations.AsyncChunkHolds := by
  refine ⟨fun w n src s i j len rs hi hwf hs hj hlen havail hbulk hr hreports => ?_,
    fun s c todo vs rs hcfg hreset hp hpath hv hreports => ?_⟩
  · obtain rfl : i = dataInstr w n src := hi
    obtain ⟨x, y, a, todo, hexec, hatom, hchunk, hrep⟩ := exec_dataInstr_at hwf hs hr hj hlen hreports
    have hpath : pathFor s.cfg len = .async := if_pos ⟨havail, hbulk⟩
    have hend := chunkEnd_pending_report y.cfg len hrep
    have hvalues := hchunk.values
    rw [hpath] at hatom hvalues
    have hheld := hatom.trans (settle_held hvalues hend)
    have hb := dataInstr_wellFormed hwf
    have hn := n.isLt
    have hsum := sum_replicate_full j
    have hstart : src.toNat + 65535 * j * w.bytes < 2 ^ 32 := by
      obtain ⟨m, hm⟩ := Nat.exists_eq_add_of_le (Nat.le_of_lt hj)
      rw [hm, Nat.add_mul, ← Nat.add_assoc] at hb
      exact chunks_start_lt (m := 0) (by omega : 0 < m) hb
    have helems := dataElems_at s w (k := 0) src.toNat hj hlen (Nat.zero_le _)
    rw [List.take_zero, List.map_nil, List.append_nil, Nat.add_zero] at helems
    have hholds := (hchunk.sending.waits ⟨.host, len, w, .async⟩
      (.running (.await ⟨.host, len, w, .async⟩ :: todo))).holds rfl (hchunk.inflight hpath)
    rw [helems] at hholds
    refine ⟨_, todo, hexec.trans (by rw [run, hheld]), hholds, rfl, hchunk.ww, hchunk.dc, ?_, ?_, ?_, ?_, ?_⟩
    · exact congrArg restReports hrep
    · refine (congrArg BitVec.toNat hchunk.remain).trans ?_
      rw [hsum, BitVec.toNat_sub, BitVec.toNat_ofNat, BitVec.toNat_ofNat]
      omega
    · refine (congrArg BitVec.toNat hchunk.ptr).trans ?_
      rw [hsum, BitVec.toNat_ofNat, Nat.mod_eq_of_lt hstart]
    · refine (congrArg BitVec.toNat hchunk.chunkLen).trans ?_
      rw [BitVec.toNat_ofNat, Nat.mod_eq_of_lt (by omega)]
    · refine hchunk.xfers.trans ?_
      obtain ⟨ms, hms⟩ := splitBy_at hj
      rw [dataRecords_eq, hms, ← hlen, ← List.map_take, List.take_append]
      simp
  · have hend := chunkEnd_pending_report s.cfg c.len hreports
    rw [← hpath] at hend
    rw [step_of_held hcfg hreset hp (settle_held hv hend), reported, hreports, restReports, ← hp]
    rfl

/-- The reset input finds a chunk in flight that can be read, or lets nothing through (R291). -/
theorem resetStep_inFlight (sent : Nat) (s : State) :
    (∃ (c : Chunk) (vs : List Word),
      resetStep sent s = resetRge (landWrites (emit c.width (vs.take sent) (s.setFresh (s.fresh + c.len)))) ∧
        inFlight sent s = (vs.take sent).map (mkElem s.dcOut c.width)) ∨
    (resetStep sent s = resetRge (landWrites s) ∧ inFlight sent s = []) := by
  cases hp : s.phase with
  | idle => exact .inr ⟨by simp only [resetStep, hp], by simp only [inFlight, hp]⟩
  | running todo =>
    cases todo with
    | nil => exact .inr ⟨by simp only [resetStep, hp], by simp only [inFlight, hp]⟩
    | cons a as =>
      cases a with
      | await c =>
        cases hv : chunkValues c s with
        | ok vs => exact .inl ⟨c, vs, by simp only [resetStep, hp, hv], by simp only [inFlight, hp, hv]⟩
        | error f => exact .inr ⟨by simp only [resetStep, hp, hv], by simp only [inFlight, hp, hv]⟩
      | _ => exact .inr ⟨by simp only [resetStep, hp], by simp only [inFlight, hp]⟩

/-- What the reset input leaves between two steps, and what it lets through of a chunk in flight (R291). -/
theorem resetStep_resets (sent : Nat) (s : State) :
    Resets s (resetStep sent s) ∧
      (resetStep sent s).wire =
        s.wire ++ (inFlight sent s).map WireItem.elem ++ (if s.csOut then [.cs false] else []) := by
  obtain ⟨c, vs, hstep, helems⟩ | ⟨hstep, helems⟩ := resetStep_inFlight sent s
  · have hsent : Sends ((vs.take sent).map (mkElem s.dcOut c.width)) s
        (emit c.width (vs.take sent) (s.setFresh (s.fresh + c.len))) :=
      { emit_sends c.width (vs.take sent) (s.setFresh (s.fresh + c.len)) with }
    rw [hstep, helems]
    exact ⟨resetRge_resets rfl rfl rfl, (hsent.landWrites.closes (resetRge_closes _)).wire⟩
  · rw [hstep, helems]
    exact ⟨resetRge_resets rfl rfl rfl, (resetRge_closes (landWrites s)).wire⟩

/-- Settles O57: a reset between steps, on chunk j, and on a held chunk. -/
theorem resetInput : Obligations.ResetInput := by
  refine ⟨fun s sent hcfg hreset => ?_, fun w n src s i j k rest hi hwf hs hr hj hreports => ?_,
    fun s c todo vs k rest hcfg hreset hp hcs hv hreports => ?_⟩
  · exact ⟨resetStep sent s, by simp [step, cycle, hcfg, hreset], resetStep_resets sent s⟩
  · obtain rfl : i = dataInstr w n src := hi
    obtain ⟨x, y, a, todo, hexec, hatom, hchunk, hrep⟩ := exec_dataInstr_at hwf hs hr hj rfl hreports
    obtain ⟨t, ht, hresets, hwire⟩ := hchunk.sending.settle_reset hchunk.values (chunkEnd_reset_report _ _ _ hrep)
    refine ⟨t, hexec.trans (run_ended (hatom.trans ht) todo), hresets, ?_⟩
    rw [hchunk.dc, dataElems_at s w _ hj rfl (Nat.min_le_right ..), hs.cs] at hwire
    simpa [opening] using hwire
  · obtain ⟨t, ht, hresets, hwire⟩ :=
      (Sending.refl hcs).settle_reset hv (chunkEnd_reset_report s.cfg c.path c.len hreports)
    refine ⟨t, step_of_ended hcfg hreset hp ht, hresets, ?_⟩
    simpa [hcs, opening] using hwire

end Sys2Proof.Machine
end

section
/-! PROOFS. A request whose chunks end as the bus reports, beside the same request with every chunk complete (spec 40 R126 to R128;
60 R264 to R267; 70 R291): what it has sent, and what the chunk on the bus has, begins what that one sends. -/

namespace Sys2Proof.Machine

/-! ### Beside the request whose chunks all complete -/

/-- Before the steps `as`, `x` runs beside a state whose chunks all complete at once, and which ends in `v`. It is `Beside`
whatever the reset input, which no step of a request reads. -/
def Shadowed (as : List Atom) (x v : State) : Prop :=
  ∃ (u : State) (b : Backstage) (p : Option Long), x = u.under b ∧ Quiet u ∧ PtrAt p u.xp ∧ PtrAt p b.xp ∧
    stepsReadable u as u.ww p ∧ run as u = .next v

theorem Shadowed.under {as : List Atom} {x v : State} (h : Shadowed as x v) {b : Backstage} (hb : b.xp = x.xp) :
    Shadowed as (x.under b) v := by
  obtain ⟨u, b', p, rfl, hq, hpu, hpb, hr, hrun⟩ := h
  have hb' : b.xp = b'.xp := hb
  exact ⟨u, b, p, rfl, hq, hpu, hb' ▸ hpb, hr, hrun⟩

theorem OnBus.unique {a : Atom} {s t t' : State} {c c' : Chunk} (h : OnBus a s c t) (k : OnBus a s c' t') :
    c = c' ∧ t = t' := by
  cases h <;> cases k <;> exact ⟨rfl, rfl⟩

theorem Shadowed.writes {a : Atom} {as : List Atom} {x y v : State} (h : Shadowed (a :: as) x v) (hw : Writes a x y) :
    Shadowed as y v := by
  obtain ⟨u, b, p, rfl, hq, hpu, hpb, ⟨-, has⟩, hrun⟩ := h
  obtain ⟨t, ht⟩ | ⟨c, t, hbus⟩ := atom_cases a u
  · obtain rfl : t.under (b.after u.ww a) = y := Progress.go.inj ((ht.under b).symm.trans hw.atom)
    refine ⟨t, _, a.ptrAfter u.ww p, rfl, fun r hr => hq r (ht.reports ▸ hr), ?_, hpb.after u.ww ht.issues, ?_, ?_⟩
    · exact ht.xp ▸ PtrAt.after (b := backstage u) hpu u.ww ht.issues
    · exact stepsReadable_congr ht.host (ht.ww ▸ has)
    · rwa [run_go ht.atom] at hrun
  · cases hbus.issues_eq.symm.trans hw.issues

/-- A chunk on the bus can be read whatever the counter of free values, and once complete leaves the two side by side. -/
theorem Shadowed.onBus {a : Atom} {as : List Atom} {x y v : State} {c : Chunk} (h : Shadowed (a :: as) x v)
    (hbus : OnBus a x c y) :
    ∃ vs, (∀ k, chunkValues c (y.setFresh k) = .ok vs) ∧ Shadowed as (settled c vs y) v := by
  obtain ⟨u, b, p, rfl, hq, hpu, hpb, ⟨ha, has⟩, hrun⟩ := h
  obtain ⟨t, hw⟩ | ⟨c', t, hbus'⟩ := atom_cases a u
  · cases hbus.issues_eq.symm.trans hw.issues
  · obtain ⟨q, hunder⟩ := hbus'.under b
    obtain ⟨rfl, rfl⟩ := hunder.unique hbus
    have hi := hbus'.issues
    have hqt : Quiet t := fun r hr => hq r (hi.reports ▸ hr)
    have hsrc : a.readsNone = true ∨ ∃ len, a = .chunk .host len := ha.imp id fun ⟨len, _, hlen, _⟩ => ⟨len, hlen⟩
    cases hv : chunkValues c' t with
    | error f =>
      have hstuck : run (a :: as) u = .fault f := Sticks.one (hi.atom.trans (settle_stuck hv)) as
      cases hstuck.symm.trans hrun
    | ok vs =>
      refine ⟨vs, hbus'.values ha hpu hpb hv q, settled c' vs t, _, a.ptrAfter u.ww p, settled_under c' q vs t _, ?_, ?_, ?_,
        ?_, ?_⟩
      · exact fun r hr => hqt r (mem_restReports (settled_reports c' vs t ▸ hr))
      · rw [settled_xp, hbus'.xp]
        exact (PtrAt.issue (b := backstage u) hpu u.ww hbus'.issues_eq).advance hbus' hsrc
      · exact PtrAt.advance (c := c') (hpb.issue u.ww hbus'.issues_eq) hbus' hsrc
      · rw [(settled_sends c' vs t).ww, hi.ww]
        exact stepsReadable_congr (hi.host.trans (settled_sameHost c' vs t)) has
      · rwa [run_go (hi.atom.trans (settle_quiet hv hqt))] at hrun

/-- What is on the wire stays there to the end. -/
theorem Shadowed.wire {as : List Atom} {x v : State} (h : Shadowed as x v) : x.wire <+: v.wire := by
  obtain ⟨u, b, p, rfl, -, -, -, -, hrun⟩ := h
  obtain ⟨is, hwire, -⟩ := (run_moves hrun).out
  exact ⟨is, hwire.symm⟩

/-! ### The chunks of such a request (R124, R127, R128) -/

theorem hostElems_length {s : State} {w : Width} {n a k : Nat} {vs : List Word} (h : hostElems s w n a k = .ok vs) :
    vs.length = n := by
  induction n generalizing a k vs with
  | zero =>
    cases h
    rfl
  | succ n ih =>
    rw [hostElems] at h
    split at h
    · cases h
    · split at h
      · cases h
      · rename_i us hus
        cases h
        exact congrArg (· + 1) (ih hus)

/-- A chunk whose source holds its elements has as many values as elements, and at least one. -/
theorem OnBus.values_length {a : Atom} {s t : State} {c : Chunk} {vs : List Word} (h : OnBus a s c t) (hcap : a.capped = true)
    (hsup : a.supplied s.dp) (hv : chunkValues c t = .ok vs) : vs.length = c.len ∧ 1 ≤ c.len := by
  cases h with
  | command op =>
    cases hv
    exact ⟨rfl, le_refl 1⟩
  | await => cases hcap
  | chunk src len =>
    have hlen : 1 ≤ len ∧ len ≤ maxChunk := by simpa [Atom.capped] using hcap
    refine ⟨?_, hlen.1⟩
    cases src with
    | command op => cases hsup
    | bytes l =>
      cases hv
      exact (List.length_map ..).trans hsup
    | cell w =>
      cases hv
      exact List.length_replicate
    | block =>
      cases hv
      have hdp : (chunkIssued len s).dp = s.dp := (OnBus.chunk .block len s).dp.1
      have hblock : len ≤ s.dp.block.length := hsup
      rw [hdp, List.length_take]
      exact Nat.min_eq_left hblock
    | host => exact hostElems_length hv

end Sys2Proof.Machine
end

section
/-! PROOFS. A request under way whatever the bus reports, and with a chunk of it on the bus (spec 40 R122 to R128). -/

namespace Sys2Proof.Machine

/-! ### A request under way -/

/-- Before the steps `as`, `x` is a request that `s` began, beside one that ends in `v`. -/
structure Underway (s v : State) (as : List Atom) (x : State) : Prop where
  shadowed : Shadowed as x v
  request : InRequest s x
  bracket : InBracket s x
  async : x.asyncInflight = false
  steps : stepsInv as x.ww x.csOut
  supplied : stepsSupplied x.dp as
  xfers : s.xfers <+: x.xfers
  reports : x.reports <:+ s.reports

/-- Before the steps `as`, such a request has its chunk `c` on the bus, of values `vs`, and has sent `es`. -/
structure OnChunk (s v : State) (as : List Atom) (c : Chunk) (vs : List Word) (es : List Elem) (y : State) : Prop where
  values : ∀ k, chunkValues c (y.setFresh k) = .ok vs
  length : vs.length = c.len
  nonempty : 1 ≤ c.len
  sending : Sending s y es
  inflight : c.path = .async → y.asyncInflight = true
  reports : y.reports <:+ s.reports
  next : Underway s v as (settled c vs y)

theorem restReports_suffix (rs : List BusReport) : restReports rs <:+ rs := by
  cases rs with
  | nil => exact List.suffix_refl _
  | cons r rs =>
    cases r with
    | never => exact List.suffix_refl _
    | _ => exact List.suffix_cons _ _

section underway

variable {s v x y : State} {a : Atom} {as : List Atom} {c : Chunk} {vs : List Word} {es : List Elem}

theorem Underway.writes (h : Underway s v (a :: as) x) (hw : Writes a x y) : Underway s v as y where
  shadowed := h.shadowed.writes hw
  request := h.request.trans hw.inRequest
  bracket := h.bracket.opens hw.wire
  async := hw.async.trans h.async
  steps := hw.stepsInv h.steps
  supplied := hw.dp ▸ h.supplied.2
  xfers := h.xfers.trans (hw.xfers ▸ List.prefix_append _ _)
  reports := hw.reports ▸ h.reports

theorem Underway.onBus (h : Underway s v (a :: as) x) (hbus : OnBus a x c y) : ∃ vs es, OnChunk s v as c vs es y := by
  have hi := hbus.issues
  obtain ⟨vs, hvalues, hshadow⟩ := h.shadowed.onBus hbus
  obtain ⟨hcs, hsteps⟩ := hi.stepsInv h.steps
  have hcap : a.capped = true := by
    obtain ⟨-, -, hall⟩ := h.steps
    exact ((Bool.and_eq_true _ _).mp (List.all_cons ▸ hall)).1
  obtain ⟨hlength, hnonempty⟩ := hbus.values_length hcap h.supplied.1 (hvalues y.fresh)
  have hbracket := h.bracket.opens hi.wire
  obtain ⟨-, es, hwire⟩ := hbracket.resolve_left (by simp [hcs])
  have hrequest := h.request.trans hbus.inRequest
  have hflight := hbus.inflight hcap h.async
  have hsent := settled_sends c vs y
  refine ⟨vs, es, hvalues, hlength, hnonempty, ⟨hrequest, hcs, hwire⟩, ?_, hi.reports ▸ h.reports, ?_⟩
  · intro hpath
    obtain ⟨-, hasync, -⟩ | ⟨hsync, -⟩ := hflight
    · exact hasync
    · cases hpath.symm.trans hsync
  · exact
      { shadowed := hshadow
        request := hrequest.trans (settled_keeps c vs y).inRequest
        bracket := hbracket.sends hcs hsent
        async := settled_async vs (hflight.imp And.left And.right)
        steps := by rwa [hsent.ww, hsent.cs]
        supplied := by
          rw [settled_dp, hbus.dp.1, ← hbus.dp.2]
          exact h.supplied.2
        xfers := hsent.xfers ▸ h.xfers.trans (hi.xfers ▸ List.prefix_append _ _)
        reports := settled_reports c vs y ▸ hi.reports ▸ (restReports_suffix _).trans h.reports }

/-! ### A chunk that waits (R126) -/

theorem Underway.waits (h : Underway s v as x) (c : Chunk) (p : Phase) :
    Underway s v as ((reported c x).setPhase p) where
  shadowed := h.shadowed.under
    (b := { backstage x with reports := restReports x.reports, fresh := x.fresh + c.len, phase := p }) rfl
  request := { h.request with host := { h.request.host with } }
  bracket := h.bracket
  async := h.async
  steps := h.steps
  supplied := h.supplied
  xfers := h.xfers
  reports := (restReports_suffix _).trans h.reports

theorem settled_waits (c : Chunk) (vs : List Word) (y : State) (p : Phase) :
    settled c vs ((reported c y).setPhase p) = (reported c (settled c vs y)).setPhase p := by
  unfold settled
  rw [afterChunk_advance, afterChunk_advance]
  cases c.path <;>
    simp only [emit, reported, State.put, State.setPhase, State.setReports, State.setFresh, State.setAsync, State.setXp,
      reduceCtorEq, if_true, if_false]

theorem OnChunk.waits (h : OnChunk s v as c vs es y) (p : Phase) :
    OnChunk s v as c vs es ((reported c y).setPhase p) where
  values k := (chunkValues_under c c.path (s := y.setFresh k)
    (b := { backstage y with reports := restReports y.reports, fresh := k, phase := p }) rfl rfl).trans (h.values k)
  length := h.length
  nonempty := h.nonempty
  sending := h.sending.waits c p
  inflight := h.inflight
  reports := (restReports_suffix _).trans h.reports
  next := settled_waits c vs y p ▸ h.next.waits c p

end underway

end Sys2Proof.Machine
end

section
/-! PROOFS. Where a request stops, whatever the bus reports: with all its elements sent, or aborted, waiting or reset with the first
of them (spec 40 R126 to R128; 60 R263 to R267; 70 R291, R307). -/

namespace Sys2Proof.Machine

/-! ### Which elements have been sent (R121 to R123) -/

/-- Elements on the wire of an open transaction are the first of those it will have. -/
theorem elems_of_transaction {es el : List Elem} (h : WireItem.cs true :: es.map WireItem.elem <+: transaction el) :
    es <+: el := by
  cases el with
  | nil => cases List.prefix_nil.1 h
  | cons e l =>
    have hmap : es.map WireItem.elem <+: (e :: l).map WireItem.elem ++ [.cs false] :=
      (List.cons_prefix_cons.1 h).2
    obtain heq | hpre := List.prefix_concat_iff.1 hmap
    · have hmem : WireItem.cs false ∈ es.map WireItem.elem := heq ▸ List.mem_append_right _ (List.mem_singleton_self _)
      simp at hmem
    · exact (List.prefix_map_iff_of_injective fun _ _ => WireItem.elem.inj).1 hpre

/-- Where some elements of a chunk are missing, the next one comes after those that are not. -/
theorem next_elem_prefix {es el : List Elem} {vs : List Word} {f : Word → Elem} (h : es ++ vs.map f <+: el) {k : Nat}
    (hk : k < vs.length) : (es ++ (vs.take k).map f) ++ [f vs[k]] <+: el := by
  refine List.IsPrefix.trans ?_ h
  rw [List.append_assoc, List.prefix_append_right_inj, ← List.map_singleton, ← List.map_append,
    List.take_append_getElem]
  exact (List.take_prefix _ _).map f

/-! ### How a chunk ends (R126, R264, R265, R291) -/

theorem chunkEnd_cases (c : Config) (p : Path) (len : Nat) (r : BusReport) :
    chunkEnd c p len r = .whole ∨
    (∃ k ≤ len - 1, chunkEnd c p len r = .failed k ∨ chunkEnd c p len r = .timedOut k) ∨
    (chunkEnd c p len r = .held ∧ p = .async ∧ (r = .pending ∨ r = .never)) ∨
    ∃ k j, chunkEnd c p len r = .reset k ∧ r = .reset j := by
  have hcut : ∀ k, cut k len ≤ len - 1 := fun k => Nat.min_le_right ..
  unfold chunkEnd
  cases r with
  | done => exact .inl rfl
  | reset j => exact .inr (.inr (.inr ⟨_, j, rfl, rfl⟩))
  | pending => by_cases hp : p = .async <;> simp [hp]
  | never => by_cases hp : p = .async <;> simp [hp]
  | failed k => cases c.transportMayFail <;> simp [hcut]
  | timedOut k => by_cases hp : p = .async ∧ c.asyncTimeout = true <;> simp [hp, hcut]
  | failedAndTimedOut k =>
    cases c.transportMayFail <;> by_cases hp : p = .async ∧ c.asyncTimeout = true <;> simp [hp, hcut]

theorem reports_of_nextReport {s : State} {r : BusReport} (h : nextReport s = r) (hne : r ≠ .done) :
    ∃ rs, s.reports = r :: rs := by
  unfold nextReport at h
  split at h
  · exact absurd h.symm hne
  · rename_i q rs hrs
    exact ⟨rs, h ▸ hrs⟩

/-! ### Where a run stops (R126, R262, R266, R291) -/

/-- Where a run of a request of elements `el`, which `s` began, stops: ended with them all, aborted, held with fewer than `n`
reports left (unless its chunk never completes), or reset. -/
inductive StopsAt (s v : State) (el : List Elem) (acc rej : Bool) (n : Nat) (t : State) : Prop where
  | ended (h : Leaves s t el acc rej)
  | aborted (sent : List Elem) (e : Elem) (hsent : sent ++ [e] <+: el) (hdc : t.dcOut = e.dc)
      (h : Aborts s t sent .xferFail ∨ Aborts s t sent .timeout)
  | held (c : Chunk) (as : List Atom) (vs : List Word) (sent : List Elem) (hp : t.phase = .running (.await c :: as))
      (hpath : c.path = .async) (h : OnChunk s v as c vs sent t) (hn : .never ∈ s.reports ∨ t.reports.length < n)
  | reset (sent : List Elem) (k : Nat) (hk : .reset k ∈ s.reports) (hsent : sent <+: el) (h : Resets s t)
      (hwire : t.wire = s.wire ++ opening s.csOut ++ sent.map WireItem.elem ++ [.cs false])

theorem StopsAt.mono {s v t : State} {el : List Elem} {acc rej : Bool} {m n : Nat} (h : StopsAt s v el acc rej m t)
    (hmn : m ≤ n) : StopsAt s v el acc rej n t := by
  cases h with
  | ended h => exact .ended h
  | aborted sent e hsent hdc h => exact .aborted sent e hsent hdc h
  | held c as vs sent hp hpath h hn => exact .held c as vs sent hp hpath h (hn.imp id fun hlt => lt_of_lt_of_le hlt hmn)
  | reset sent k hk hsent h hwire => exact .reset sent k hk hsent h hwire

section run

variable {s v x y : State} {a : Atom} {as : List Atom} {c : Chunk} {vs : List Word} {es el : List Elem} {acc rej : Bool}
  (hl : Leaves (s.setReports []) v el acc rej)

include hl

/-- The elements sent and those of the chunk on the bus are the first of the request's. -/
theorem OnChunk.elems (hcs : s.csOut = false) (h : OnChunk s v as c vs es y) :
    es ++ vs.map (mkElem y.dcOut c.width) <+: el := by
  have hv : v.wire = s.wire ++ transaction el := hl.wire
  have hwire := h.next.shadowed.wire
  rw [(settled_sends c vs y).wire, h.sending.wire, hcs, hv, List.append_assoc, ← List.map_append, List.append_assoc,
    List.prefix_append_right_inj] at hwire
  exact elems_of_transaction hwire

/-- Where some elements of the chunk on the bus are missing, the next one is driven at its DC level (R127, R128). -/
theorem OnChunk.next_elem (hcs : s.csOut = false) (h : OnChunk s v as c vs es y) {k : Nat} (hk : k ≤ c.len - 1) :
    ∃ e : Elem, (es ++ (vs.take k).map (mkElem y.dcOut c.width)) ++ [e] <+: el ∧ e.dc = y.dcOut := by
  have hlt : k < vs.length := by
    have := h.nonempty
    rw [h.length]
    omega
  exact ⟨_, next_elem_prefix (h.elems hl hcs) hlt, mkElem_dc ..⟩

/-- A request with no step left ends with all its elements (R262). -/
theorem Underway.ends (h : Underway s v [] x) : Leaves s (complete (endRequest x)) el acc rej := by
  obtain ⟨u, b, -, rfl, -, -, -, -, hrun⟩ := h.shadowed
  obtain rfl : complete (endRequest u) = v := Host.Outcome.next.inj hrun
  obtain ⟨hwire, hrx, hcs, hc⟩ := complete_fields (endRequest u)
  obtain ⟨hwire', hrx', hcs', hc'⟩ := complete_fields (endRequest (u.under b))
  exact
    { wire := (hwire'.trans hwire.symm).trans hl.wire
      rx := (hrx'.trans hrx.symm).trans hl.rx
      outcome := (hc'.outcome.trans hc.outcome.symm).trans hl.outcome
      acc := (hc'.acc.trans hc.acc.symm).trans hl.acc
      rej := (hc'.rej.trans hc.rej.symm).trans hl.rej
      phase := hc'.phase
      ww := (hc'.ww.trans hc.ww.symm).trans hl.ww
      cs := hcs'
      async := hc'.async.trans h.async
      dc := (hc'.dc.trans hc.dc.symm).trans hl.dc
      cfg := hc'.cfg.trans h.request.host.cfg
      req := (hc'.req.trans hc.req.symm).trans hl.req
      port := (hc'.port.trans hc.port.symm).trans hl.port
      resetIn := (hc'.resetIn.trans hc.resetIn.symm).trans hl.resetIn
      mem := (hc'.mem.trans hc.mem.symm).trans hl.mem
      hostWrites := (hc'.hostWrites.trans hc.hostWrites.symm).trans hl.hostWrites
      xfers := hc'.xfers ▸ h.xfers
      quiet := fun hq r hr => hq r (h.reports.subset (hc'.reports ▸ hr)) }

/-- A run whose first step has a chunk on the bus stops, if the runs after that chunk do. -/
theorem OnChunk.run_stops (hcs : s.csOut = false) (h : OnChunk s v as c vs es y) {r : State} (hatom : atom a r = settle c y)
    (hrest : ∀ x, Underway s v as x → ∃ t, run as x = .next t ∧ StopsAt s v el acc rej x.reports.length t) :
    ∃ t, run (a :: as) r = .next t ∧ StopsAt s v el acc rej y.reports.length t := by
  have hv : chunkValues c y = .ok vs := h.values y.fresh
  obtain hend | ⟨k, hk, hend⟩ | ⟨hend, hpath, hreport⟩ | ⟨k, j, hend, hreport⟩ :=
    chunkEnd_cases y.cfg c.path c.len (nextReport y)
  · rw [run_go (hatom.trans (settle_whole hv hend))]
    obtain ⟨t, ht, hstop⟩ := hrest _ h.next
    refine ⟨t, ht, hstop.mono ?_⟩
    rw [settled_reports]
    exact restReports_length_le _
  · obtain ⟨e, hprefix, hdc⟩ := h.next_elem hl hcs hk
    obtain ⟨t, ht, htdc, habort⟩ : ∃ t, settle c y = .ended t ∧ t.dcOut = y.dcOut ∧
        (Aborts s t (es ++ (vs.take k).map (mkElem y.dcOut c.width)) .xferFail ∨
          Aborts s t (es ++ (vs.take k).map (mkElem y.dcOut c.width)) .timeout) := by
      obtain hend | hend := hend
      · obtain ⟨t, ht, hdc, habort⟩ := h.sending.settle_failed hv hend
        exact ⟨t, ht, hdc, .inl habort⟩
      · obtain ⟨t, ht, hdc, habort⟩ := h.sending.settle_timedOut hv hend
        exact ⟨t, ht, hdc, .inr habort⟩
    exact ⟨t, run_ended (hatom.trans ht) as, .aborted _ e hprefix (htdc.trans hdc.symm) habort⟩
  · have hheld := hatom.trans (settle_held hv hend)
    refine ⟨_, by rw [run, hheld], .held c as vs es rfl hpath (h.waits _) ?_⟩
    obtain hreport | hreport := hreport
    · obtain ⟨rs, hrs⟩ := reports_of_nextReport hreport (by decide)
      refine .inr ?_
      show (restReports y.reports).length < _
      rw [hrs]
      exact Nat.lt_succ_self _
    · obtain ⟨rs, hrs⟩ := reports_of_nextReport hreport (by decide)
      exact .inl (h.reports.subset (hrs ▸ List.mem_cons_self ..))
  · obtain ⟨t, ht, hreset, hwire⟩ := h.sending.settle_reset hv hend
    obtain ⟨rs, hrs⟩ := reports_of_nextReport hreport nofun
    refine ⟨t, run_ended (hatom.trans ht) as, .reset _ j (h.reports.subset (hrs ▸ List.mem_cons_self ..)) ?_ hreset hwire⟩
    refine List.IsPrefix.trans ?_ (h.elems hl hcs)
    rw [List.prefix_append_right_inj]
    exact (List.take_prefix _ _).map _

theorem Underway.run_stops (hcs : s.csOut = false) (h : Underway s v as x) :
    ∃ t, run as x = .next t ∧ StopsAt s v el acc rej x.reports.length t := by
  induction as generalizing x with
  | nil => exact ⟨_, rfl, .ended (h.ends hl)⟩
  | cons a as ih =>
    obtain ⟨y, hw⟩ | ⟨c, y, hbus⟩ := atom_cases a x
    · rw [run_go hw.atom, ← hw.reports]
      exact ih (h.writes hw)
    · obtain ⟨vs, es, hchunk⟩ := h.onBus hbus
      rw [← hbus.issues.reports]
      exact hchunk.run_stops hl hcs hbus.issues.atom fun z hz => ih hz

end run

/-! ### Requests (R126, R262 to R267, R291, R307) -/

/-- A request that can read what it reads is under way from its start, beside itself with every chunk complete. -/
theorem exec_underway (i : Instr) {s : State} (hcfg : s.cfg.ok = true) (hs : Ready s)
    (hr : ∀ k ∈ planOf i, taskReadable s k) :
    ∃ v, Leaves (s.setReports []) v ((planOf i).flatMap (taskElems s)) (planAcc s.cfg (planOf i))
      (planRej s.cfg (planOf i)) ∧ Underway s v (stepsOf i s.cfg) (begin s) := by
  have hquiet : Quiet (s.setReports []) := nofun
  obtain ⟨v, hv, hl⟩ := request_leaves (planOf i) (s := s.setReports []) (Config.fillStrategy_ok hcfg)
    ⟨hs.ww, hs.cs, hs.async⟩ hquiet fun k hk => taskReadable_congr rfl rfl rfl (hr k hk)
  have helems : taskElems (s.setReports []) = taskElems s := funext fun k => taskElems_congr rfl rfl k
  have hww : (begin s).ww = .w8 := hs.ww
  have hread : stepsReadable (begin (s.setReports [])) (stepsOf i s.cfg) (begin s).ww none := by
    rw [hww]
    exact stepsReadable_congr (s := s) (t := begin (s.setReports [])) ⟨rfl, rfl, rfl, rfl⟩ (stepsReadable_plan hr)
  refine ⟨v, helems ▸ hl, ?_⟩
  exact
    { shadowed := ⟨begin (s.setReports []), backstage (begin s), none, rfl, hquiet, nofun, nofun, hread, hv⟩
      request := (begin_keeps s).inRequest
      bracket := InBracket.refl s
      async := hs.async
      steps := ⟨hww ▸ widthAfter_stepsOf i s.cfg, chunksOpen_stepsOf i s.cfg _, capped_stepsOf i s.cfg⟩
      supplied := stepsOf_supplies i hcfg _
      xfers := List.prefix_refl _
      reports := List.suffix_refl _ }

section presented

variable {s v : State} {el : List Elem} {acc rej : Bool}

/-- A request that stops in a hold ends in as many steps as there are reports left, at most, where each chunk's report comes and
no reset does. -/
theorem StopsAt.ends (hl : Leaves (s.setReports []) v el acc rej) (hcfg : s.cfg.ok = true) (hreset : s.resetIn = none)
    (hcs : s.csOut = false) (hrs : ∀ r ∈ s.reports, r ≠ .never ∧ ∀ k, r ≠ .reset k) {n : Nat} {t : State}
    (h : StopsAt s v el acc rej n t) :
    ∃ (k : Nat) (t' : State), k ≤ n ∧ Sys2Proof.core.run k t = .next t' ∧
      (Leaves s t' el acc rej ∨ ∃ (sent : List Elem) (e : Elem), sent ++ [e] <+: el ∧ t'.dcOut = e.dc ∧
        (Aborts s t' sent .xferFail ∨ Aborts s t' sent .timeout)) := by
  induction n using Nat.strong_induction_on generalizing t with
  | _ n ih =>
    cases h with
    | ended h => exact ⟨0, t, Nat.zero_le _, rfl, .inl h⟩
    | aborted sent e hsent hdc h => exact ⟨0, t, Nat.zero_le _, rfl, .inr ⟨sent, e, hsent, hdc, h⟩⟩
    | reset sent k hk _ _ _ => exact absurd rfl ((hrs _ hk).2 k)
    | held c as vs sent hp hpath h hn =>
      have hlt : t.reports.length < n := hn.resolve_left fun hnever => (hrs _ hnever).1 rfl
      have hhost := h.sending.request.host
      obtain ⟨u, hu, hstop⟩ := h.run_stops hl hcs (a := .await c) (r := t) rfl fun x hx => hx.run_stops hl hcs
      have hstep : step t = .next u :=
        (step_of_hold (hhost.cfg ▸ hcfg) (hhost.resetIn.trans hreset) hp).trans hu
      obtain ⟨k, t', hk, hrun, hend⟩ := ih t.reports.length hlt hstop
      exact ⟨k + 1, t', by omega, (Core.run_succ (M := Sys2Proof.core) hstep k).trans hrun, hend⟩

end presented

/-- Settles O56: a request runs beside itself with every chunk complete, and what it has sent begins what that one sends. -/
theorem abortSendsPrefix : Obligations.AbortSendsPrefix := by
  refine ⟨fun i s es hcfg hs hr hes => ?_, fun i s a later es hcfg hreset hp hwf hport hs hr hrs hes ha => ?_⟩
  · subst hes
    obtain ⟨v, hl, hunder⟩ := exec_underway i hcfg hs hr
    obtain ⟨t, ht, hstop⟩ := hunder.run_stops hl hs.cs
    refine ⟨t, (exec_eq_request i s).trans ht, ?_⟩
    cases hstop with
    | ended h => exact .inl h
    | aborted sent e hsent hdc h => exact .inr (.inl ⟨sent, e, hsent, hdc, h.imp id .inl⟩)
    | held c as vs sent hp hpath h hn =>
      obtain ⟨e, hsent, hdc⟩ := h.next_elem hl hs.cs (Nat.zero_le _)
      rw [List.take_zero, List.map_nil, List.append_nil] at hsent
      have hbusy : t.busy = true := by rw [State.busy, hp]
      exact .inr (.inl ⟨sent, e, hsent, hdc.symm, .inr (.inr (h.sending.holds hbusy (h.inflight hpath)))⟩)
    | reset sent k hk hsent h hwire =>
      refine .inr (.inr ⟨sent, hsent, h, ?_⟩)
      simpa [hs.cs, opening] using hwire
  · subst ha hes
    have haccept : step s = exec i (accept (encode i) later s) := by
      simp [step, cycle, acceptNext, hcfg, hreset, hp, hport, decode_eq_ok_iff.2 ⟨rfl, hwf⟩]
    have helems : taskElems (accept (encode i) later s) = taskElems s := funext fun k => taskElems_congr rfl rfl k
    obtain ⟨v, hl, hunder⟩ := exec_underway i (s := accept (encode i) later s) hcfg ⟨hs.ww, hs.cs, hs.async⟩
      fun k hk => taskReadable_congr rfl rfl rfl (hr k hk)
    rw [helems] at hl
    obtain ⟨t, ht, hstop⟩ := hunder.run_stops hl hs.cs
    have hstep : step s = .next t := haccept.trans ((exec_eq_request i _).trans ht)
    obtain ⟨k, t', hk, hrun, hend⟩ := hstop.ends hl hcfg hreset hs.cs hrs
    exact ⟨k, t', hk, (Core.run_succ (M := Sys2Proof.core) hstep k).trans hrun, hend⟩

end Sys2Proof.Machine
end
